-- ==== Sys2Proof/Word.lean ====
section
/-! DEFINITION. The word types of the UART core block (spec 00_scope R9, 30_encoding R85). -/

namespace Sys2Proof

/-- A command word, a payload word, a UART register word or a result word (R33, R85, R99). -/
abbrev Word := BitVec 32

/-- A byte of the ring, of DMA-visible memory or of the wire (20_memory R62). -/
abbrev Byte := BitVec 8

/-- A set of the error classes {OE, BE, PE, FE}, in the order of `DR[11:8]`: bit 0 `FE`, bit 1 `PE`,
bit 2 `BE`, bit 3 `OE` (30_encoding R94, 10_state R29, R34). -/
abbrev Status := BitVec 4

end Sys2Proof
end

