-- ==== Sys2Proof/Config.lean ====
section
/-! DEFINITION. What an implementation fixes: the parameters of 00_scope R7 as plain data, and the
values the spec leaves free as constants without a body. -/

namespace Sys2Proof

/-- `P_MODE` (00_scope R7, R13): fixed for the port's life. -/
inductive Mode
  | poll | dma
deriving DecidableEq, Repr

/-- `P_FRAC64` (41_baud_line R128): what happens when DIVFRAC computes to 64. -/
inductive Frac64
  | truncate | carry
deriving DecidableEq, Repr

/-- `P_OVERRUN_MARK` (43_receive R170): whether an overrun inserts a marker. -/
inductive OverrunMark
  | off      -- the spec's value `none`
  | insert
deriving DecidableEq, Repr

/-- `RegMap` (00_scope R7, 10_state R33, 92 D2): the offset of each register in the block at `P_BASE`,
and the lowest bit of each field of R34 to R44. The widths of the fields are those of the rules. `IM`,
`RIS`, `MIS` and `ICR` share the positions of R41 to R43. -/
structure RegMap where
  /-- Offset of `DR`. -/
  offDr : Nat
  /-- Offset of `FR`. -/
  offFr : Nat
  /-- Offset of `IBRD`. -/
  offIbrd : Nat
  /-- Offset of `FBRD`. -/
  offFbrd : Nat
  /-- Offset of `LCRH`. -/
  offLcrh : Nat
  /-- Offset of `CTL`. -/
  offCtl : Nat
  /-- Offset of `IFLS`. -/
  offIfls : Nat
  /-- Offset of `IM`. -/
  offIm : Nat
  /-- Offset of `RIS`. -/
  offRis : Nat
  /-- Offset of `MIS`. -/
  offMis : Nat
  /-- Offset of `ICR`. -/
  offIcr : Nat
  /-- Offset of `DMACTL`. -/
  offDmactl : Nat
  /-- `DR.DATA`, 8 bits (R34). -/
  data : Nat
  /-- `DR.FE`. -/
  drFe : Nat
  /-- `DR.PE`. -/
  drPe : Nat
  /-- `DR.BE`. -/
  drBe : Nat
  /-- `DR.OE`. -/
  drOe : Nat
  /-- `FR.RXFE` (R35). -/
  rxfe : Nat
  /-- `FR.TXFF`. -/
  txff : Nat
  /-- `FR.TXFE`. -/
  txfe : Nat
  /-- `IBRD.DIVINT`, 16 bits (R36). -/
  divint : Nat
  /-- `FBRD.DIVFRAC`, 6 bits (R37). -/
  divfrac : Nat
  /-- `LCRH.BRK` (R38). -/
  brk : Nat
  /-- `LCRH.PEN`. -/
  pen : Nat
  /-- `LCRH.EPS`. -/
  eps : Nat
  /-- `LCRH.STP2`. -/
  stp2 : Nat
  /-- `LCRH.FEN`. -/
  fen : Nat
  /-- `LCRH.WLEN`, 2 bits. -/
  wlen : Nat
  /-- `LCRH.SPS`. -/
  sps : Nat
  /-- `CTL.UARTEN` (R39). -/
  uarten : Nat
  /-- `CTL.TXE`. -/
  txe : Nat
  /-- `CTL.RXE`. -/
  rxe : Nat
  /-- `IFLS.TXIFLSEL`, 3 bits (R40). -/
  txiflsel : Nat
  /-- `IFLS.RXIFLSEL`, 3 bits. -/
  rxiflsel : Nat
  /-- RX ready in `IM`, `RIS`, `MIS`, `ICR` (R41 to R43). -/
  rxInt : Nat
  /-- TX ready in the same registers. -/
  txInt : Nat
  /-- RX timeout in the same registers. -/
  rtInt : Nat
  /-- Framing error in `RIS`, `MIS`, `ICR`. -/
  feInt : Nat
  /-- Parity error in `RIS`, `MIS`, `ICR`. -/
  peInt : Nat
  /-- Break error in `RIS`, `MIS`, `ICR`. -/
  beInt : Nat
  /-- Overrun error in `RIS`, `MIS`, `ICR`. -/
  oeInt : Nat
  /-- `DMACTL.RXDMAE` (R44). -/
  rxdmae : Nat
  /-- `DMACTL.TXDMAE`. -/
  txdmae : Nat
deriving DecidableEq, Repr

/-- The parameters of 00_scope R7. The model takes them as an argument; since the host's step takes
one state only, they stand in it (assumption 3). No step changes them. -/
structure Params where
  /-- `P_BASE`, the address of the register block. -/
  base : Nat
  /-- `P_CLK`, the reference clock in Hz. -/
  clk : Nat
  /-- `P_MAX_BAUD`. -/
  maxBaud : Nat
  /-- `P_MODE`. -/
  mode : Mode
  /-- `P_RING_N`, the ring's capacity, a power of two. -/
  ringN : Nat
  /-- `P_LOW_WATER`. -/
  lowWater : Nat
  /-- `P_STAGE_CAP` (dma mode). -/
  stageCap : Nat
  /-- `P_S`, the capacity of one ping-pong slot (dma mode). -/
  slotCap : Nat
  /-- `P_FIFO_DEPTH`. -/
  fifoDepth : Nat
  /-- `P_RX_IFLS`, a legal RXIFLSEL code. -/
  rxIfls : Nat
  /-- `P_TX_IFLS`, a legal TXIFLSEL code. -/
  txIfls : Nat
  /-- `P_TX_CH`, present iff the mode is dma. -/
  txCh : Option Nat
  /-- `P_RX_CH`, present iff the mode is dma. -/
  rxCh : Option Nat
  /-- `P_STAGE_ADDR` (dma mode). -/
  stageAddr : Nat
  /-- `P_SLOT_A_ADDR` (dma mode). -/
  slotA : Nat
  /-- `P_SLOT_B_ADDR` (dma mode). -/
  slotB : Nat
  /-- `P_FRAC64`. -/
  frac64 : Frac64
  /-- `P_OVERRUN_MARK`. -/
  overrunMark : OverrunMark
  /-- `P_RX_POLL_MAX`; `none` is the spec's `unbounded`. -/
  pollMax : Option Nat
  /-- `RegMap`. -/
  regMap : RegMap
deriving DecidableEq, Repr

/-- The host's answer to the `n`-th draw when it is `HandleBreak()` (43_receive R171): free. -/
opaque Config.handleBreak : Nat → Bool

/-- The byte on the wire while the active integer divisor is 0 (20_memory R76): free. -/
opaque Config.wireByte : Nat → Byte

/-- Whether entry `i` of a FIFO survives a fall of `FEN`, for the `n`-th draw: `keepTx n i`,
`keepRx n i` (20_memory R65): free. -/
opaque Config.keepTx : Nat → Nat → Bool

/-- See `Config.keepTx`; this one is for the receive FIFO. -/
opaque Config.keepRx : Nat → Nat → Bool

/-- What a read of `DR` returns while the receive FIFO is empty (20_memory R64): free. -/
opaque Config.emptyDr : Nat → Word

/-- What reserved register bits read as (20_memory R67): free. -/
opaque Config.reservedBits : Nat → Word

/-- What a byte of DMA-visible memory reads as that nothing has written (10_state R51): free, one
value for each address. -/
opaque Config.unwrittenByte : Nat → Byte

/-- What a byte of the ring storage reads as that nothing has written (10_state R51): free. -/
opaque Config.unwrittenRing : Nat → Byte

/-- The trigger level of a reserved FIFO-level code 5 to 7 (10_state R40): free. -/
opaque Config.reservedLevel : Nat → Nat

end Sys2Proof
end

