-- ==== Sys2Proof/Syntax.lean ====
section
/-! DEFINITION. The commands of the block: one constructor of `Instr` for each opcode of 30_encoding
R94, with the operands of R86 to R91. -/

namespace Sys2Proof

/-- Parity of a line configuration (10_state R22, 30_encoding R89). -/
inductive Parity
  | none | odd | even | space | mark
deriving DecidableEq, Repr

/-- Word length, parity and stop bits: the `LINE_APPLY` line byte (30_encoding R89). `wlen` is in
5..8 and `stop` in 1..2 (`Instr.wf` checks both). -/
structure LineFormat where
  wlen : Nat
  parity : Parity
  stop : Nat
deriving DecidableEq, Repr

/-- The policy byte of `LINE_APPLY` and `MASK_CALC` (30_encoding R90). -/
structure Policy where
  ignPar : Bool
  ignBrk : Bool
  chkPar : Bool
  rptBrk : Bool
deriving DecidableEq, Repr

/-- The 23 commands of 30_encoding R94. -/
inductive Instr
  /-- BAUD_CALC: clock `c` in Hz and requested baud `b`. -/
  | baudCalc (c b : Word)
  /-- MASK_CALC: the policy flags. -/
  | maskCalc (policy : Policy)
  /-- LINE_APPLY: line format, policy flags, requested baud. -/
  | lineApply (line : LineFormat) (policy : Policy) (baud : Word)
  /-- WRITE: the bytes, at most 2^32 - 1 of them. -/
  | write (data : List Byte)
  /-- SET_BREAK. -/
  | setBreak (on : Bool)
  /-- QUERY_TX_EMPTY. -/
  | queryTxEmpty
  /-- STARTUP. -/
  | startup
  /-- SHUTDOWN. -/
  | shutdown
  /-- SET_TTY_STOPPED. -/
  | setTtyStopped (on : Bool)
  /-- TX_KICK. -/
  | txKick
  /-- TX_STOP. -/
  | txStop
  /-- RB_TRY_ENQUEUE: the byte. -/
  | rbTryEnqueue (b : Byte)
  /-- RB_DEQUEUE_UP_TO: at most `n` bytes. -/
  | rbDequeueUpTo (n : Word)
  /-- RB_PENDING_COUNT. -/
  | rbPendingCount
  /-- RB_IS_EMPTY. -/
  | rbIsEmpty
  /-- IRQ_DISPATCH. -/
  | irqDispatch
  /-- TX_DMA_DONE. -/
  | txDmaDone
  /-- RX_POLL_EVENT. -/
  | rxPollEvent
  /-- RX_DMA_EVENT. -/
  | rxDmaEvent
  /-- RX_TASK_COPY. -/
  | rxTaskCopy
  /-- RX_TASK_FINISH. -/
  | rxTaskFinish
  /-- RX_CLASSIFY: a status. -/
  | rxClassify (st : Status)
  /-- RX_FLAG: a status. -/
  | rxFlag (st : Status)
deriving DecidableEq, Repr

/-- Who issues a command (30_encoding R92): an agent of 00_scope R6, or `internal`: another
operation's body performs it (R93). -/
inductive Issuer
  | host | irq | task | internal
deriving DecidableEq, Repr

/-- Why a command word is refused (60_exceptions R211). -/
inductive RefuseReason
  /-- An opcode not in the map. -/
  | illegalOp
  /-- A nonzero reserved bit, a parity code 5 to 7, or nonzero WRITE padding. -/
  | reservedField
  /-- Payload words missing at the end of the stream. -/
  | truncated
  /-- An opcode the issuing agent may not issue. -/
  | wrongIssuer
  /-- An opcode not defined in this `P_MODE`. -/
  | wrongMode
deriving DecidableEq, Repr

end Sys2Proof
end

