-- ==== Sys2Proof/WellFormed.lean ====
section
/-! DEFINITION. Which terms of `Instr` are commands: the operand ranges of 30_encoding R86 and R89. -/

namespace Sys2Proof

/-- `wlen` is in 5..8 and `stop` is 1 or 2 (30_encoding R89). -/
def LineFormat.wf (l : LineFormat) : Bool :=
  (5 ≤ l.wlen && l.wlen ≤ 8) && (l.stop == 1 || l.stop == 2)

/-- A command the encoding can spell: the line format is in range (R89), and the byte count of a
WRITE fits its payload word (R86). Every other operand is in range by its type. -/
def Instr.wf : Instr → Bool
  | .lineApply line _ _ => line.wf
  | .write data => data.length < 2 ^ 32
  | .baudCalc _ _ => true
  | .maskCalc _ => true
  | .setBreak _ => true
  | .queryTxEmpty => true
  | .startup => true
  | .shutdown => true
  | .setTtyStopped _ => true
  | .txKick => true
  | .txStop => true
  | .rbTryEnqueue _ => true
  | .rbDequeueUpTo _ => true
  | .rbPendingCount => true
  | .rbIsEmpty => true
  | .irqDispatch => true
  | .txDmaDone => true
  | .rxPollEvent => true
  | .rxDmaEvent => true
  | .rxTaskCopy => true
  | .rxTaskFinish => true
  | .rxClassify _ => true
  | .rxFlag _ => true

end Sys2Proof
end

