-- ==== Sys2Proof/Decode.lean ====
section
/-! DEFINITION. The command decoder and encoder: 30_encoding R85 to R96, with the order of checks of
60_exceptions R218. -/

namespace Sys2Proof

/-! ### The opcode map (R94) -/

/-- The 23 opcodes of the map. -/
inductive Opcode
  | baudCalc | maskCalc | lineApply | write | setBreak | queryTxEmpty | startup | shutdown
  | setTtyStopped | txKick | txStop | rbTryEnqueue | rbDequeueUpTo | rbPendingCount | rbIsEmpty
  | irqDispatch | txDmaDone | rxPollEvent | rxDmaEvent | rxTaskCopy | rxTaskFinish | rxClassify
  | rxFlag
deriving DecidableEq, Repr

/-- The `OP` byte of an opcode (R94). -/
def opcodeByte : Opcode → Byte
  | .baudCalc => 0x01 | .maskCalc => 0x02 | .lineApply => 0x03 | .write => 0x04
  | .setBreak => 0x05 | .queryTxEmpty => 0x06 | .startup => 0x07 | .shutdown => 0x08
  | .setTtyStopped => 0x09 | .txKick => 0x0A | .txStop => 0x0B
  | .rbTryEnqueue => 0x10 | .rbDequeueUpTo => 0x11 | .rbPendingCount => 0x12 | .rbIsEmpty => 0x13
  | .irqDispatch => 0x20 | .txDmaDone => 0x21 | .rxPollEvent => 0x22 | .rxDmaEvent => 0x23
  | .rxTaskCopy => 0x24 | .rxTaskFinish => 0x25 | .rxClassify => 0x26 | .rxFlag => 0x27

/-- Every opcode, in the order of the map. -/
def allOpcodes : List Opcode :=
  [.baudCalc, .maskCalc, .lineApply, .write, .setBreak, .queryTxEmpty, .startup, .shutdown,
   .setTtyStopped, .txKick, .txStop, .rbTryEnqueue, .rbDequeueUpTo, .rbPendingCount, .rbIsEmpty,
   .irqDispatch, .txDmaDone, .rxPollEvent, .rxDmaEvent, .rxTaskCopy, .rxTaskFinish, .rxClassify,
   .rxFlag]

/-- The opcode an `OP` byte stands for; none for a byte outside the map (R95). -/
def opcodeOf (b : Byte) : Option Opcode :=
  allOpcodes.find? (fun o => opcodeByte o == b)

/-- Whether an agent is in an opcode's issuer set (R92, R93). -/
def mayIssue : Issuer → Opcode → Bool
  | .host, .baudCalc | .host, .maskCalc | .host, .lineApply | .host, .write | .host, .setBreak
  | .host, .queryTxEmpty | .host, .startup | .host, .shutdown | .host, .setTtyStopped
  | .host, .txKick | .host, .txStop | .host, .rbTryEnqueue | .host, .rbPendingCount
  | .host, .rbIsEmpty => true
  | .irq, .irqDispatch => true
  | .task, .rxDmaEvent | .task, .rxTaskCopy | .task, .rxTaskFinish => true
  | .internal, .baudCalc | .internal, .maskCalc | .internal, .txKick | .internal, .rbTryEnqueue
  | .internal, .rbDequeueUpTo | .internal, .rbPendingCount | .internal, .rbIsEmpty
  | .internal, .txDmaDone | .internal, .rxPollEvent | .internal, .rxDmaEvent
  | .internal, .rxClassify | .internal, .rxFlag => true
  | _, _ => false

/-- The mode an opcode is bound to, if it is not defined in both (R94, column `mode`). -/
def modeOf : Opcode → Option Mode
  | .txDmaDone | .rxDmaEvent | .rxTaskCopy | .rxTaskFinish => some .dma
  | .rxPollEvent | .rxClassify | .rxFlag => some .poll
  | _ => none

/-- Whether an opcode is defined in a mode (R94). -/
def definedIn (m : Mode) (o : Opcode) : Bool :=
  match modeOf o with
  | some m' => m == m'
  | none => true

/-- The opcode of a command. -/
def opcodeFor : Instr → Opcode
  | .baudCalc _ _ => .baudCalc | .maskCalc _ => .maskCalc | .lineApply _ _ _ => .lineApply
  | .write _ => .write | .setBreak _ => .setBreak | .queryTxEmpty => .queryTxEmpty
  | .startup => .startup | .shutdown => .shutdown | .setTtyStopped _ => .setTtyStopped
  | .txKick => .txKick | .txStop => .txStop | .rbTryEnqueue _ => .rbTryEnqueue
  | .rbDequeueUpTo _ => .rbDequeueUpTo | .rbPendingCount => .rbPendingCount
  | .rbIsEmpty => .rbIsEmpty | .irqDispatch => .irqDispatch | .txDmaDone => .txDmaDone
  | .rxPollEvent => .rxPollEvent | .rxDmaEvent => .rxDmaEvent | .rxTaskCopy => .rxTaskCopy
  | .rxTaskFinish => .rxTaskFinish | .rxClassify _ => .rxClassify | .rxFlag _ => .rxFlag

/-! ### Fields of the command word (R85, R88 to R91) -/

/-- `OP = w0[7:0]`. -/
def fieldOp (w : Word) : Byte := w.extractLsb' 0 8

/-- `A = w0[15:8]`. -/
def fieldA (w : Word) : Byte := w.extractLsb' 8 8

/-- `B = w0[23:16]`. -/
def fieldB (w : Word) : Byte := w.extractLsb' 16 8

/-- A command word from its fields, `RSV = 0`. -/
def commandWord (o : Opcode) (a b : Byte) : Word :=
  (0#8 ++ b) ++ (a ++ opcodeByte o)

/-- The bits of `w0` outside `OP` that must be 0 for an opcode: `RSV`, and every bit of `A` and `B`
where the map puts 0 or R89 to R91 reserve it. -/
def reservedBits : Opcode → Word
  | .maskCalc => 0xFFF0FF00
  | .lineApply => 0xFFF0C000
  | .setBreak | .setTtyStopped => 0xFFFFFE00
  | .rbTryEnqueue => 0xFFFF0000
  | .rxClassify | .rxFlag => 0xFFFFF000
  | _ => 0xFFFFFF00

/-- Parity of a parity code; codes 5 to 7 are reserved (R89). -/
def parityOfCode (c : BitVec 3) : Option Parity :=
  match c.toNat with
  | 0 => some .none
  | 1 => some .odd
  | 2 => some .even
  | 3 => some .space
  | 4 => some .mark
  | _ => none

/-- The parity code of R89. -/
def parityCode : Parity → BitVec 3
  | .none => 0 | .odd => 1 | .even => 2 | .space => 3 | .mark => 4

/-- The line format of a line byte, none for a reserved parity code (R89). -/
def lineOfByte (a : Byte) : Option LineFormat :=
  match parityOfCode (a.extractLsb' 2 3) with
  | none => none
  | some p => some ⟨(a.extractLsb' 0 2).toNat + 5, p, if a.getLsbD 5 then 2 else 1⟩

/-- The line byte of a line format (R89). -/
def byteOfLine (l : LineFormat) : Byte :=
  (0#2 ++ BitVec.ofBool (l.stop == 2)) ++ (parityCode l.parity ++ BitVec.ofNat 2 (l.wlen - 5))

/-- The policy flags of a policy byte (R90). -/
def policyOfByte (b : Byte) : Policy :=
  ⟨b.getLsbD 0, b.getLsbD 1, b.getLsbD 2, b.getLsbD 3⟩

/-- The policy byte of policy flags (R90). -/
def byteOfPolicy (p : Policy) : Byte :=
  (0#4 ++ (BitVec.ofBool p.rptBrk ++ BitVec.ofBool p.chkPar))
    ++ (BitVec.ofBool p.ignBrk ++ BitVec.ofBool p.ignPar)

/-! ### WRITE payload (R86) -/

/-- `ceil(n / 4)` data words hold `n` bytes. -/
def dataWords (n : Nat) : Nat := (n + 3) / 4

/-- The four bytes of a data word, byte 0 in bits `[7:0]` (little-endian packing). -/
def wordBytes (w : Word) : List Byte :=
  [w.extractLsb' 0 8, w.extractLsb' 8 8, w.extractLsb' 16 8, w.extractLsb' 24 8]

/-- One data word from four bytes. -/
def bytesWord (b0 b1 b2 b3 : Byte) : Word := (b3 ++ b2) ++ (b1 ++ b0)

/-- The data words that hold a list of bytes, unused bytes 0. -/
def packBytes : List Byte → List Word
  | [] => []
  | [a] => [bytesWord a 0 0 0]
  | [a, b] => [bytesWord a b 0 0]
  | [a, b, c] => [bytesWord a b c 0]
  | a :: b :: c :: d :: more => bytesWord a b c d :: packBytes more

/-! ### The decoder -/

/-- What the decoder answers: a command and the words after it, or a refusal (60_exceptions R211). -/
inductive Decoded
  | command (i : Instr) (rest : List Word)
  | refuse (why : RefuseReason)
deriving DecidableEq, Repr

/-- A command without payload words. -/
def bare (i : Instr) (rest : List Word) : Decoded := .command i rest

/-- The operands of an opcode, once the reserved bits of `w0` are known to be 0: parity codes,
payload words, WRITE padding (R86, R89, R95). -/
def decodeOperands (o : Opcode) (w0 : Word) (rest : List Word) : Decoded :=
  match o with
  | .baudCalc =>
    match rest with
    | c :: b :: more => .command (.baudCalc c b) more
    | _ => .refuse .truncated
  | .maskCalc => bare (.maskCalc (policyOfByte (fieldB w0))) rest
  | .lineApply =>
    match lineOfByte (fieldA w0) with
    | none => .refuse .reservedField
    | some line =>
      match rest with
      | baud :: more => .command (.lineApply line (policyOfByte (fieldB w0)) baud) more
      | [] => .refuse .truncated
  | .write =>
    match rest with
    | [] => .refuse .truncated
    | n :: more =>
      if more.length < dataWords n.toNat then .refuse .truncated
      else
        let bytes := (more.take (dataWords n.toNat)).flatMap wordBytes
        if (bytes.drop n.toNat).all (· == 0) then
          .command (.write (bytes.take n.toNat)) (more.drop (dataWords n.toNat))
        else .refuse .reservedField
  | .setBreak => bare (.setBreak ((fieldA w0).getLsbD 0)) rest
  | .queryTxEmpty => bare .queryTxEmpty rest
  | .startup => bare .startup rest
  | .shutdown => bare .shutdown rest
  | .setTtyStopped => bare (.setTtyStopped ((fieldA w0).getLsbD 0)) rest
  | .txKick => bare .txKick rest
  | .txStop => bare .txStop rest
  | .rbTryEnqueue => bare (.rbTryEnqueue (fieldA w0)) rest
  | .rbDequeueUpTo =>
    match rest with
    | n :: more => .command (.rbDequeueUpTo n) more
    | [] => .refuse .truncated
  | .rbPendingCount => bare .rbPendingCount rest
  | .rbIsEmpty => bare .rbIsEmpty rest
  | .irqDispatch => bare .irqDispatch rest
  | .txDmaDone => bare .txDmaDone rest
  | .rxPollEvent => bare .rxPollEvent rest
  | .rxDmaEvent => bare .rxDmaEvent rest
  | .rxTaskCopy => bare .rxTaskCopy rest
  | .rxTaskFinish => bare .rxTaskFinish rest
  | .rxClassify => bare (.rxClassify ((fieldA w0).extractLsb' 0 4)) rest
  | .rxFlag => bare (.rxFlag ((fieldA w0).extractLsb' 0 4)) rest

/-- Reserved bits first, then the operands (R95; the order RESERVED_FIELD, TRUNCATED of R218). -/
def decodeBody (o : Opcode) (w0 : Word) (rest : List Word) : Decoded :=
  if w0 &&& reservedBits o ≠ 0 then .refuse .reservedField else decodeOperands o w0 rest

/-- The decoder without regard to who issues the command and in which mode. No words at all are a
truncated command. -/
def decode : List Word → Decoded
  | [] => .refuse .truncated
  | w0 :: rest =>
    match opcodeOf (fieldOp w0) with
    | none => .refuse .illegalOp
    | some o => decodeBody o w0 rest

/-- The decoder as an agent meets it: ILLEGAL_OP, WRONG_ISSUER, WRONG_MODE, RESERVED_FIELD,
TRUNCATED, the first that applies (60_exceptions R218). -/
def decodeFor (who : Issuer) (m : Mode) : List Word → Decoded
  | [] => .refuse .truncated
  | w0 :: rest =>
    match opcodeOf (fieldOp w0) with
    | none => .refuse .illegalOp
    | some o =>
      if mayIssue who o = false then .refuse .wrongIssuer
      else if definedIn m o = false then .refuse .wrongMode
      else decodeBody o w0 rest

/-- How many words the command at the head of a stream takes, by its opcode and, for WRITE, its
count (R86, R87). A word that is no opcode takes one word (DESIGN CHOICE, unsafe, assumption 11). -/
def commandLength : List Word → Nat
  | [] => 0
  | w0 :: rest =>
    match opcodeOf (fieldOp w0) with
    | some .baudCalc => 3
    | some .lineApply | some .rbDequeueUpTo => 2
    | some .write =>
      match rest with
      | [] => 2
      | n :: _ => 2 + dataWords n.toNat
    | _ => 1

/-! ### The encoder -/

/-- The words of a command (R85, R86, R89 to R91, R94). -/
def encode : Instr → List Word
  | .baudCalc c b => [commandWord .baudCalc 0 0, c, b]
  | .maskCalc p => [commandWord .maskCalc 0 (byteOfPolicy p)]
  | .lineApply l p baud => [commandWord .lineApply (byteOfLine l) (byteOfPolicy p), baud]
  | .write data => commandWord .write 0 0 :: BitVec.ofNat 32 data.length :: packBytes data
  | .setBreak on => [commandWord .setBreak (0#7 ++ BitVec.ofBool on) 0]
  | .queryTxEmpty => [commandWord .queryTxEmpty 0 0]
  | .startup => [commandWord .startup 0 0]
  | .shutdown => [commandWord .shutdown 0 0]
  | .setTtyStopped on => [commandWord .setTtyStopped (0#7 ++ BitVec.ofBool on) 0]
  | .txKick => [commandWord .txKick 0 0]
  | .txStop => [commandWord .txStop 0 0]
  | .rbTryEnqueue b => [commandWord .rbTryEnqueue b 0]
  | .rbDequeueUpTo n => [commandWord .rbDequeueUpTo 0 0, n]
  | .rbPendingCount => [commandWord .rbPendingCount 0 0]
  | .rbIsEmpty => [commandWord .rbIsEmpty 0 0]
  | .irqDispatch => [commandWord .irqDispatch 0 0]
  | .txDmaDone => [commandWord .txDmaDone 0 0]
  | .rxPollEvent => [commandWord .rxPollEvent 0 0]
  | .rxDmaEvent => [commandWord .rxDmaEvent 0 0]
  | .rxTaskCopy => [commandWord .rxTaskCopy 0 0]
  | .rxTaskFinish => [commandWord .rxTaskFinish 0 0]
  | .rxClassify st => [commandWord .rxClassify (0#4 ++ st) 0]
  | .rxFlag st => [commandWord .rxFlag (0#4 ++ st) 0]

/-! ### The host's view of the decoder -/

/-- The first `k` 32-bit words of a number, least significant first. -/
def wordsOfNat : Nat → Nat → List Word
  | 0, _ => []
  | k + 1, w => BitVec.ofNat 32 w :: wordsOfNat k (w / 2 ^ 32)

/-- The words of an instruction whose low `nbits` bits are `w`, with zero words after them up to
the command's length (R87). -/
def tableWords (nbits w : Nat) : List Word :=
  let ws := wordsOfNat (max 3 ((nbits + 31) / 32)) (w % 2 ^ nbits)
  let n := commandLength ws
  ws.take n ++ List.replicate (n - ws.length) 0

/-- The command the decoder reads from an instruction whose bits are `w`; none where it refuses. -/
def decodeTableWord (nbits w : Nat) : Option Instr :=
  match decode (tableWords nbits w) with
  | .command i _ => some i
  | .refuse _ => none

end Sys2Proof
end

