-- ==== Sys2Proof/Machine/Layout.lean ====
section
/-! DEFINITION. The parameter values the reset state holds: the default `RegMap` of 10_state R33 to R44,
and the common parameters of 95_test_vectors. -/

namespace Sys2Proof

/-- The default `RegMap`: the Stellaris LM3S layout of R33 to R44, a PL011 derivative (PRESUMED by the
spec itself, assumption 4). -/
def RegMap.lm3s : RegMap where
  offDr := 0x000
  offFr := 0x018
  offIbrd := 0x024
  offFbrd := 0x028
  offLcrh := 0x02C
  offCtl := 0x030
  offIfls := 0x034
  offIm := 0x038
  offRis := 0x03C
  offMis := 0x040
  offIcr := 0x044
  offDmactl := 0x048
  data := 0
  drFe := 8
  drPe := 9
  drBe := 10
  drOe := 11
  rxfe := 4
  txff := 5
  txfe := 7
  divint := 0
  divfrac := 0
  brk := 0
  pen := 1
  eps := 2
  stp2 := 3
  fen := 4
  wlen := 5
  sps := 7
  uarten := 0
  txe := 8
  rxe := 9
  txiflsel := 0
  rxiflsel := 3
  rxInt := 4
  txInt := 5
  rtInt := 6
  feInt := 7
  peInt := 8
  beInt := 9
  oeInt := 10
  rxdmae := 0
  txdmae := 1

/-- The parameters `State.reset` holds: the common parameters of 95_test_vectors with its default
`RegMap`, poll mode, and addresses of the model's choice. DESIGN CHOICE (unsafe, assumption 3). -/
def Params.common : Params where
  base := 0x4000C000
  clk := 16000000
  maxBaud := 1000000
  mode := .poll
  ringN := 16
  lowWater := 4
  stageCap := 8
  slotCap := 8
  fifoDepth := 16
  rxIfls := 2
  txIfls := 2
  txCh := none
  rxCh := none
  stageAddr := 0x20000000
  slotA := 0x20000100
  slotB := 0x20000200
  frac64 := .truncate
  overrunMark := .off
  pollMax := none
  regMap := RegMap.lm3s

end Sys2Proof
end

