-- ==== Sys2Proof/Machine/State.lean ====
section
/-! DEFINITION. The machine's state as plain data: everything 10_state gives the block, the UART and
the DMA channels, the parameters, the host's command stream, and the schedule that says which agent
moves next. -/

namespace Sys2Proof.Machine

/-- Bytes by address, in one canonical form: addresses strictly rising. An address that is not
listed holds no value of its own, so no entry can equal what an unlisted address reads as; the
operations read it as a free byte (10_state R51, assumption 5). It holds DMA-visible memory by
address (20_memory R60) and the ring storage by index (10_state R24). -/
abbrev Memory := List Host.Cell

/-- A ping-pong slot (00_scope R14). -/
inductive Slot
  | a | b
deriving DecidableEq, Repr

/-- `port.life` (10_state R21). -/
inductive Life
  | attached | running | stopped
deriving DecidableEq, Repr

/-- The LineConfiguration record of 10_state R22; `baud` is the clamped baud. -/
structure LineConfig where
  line : LineFormat
  baud : Nat
  policy : Policy
deriving DecidableEq, Repr

/-- The CommittedConfig record of 10_state R23; `lcrh` is the word written to `LCRH`, of 8 bits in the
default `RegMap` (assumption 4). -/
structure Committed where
  baud : Nat
  brdi : Nat
  divfrac : Nat
  lcrh : Word
deriving DecidableEq, Repr

/-- The next step of the deferred delivery task (10_state R27). -/
inductive Phase
  | copy | finish
deriving DecidableEq, Repr

/-- The one outstanding deferred delivery task `(X, n, phase)` (10_state R27). -/
structure Task where
  slot : Slot
  count : Nat
  phase : Phase
deriving DecidableEq, Repr

/-- The flag a delivered byte carries (10_state R31). -/
inductive Flag
  | normal | brk | parity | frame | overrun
deriving DecidableEq, Repr

/-- An output event (10_state R31). -/
inductive OutEvent
  | deliver (recs : List (Byte × Flag))
  | wakeup
deriving DecidableEq, Repr

/-- The reasons of `raise Fault(reason)` (60_exceptions R210). -/
inductive FaultReason
  /-- An operation that needs RUNNING was issued in another state. Host misuse. -/
  | notRunning
  /-- STARTUP while RUNNING. Host misuse. -/
  | alreadyRunning
  /-- BAUD_CALC or LINE_APPLY with a requested baud of 0. -/
  | baudZero
  /-- A DMA-visible range outside the staging area and the slots. Not reached. -/
  | memRange
  /-- A register access of the wrong width, unaligned, unlisted, or against its direction. Not reached. -/
  | regAccess
  /-- A `DR` write with the TX FIFO full. Not reached. -/
  | txOverfill
  /-- A start or arm of a running channel, or a bad length. Not reached. -/
  | dmaMisuse
  /-- A violation of the single-writer discipline. Not reached. -/
  | slotRace
deriving DecidableEq, Repr

/-- The block's own state: the `port` record of 10_state R20 to R32. The parameters are in `Params`,
the lock is the atomicity of an operation (R20). -/
structure Port where
  life : Life
  cfg : Option LineConfig
  committed : Option Committed
  ring : Memory
  head : Nat
  tail : Nat
  txBusy : Bool
  txLen : Nat
  rxBusy : Bool
  landing : Slot
  task : Option Task
  recheck : Bool
  cntOverrun : Word
  cntParity : Word
  cntFrame : Word
  cntBrk : Word
  cntTx : Word
  cntRx : Word
  readMask : Status
  ignoreMask : Status
  ttyStopped : Bool
  out : List OutEvent
  fault : Option FaultReason
deriving DecidableEq, Repr

/-- The UART behind its registers (10_state R45): the divisor fields, and the other registers as the
words they store, with their fields where `RegMap` puts them. -/
structure Uart where
  txf : List Byte
  rxf : List (Byte × Status)
  ibrdPend : BitVec 16
  fbrdPend : BitVec 6
  ibrdAct : BitVec 16
  fbrdAct : BitVec 6
  lcrh : Word
  ctl : Word
  ifls : Word
  im : Word
  ris : Word
  dmactl : Word
  wire : List Byte
deriving DecidableEq, Repr

/-- The transmit DMA channel (10_state R46). -/
structure TxChannel where
  run : Bool
  rem : Nat
  pos : Nat
  done : Bool
deriving DecidableEq, Repr

/-- The receive DMA channel (10_state R46). -/
structure RxChannel where
  run : Bool
  slot : Slot
  rem1 : Nat
  rem2 : Nat
  done : Bool
deriving DecidableEq, Repr

/-- One step of an environment agent (20_memory R76 to R80). A step whose condition does not hold
does nothing (assumption 14). -/
inductive EnvStep
  /-- `Uart` transmit step (R76); `told` says whether a crossing of the TX level sets `RIS.TX` at
  this step (R80, assumption 13). -/
  | uartTx (told : Bool)
  /-- `Uart` receive step (R79): byte and status arrive from the wire. -/
  | uartRx (b : Byte) (st : Status)
  /-- `DmaTx` step (R77). -/
  | dmaTx
  /-- `DmaRx` step (R78). -/
  | dmaRx
  /-- `RIS.RX` is set (R80). -/
  | raiseRx
  /-- `RIS.RT` is set (R80). -/
  | raiseRt
  /-- `RIS.TX` is set (R80). -/
  | raiseTx
  /-- The `RIS` bit of an error source is set (R80): FE, PE, BE or OE for `k` from 0 to 3. -/
  | raiseErr (k : Fin 4)
deriving DecidableEq, Repr

/-- Whose turn it is (00_scope R6). -/
inductive Turn
  /-- The host takes its next step: the next command of its stream, or the owed step of a WRITE. -/
  | host
  /-- The environment takes a step between block operations. -/
  | env (e : EnvStep)
  /-- `Irq` issues a command word (IRQ_DISPATCH is the only one it may). -/
  | irq (ws : List Word)
  /-- `Task` issues a command word (30_encoding R92). -/
  | task (ws : List Word)
  /-- An opcode is performed as another operation's body performs it, on its own: a component
  exercise, as the vectors of 95 do. No agent of R6 takes this turn (assumption 10). -/
  | internal (ws : List Word)
deriving DecidableEq, Repr

/-- What an issuer is answered (30_encoding R99, 60_exceptions R211). -/
inductive Reply
  | result (ws : List Word)
  | refused (why : RefuseReason)
deriving DecidableEq, Repr

/-- The whole machine. `turns`, `gaps`, `issuer` and `draws` are the model's own fields. -/
structure State where
  /-- The parameters of 00_scope R7; no step changes them (assumption 3). -/
  params : Params
  port : Port
  uart : Uart
  dtx : TxChannel
  drx : RxChannel
  /-- DMA-visible memory (20_memory R60). -/
  mem : Memory
  /-- The host's command words not issued yet (30_encoding R92). -/
  stream : List Word
  /-- The accepted count of a WRITE whose second step is owed (40_ringbuffer R116, assumption 8). -/
  writeOwed : Option Nat
  /-- The issuer of the operation in progress. -/
  issuer : Issuer
  /-- What the issuers were answered, oldest first (assumption 12). -/
  replies : List (Issuer × Reply)
  /-- The turns to come; with none left the host moves (assumption 2). -/
  turns : List Turn
  /-- The environment steps before each of the next primitives (20_memory R81, assumption 2). -/
  gaps : List (List EnvStep)
  /-- How many free values have been drawn (assumption 6). -/
  draws : Nat
deriving DecidableEq, Repr

/-- Why the machine stops with a fault. -/
inductive Fault
  /-- Raised by `step` when a block agent's turn comes in a state with `port.fault ≠ none`: such a
  state is terminal (60_exceptions R210). Safe: the block takes no further step there. The operation
  that raised the fault itself answered a next state with `port.fault` set. -/
  | terminal (why : FaultReason)
deriving DecidableEq, Repr

/-- Why the machine gives a step no meaning. -/
inductive Refusal
  /-- Raised by an arm of `exec` for an instruction without a meaning yet. Safe: nothing is claimed. -/
  | notModelled (mnemonic : String)
  /-- Raised by `step` for a parameter set that breaks a constraint of 00_scope R7 or R8: "the model
  is not instantiated for it". Safe: nothing is claimed of such a set. -/
  | badParameters
deriving DecidableEq, Repr

/-- The block at attach (10_state R51). -/
def Port.reset : Port where
  life := .attached
  cfg := none
  committed := none
  ring := []
  head := 0
  tail := 0
  txBusy := false
  txLen := 0
  rxBusy := false
  landing := .a
  task := none
  recheck := false
  cntOverrun := 0
  cntParity := 0
  cntFrame := 0
  cntBrk := 0
  cntTx := 0
  cntRx := 0
  readMask := 0
  ignoreMask := 0
  ttyStopped := false
  out := []
  fault := none

/-- The UART registers at attach, in the default `RegMap`: the family's reset values, which 10_state
R52 states as the default of a launch premise (PRESUMED by the spec itself, unsafe, assumption 4). -/
def Uart.reset : Uart where
  txf := []
  rxf := []
  ibrdPend := 0
  fbrdPend := 0
  ibrdAct := 0
  fbrdAct := 0
  lcrh := 0
  ctl := 0x300
  ifls := 0x12
  im := 0
  ris := 0
  dmactl := 0
  wire := []

/-- The transmit channel at attach (10_state R53); `pos` is DESIGN CHOICE (unsafe, assumption 20). -/
def TxChannel.reset : TxChannel where
  run := false
  rem := 0
  pos := 0
  done := false

/-- The receive channel at attach (10_state R53); `slot` is DESIGN CHOICE (unsafe, assumption 20). -/
def RxChannel.reset : RxChannel where
  run := false
  slot := .a
  rem1 := 0
  rem2 := 0
  done := false

/-- The machine right after attach (70_reset_and_hazards R231, R232). The parameters and the model's
own fields hold values of the model's choice (DESIGN CHOICE, assumptions 3, 17 and 19). -/
def State.reset : State where
  params := Params.common
  port := Port.reset
  uart := Uart.reset
  dtx := TxChannel.reset
  drx := RxChannel.reset
  mem := []
  stream := []
  writeOwed := none
  issuer := .host
  replies := []
  turns := []
  gaps := []
  draws := 0

end Sys2Proof.Machine
end

