-- ==== Sys2Proof/Machine/Registers.lean ====
section
/-! DEFINITION. What `RegMap` says of a register: its address, its defined fields, the words the block
builds from fields (10_state R33 to R44), and the constants of 45_port_control R202. -/

namespace Sys2Proof.Machine

/-- The UART registers of 10_state R33. -/
inductive Reg
  | dr | fr | ibrd | fbrd | lcrh | ctl | ifls | im | ris | mis | icr | dmactl
deriving DecidableEq, Repr

/-- `RegMap.off(R)` (R33). -/
def regOffset (m : RegMap) : Reg → Nat
  | .dr => m.offDr | .fr => m.offFr | .ibrd => m.offIbrd | .fbrd => m.offFbrd
  | .lcrh => m.offLcrh | .ctl => m.offCtl | .ifls => m.offIfls | .im => m.offIm
  | .ris => m.offRis | .mis => m.offMis | .icr => m.offIcr | .dmactl => m.offDmactl

/-- Every register of the block. -/
def allRegs : List Reg :=
  [.dr, .fr, .ibrd, .fbrd, .lcrh, .ctl, .ifls, .im, .ris, .mis, .icr, .dmactl]

/-- The defined fields of a register as (lowest bit, width) (R34 to R44). DESIGN CHOICE (safe,
assumption 18): of `FR`, `CTL`, `IM` and `DMACTL` only the fields the block uses count as defined. Bits
that R35, R39, R41 and R44 say exist on the part beside them (`FR.BUSY`, `FR.RXFF`, the IrDA and
loopback bits, the error masks, `DMAERR`) count as reserved: written 0, read as any value. -/
def fieldsOf (m : RegMap) : Reg → List (Nat × Nat)
  | .dr => [(m.data, 8), (m.drFe, 1), (m.drPe, 1), (m.drBe, 1), (m.drOe, 1)]
  | .fr => [(m.rxfe, 1), (m.txff, 1), (m.txfe, 1)]
  | .ibrd => [(m.divint, 16)]
  | .fbrd => [(m.divfrac, 6)]
  | .lcrh =>
    [(m.brk, 1), (m.pen, 1), (m.eps, 1), (m.stp2, 1), (m.fen, 1), (m.wlen, 2), (m.sps, 1)]
  | .ctl => [(m.uarten, 1), (m.txe, 1), (m.rxe, 1)]
  | .ifls => [(m.txiflsel, 3), (m.rxiflsel, 3)]
  | .im => [(m.rxInt, 1), (m.txInt, 1), (m.rtInt, 1)]
  | .ris | .mis | .icr =>
    [(m.rxInt, 1), (m.txInt, 1), (m.rtInt, 1), (m.feInt, 1), (m.peInt, 1), (m.beInt, 1),
     (m.oeInt, 1)]
  | .dmactl => [(m.rxdmae, 1), (m.txdmae, 1)]

/-- A word with 1 in the bits of a field. -/
def fieldMask (f : Nat × Nat) : Word := BitVec.ofNat 32 ((2 ^ f.2 - 1) * 2 ^ f.1)

/-- `RegMap.defmask(R)`: a 1 in every defined field bit of `R` (20_memory R64). -/
def definedMask (m : RegMap) (r : Reg) : Word :=
  (fieldsOf m r).foldr (fun f w => fieldMask f ||| w) 0

/-- The register an access of `width` bytes at `addr` reaches; none for another width, an unaligned
or an unlisted address (20_memory R60, R63). -/
def regAt (p : Params) (addr width : Nat) : Option Reg :=
  if width = 4 ∧ addr % 4 = 0 then allRegs.find? (fun r => p.base + regOffset p.regMap r == addr)
  else none

/-! ### Words from fields -/

/-- A field's value at its place in a word. -/
def putField {n : Nat} (low : Nat) (v : BitVec n) : Word := v.setWidth 32 <<< low

/-- A field of one bit at its place. -/
def putBit (k : Nat) (v : Bool) : Word := putField k (BitVec.ofBool v)

/-- The `RIS` bit of the error source `k` (R42, in the order of `DR[11:8]`). -/
def errInt (m : RegMap) (k : Fin 4) : Nat :=
  match k with
  | 0 => m.feInt
  | 1 => m.peInt
  | 2 => m.beInt
  | 3 => m.oeInt

/-- The `DR` word of a receive entry: the status in its four bits, the byte in `DATA` (R34, 20_memory
R64). -/
def drWord (m : RegMap) (e : Byte × Status) : Word :=
  putField m.data e.1 ||| (putBit m.drFe (e.2.getLsbD 0) ||| (putBit m.drPe (e.2.getLsbD 1)
    ||| (putBit m.drBe (e.2.getLsbD 2) ||| putBit m.drOe (e.2.getLsbD 3))))

/-- `DR.DATA` of a word. -/
def drData (m : RegMap) (w : Word) : Byte := w.extractLsb' m.data 8

/-- The status nibble of a `DR` word: bit 0 `FE`, bit 1 `PE`, bit 2 `BE`, bit 3 `OE` (R34). -/
def drStatus (m : RegMap) (w : Word) : Status :=
  (BitVec.ofBool (w.getLsbD m.drOe) ++ BitVec.ofBool (w.getLsbD m.drBe))
    ++ (BitVec.ofBool (w.getLsbD m.drPe) ++ BitVec.ofBool (w.getLsbD m.drFe))

/-! ### Constants (10_state R43, 45_port_control R202) -/

/-- `RegMap.ICR_ALL`: every defined interrupt bit. -/
def icrAll (m : RegMap) : Word := definedMask m .icr
/-- `CTL_OFF`: `TXE | RXE`. -/
def ctlOff (m : RegMap) : Word := putBit m.txe true ||| putBit m.rxe true
/-- `CTL_ON`: `UARTEN | TXE | RXE`. -/
def ctlOn (m : RegMap) : Word := putBit m.uarten true ||| ctlOff m
/-- `IM_POLL`: `RXIM | RTIM`. -/
def imPoll (m : RegMap) : Word := putBit m.rxInt true ||| putBit m.rtInt true
/-- `IM_DMA`: `RTIM`. -/
def imDma (m : RegMap) : Word := putBit m.rtInt true
/-- `DMACTL_ON`: `RXDMAE | TXDMAE`. -/
def dmactlOn (m : RegMap) : Word := putBit m.rxdmae true ||| putBit m.txdmae true
/-- `IFLS_V`: `P_RX_IFLS` in `RXIFLSEL`, `P_TX_IFLS` in `TXIFLSEL`. -/
def iflsValue (p : Params) : Word :=
  putField p.regMap.rxiflsel (BitVec.ofNat 3 p.rxIfls)
    ||| putField p.regMap.txiflsel (BitVec.ofNat 3 p.txIfls)

end Sys2Proof.Machine
end

