-- ==== Sys2Proof/Machine/Operands.lean ====
section
/-! DEFINITION. Values built from operands: single bits of a word, status sets, the line-control
byte, the error masks, the result codes, and the baud divisor (41_baud_line, 30_encoding R99). -/

namespace Sys2Proof.Machine

/-! ### Bits and status sets -/

/-- `w` with bit `k` set to `v` (a field of one bit, `R with F = v`). -/
def withBit {n : Nat} (w : BitVec n) (k : Nat) (v : Bool) : BitVec n :=
  if v then w ||| BitVec.twoPow n k else w &&& ~~~ BitVec.twoPow n k

/-- `{FE}` (30_encoding R94: bit 0). -/
def setFE : Status := 1
/-- `{PE}`. -/
def setPE : Status := 2
/-- `{BE}`. -/
def setBE : Status := 4
/-- `{OE}`. -/
def setOE : Status := 8

/-- Membership of an error class in a status: `has st setBE` is `BE ∈ st`. -/
def has (st cls : Status) : Bool := st &&& cls != 0

/-- A flag as a result word: 0 or 1 (R99). -/
def boolWord (b : Bool) : Word := if b then 1 else 0

/-- A natural as a result word, reduced mod 2^32 (00_scope R10, assumption 22). -/
def natWord (n : Nat) : Word := BitVec.ofNat 32 n

/-! ### BaudCalculator (41_baud_line R126 to R128) -/

/-- `frac64` (R128). -/
def frac64 (mode : Frac64) (brdi divfrac : Nat) : Nat × Nat :=
  match mode with
  | .truncate => (brdi, divfrac)
  | .carry => if divfrac = 64 then (brdi + 1, 0) else (brdi, divfrac)

/-- The clamped baud `B'` (R126). -/
def clampBaud (p : Params) (b : Nat) : Nat := min b p.maxBaud

/-- The divisor pair of R127 for clock `c` and a requested baud `b` that is not 0, on exact
naturals (R125). -/
def baudDivisor (p : Params) (c b : Nat) : Nat × Nat :=
  let den := clampBaud p b * 16
  let brdi := c / den
  let rem := c - den * brdi
  frac64 p.frac64 brdi ((rem * 64 + den / 2) / den)

/-! ### LineConfigurator (R131 to R135) -/

/-- `(PEN, EPS, SPS)` of a parity (R132). -/
def parityBits : Parity → Bool × Bool × Bool
  | .none => (false, false, false)
  | .odd => (true, false, false)
  | .even => (true, true, false)
  | .mark => (true, false, true)
  | .space => (true, true, true)

/-- The derived line-control word `{SPS, WLEN, FEN = 1, STP2, EPS, PEN, BRK = 0}` (R134), a byte in the
default `RegMap`. -/
def lcrhWord (m : RegMap) (l : LineFormat) : Word :=
  let (pen, eps, sps) := parityBits l.parity
  putBit m.sps sps ||| (putField m.wlen (BitVec.ofNat 2 (l.wlen - 5)) ||| (putBit m.fen true
    ||| (putBit m.stp2 (l.stop == 2) ||| (putBit m.eps eps ||| putBit m.pen pen))))

/-- The read-status and ignore-status masks of a policy (R135). -/
def policyMasks (p : Policy) : Status × Status :=
  (setOE ||| (if p.chkPar then setPE ||| setFE else 0) ||| (if p.rptBrk then setBE else 0),
   (if p.ignPar then setPE ||| setFE else 0) ||| (if p.ignBrk then setBE else 0)
     ||| (if p.ignPar && p.ignBrk then setOE else 0))

/-! ### Status decode (43_receive R166 to R170) -/

/-- The primary error class of a character (R166); the value is its result code (30_encoding R99). -/
inductive ErrClass
  | none | brk | parity | overrun | frame
deriving DecidableEq, Repr

/-- RX_CLASSIFY on the unmasked status: break > parity > overrun > frame (R166). -/
def classify (st : Status) : ErrClass :=
  if has st setBE then .brk
  else if has st setPE then .parity
  else if has st setOE then .overrun
  else if has st setFE then .frame
  else .none

/-- Result code of a class (30_encoding R99). -/
def classCode : ErrClass → Word
  | .none => 0 | .brk => 1 | .parity => 2 | .overrun => 3 | .frame => 4

/-- Break normalisation (R167): a status with `BE` loses `PE` and `FE`. -/
def normalise (st : Status) : Status :=
  if has st setBE then st &&& ~~~ (setPE ||| setFE) else st

/-- What RX_FLAG decides of a character (R168). -/
structure FlagDecision where
  flag : Flag
  discard : Bool
  om : Bool
deriving DecidableEq, Repr

/-- RX_FLAG: delivery flag, discard (R169) and overrun mark (R170) under a read mask and an ignore
mask (R168). -/
def flagOf (readMask ignoreMask st : Status) : FlagDecision :=
  let ms := st &&& readMask
  { flag := if has ms setBE then .brk else if has ms setPE then .parity
            else if has ms setFE then .frame else .normal
    discard := ms &&& ignoreMask &&& (setBE ||| setPE ||| setFE) != 0
    om := has ms setOE && !has ignoreMask setOE }

/-- Result code of a flag (30_encoding R99). The code of `overrun` is not used: RX_FLAG never
answers it. -/
def flagCode : Flag → Word
  | .normal => 0 | .brk => 1 | .parity => 2 | .frame => 3 | .overrun => 4

/-- `other(X)` (R165). -/
def otherSlot : Slot → Slot
  | .a => .b
  | .b => .a

/-- `addr(X)` (20_memory R61). -/
def slotAddr (p : Params) : Slot → Nat
  | .a => p.slotA
  | .b => p.slotB

end Sys2Proof.Machine
end

