-- ==== Sys2Proof/Machine/Flags.lean ====
section
/-! DEFINITION. Values the spec derives from the state: ring occupancy, FIFO depth and levels, the
computed registers, the interrupt line, the transmit state; and the parameter constraints. -/

namespace Sys2Proof.Machine

/-! ### Ring (10_state R24, R25, 40_ringbuffer R115) -/

/-- `pending = (head - tail) mod N` (R25), the integer difference reduced into `[0, N)` (00_scope
R10). -/
def pendingOf (p : Params) (q : Port) : Nat :=
  (q.head + (p.ringN - q.tail % p.ringN)) % p.ringN

/-- The unconsumed count of the ring. -/
def State.pending (s : State) : Nat := pendingOf s.params s.port

/-- The ring is full at `pending = N - 1` (R115). -/
def State.ringFull (s : State) : Bool := s.pending == s.params.ringN - 1

/-! ### UART (10_state R35, R40, R42) -/

/-- `LCRH.FEN`. -/
def Uart.fen (m : RegMap) (u : Uart) : Bool := u.lcrh.getLsbD m.fen

/-- `depth`: `P_FIFO_DEPTH` with `FEN = 1`, else 1 (R35). -/
def depthOf (p : Params) (u : Uart) : Nat := if u.fen p.regMap then p.fifoDepth else 1

/-- The FIFO depth in force. -/
def State.depth (s : State) : Nat := depthOf s.params s.uart

/-- `lvl(code)` in entries (R40); a reserved code has a free level (assumption 24). -/
def fifoLevel (p : Params) (code : Nat) : Nat :=
  match code with
  | 0 => p.fifoDepth / 8
  | 1 => p.fifoDepth / 4
  | 2 => p.fifoDepth / 2
  | 3 => (3 * p.fifoDepth) / 4
  | 4 => (7 * p.fifoDepth) / 8
  | c => Config.reservedLevel c

/-- `IFLS.TXIFLSEL`. -/
def State.txCode (s : State) : Nat := (s.uart.ifls.extractLsb' s.params.regMap.txiflsel 3).toNat

/-- `IFLS.RXIFLSEL`. -/
def State.rxCode (s : State) : Nat := (s.uart.ifls.extractLsb' s.params.regMap.rxiflsel 3).toNat

/-- `lvl(IFLS.TXIFLSEL)`. -/
def State.txLevel (s : State) : Nat := fifoLevel s.params s.txCode

/-- `lvl(IFLS.RXIFLSEL)`. -/
def State.rxLevel (s : State) : Nat := fifoLevel s.params s.rxCode

/-- The `FR` value at the moment of the read (R35). -/
def State.flagsValue (s : State) : Word :=
  putBit s.params.regMap.rxfe (s.uart.rxf.length == 0)
    ||| (putBit s.params.regMap.txff (s.uart.txf.length == s.depth)
      ||| putBit s.params.regMap.txfe (s.uart.txf.length == 0))

/-- `MIS = RIS & IM` (R42). -/
def State.misValue (s : State) : Word := s.uart.ris &&& s.uart.im

/-- The interrupt line: `(MIS ≠ 0) or dtx.done or drx.done` (60_exceptions R214). -/
def State.irqLine (s : State) : Bool := s.misValue != 0 || s.dtx.done || s.drx.done

/-- The transmit state is Active: `IM.TXIM` in poll mode, `tx_busy` in dma mode (10_state R47). -/
def State.txActive (s : State) : Bool :=
  match s.params.mode with
  | .poll => s.uart.im.getLsbD s.params.regMap.txInt
  | .dma => s.port.txBusy

/-- The bytes captured into the landing slot since the last arm (43_receive R175). -/
def State.captured (s : State) : Nat := s.params.slotCap - s.drx.rem1 - s.drx.rem2

/-! ### Parameter constraints (00_scope R7, R8) -/

/-- The ranges `[a, a + m)` and `[b, b + n)` share no address. -/
def disjoint (a m b n : Nat) : Bool := a + m ≤ b || b + n ≤ a

/-- The constraints on the dma parameters (R7, R8); the regions end inside the 32-bit address space
(20_memory R60). -/
def dmaParamsOk (p : Params) : Bool :=
  p.txCh.isSome && p.rxCh.isSome && 1 ≤ p.stageCap && 2 ≤ p.slotCap
    && p.stageAddr + p.stageCap ≤ 2 ^ 32 && p.slotA + p.slotCap ≤ 2 ^ 32
    && p.slotB + p.slotCap ≤ 2 ^ 32
    && disjoint p.slotA p.slotCap p.slotB p.slotCap
    && disjoint p.stageAddr p.stageCap p.slotA p.slotCap
    && disjoint p.stageAddr p.stageCap p.slotB p.slotCap

/-- No two of these ranges share a point. -/
def rangesDisjoint : List (Nat × Nat) → Bool
  | [] => true
  | f :: more => more.all (fun g => disjoint f.1 f.2 g.1 g.2) && rangesDisjoint more

/-- A layout a part can have: each register is one 32-bit word at a multiple of 4 (20_memory R63), no
two at the same place, and the fields of a register are apart and inside its word (R9). -/
def regMapOk (m : RegMap) : Bool :=
  allRegs.all (fun r => regOffset m r % 4 == 0)
    && rangesDisjoint (allRegs.map fun r => (regOffset m r, 4))
    && allRegs.all (fun r => (fieldsOf m r).all (fun f => f.1 + f.2 ≤ 32)
        && rangesDisjoint (fieldsOf m r))

/-- A well-formed parameter set (R7, R8); the dma constraints are asked in dma mode, where those
parameters exist (assumption 23). -/
def paramsOk (p : Params) : Bool :=
  [p.base % 4 == 0, regMapOk p.regMap,
   allRegs.all (fun r => p.base + regOffset p.regMap r + 4 ≤ 2 ^ 32),
   0 < p.clk, 1 ≤ p.maxBaud,
   p.ringN == 2 ^ p.ringN.log2, 2 ≤ p.ringN,
   1 ≤ p.lowWater, p.lowWater ≤ p.ringN,
   1 ≤ p.fifoDepth, p.rxIfls ≤ 4, p.txIfls ≤ 4,
   p.pollMax != some 0,
   match p.mode with
   | .poll => p.txCh.isNone && p.rxCh.isNone
   | .dma => dmaParamsOk p].all id

end Sys2Proof.Machine
end

