-- ==== Sys2Proof/Machine/Ops.lean ====
section
/-! DEFINITION. The named operations every meaning is built from: the effect type, raising a fault,
answering an issuer, memory and ring storage, output events. -/

namespace Sys2Proof.Machine

/-! ### Updates of one part of the state -/

/-- Update the `port` record. -/
def State.setPort (s : State) (f : Port → Port) : State := { s with port := f s.port }

/-- Update the UART. -/
def State.setUart (s : State) (f : Uart → Uart) : State := { s with uart := f s.uart }

/-- Update the transmit channel. -/
def State.setDtx (s : State) (f : TxChannel → TxChannel) : State := { s with dtx := f s.dtx }

/-- Update the receive channel. -/
def State.setDrx (s : State) (f : RxChannel → RxChannel) : State := { s with drx := f s.drx }

/-- Replace DMA-visible memory. -/
def State.setMem (s : State) (m : Memory) : State := { s with mem := m }

/-! ### The effect of a body, and `raise Fault` -/

/-- An operation body: it runs on a state and ends normally with a value, or by a raised fault. -/
abbrev Op (α : Type) := EStateM FaultReason State α

/-- `raise Fault(reason)` (60_exceptions R210): the one way an exceptional condition is taken. It
sets `port.fault` and ends the operation; the effects performed before it stay. It saves no address
and changes no mode, and nothing returns from it: the state is terminal. An interrupt's entry and
return save and restore nothing either (R219, R220). -/
def raiseFault {α : Type} (why : FaultReason) : Op α :=
  fun s => .error why (s.setPort fun q => { q with fault := some why })

/-- The current state. -/
def theState : Op State := fun s => .ok s s

/-- `port.f <- v`. -/
def modifyPort (f : Port → Port) : Op Unit := fun s => .ok () (s.setPort f)

/-- Update the UART. -/
def modifyUart (f : Uart → Uart) : Op Unit := fun s => .ok () (s.setUart f)

/-- Update the transmit channel. -/
def modifyDtx (f : TxChannel → TxChannel) : Op Unit := fun s => .ok () (s.setDtx f)

/-- Update the receive channel. -/
def modifyDrx (f : RxChannel → RxChannel) : Op Unit := fun s => .ok () (s.setDrx f)

/-- The number of the next free value, which is thereby used up (assumption 6). -/
def draw : Op Nat := fun s => .ok s.draws { s with draws := s.draws + 1 }

/-- The issuer receives a reply (30_encoding R99, 60_exceptions R211). -/
def State.reply (s : State) (r : Reply) : State :=
  { s with replies := s.replies ++ [(s.issuer, r)] }

/-- A whole operation as a step: its result words go to the issuer; a raised fault leaves a next
state with `port.fault` set (R210) and no reply. -/
def perform (body : Op (List Word)) (s : State) : Host.Outcome State Fault Refusal :=
  match body s with
  | .ok ws t => .next (t.reply (.result ws))
  | .error _ t => .next t

/-- An operation without a result: the empty list (R99). -/
def performUnit (body : Op Unit) (s : State) : Host.Outcome State Fault Refusal :=
  perform (do body; return []) s

/-- A step that answers nobody: the first step of WRITE, an environment step. -/
def performSilent (body : Op Unit) (s : State) : Host.Outcome State Fault Refusal :=
  match body s with
  | .ok _ t => .next t
  | .error _ t => .next t

/-- The operation needs `port.life = RUNNING` (45_port_control R208). -/
def requireRunning : Op Unit := do
  let s ← theState
  if s.port.life = .running then pure () else raiseFault .notRunning

/-! ### Memory as a canonical list -/

/-- Addresses strictly rise: the canonical form. -/
def Memory.wf : Memory → Bool
  | [] => true
  | [_] => true
  | (a, _) :: (b, y) :: more => decide (a < b) && Memory.wf ((b, y) :: more)

/-- The byte listed at an address, none if nothing has been written there. -/
def Memory.read : Memory → Nat → Option Byte
  | [], _ => none
  | (a, x) :: more, k => if a = k then some x else Memory.read more k

/-- The memory with one byte written. -/
def Memory.write : Memory → Nat → Byte → Memory
  | [], k, v => [(k, v)]
  | (a, x) :: more, k, v =>
    if k < a then (k, v) :: (a, x) :: more
    else if k = a then (k, v) :: more
    else (a, x) :: Memory.write more k v

/-- The memory with a list of bytes written from an address on. -/
def Memory.writeList : Memory → Nat → List Byte → Memory
  | m, _, [] => m
  | m, k, v :: more => Memory.writeList (Memory.write m k v) (k + 1) more

/-- A byte of DMA-visible memory; a byte nothing has written is free (10_state R51). -/
def State.memByte (s : State) (a : Nat) : Byte := (s.mem.read a).getD (Config.unwrittenByte a)

/-- The `n` bytes at addresses `a` to `a + n - 1`. -/
def State.memBytes (s : State) (a n : Nat) : List Byte :=
  (List.range n).map fun i => s.memByte (a + i)

/-- Byte `i` of the ring storage; a byte nothing has written is free (10_state R51). -/
def State.ringByte (s : State) (i : Nat) : Byte :=
  (s.port.ring.read i).getD (Config.unwrittenRing i)

/-- The `k` ring bytes from index `i` on, as one contiguous slice. -/
def State.ringBytes (s : State) (i k : Nat) : List Byte :=
  (List.range k).map fun j => s.ringByte (i + j)

/-- The whole range lies inside the staging area or inside one slot (20_memory R61); those regions
exist in dma mode only (00_scope R7). -/
def inRegion (p : Params) (a n : Nat) : Bool :=
  p.mode == .dma &&
    ((p.stageAddr ≤ a && a + n ≤ p.stageAddr + p.stageCap)
      || (p.slotA ≤ a && a + n ≤ p.slotA + p.slotCap)
      || (p.slotB ≤ a && a + n ≤ p.slotB + p.slotCap))

/-- `MemRead(a, n)` (20_memory R61). -/
def memRead (a n : Nat) : Op (List Byte) := do
  let s ← theState
  if inRegion s.params a n then pure (s.memBytes a n) else raiseFault .memRange

/-- `MemWrite(a, n, bs)` with `n` the length of `bs` (20_memory R61). -/
def memWrite (a : Nat) (bs : List Byte) : Op Unit := do
  let s ← theState
  if inRegion s.params a bs.length then fun t => .ok () (t.setMem (t.mem.writeList a bs))
  else raiseFault .memRange

/-! ### Output events and counters (10_state R28, R31) -/

/-- `Deliver(recs)`. -/
def deliver (recs : List (Byte × Flag)) : Op Unit :=
  modifyPort fun q => { q with out := q.out ++ [.deliver recs] }

/-- `Wakeup()`. -/
def wakeup : Op Unit := modifyPort fun q => { q with out := q.out ++ [.wakeup] }

/-- `Schedule(X, n)` (43_receive R180). -/
def schedule (x : Slot) (n : Nat) : Op Unit :=
  modifyPort fun q => { q with task := some ⟨x, n, .copy⟩ }

/-- `cnt_tx <- (cnt_tx + n) mod 2^32`. -/
def countTx (n : Nat) : Op Unit :=
  modifyPort fun q => { q with cntTx := q.cntTx + BitVec.ofNat 32 n }

/-- `cnt_rx <- (cnt_rx + n) mod 2^32`. -/
def countRx (n : Nat) : Op Unit :=
  modifyPort fun q => { q with cntRx := q.cntRx + BitVec.ofNat 32 n }

/-- Increment the counter of one error class (43_receive R166). -/
def countClass (c : ErrClass) : Op Unit :=
  modifyPort fun q =>
    match c with
    | .none => q
    | .brk => { q with cntBrk := q.cntBrk + 1 }
    | .parity => { q with cntParity := q.cntParity + 1 }
    | .overrun => { q with cntOverrun := q.cntOverrun + 1 }
    | .frame => { q with cntFrame := q.cntFrame + 1 }

end Sys2Proof.Machine
end

