-- ==== Sys2Proof/Machine/Environment.lean ====
section
/-! DEFINITION. The steps of the environment agents `Uart`, `DmaTx` and `DmaRx` (20_memory R76 to
R80), and the environment steps that fall between two primitives of a block operation (R81). -/

namespace Sys2Proof.Machine

/-- Set one `RIS` bit. -/
def setRis (k : Nat) : Op Unit := modifyUart fun u => { u with ris := withBit u.ris k true }

/-- `Uart` transmit step (R76). While `ibrd_act = 0` the byte on the wire is a draw. With `told`, a
removal that takes the FIFO from above the TX level to at or below it sets `RIS.TX` (R80). -/
def uartTransmit (told : Bool) : Op Unit := fun s =>
  match s.uart.txf with
  | [] => .ok () s
  | b :: rest =>
    if s.uart.ctl.getLsbD s.params.regMap.uarten && s.uart.ctl.getLsbD s.params.regMap.txe
        && !s.uart.lcrh.getLsbD s.params.regMap.brk then
      let free := s.uart.ibrdAct == 0
      let sent := if free then Config.wireByte s.draws else b
      let crossed := decide (s.txLevel < s.uart.txf.length ∧ rest.length ≤ s.txLevel)
      .ok () { s with
        uart := { s.uart with
          txf := rest
          wire := s.uart.wire ++ [sent]
          ris := if told && crossed then withBit s.uart.ris s.params.regMap.txInt true else s.uart.ris }
        draws := if free then s.draws + 1 else s.draws }
    else .ok () s

/-- `Uart` receive step (R79): the arrival enters the RX FIFO, or is lost when it is full. -/
def uartReceive (b : Byte) (st : Status) : Op Unit := fun s =>
  if s.uart.ctl.getLsbD s.params.regMap.uarten && s.uart.ctl.getLsbD s.params.regMap.rxe
      && decide (s.uart.rxf.length < s.depth) then
    .ok () (s.setUart fun u => { u with rxf := u.rxf ++ [(b, st)] })
  else .ok () s

/-- The channel after one moved byte (R77). -/
def TxChannel.afterByte (d : TxChannel) : TxChannel :=
  if d.rem = 1 then { run := false, rem := 0, pos := d.pos + 1, done := true }
  else { d with rem := d.rem - 1, pos := d.pos + 1 }

/-- `DmaTx` step (R77): one staged byte moves to the TX FIFO. The channel exists in dma mode only
(00_scope R6). -/
def dmaTxStep : Op Unit := do
  let s ← theState
  if s.params.mode = .dma ∧ s.dtx.run = true ∧ s.uart.dmactl.getLsbD s.params.regMap.txdmae = true
      ∧ 0 < s.dtx.rem ∧ s.uart.txf.length < s.depth then
    let bs ← memRead (s.params.stageAddr + s.dtx.pos) 1
    modifyUart fun u => { u with txf := u.txf ++ bs }
    modifyDtx TxChannel.afterByte
  else pure ()

/-- Where the next captured byte goes in the slot: descriptor 1 covers byte 0, descriptor 2 the
rest (R70, R78). -/
def RxChannel.nextOffset (p : Params) (d : RxChannel) : Nat :=
  if d.rem1 = 1 then 0 else p.slotCap - d.rem2

/-- The channel after one captured byte (R78). -/
def RxChannel.afterByte (d : RxChannel) : RxChannel :=
  let d' := if d.rem1 = 1 then { d with rem1 := 0 } else { d with rem2 := d.rem2 - 1 }
  if d'.rem1 = 0 ∧ d'.rem2 = 0 then { d' with run := false, done := true } else d'

/-- `DmaRx` step (R78): the first RX FIFO entry moves to the slot, its status discarded. A write to
a slot that is not the landing slot is `Fault(SLOT_RACE)` (R75, assumption 21). The channel exists
in dma mode only (00_scope R6). -/
def dmaRxStep : Op Unit := do
  let s ← theState
  match s.uart.rxf with
  | [] => pure ()
  | (b, _) :: rest =>
    if s.params.mode = .dma ∧ s.drx.run = true ∧ s.uart.dmactl.getLsbD s.params.regMap.rxdmae = true then
      if s.drx.slot ≠ s.port.landing then raiseFault .slotRace
      else
        modifyUart fun u => { u with rxf := rest }
        memWrite (slotAddr s.params s.drx.slot + s.drx.nextOffset s.params) [b]
        modifyDrx RxChannel.afterByte
    else pure ()

/-- One environment step (R76 to R80); without its condition it does nothing. -/
def envStep : EnvStep → Op Unit
  | .uartTx told => uartTransmit told
  | .uartRx b st => uartReceive b st
  | .dmaTx => dmaTxStep
  | .dmaRx => dmaRxStep
  | .raiseRx => do
    let s ← theState
    if s.rxLevel ≤ s.uart.rxf.length then setRis s.params.regMap.rxInt else pure ()
  | .raiseRt => do
    let s ← theState
    if s.uart.rxf ≠ [] ∨ (s.drx.run = true ∧ 1 ≤ s.captured) then setRis s.params.regMap.rtInt else pure ()
  | .raiseTx => do
    let s ← theState
    if s.uart.txf.length ≤ s.txLevel then setRis s.params.regMap.txInt else pure ()
  | .raiseErr k => do
    let s ← theState
    setRis (errInt s.params.regMap k)

/-- A list of environment steps, in order. -/
def envSteps : List EnvStep → Op Unit
  | [] => pure ()
  | e :: more => do
    envStep e
    envSteps more

/-- The environment steps that fall before the next primitive (R81): the head of `gaps`
(assumptions 2 and 25). -/
def gap : Op Unit := fun s =>
  match s.gaps with
  | [] => .ok () s
  | es :: more => envSteps es { s with gaps := more }

end Sys2Proof.Machine
end

