-- ==== Sys2Proof/Machine/Primitives.lean ====
section
/-! DEFINITION. The primitives of 00_scope R11 over registers and DMA channels: `RegRead`,
`RegWrite`, `rd`, and the channel contract (20_memory R64 to R73). Environment steps may fall before
each of them (R81). -/

namespace Sys2Proof.Machine

/-! ### Registers -/

/-- The defined bits of a register at the moment of the read (R64); `DR` and `ICR` have no such
value. -/
def State.regValue (s : State) : Reg → Word
  | .dr => 0
  | .fr => s.flagsValue
  | .ibrd => putField s.params.regMap.divint s.uart.ibrdPend
  | .fbrd => putField s.params.regMap.divfrac s.uart.fbrdPend
  | .lcrh => s.uart.lcrh
  | .ctl => s.uart.ctl
  | .ifls => s.uart.ifls
  | .im => s.uart.im
  | .ris => s.uart.ris
  | .mis => s.misValue
  | .icr => 0
  | .dmactl => s.uart.dmactl

/-- A read of `DR` (R64): it pops the RX FIFO and answers the entry with the other bits 0; of an empty
FIFO it returns a draw and changes nothing else. -/
def popDr : Op Word := fun s =>
  match s.uart.rxf with
  | e :: rest => .ok (drWord s.params.regMap e) (s.setUart fun u => { u with rxf := rest })
  | [] => (do let n ← draw; pure (Config.emptyDr n) : Op Word) s

/-- `RegRead(R)` as a whole word (R64): reserved bits read as any value (R67). `ICR` is write-only
(assumption 18). -/
def regRead (r : Reg) : Op Word := do
  gap
  match r with
  | .dr => popDr
  | .icr => raiseFault .regAccess
  | _ => do
    let s ← theState
    let n ← draw
    let mask := definedMask s.params.regMap r
    pure ((s.regValue r &&& mask) ||| (Config.reservedBits n &&& ~~~ mask))

/-- `rd(R) = RegRead(R) & RegMap.defmask(R)` (R64), for a register without a side effect on read:
the reserved bits are masked off, so no free value is drawn. -/
def rd (r : Reg) : Op Word := do
  gap
  let s ← theState
  pure (s.regValue r &&& definedMask s.params.regMap r)

/-- `RegRead(DR)`: pops one receive entry (R64). -/
def readDr : Op Word := do
  gap
  popDr

/-- Which entries a fall of `FEN` leaves: any sub-list of those held (R65, assumption 7). -/
def survivors {α : Type} (keep : Nat → Bool) (xs : List α) : List α :=
  (xs.zipIdx.filter fun x => keep x.2).map Prod.fst

/-- A write of `LCRH` as an update of the control registers: the defined bits are stored (R65), and
the pending divisor is latched (R66). -/
def Uart.withLcrh (m : RegMap) (v : Word) (u : Uart) : Uart :=
  { u with lcrh := v &&& definedMask m .lcrh, ibrdAct := u.ibrdPend, fbrdAct := u.fbrdPend }

/-- The store of `LCRH` (R65) with the divisor latch (R66). -/
def storeLcrh (v : Word) : Op Unit := fun s =>
  let u := s.uart
  let latched := u.withLcrh s.params.regMap v
  if u.fen s.params.regMap && !latched.fen s.params.regMap then
    .ok () { s with
      uart := { latched with
        txf := survivors (Config.keepTx s.draws) u.txf
        rxf := survivors (Config.keepRx s.draws) u.rxf }
      draws := s.draws + 1 }
  else .ok () { s with uart := latched }

/-- Update the UART by a function of the register map. -/
def modifyUartBy (f : RegMap → Uart → Uart) : Op Unit :=
  fun s => .ok () (s.setUart (f s.params.regMap))

/-- The effect of `RegWrite(R, v)` (R65), on the fields where `RegMap` puts them (assumption 4). `FR`,
`RIS` and `MIS` are read-only: a write is an access the block never makes (assumption 18). -/
def storeReg (r : Reg) (v : Word) : Op Unit :=
  match r with
  | .dr => do
    let s ← theState
    if s.uart.txf.length < s.depth then
      modifyUartBy fun m u => { u with txf := u.txf ++ [drData m v] }
    else raiseFault .txOverfill
  | .ibrd => modifyUartBy fun m u => { u with ibrdPend := v.extractLsb' m.divint 16 }
  | .fbrd => modifyUartBy fun m u => { u with fbrdPend := v.extractLsb' m.divfrac 6 }
  | .lcrh => storeLcrh v
  | .ctl => modifyUartBy fun m u => { u with ctl := v &&& definedMask m .ctl }
  | .ifls => modifyUartBy fun m u => { u with ifls := v &&& definedMask m .ifls }
  | .im => modifyUartBy fun m u => { u with im := v &&& definedMask m .im }
  | .icr => modifyUart fun u => { u with ris := u.ris &&& ~~~ v }
  | .dmactl => modifyUartBy fun m u => { u with dmactl := v &&& definedMask m .dmactl }
  | .fr => raiseFault .regAccess
  | .ris => raiseFault .regAccess
  | .mis => raiseFault .regAccess

/-- `RegWrite(R, v)` (R65). -/
def regWrite (r : Reg) (v : Word) : Op Unit := do
  gap
  storeReg r v

/-- A register read as a bus access: width, alignment and address are checked (R63). -/
def busRead (addr width : Nat) : Op Word := do
  let s ← theState
  match regAt s.params addr width with
  | some r => regRead r
  | none => raiseFault .regAccess

/-- A register write as a bus access: width, alignment and address are checked (R63). -/
def busWrite (addr width : Nat) (v : Word) : Op Unit := do
  let s ← theState
  match regAt s.params addr width with
  | some r => regWrite r v
  | none => raiseFault .regAccess

/-- `setIM(TXIM, v)`: a read-modify-write of `IM.TXIM` (42_transmit R145). -/
def setTxim (v : Bool) : Op Unit := do
  let s ← theState
  let im ← rd .im
  regWrite .im (withBit im s.params.regMap.txInt v)

/-! ### DMA channels (R69 to R73) -/

/-- `DmaStartTx(len)` (R69). -/
def dmaStartTx (len : Nat) : Op Unit := do
  gap
  let s ← theState
  if s.dtx.run = false ∧ 1 ≤ len ∧ len ≤ s.params.stageCap then
    modifyDtx fun _ => { run := true, rem := len, pos := 0, done := false }
  else raiseFault .dmaMisuse

/-- `DmaArmRx(X)` (R70). -/
def dmaArmRx (x : Slot) : Op Unit := do
  gap
  let s ← theState
  if s.drx.run = false then
    modifyDrx fun _ => { run := true, slot := x, rem1 := 1, rem2 := s.params.slotCap - 1, done := false }
  else raiseFault .dmaMisuse

/-- `DmaStop(TX)` (R71). -/
def dmaStopTx : Op Unit := do
  gap
  modifyDtx fun d => { d with run := false, done := false }

/-- `DmaStop(RX)` (R71). -/
def dmaStopRx : Op Unit := do
  gap
  modifyDrx fun d => { d with run := false, done := false }

/-- `DmaRemaining(RX, 1)` (R72). -/
def dmaRemaining1 : Op Nat := do
  gap
  let s ← theState
  pure s.drx.rem1

/-- `DmaRemaining(RX, 2)` (R72). -/
def dmaRemaining2 : Op Nat := do
  gap
  let s ← theState
  pure s.drx.rem2

/-- `DmaQueryAck(TX)` (R73). -/
def dmaQueryAckTx : Op Bool := do
  gap
  let s ← theState
  modifyDtx fun d => { d with done := false }
  pure s.dtx.done

/-- `DmaQueryAck(RX)` (R73). -/
def dmaQueryAckRx : Op Bool := do
  gap
  let s ← theState
  modifyDrx fun d => { d with done := false }
  pure s.drx.done

end Sys2Proof.Machine
end

