-- ==== Sys2Proof/Machine/BaudLine.lean ====
section
/-! DEFINITION. BaudCalculator and LineConfigurator: 41_baud_line. -/

namespace Sys2Proof.Machine

/-- BAUD_CALC (R127). -/
def baudCalc (c b : Nat) : Op (Nat × Nat) := do
  let s ← theState
  if b = 0 then raiseFault .baudZero else pure (baudDivisor s.params c b)

/-- The commit protocol up to the divisor latch: disable the UART, write both divisors, write the
line-control word (R136, R137). It answers the `CTL` value at entry. -/
def commitLine (brdi divfrac : Nat) (lcrh : Word) : Op Word := do
  let s ← theState
  let m := s.params.regMap
  let ctl0 ← rd .ctl
  regWrite .ctl (withBit ctl0 m.uarten false)
  regWrite .ibrd (putField m.divint (BitVec.ofNat 16 brdi))
  regWrite .fbrd (putField m.divfrac (BitVec.ofNat 6 divfrac))
  regWrite .lcrh lcrh
  pure ctl0

/-- LINE_APPLY (R136). -/
def lineApply (line : LineFormat) (policy : Policy) (baud : Nat) : Op (List Word) := do
  let s ← theState
  let (brdi, divfrac) ← baudCalc s.params.clk baud
  let b := clampBaud s.params baud
  let masks := policyMasks policy
  let lcrh := lcrhWord s.params.regMap line
  let ctl0 ← commitLine brdi divfrac lcrh
  regWrite .ctl ctl0
  modifyPort fun q =>
    { q with
      cfg := some ⟨line, b, policy⟩
      committed := some ⟨b, brdi, divfrac, lcrh⟩
      readMask := masks.1
      ignoreMask := masks.2 }
  pure [natWord b, natWord brdi, natWord divfrac, lcrh]

/-! ### Meanings -/

/-- BAUD_CALC (R127). -/
def execBaudCalc (c b : Word) (s : State) : Host.Outcome State Fault Refusal :=
  perform (do
    let r ← baudCalc c.toNat b.toNat
    return [natWord r.1, natWord r.2]) s

/-- MASK_CALC (R135). -/
def execMaskCalc (policy : Policy) (s : State) : Host.Outcome State Fault Refusal :=
  perform (do
    return [(policyMasks policy).1.zeroExtend 32, (policyMasks policy).2.zeroExtend 32]) s

/-- LINE_APPLY (R136). -/
def execLineApply (line : LineFormat) (policy : Policy) (baud : Word) (s : State) :
    Host.Outcome State Fault Refusal :=
  perform (lineApply line policy baud.toNat) s

end Sys2Proof.Machine
end

