-- ==== Sys2Proof/Machine/Receive.lean ====
section
/-! DEFINITION. The ReceiveEngine: 43_receive. -/

namespace Sys2Proof.Machine

/-! ### Poll mode (R166 to R173) -/

/-- The host's answer to `HandleBreak()` (R171): a draw. -/
def handleBreak : Op Bool := do
  let n ← draw
  pure (Config.handleBreak n)

/-- The records one character adds to the batch once its break, if any, is not handled (R168 to
R170). -/
def recordsOf (s : State) (ch : Byte) (st : Status) : List (Byte × Flag) :=
  let d := flagOf s.port.readMask s.port.ignoreMask st
  (if d.discard then [] else [(ch, d.flag)])
    ++ (if s.params.overrunMark = .insert ∧ d.om = true then [(0x00, .overrun)] else [])

/-- One character: count it, classify it, normalise a break, ask the host about a break, and answer
the records it adds to the batch (R172). -/
def receiveChar (ch : Byte) (st : Status) : Op (List (Byte × Flag)) := do
  countRx 1
  countClass (classify st)
  let s ← theState
  if has st setBE then
    let handled ← handleBreak
    if handled then pure [] else pure (recordsOf s ch (normalise st))
  else pure (recordsOf s ch st)

/-- The receive loop (R172): the bound `P_RX_POLL_MAX` first, then `FR.RXFE`, then `DR`. `fuel`
only makes the recursion structural (see `receivePasses`). -/
def pollLoop : Nat → Nat → List (Byte × Flag) → Op (List (Byte × Flag))
  | 0, _, batch => pure batch
  | fuel + 1, count, batch => do
    let s ← theState
    if s.params.pollMax = some count then pure batch
    else
      let fr ← rd .fr
      if fr.getLsbD s.params.regMap.rxfe then pure batch
      else
        let w ← readDr
        let recs ← receiveChar (drData s.params.regMap w) (drStatus s.params.regMap w)
        pollLoop fuel (count + 1) (batch ++ recs)

/-- How many passes the receive loop can take: one for each entry of the RX FIFO and for each
environment step that may still arrive during the operation, and the last. The schedule is finite,
so the loop ends also with `P_RX_POLL_MAX = unbounded` (R246, assumption 15). -/
def State.receivePasses (s : State) : Nat := s.uart.rxf.length + s.gaps.flatten.length + 1

/-- RX_POLL_EVENT (R172, R173). -/
def rxPollEvent : Op Unit := do
  let s ← theState
  let batch ← pollLoop s.receivePasses 0 []
  if batch ≠ [] then deliver batch else pure ()

/-! ### DMA ping-pong mode (R174 to R181) -/

/-- RX_DMA_EVENT (R174): stop, swap, count, re-arm, and schedule when bytes were captured. -/
def rxDmaEvent : Op Unit := do
  let s ← theState
  if s.port.rxBusy = true then pure ()
  else
    dmaStopRx
    let x := s.port.landing
    modifyPort fun q => { q with landing := otherSlot x }
    let r1 ← dmaRemaining1
    let r2 ← dmaRemaining2
    let n := s.params.slotCap - r1 - r2
    dmaArmRx (otherSlot x)
    if 0 < n then
      modifyPort fun q => { q with rxBusy := true }
      schedule x n
    else pure ()

/-- The re-check is owed to the Task (R181) and the port runs (45_port_control R208). -/
def State.recheckOwed (s : State) : Bool := s.port.recheck && s.port.life == .running

/-- The Task's re-check (R181). -/
def recheck : Op Unit := do
  modifyPort fun q => { q with recheck := false }
  rxDmaEvent

/-- The task whose next step is `ph`, if the Task may take it: a task in that phase, while the port
runs (30_encoding R92, 45_port_control R208). -/
def State.taskIn (s : State) (ph : Phase) : Option Task :=
  match s.port.task with
  | some k => if k.phase = ph ∧ s.port.life = .running then some k else none
  | none => none

/-- RX_TASK_COPY for the task `k` (R178): deliver the ready slot's captured bytes. -/
def taskCopy (k : Task) : Op Unit := do
  let s ← theState
  if k.slot = s.port.landing then raiseFault .slotRace
  else
    let bs ← memRead (slotAddr s.params k.slot) k.count
    deliver (bs.map fun b => (b, Flag.normal))
    modifyPort fun q => { q with task := some { k with phase := .finish } }

/-- RX_TASK_FINISH for the task `k` (R179). -/
def taskFinish (k : Task) : Op Unit := do
  countRx k.count
  modifyPort fun q => { q with rxBusy := false, task := none, recheck := true }

/-! ### Meanings -/

/-- RX_CLASSIFY (R166). -/
def execRxClassify (st : Status) (s : State) : Host.Outcome State Fault Refusal :=
  perform (do return [classCode (classify st)]) s

/-- RX_FLAG (R168). -/
def execRxFlag (st : Status) (s : State) : Host.Outcome State Fault Refusal :=
  perform (do
    let t ← theState
    let d := flagOf t.port.readMask t.port.ignoreMask st
    return [flagCode d.flag, boolWord d.discard, boolWord d.om]) s

/-- RX_POLL_EVENT (R172). -/
def execRxPollEvent (s : State) : Host.Outcome State Fault Refusal := performUnit rxPollEvent s

/-- RX_DMA_EVENT (R174). Issued by the Task it is the re-check (R181), which the Task issues only
when it is owed; otherwise nothing is issued (45_port_control R208, assumption 9). -/
def execRxDmaEvent (s : State) : Host.Outcome State Fault Refusal :=
  if s.issuer = .task then
    if s.recheckOwed then performUnit recheck s else .next s
  else performUnit rxDmaEvent s

/-- RX_TASK_COPY (R178). The Task issues it only for a task in phase COPY; otherwise nothing is
issued (30_encoding R92, 45_port_control R208, assumption 9). -/
def execRxTaskCopy (s : State) : Host.Outcome State Fault Refusal :=
  match s.taskIn .copy with
  | some k => performUnit (taskCopy k) s
  | none => .next s

/-- RX_TASK_FINISH (R179). The Task issues it only for a task in phase FINISH; otherwise nothing is
issued (30_encoding R92, 45_port_control R208, assumption 9). -/
def execRxTaskFinish (s : State) : Host.Outcome State Fault Refusal :=
  match s.taskIn .finish with
  | some k => performUnit (taskFinish k) s
  | none => .next s

end Sys2Proof.Machine
end

