-- ==== Sys2Proof/Machine/Transmit.lean ====
section
/-! DEFINITION. The RingBuffer's operation bodies and the TransmitEngine: 40_ringbuffer R111, R112
and 42_transmit. -/

namespace Sys2Proof.Machine

/-! ### Ring operations (40_ringbuffer) -/

/-- RB_TRY_ENQUEUE (R111): false when the ring is full, which overwrites nothing. -/
def ringEnqueue (b : Byte) : Op Bool := do
  requireRunning
  let s ← theState
  if s.ringFull then pure false
  else
    modifyPort fun q =>
      { q with ring := q.ring.write q.head b, head := (q.head + 1) % s.params.ringN }
    pure true

/-- The size of the slice RB_DEQUEUE_UP_TO takes: `min(n, pending, N - tail)` (R112). -/
def State.sliceLength (s : State) (n : Nat) : Nat :=
  min n (min s.pending (s.params.ringN - s.port.tail))

/-- RB_DEQUEUE_UP_TO (R112). -/
def ringDequeue (n : Nat) : Op (List Byte) := fun s =>
  .ok (s.ringBytes s.port.tail (s.sliceLength n))
    (s.setPort fun q => { q with tail := (q.tail + s.sliceLength n) % s.params.ringN })

/-! ### TX_KICK (42_transmit R147 to R151) -/

/-- The wakeup test at the end of a kick (R151). -/
def lowWaterTest : Op Unit := do
  let s ← theState
  if s.pending < s.params.lowWater then wakeup else pure ()

/-- The push loop of the poll-mode kick (R148, check order R154). Each pass that does not exit
dequeues one byte, so `pending + 1` passes reach an exit; the bound `fuel` only makes the recursion
structural. -/
def pushLoop : Nat → Op Unit
  | 0 => pure ()
  | fuel + 1 => do
    let fr ← rd .fr
    let s ← theState
    if fr.getLsbD s.params.regMap.txff then pure ()
    else
      if s.pending = 0 then pure ()
      else
        match ← ringDequeue 1 with
        | [] => pure ()
        | b :: _ =>
          regWrite .dr (putField s.params.regMap.data b)
          countTx 1
          pushLoop fuel

/-- TX_KICK in poll mode (R148). -/
def txKickPoll : Op Unit := do
  let s ← theState
  if s.pending = 0 ∨ s.port.ttyStopped = true then setTxim false
  else
    pushLoop (s.pending + 1)
    lowWaterTest
    let t ← theState
    if t.pending = 0 then setTxim false else setTxim true

/-- The run of one DMA kick: `min(pending, N - tail, P_STAGE_CAP)` (R149, R150). -/
def State.dmaRun (s : State) : Nat :=
  min s.pending (min (s.params.ringN - s.port.tail) s.params.stageCap)

/-- TX_KICK in DMA mode (R149). -/
def txKickDma : Op Unit := do
  let s ← theState
  if s.pending = 0 ∨ s.port.ttyStopped = true then pure ()
  else if s.port.txBusy = true then pure ()
  else
    let bs ← ringDequeue s.dmaRun
    memWrite s.params.stageAddr bs
    dmaStartTx bs.length
    modifyPort fun q => { q with txBusy := true, txLen := bs.length }
    lowWaterTest

/-- TX_KICK (R147). -/
def txKick : Op Unit := do
  requireRunning
  let s ← theState
  match s.params.mode with
  | .poll => txKickPoll
  | .dma => txKickDma

/-- TX_DMA_DONE (R152). -/
def txDmaDone : Op Unit := do
  let s ← theState
  if s.port.txBusy = false then pure ()
  else
    countTx s.port.txLen
    modifyPort fun q => { q with txBusy := false, txLen := 0 }
    txKick

/-- TX_STOP (R153). -/
def txStop : Op Unit := do
  requireRunning
  let s ← theState
  match s.params.mode with
  | .dma => do
    dmaStopTx
    modifyPort fun q => { q with txBusy := false, txLen := 0 }
  | .poll => setTxim false

/-! ### Meanings -/

/-- TX_KICK (42_transmit R147). -/
def execTxKick (s : State) : Host.Outcome State Fault Refusal := performUnit txKick s

/-- TX_DMA_DONE (42_transmit R152). -/
def execTxDmaDone (s : State) : Host.Outcome State Fault Refusal := performUnit txDmaDone s

/-- TX_STOP (42_transmit R153). -/
def execTxStop (s : State) : Host.Outcome State Fault Refusal := performUnit txStop s

end Sys2Proof.Machine
end

