-- ==== Sys2Proof/Machine/Interrupt.lean ====
section
/-! DEFINITION. The InterruptDispatcher: 44_dispatch. -/

namespace Sys2Proof.Machine

/-- `mis.RX = 1 or mis.RT = 1` in a `MIS` value (R195). -/
def receiveBits (m : RegMap) (mis : Word) : Bool := mis.getLsbD m.rxInt || mis.getLsbD m.rtInt

/-- Poll-mode routing of a `MIS` value, receive before transmit (R197, R199). -/
def routePoll (mis : Word) : Op Unit := do
  let s ← theState
  if receiveBits s.params.regMap mis then rxPollEvent else pure ()
  if mis.getLsbD s.params.regMap.txInt then txKick else pure ()

/-- DMA-mode routing of a `MIS` value: each channel is asked once, receive before transmit (R198,
R199). -/
def routeDma (mis : Word) : Op Unit := do
  let s ← theState
  let rxd ← dmaQueryAckRx
  if rxd || receiveBits s.params.regMap mis then rxDmaEvent else pure ()
  let txd ← dmaQueryAckTx
  if txd then txDmaDone else pure ()

/-- IRQ_DISPATCH (R196): read `MIS`, clear every source, route. -/
def irqDispatch : Op Unit := do
  let s ← theState
  let mis ← rd .mis
  regWrite .icr (icrAll s.params.regMap)
  match s.params.mode with
  | .poll => routePoll mis
  | .dma => routeDma mis

/-- IRQ_DISPATCH (R196). Outside RUNNING `Irq` issues nothing (60_exceptions R219, 45_port_control
R208, assumption 9). -/
def execIrqDispatch (s : State) : Host.Outcome State Fault Refusal :=
  if s.port.life = .running then performUnit irqDispatch s else .next s

end Sys2Proof.Machine
end

