-- ==== Sys2Proof/Machine/PortControl.lean ====
section
/-! DEFINITION. Port control: 45_port_control. -/

namespace Sys2Proof.Machine

/-- STARTUP (R203). -/
def startup : Op Unit := do
  let s ← theState
  if s.port.life = .running then raiseFault .alreadyRunning
  else
    modifyPort fun q =>
      { q with
        head := 0, tail := 0, txBusy := false, txLen := 0, rxBusy := false
        landing := .a, task := none, recheck := false }
    regWrite .im 0
    regWrite .icr (icrAll s.params.regMap)
    regWrite .ifls (iflsValue s.params)
    match s.port.committed with
    | some c => do
      let _ ← commitLine c.brdi c.divfrac c.lcrh
      pure ()
    | none => pure ()
    regWrite .ctl (ctlOn s.params.regMap)
    match s.params.mode with
    | .dma => do
      dmaArmRx .a
      regWrite .dmactl (dmactlOn s.params.regMap)
      regWrite .im (imDma s.params.regMap)
    | .poll => do
      regWrite .dmactl 0
      regWrite .im (imPoll s.params.regMap)
    modifyPort fun q => { q with life := .running }

/-- SHUTDOWN (R204). -/
def shutdown : Op Unit := do
  requireRunning
  let s ← theState
  regWrite .im 0
  regWrite .icr (icrAll s.params.regMap)
  match s.params.mode with
  | .dma => do
    dmaStopTx
    dmaStopRx
    regWrite .dmactl 0
  | .poll => pure ()
  modifyPort fun q =>
    { q with
      txBusy := false, txLen := 0, rxBusy := false
      task := none, recheck := false, landing := .a }
  regWrite .ctl (ctlOff s.params.regMap)
  let l ← rd .lcrh
  regWrite .lcrh (withBit (withBit l s.params.regMap.brk false) s.params.regMap.fen false)
  modifyPort fun q => { q with head := 0, tail := 0, life := .stopped }

/-- SET_BREAK (R205). -/
def setBreak (on : Bool) : Op Unit := do
  requireRunning
  let s ← theState
  let l ← rd .lcrh
  regWrite .lcrh (withBit l s.params.regMap.brk on)

/-! ### Meanings -/

/-- STARTUP (R203). -/
def execStartup (s : State) : Host.Outcome State Fault Refusal := performUnit startup s

/-- SHUTDOWN (R204). -/
def execShutdown (s : State) : Host.Outcome State Fault Refusal := performUnit shutdown s

/-- SET_BREAK (R205). -/
def execSetBreak (on : Bool) (s : State) : Host.Outcome State Fault Refusal :=
  performUnit (setBreak on) s

/-- QUERY_TX_EMPTY (R206). -/
def execQueryTxEmpty (s : State) : Host.Outcome State Fault Refusal :=
  perform (do
    let t ← theState
    let fr ← rd .fr
    return [boolWord (fr.getLsbD t.params.regMap.txfe)]) s

/-- SET_TTY_STOPPED (R207). -/
def execSetTtyStopped (on : Bool) (s : State) : Host.Outcome State Fault Refusal :=
  performUnit (modifyPort fun q => { q with ttyStopped := on }) s

end Sys2Proof.Machine
end

