-- ==== Sys2Proof/Machine/RingBuffer.lean ====
section
/-! DEFINITION. The meanings of the RingBuffer commands and of WRITE: 40_ringbuffer. -/

namespace Sys2Proof.Machine

/-- RB_TRY_ENQUEUE (R111). -/
def execRbTryEnqueue (b : Byte) (s : State) : Host.Outcome State Fault Refusal :=
  perform (do
    let taken ← ringEnqueue b
    return [boolWord taken]) s

/-- RB_DEQUEUE_UP_TO (R112): the count, then the bytes (30_encoding R99). R99 does not say how the bytes
fill the result's words. DESIGN CHOICE (unsafe, assumption 28): each byte has a word of its own,
zero-extended, not the packing of R86. -/
def execRbDequeueUpTo (n : Word) (s : State) : Host.Outcome State Fault Refusal :=
  perform (do
    let bs ← ringDequeue n.toNat
    return natWord bs.length :: bs.map (fun b => b.zeroExtend 32)) s

/-- RB_PENDING_COUNT (R113). -/
def execRbPendingCount (s : State) : Host.Outcome State Fault Refusal :=
  perform (do
    let t ← theState
    return [natWord t.pending]) s

/-- RB_IS_EMPTY (R114). -/
def execRbIsEmpty (s : State) : Host.Outcome State Fault Refusal :=
  perform (do
    let t ← theState
    return [boolWord (t.port.head == t.port.tail)]) s

/-- The accepting loop of WRITE (R116, step 1): how many bytes the ring took, a prefix of them. -/
def writeLoop : List Byte → Op Nat
  | [] => pure 0
  | b :: more => do
    let taken ← ringEnqueue b
    if taken = false then pure 0
    else
      let k ← writeLoop more
      pure (k + 1)

/-- WRITE, step 1 (R116): enqueue a prefix. Step 2, the kick, and the reply are owed to the host's
next turn (`finishWrite`), since other block agents may run between the two (assumption 8). -/
def execWrite (data : List Byte) (s : State) : Host.Outcome State Fault Refusal :=
  performSilent (do
    requireRunning
    let acc ← writeLoop data
    fun t => .ok () { t with writeOwed := some acc }) s

/-- WRITE, step 2 (R116): kick the TransmitEngine and answer the accepted count. -/
def finishWrite (acc : Nat) (s : State) : Host.Outcome State Fault Refusal :=
  perform (do
    txKick
    return [natWord acc]) { s with writeOwed := none }

end Sys2Proof.Machine
end

