-- ==== Sys2Proof/Machine/Dispatch.lean ====
section
/-! DEFINITION. One arm per command: the meaning each opcode of 30_encoding R94 has. -/

namespace Sys2Proof.Machine

/-- The effect of a decoded command on the machine; the decoder has checked its issuer and the mode
(assumption 26). -/
def exec (i : Instr) (s : State) : Host.Outcome State Fault Refusal :=
  match i with
  | .baudCalc c b => Sys2Proof.Machine.execBaudCalc c b s
  | .maskCalc policy => Sys2Proof.Machine.execMaskCalc policy s
  | .lineApply line policy baud => Sys2Proof.Machine.execLineApply line policy baud s
  | .write data => Sys2Proof.Machine.execWrite data s
  | .setBreak on => Sys2Proof.Machine.execSetBreak on s
  | .queryTxEmpty => Sys2Proof.Machine.execQueryTxEmpty s
  | .startup => Sys2Proof.Machine.execStartup s
  | .shutdown => Sys2Proof.Machine.execShutdown s
  | .setTtyStopped on => Sys2Proof.Machine.execSetTtyStopped on s
  | .txKick => Sys2Proof.Machine.execTxKick s
  | .txStop => Sys2Proof.Machine.execTxStop s
  | .rbTryEnqueue b => Sys2Proof.Machine.execRbTryEnqueue b s
  | .rbDequeueUpTo n => Sys2Proof.Machine.execRbDequeueUpTo n s
  | .rbPendingCount => Sys2Proof.Machine.execRbPendingCount s
  | .rbIsEmpty => Sys2Proof.Machine.execRbIsEmpty s
  | .irqDispatch => Sys2Proof.Machine.execIrqDispatch s
  | .txDmaDone => Sys2Proof.Machine.execTxDmaDone s
  | .rxPollEvent => Sys2Proof.Machine.execRxPollEvent s
  | .rxDmaEvent => Sys2Proof.Machine.execRxDmaEvent s
  | .rxTaskCopy => Sys2Proof.Machine.execRxTaskCopy s
  | .rxTaskFinish => Sys2Proof.Machine.execRxTaskFinish s
  | .rxClassify st => Sys2Proof.Machine.execRxClassify st s
  | .rxFlag st => Sys2Proof.Machine.execRxFlag st s

end Sys2Proof.Machine
end

