-- ==== Sys2Proof/Machine/Issue.lean ====
section
/-! DEFINITION. How an agent's turn comes to a command: the host's stream, the words of `Irq` and
`Task`, the decoder's refusals (30_encoding R92 to R95, 60_exceptions R211, R219). -/

namespace Sys2Proof.Machine

/-- The machine with `who` as the issuer of the operation to come. -/
def State.issuedBy (s : State) (who : Issuer) : State := { s with issuer := who }

/-- An agent other than the host issues the command its words spell: one command, words after it
are not used (assumption 11). A refusal is answered to the issuer and changes nothing else (R211). -/
def issueWords (who : Issuer) (ws : List Word) (s : State) : Host.Outcome State Fault Refusal :=
  match decodeFor who s.params.mode ws with
  | .command i _ => exec i (s.issuedBy who)
  | .refuse why => .next ((s.issuedBy who).reply (.refused why))

/-- The host's turn: the owed second step of a WRITE (40_ringbuffer R116), else the next command of
its stream. A refused command is taken off the stream and answered (R211). With no words left the
host issues nothing. -/
def hostTurn (s : State) : Host.Outcome State Fault Refusal :=
  match s.writeOwed with
  | some acc => finishWrite acc (s.issuedBy .host)
  | none =>
    match s.stream with
    | [] => .next s
    | w0 :: ws =>
      match decodeFor .host s.params.mode (w0 :: ws) with
      | .command i rest => exec i { s.issuedBy .host with stream := rest }
      | .refuse why =>
        .next (State.reply { s.issuedBy .host with
          stream := (w0 :: ws).drop (commandLength (w0 :: ws)) } (.refused why))

/-- A block agent's turn, unless the block has faulted: such a state is terminal for the block
(60_exceptions R210). -/
def blockTurn (turn : State → Host.Outcome State Fault Refusal) (s : State) :
    Host.Outcome State Fault Refusal :=
  match s.port.fault with
  | some why => .fault (.terminal why)
  | none => turn s

/-- One turn (00_scope R6). The environment may still step after a fault (60_exceptions R210). -/
def takeTurn : Turn → State → Host.Outcome State Fault Refusal
  | .host, s => blockTurn hostTurn s
  | .env e, s => performSilent (envStep e) s
  | .irq ws, s => blockTurn (issueWords .irq ws) s
  | .task ws, s => blockTurn (issueWords .task ws) s
  | .internal ws, s => blockTurn (issueWords .internal ws) s

/-- The agent a table word is issued by, so that it is issued by one that may issue it (R92). -/
def tableIssuer (o : Opcode) : Issuer :=
  if mayIssue .host o then .host
  else if mayIssue .irq o then .irq
  else if mayIssue .internal o then .internal
  else .task

/-- The turn in which an agent issues given words. -/
def turnOf (who : Issuer) (ws : List Word) : Turn :=
  match who with
  | .host => .host
  | .irq => .irq ws
  | .task => .task ws
  | .internal => .internal ws

/-- The parameters of a port in a given mode; a change to dma gives it channel identifiers, a change
to poll takes them away (00_scope R7). -/
def Params.inMode (p : Params) (m : Mode) : Params :=
  if p.mode = m then p
  else
    match m with
    | .poll => { p with mode := .poll, txCh := none, rxCh := none }
    | .dma => { p with mode := .dma, txCh := some 0, rxCh := some 1 }

/-- The agent, the mode and the words with which a table word is issued next. -/
def State.placing (s : State) (who : Issuer) (m : Mode) (ws : List Word) : State :=
  { s with
    params := Params.inMode s.params m
    stream := if who = .host then ws ++ s.stream else s.stream
    writeOwed := if who = .host then none else s.writeOwed
    turns := turnOf who ws :: s.turns }

end Sys2Proof.Machine
end

