-- ==== Sys2Proof/Machine/Step.lean ====
section
/-! DEFINITION. One step of the machine: the next turn of the schedule (00_scope R6, assumption 2),
and the placing of one command where the next step fetches it. -/

namespace Sys2Proof.Machine

/-- One step: the head of `turns` moves, the host with no turns left. A parameter set that is not
well-formed is refused (00_scope R8). -/
def step (s : State) : Host.Outcome State Fault Refusal :=
  if paramsOk s.params = false then .refused .badParameters
  else
    match s.turns with
    | [] => takeTurn .host s
    | t :: ts => takeTurn t { s with turns := ts }

/-- `s` with the instruction whose low `nbits` bits are `w` as the command the next step issues: by
an agent that may issue its opcode and in a mode that defines it (assumption 17). -/
def State.withFetchWord (s : State) (nbits w : Nat) : State :=
  let ws := tableWords nbits w
  match opcodeOf (fieldOp (ws.headD 0)) with
  | some o => s.placing (tableIssuer o) ((modeOf o).getD s.params.mode) ws
  | none => s.placing .host s.params.mode ws

end Sys2Proof.Machine
end

