-- ==== Sys2Proof/Machine/Assembly.lean ====
section
/-! DEFINITION. The assembler lines of 30_encoding R97 as token lists, and the pseudo-instructions of
R98 with their expansions. No step reads either: a program reaches the block as command words. -/

namespace Sys2Proof.Machine

/-- The mnemonic of an opcode (R94). -/
def mnemonicOf : Opcode → String
  | .baudCalc => "BAUD_CALC" | .maskCalc => "MASK_CALC" | .lineApply => "LINE_APPLY"
  | .write => "WRITE" | .setBreak => "SET_BREAK" | .queryTxEmpty => "QUERY_TX_EMPTY"
  | .startup => "STARTUP" | .shutdown => "SHUTDOWN" | .setTtyStopped => "SET_TTY_STOPPED"
  | .txKick => "TX_KICK" | .txStop => "TX_STOP" | .rbTryEnqueue => "RB_TRY_ENQUEUE"
  | .rbDequeueUpTo => "RB_DEQUEUE_UP_TO" | .rbPendingCount => "RB_PENDING_COUNT"
  | .rbIsEmpty => "RB_IS_EMPTY" | .irqDispatch => "IRQ_DISPATCH" | .txDmaDone => "TX_DMA_DONE"
  | .rxPollEvent => "RX_POLL_EVENT" | .rxDmaEvent => "RX_DMA_EVENT"
  | .rxTaskCopy => "RX_TASK_COPY" | .rxTaskFinish => "RX_TASK_FINISH"
  | .rxClassify => "RX_CLASSIFY" | .rxFlag => "RX_FLAG"

/-- The opcode a mnemonic names, if any (R94). -/
def opcodeNamed (name : String) : Option Opcode := allOpcodes.find? fun o => mnemonicOf o == name

/-- A policy flag by its name (R97). -/
inductive PolicyFlag
  | ignPar | ignBrk | chkPar | rptBrk
deriving DecidableEq, Repr

/-- An operand of an assembler line; how a number is spelled, decimal or hexadecimal, is not kept. -/
inductive AsmOperand
  | number (n : Nat)
  | parity (p : Parity)
  | flags (fs : List PolicyFlag)
  /-- `[b0, b1, ...]`. -/
  | bytes (bs : List Nat)
  /-- An ASCII string as its character codes, one byte per character. -/
  | text (codes : List Nat)
deriving DecidableEq, Repr

/-- One line: a mnemonic, as the opcode `opcodeNamed` finds for it, and its operands. -/
structure AsmLine where
  op : Opcode
  operands : List AsmOperand
deriving DecidableEq, Repr

/-- The flags that a policy sets, in the order of R97. -/
def flagsOfPolicy (p : Policy) : List PolicyFlag :=
  (if p.ignPar then [.ignPar] else []) ++ (if p.ignBrk then [.ignBrk] else [])
    ++ (if p.chkPar then [.chkPar] else []) ++ (if p.rptBrk then [.rptBrk] else [])

/-- The policy that a list of flags spells. -/
def policyOfFlags (fs : List PolicyFlag) : Policy :=
  ⟨fs.contains .ignPar, fs.contains .ignBrk, fs.contains .chkPar, fs.contains .rptBrk⟩

/-- A number as a word operand. -/
def wordOperand (n : Nat) : Option Word := if n < 2 ^ 32 then some (BitVec.ofNat 32 n) else none

/-- A number as a byte operand. -/
def byteOperand (n : Nat) : Option Byte := if n < 2 ^ 8 then some (BitVec.ofNat 8 n) else none

/-- A number as a switch operand, 0 or 1. -/
def switchOperand : Nat → Option Bool
  | 0 => some false
  | 1 => some true
  | _ => none

/-- A number as a status operand, 4 bits (R94). -/
def statusOperand (n : Nat) : Option Status := if n < 2 ^ 4 then some (BitVec.ofNat 4 n) else none

/-- A list of numbers as bytes, each below a limit. -/
def byteList (limit : Nat) (ns : List Nat) : Option (List Byte) :=
  if ns.all (· < limit) then some (ns.map (BitVec.ofNat 8)) else none

/-- LINE_APPLY from its operands. -/
def assembleLine (baud wlen : Nat) (p : Parity) (stop : Nat) (fs : List PolicyFlag) : Option Instr :=
  (wordOperand baud).map fun b => .lineApply ⟨wlen, p, stop⟩ (policyOfFlags fs) b

/-- The command a line spells (R97), with no regard to operand ranges that `Instr.wf` checks. R97
gives the internal opcodes no operand; the three that have one in R94 take it as a number
(DESIGN CHOICE, assumption 27). -/
def assembleRaw (l : AsmLine) : Option Instr :=
  match l.op, l.operands with
  | .baudCalc, [.number c, .number b] => do
    let cw ← wordOperand c
    let bw ← wordOperand b
    return .baudCalc cw bw
  | .maskCalc, [.flags fs] => some (.maskCalc (policyOfFlags fs))
  | .lineApply, [.number baud, .number wlen, .parity p, .number stop] =>
    assembleLine baud wlen p stop []
  | .lineApply, [.number baud, .number wlen, .parity p, .number stop, .flags fs] =>
    assembleLine baud wlen p stop fs
  | .write, [.bytes bs] => (byteList 256 bs).map .write
  | .write, [.text codes] => (byteList 128 codes).map .write
  | .setBreak, [.number n] => (switchOperand n).map .setBreak
  | .setTtyStopped, [.number n] => (switchOperand n).map .setTtyStopped
  | .rbTryEnqueue, [.number n] => (byteOperand n).map .rbTryEnqueue
  | .queryTxEmpty, [] => some .queryTxEmpty
  | .startup, [] => some .startup
  | .shutdown, [] => some .shutdown
  | .txKick, [] => some .txKick
  | .txStop, [] => some .txStop
  | .rbPendingCount, [] => some .rbPendingCount
  | .rbIsEmpty, [] => some .rbIsEmpty
  | .irqDispatch, [] => some .irqDispatch
  | .txDmaDone, [] => some .txDmaDone
  | .rxPollEvent, [] => some .rxPollEvent
  | .rxDmaEvent, [] => some .rxDmaEvent
  | .rxTaskCopy, [] => some .rxTaskCopy
  | .rxTaskFinish, [] => some .rxTaskFinish
  | .rbDequeueUpTo, [.number n] => (wordOperand n).map .rbDequeueUpTo
  | .rxClassify, [.number n] => (statusOperand n).map .rxClassify
  | .rxFlag, [.number n] => (statusOperand n).map .rxFlag
  | _, _ => none

/-- The well-formed command a line spells, none for any other line (R97). -/
def assemble (l : AsmLine) : Option Instr := (assembleRaw l).filter Instr.wf

/-- The line of a command (R97); WRITE in its list form, LINE_APPLY with its flags. -/
def asmLine (i : Instr) : AsmLine :=
  { op := opcodeFor i
    operands :=
      match i with
      | .baudCalc c b => [.number c.toNat, .number b.toNat]
      | .maskCalc p => [.flags (flagsOfPolicy p)]
      | .lineApply l p baud =>
        [.number baud.toNat, .number l.wlen, .parity l.parity, .number l.stop,
         .flags (flagsOfPolicy p)]
      | .write data => [.bytes (data.map (·.toNat))]
      | .setBreak on => [.number on.toNat]
      | .setTtyStopped on => [.number on.toNat]
      | .rbTryEnqueue b => [.number b.toNat]
      | .rbDequeueUpTo n => [.number n.toNat]
      | .rxClassify st => [.number st.toNat]
      | .rxFlag st => [.number st.toNat]
      | .queryTxEmpty | .startup | .shutdown | .txKick | .txStop | .rbPendingCount | .rbIsEmpty
      | .irqDispatch | .txDmaDone | .rxPollEvent | .rxDmaEvent | .rxTaskCopy | .rxTaskFinish => [] }

/-! ### Pseudo-instructions (R98) -/

/-- The pseudo-instructions of R98. -/
inductive Pseudo
  | configure (line : LineFormat) (policy : Policy) (baud : Word)
  | startTx
  | flowStop
  | flowStart
  | putChar (b : Byte)
  | charsInBuffer
  | writeRoom
  /-- `8N1 <baud>`. -/
  | eightN1 (baud : Word)
deriving DecidableEq, Repr

/-- The commands a pseudo-instruction stands for (R98). -/
def Pseudo.expand : Pseudo → List Instr
  | .configure line policy baud => [.lineApply line policy baud]
  | .startTx => [.txKick]
  | .flowStop => [.setTtyStopped true]
  | .flowStart => [.setTtyStopped false, .txKick]
  | .putChar b => [.rbTryEnqueue b]
  | .charsInBuffer => [.rbPendingCount]
  | .writeRoom => [.rbPendingCount]
  | .eightN1 baud => [.lineApply ⟨8, .none, 1⟩ ⟨false, false, false, false⟩ baud]

/-- What a pseudo-instruction answers, from the answer of its last command: `write_room` gives
`P_RING_N - 1 - r`, every other one that answer itself (R98). -/
def Pseudo.result (p : Params) (i : Pseudo) (ws : List Word) : List Word :=
  if i = .writeRoom then ws.map fun r => BitVec.ofNat 32 (p.ringN - 1 - r.toNat) else ws

end Sys2Proof.Machine
end

