-- ==== Sys2Proof/Safety.lean ====
section
/-! DEFINITION. The terms the statements are written in: what the environment cannot change, when an
environment step is sound, what holds between block operations, what is on its way. -/

namespace Sys2Proof.Safety

open Sys2Proof.Machine

/-! ### What the environment agents cannot change -/

/-- The UART registers that only the block writes (10_state R36 to R41, R44). -/
structure Regs where
  ibrdPend : BitVec 16
  fbrdPend : BitVec 6
  ibrdAct : BitVec 16
  fbrdAct : BitVec 6
  lcrh : Word
  ctl : Word
  ifls : Word
  im : Word
  dmactl : Word
deriving DecidableEq, Repr

/-- The control registers of a UART. -/
def regsOf (u : Uart) : Regs :=
  ⟨u.ibrdPend, u.fbrdPend, u.ibrdAct, u.fbrdAct, u.lcrh, u.ctl, u.ifls, u.im, u.dmactl⟩

/-- The part of the state that no environment step changes (20_memory R76 to R80): all but the FIFOs,
the wire, `RIS`, the channels' progress and DMA-visible memory, and the model's schedule of
environment steps and draws. -/
structure View where
  params : Params
  port : Port
  regs : Regs
  rxSlot : Slot
  stream : List Word
  writeOwed : Option Nat
  issuer : Issuer
  replies : List (Issuer × Reply)
  turns : List Turn
deriving DecidableEq, Repr

/-- The view of a state. -/
def viewOf (s : State) : View :=
  ⟨s.params, s.port, regsOf s.uart, s.drx.slot, s.stream, s.writeOwed, s.issuer, s.replies, s.turns⟩

/-- An address outside both ping-pong slots: only `DmaRx` writes there (20_memory R78). -/
def outsideSlots (p : Params) (a : Nat) : Prop :=
  ¬ (p.slotA ≤ a ∧ a < p.slotA + p.slotCap) ∧ ¬ (p.slotB ≤ a ∧ a < p.slotB + p.slotCap)

/-- An address outside the staging area. -/
def outsideStage (p : Params) (a : Nat) : Prop :=
  ¬ (p.stageAddr ≤ a ∧ a < p.stageAddr + p.stageCap)

/-- Every byte of DMA-visible memory outside the slots reads the same in both states. -/
def sameOutsideSlots (s t : State) : Prop :=
  ∀ a, outsideSlots s.params a → t.mem.read a = s.mem.read a

/-- The channels are such that no environment step can raise a fault: a running transmit channel
stays inside the staging area, a running receive channel inside the landing slot (20_memory R75,
R77, R78). -/
def channelsOk (s : State) : Bool :=
  (!s.dtx.run || decide (s.dtx.pos + s.dtx.rem ≤ s.params.stageCap))
    && (!s.drx.run || (decide (s.drx.slot = s.port.landing) && decide (s.drx.rem1 ≤ 1)
        && decide (s.drx.rem2 < s.params.slotCap) && decide (1 ≤ s.drx.rem1 + s.drx.rem2)))

/-- `t` is what an operation that leaves `t0` undisturbed leaves, whatever environment steps fell
between its primitives: it agrees with `t0` on everything the environment cannot change and on every
byte outside the slots, and with no environment step it is exactly `t0`. -/
structure Leaves (s t t0 : State) : Prop where
  view : viewOf t = viewOf t0
  channels : channelsOk t = true
  memory : sameOutsideSlots t0 t
  quiet : s.gaps = [] → t = t0

/-! ### The TX level (20_memory R80, 70_reset_and_hazards R249) -/

/-- An environment step that meets the crossing condition of R80: a transmit step that crosses the TX
level sets `RIS.TX`. -/
def tells : EnvStep → Bool
  | .uartTx told => told
  | _ => true

/-- A TX interrupt is pending, or the TX FIFO is above its level, so that its drain will cross it. -/
def drainPending (s : State) : Bool :=
  s.uart.ris.getLsbD s.params.regMap.txInt || decide (s.txLevel < s.uart.txf.length)

/-! ### Bytes on their way -/

/-- The unconsumed bytes of the ring, oldest first (10_state R24, R25). -/
def ringContents (s : State) : List Byte :=
  (List.range s.pending).map fun i => s.ringByte ((s.port.tail + i) % s.params.ringN)

/-- The staged bytes `DmaTx` has not moved yet. -/
def stagedBytes (s : State) : List Byte :=
  if s.dtx.run then s.memBytes (s.params.stageAddr + s.dtx.pos) s.dtx.rem else []

/-- Every accepted transmit byte in order: on the wire, in the TX FIFO, staged, in the ring
(42_transmit R155). -/
def transmitLine (s : State) : List Byte :=
  s.uart.wire ++ s.uart.txf ++ stagedBytes s ++ ringContents s

/-- The bytes of the `Deliver` events of an output list. -/
def deliveredBytes (out : List OutEvent) : List Byte :=
  out.flatMap fun
    | .deliver recs => recs.map Prod.fst
    | .wakeup => []

/-- The bytes a task still has to deliver. -/
def taskBytes (s : State) : List Byte :=
  match s.port.task with
  | some k => if k.phase = .copy then s.memBytes (slotAddr s.params k.slot) k.count else []
  | none => []

/-- Every received byte of dma mode in order: delivered, with the task, captured, in the RX FIFO
(43_receive R183). -/
def receiveLine (s : State) : List Byte :=
  deliveredBytes s.port.out ++ taskBytes s
    ++ s.memBytes (slotAddr s.params s.drx.slot) s.captured ++ s.uart.rxf.map Prod.fst

/-- How many `Wakeup` events an output list holds. -/
def wakeups (out : List OutEvent) : Nat := out.countP (· == .wakeup)

/-- The bytes that the environment steps of a list bring from the wire. -/
def arrivals (es : List EnvStep) : List Byte :=
  es.filterMap fun
    | .uartRx b _ => some b
    | _ => none

/-- Every byte that may still arrive during the step at `s`: in its environment turn, or between the
primitives of its operation. -/
def arrivalsAhead (s : State) : List Byte :=
  match s.turns with
  | .env e :: _ => arrivals [e]
  | _ => arrivals s.gaps.flatten

/-- What one character adds to the batch, for the `n`-th draw should its break be asked about, and
whether it is asked about (43_receive R172). -/
def characterRecords (s : State) (n : Nat) (e : Byte × Status) : List (Byte × Flag) :=
  if has e.2 setBE then
    if Config.handleBreak n then [] else recordsOf s e.1 (normalise e.2)
  else recordsOf s e.1 e.2

/-- The batch of a polled receive event that reads these characters, from the `n`-th draw on. -/
def batchOf (s : State) : Nat → List (Byte × Status) → List (Byte × Flag)
  | _, [] => []
  | n, e :: more =>
    characterRecords s n e ++ batchOf s (if has e.2 setBE then n + 1 else n) more

/-- How many of these characters are of a class. -/
def classCount (c : ErrClass) (es : List (Byte × Status)) : Word :=
  BitVec.ofNat 32 (es.countP fun e => classify e.2 == c)

/-! ### Sequences of ring operations (40_ringbuffer R118) -/

/-- One RB_TRY_ENQUEUE or RB_DEQUEUE_UP_TO. -/
inductive RingOp
  | enqueue (b : Byte)
  | dequeue (n : Nat)
deriving DecidableEq, Repr

/-- A sequence of ring operations; the bytes accepted, and the bytes dequeued. -/
def ringRun : List RingOp → Op (List Byte × List Byte)
  | [] => pure ([], [])
  | .enqueue b :: more => do
    let taken ← ringEnqueue b
    let r ← ringRun more
    pure (if taken then (b :: r.1, r.2) else r)
  | .dequeue n :: more => do
    let bs ← ringDequeue n
    let r ← ringRun more
    pure (r.1, bs ++ r.2)

/-! ### The command a step performs -/

/-- The command that an answer of the decoder performs. -/
def performed : Decoded → Option Instr
  | .command i _ => some i
  | .refuse _ => none

/-- The command the step at `s` performs, if its turn is a block agent's and performs a new one. The
second step of a WRITE is no new command. -/
def commandAt (s : State) : Option Instr :=
  match s.turns with
  | [] | .host :: _ =>
    match s.writeOwed with
    | some _ => none
    | none => performed (decodeFor .host s.params.mode s.stream)
  | .env _ :: _ => none
  | .irq ws :: _ => performed (decodeFor .irq s.params.mode ws)
  | .task ws :: _ => performed (decodeFor .task s.params.mode ws)
  | .internal ws :: _ => performed (decodeFor .internal s.params.mode ws)

/-- The free bytes of the ring (40_ringbuffer R115). -/
def room (s : State) : Nat := s.params.ringN - 1 - s.pending

/-- The bytes a command accepts for transmission: a prefix of a WRITE, or one enqueued byte
(40_ringbuffer R111, R116). -/
def acceptedBy (s : State) (i : Option Instr) : List Byte :=
  if s.port.life = .running then
    match i with
    | some (.write data) => data.take (room s)
    | some (.rbTryEnqueue b) => [b].take (room s)
    | _ => []
  else []

/-! ### What holds between block operations -/

/-- A turn of one of the agents of 00_scope R6. -/
def isAgentTurn : Turn → Bool
  | .internal _ => false
  | _ => true

/-- The ring's indices and storage (10_state R24, R25). -/
structure RingInv (s : State) : Prop where
  head_lt : s.port.head < s.params.ringN
  tail_lt : s.port.tail < s.params.ringN
  canonical : s.port.ring.wf = true
  inside : ∀ c ∈ s.port.ring, c.1 < s.params.ringN

/-- Both FIFOs are within the depth in force (10_state R35, R45). -/
abbrev fifosFit (s : State) : Prop := s.uart.txf.length ≤ s.depth ∧ s.uart.rxf.length ≤ s.depth

/-- Registers within their defined bits (20_memory R65), legal level codes (10_state R40). The FIFOs are
within `P_FIFO_DEPTH`; they are within the depth in force except after a SHUTDOWN, whose fall of `FEN`
may leave any sub-list of what they held (20_memory R65, assumption 7), until the next commit. -/
structure UartInv (s : State) : Prop where
  txf_le : s.uart.txf.length ≤ s.params.fifoDepth
  rxf_le : s.uart.rxf.length ≤ s.params.fifoDepth
  fits : s.port.life ≠ .stopped ∨ s.port.committed = none → fifosFit s
  lcrh_defined : s.uart.lcrh &&& definedMask s.params.regMap .lcrh = s.uart.lcrh
  ctl_defined : s.uart.ctl &&& definedMask s.params.regMap .ctl = s.uart.ctl
  im_defined : s.uart.im &&& definedMask s.params.regMap .im = s.uart.im
  ifls_defined : s.uart.ifls &&& definedMask s.params.regMap .ifls = s.uart.ifls
  dmactl_defined : s.uart.dmactl &&& definedMask s.params.regMap .dmactl = s.uart.dmactl
  ris_defined : s.uart.ris &&& definedMask s.params.regMap .ris = s.uart.ris
  tx_code : s.txCode ≤ 4
  rx_code : s.rxCode ≤ 4
  fen_committed : s.uart.fen s.params.regMap = true → s.port.committed ≠ none

/-- DMA-visible memory is canonical and lists addresses of the regions only (20_memory R60). -/
structure MemInv (s : State) : Prop where
  canonical : s.mem.wf = true
  inside : ∀ c ∈ s.mem, inRegion s.params c.1 1 = true

/-- The transmit side of dma mode (10_state R26, 42_transmit R149, R152): an outstanding transfer is
what the channel is moving or has signalled. -/
structure TxInv (s : State) : Prop where
  len_le : s.port.txLen ≤ s.params.stageCap
  len_pos : s.port.txBusy = true → 1 ≤ s.port.txLen
  len_zero : s.port.txBusy = false → s.port.txLen = 0
  run_busy : s.dtx.run = true → s.port.txBusy = true
  done_busy : s.dtx.done = true → s.port.txBusy = true ∧ s.dtx.run = false
  run_span : s.dtx.run = true → s.dtx.pos + s.dtx.rem = s.port.txLen ∧ 1 ≤ s.dtx.rem

/-- The receive side of dma mode (43_receive R175, R184). -/
structure RxInv (s : State) : Prop where
  rem1_le : s.drx.rem1 ≤ 1
  rem2_le : s.drx.rem2 ≤ s.params.slotCap - 1
  in_order : s.drx.rem1 = 1 → s.drx.rem2 = s.params.slotCap - 1
  run_rem : s.drx.run = true → 1 ≤ s.drx.rem1 + s.drx.rem2
  slot_landing : s.port.life = .running → s.drx.slot = s.port.landing
  busy_iff : s.port.life = .running → (s.port.rxBusy = true ↔ s.port.task ≠ none)
  task_ready : ∀ k, s.port.task = some k →
    k.slot ≠ s.port.landing ∧ 1 ≤ k.count ∧ k.count ≤ s.params.slotCap

/-- Nothing of DMA is in use: poll mode, or dma mode outside RUNNING (10_state R26, R27, R53,
45_port_control R204). -/
structure IdleInv (s : State) : Prop where
  tx : s.port.txBusy = false ∧ s.port.txLen = 0
  rx : s.port.rxBusy = false ∧ s.port.task = none ∧ s.port.recheck = false
  dtx : s.dtx.run = false ∧ s.dtx.done = false
  drx : s.drx.run = false ∧ s.drx.done = false

/-- What holds between block operations in every run of the agents of 00_scope R6. -/
structure Inv (s : State) : Prop where
  params : paramsOk s.params = true
  agents : ∀ t ∈ s.turns, isAgentTurn t = true
  ring : RingInv s
  uart : UartInv s
  mem : MemInv s
  tx : TxInv s
  rx : s.params.mode = .dma → RxInv s
  poll_idle : s.params.mode = .poll → IdleInv s
  stopped_idle : s.port.life ≠ .running → IdleInv s
  stopped_empty : s.port.life ≠ .running → s.port.head = s.port.tail
  owed_running : s.writeOwed ≠ none → s.port.life = .running
  committed_fen : ∀ c, s.port.committed = some c → c.lcrh.getLsbD s.params.regMap.fen = true

/-- Every byte the block or a channel will read has been written (10_state R24, R51): the unconsumed
ring bytes, the staged bytes, the captured bytes and the task's bytes. -/
structure Written (s : State) : Prop where
  ring : ∀ i < s.pending, (s.port.ring.read ((s.port.tail + i) % s.params.ringN)).isSome
  staged : s.dtx.run = true → ∀ i < s.dtx.rem,
    (s.mem.read (s.params.stageAddr + s.dtx.pos + i)).isSome
  captured : s.port.life = .running → s.params.mode = .dma → ∀ i < s.captured,
    (s.mem.read (slotAddr s.params s.drx.slot + i)).isSome
  task : ∀ k, s.port.task = some k → ∀ i < k.count,
    (s.mem.read (slotAddr s.params k.slot + i)).isSome

end Sys2Proof.Safety
end

