-- ==== Sys2Proof/Certificates/Slice0/Obligations.lean ====
section
/-! DEFINITION. The statements about the machine that the provers prove, one definition each. -/

open Sys2Proof Sys2Proof.Machine Sys2Proof.Safety

/-! ### Reset and the shape of a step -/

/-- The block and the DMA channels at attach (10_state R51, R53). Unspecified bytes are not listed. -/
def Obligations.AttachStateOfTheBlock : Prop :=
  State.reset.port.life = .attached ∧ State.reset.port.cfg = none
    ∧ State.reset.port.committed = none ∧ State.reset.port.ring = []
    ∧ State.reset.port.head = 0 ∧ State.reset.port.tail = 0
    ∧ State.reset.port.txBusy = false ∧ State.reset.port.txLen = 0
    ∧ State.reset.port.rxBusy = false ∧ State.reset.port.landing = .a
    ∧ State.reset.port.task = none ∧ State.reset.port.recheck = false
    ∧ State.reset.port.cntOverrun = 0 ∧ State.reset.port.cntParity = 0
    ∧ State.reset.port.cntFrame = 0 ∧ State.reset.port.cntBrk = 0
    ∧ State.reset.port.cntTx = 0 ∧ State.reset.port.cntRx = 0
    ∧ State.reset.port.readMask = 0 ∧ State.reset.port.ignoreMask = 0
    ∧ State.reset.port.ttyStopped = false ∧ State.reset.port.out = []
    ∧ State.reset.port.fault = none ∧ State.reset.mem = []
    ∧ State.reset.dtx.run = false ∧ State.reset.dtx.done = false ∧ State.reset.dtx.rem = 0
    ∧ State.reset.drx.run = false ∧ State.reset.drx.done = false
    ∧ State.reset.drx.rem1 = 0 ∧ State.reset.drx.rem2 = 0

/-- The UART at attach, with the family's reset values that 10_state R52 takes as its default (log
4): the registers, the flags and the interrupt line computed from them. -/
def Obligations.AttachStateOfTheUart : Prop :=
  State.reset.uart.txf = [] ∧ State.reset.uart.rxf = [] ∧ State.reset.flagsValue = 0x090
    ∧ State.reset.uart.ibrdPend = 0 ∧ State.reset.uart.fbrdPend = 0
    ∧ State.reset.uart.ibrdAct = 0 ∧ State.reset.uart.fbrdAct = 0
    ∧ State.reset.uart.lcrh = 0 ∧ State.reset.uart.ctl = 0x300 ∧ State.reset.uart.ifls = 0x12
    ∧ State.reset.uart.im = 0 ∧ State.reset.uart.ris = 0 ∧ State.reset.misValue = 0
    ∧ State.reset.uart.dmactl = 0 ∧ State.reset.uart.wire = [] ∧ State.reset.irqLine = false

/-- The state after attach meets the machine's invariants. Its parameters are the model's choice (log
3). -/
def Obligations.AttachMeetsTheInvariants : Prop :=
  Inv State.reset ∧ Written State.reset

/-- A step performs the command its agent issues: the head of the host's stream, or the words of
`Irq`, `Task` or a component exercise; an environment turn performs its step (00_scope R6, 30_encoding
R92; the schedule is the model's, log 2 and log 10). -/
def Obligations.StepPerformsTheDecodedCommand : Prop :=
  ∀ (s : State) (i : Instr) (rest : List Word), paramsOk s.params = true →
    (s.port.fault = none →
      ((s.turns = [] ∨ s.turns.head? = some .host) → s.writeOwed = none →
        decodeFor .host s.params.mode s.stream = .command i rest →
        step s = exec i { s with issuer := .host, stream := rest, turns := s.turns.tail })
      ∧ (∀ ws, s.turns.head? = some (.irq ws) →
        decodeFor .irq s.params.mode ws = .command i rest →
        step s = exec i { s with issuer := .irq, turns := s.turns.tail })
      ∧ (∀ ws, s.turns.head? = some (.task ws) →
        decodeFor .task s.params.mode ws = .command i rest →
        step s = exec i { s with issuer := .task, turns := s.turns.tail })
      ∧ (∀ ws, s.turns.head? = some (.internal ws) →
        decodeFor .internal s.params.mode ws = .command i rest →
        step s = exec i { s with issuer := .internal, turns := s.turns.tail }))
    ∧ (∀ e t, s.turns.head? = some (.env e) →
        envStep e { s with turns := s.turns.tail } = .ok () t → step s = .next t)

/-- A refused command is answered to its issuer, taken off the host's stream, and changes nothing
else (60_exceptions R211). How many words it takes off the stream, and that the answers are kept as a
list, is the model's choice (log 11, log 12). -/
def Obligations.RefusedCommandChangesNothingElse : Prop :=
  ∀ (s : State) (why : RefuseReason), paramsOk s.params = true → s.port.fault = none →
    ((s.turns = [] ∨ s.turns.head? = some .host) → s.writeOwed = none → s.stream ≠ [] →
      decodeFor .host s.params.mode s.stream = .refuse why →
      step s = .next { s with
        issuer := .host, turns := s.turns.tail
        stream := s.stream.drop (commandLength s.stream)
        replies := s.replies ++ [(.host, .refused why)] })
    ∧ (∀ ws, s.turns.head? = some (.irq ws) → decodeFor .irq s.params.mode ws = .refuse why →
      step s = .next { s with
        issuer := .irq, turns := s.turns.tail, replies := s.replies ++ [(.irq, .refused why)] })
    ∧ (∀ ws, s.turns.head? = some (.task ws) → decodeFor .task s.params.mode ws = .refuse why →
      step s = .next { s with
        issuer := .task, turns := s.turns.tail, replies := s.replies ++ [(.task, .refused why)] })

/-- With sound parameters and no fault every step answers a next state: no command is left without a
meaning. This is a statement about the model's form: that a raised fault is a next state is log 1, that
a turn with nothing to issue is one is log 9, and that a polled receive without a bound ends is the
model's finite schedule, log 15, where 70_reset_and_hazards R246 lets it run on. -/
def Obligations.EveryStepGoesOn : Prop :=
  ∀ s : State, paramsOk s.params = true → s.port.fault = none → ∃ t, step s = .next t

/-- Once a fault is set nothing clears it, and the block has no further step (10_state R32, 60_exceptions
R210). That the block's turn then shows as `Fault.terminal`, and that the environment still steps, which
R210 allows, is the model's choice (log 1). -/
def Obligations.FaultIsTerminalForTheBlock : Prop :=
  ∀ (s : State) (why : FaultReason), paramsOk s.params = true → s.port.fault = some why →
    ((∀ e, s.turns.head? ≠ some (.env e)) → step s = .fault (.terminal why))
    ∧ (∀ e, s.turns.head? = some (.env e) → ∃ t, step s = .next t ∧ t.port.fault ≠ none)

/-! ### Encoding -/

/-- Decoding an encoded well-formed command gives it back, and leaves the words after it, for every
command and every operand; so does the decoder of an agent that may issue it, in a mode that defines
it (30_encoding R85 to R92, R94). -/
def Obligations.DecodeInvertsEncode : Prop :=
  ∀ (i : Instr) (rest : List Word), i.wf = true →
    decode (encode i ++ rest) = .command i rest
      ∧ ∀ who m, mayIssue who (opcodeFor i) = true → definedIn m (opcodeFor i) = true →
          decodeFor who m (encode i ++ rest) = .command i rest

/-- Whatever decodes is a well-formed command, spelled by exactly the words taken: every other
spelling is refused (30_encoding R95). -/
def Obligations.EncodeInvertsDecode : Prop :=
  ∀ (ws : List Word) (i : Instr) (rest : List Word), decode ws = .command i rest →
    i.wf = true ∧ ws = encode i ++ rest

/-- Words written out from the encoding tables decode to the commands they stand for. -/
def Obligations.SampleWordsDecode : Prop :=
  decode [0x00000001, 16000000, 115200] = .command (.baudCalc 16000000 115200) []
    ∧ decode [0x000F0002] = .command (.maskCalc ⟨true, true, true, true⟩) []
    ∧ decode [0x00010F03, 9600] = .command (.lineApply ⟨8, .space, 1⟩ ⟨true, false, false, false⟩ 9600) []
    ∧ decode [0x00000004, 5, 0x4C4C4548, 0x0000004F]
        = .command (.write [0x48, 0x45, 0x4C, 0x4C, 0x4F]) []
    ∧ decode [0x00000105] = .command (.setBreak true) []
    ∧ decode [0x00004110] = .command (.rbTryEnqueue 0x41) []
    ∧ decode [0x00000020] = .command .irqDispatch []
    ∧ decode [0x00000926] = .command (.rxClassify 9) []

/-- The assembler line of a well-formed command spells that command (30_encoding R97; the lines as
token lists, and the operands of three internal opcodes, are the model's form, log 27). -/
def Obligations.AssemblerLinesSpellTheirCommands : Prop :=
  ∀ i : Instr, i.wf = true → assemble (asmLine i) = some i

/-- The first of ILLEGAL_OP, WRONG_ISSUER, WRONG_MODE, RESERVED_FIELD, TRUNCATED that applies is
reported (60_exceptions R218); the illegal `OP` values are those outside the map; a reserved bit, a
parity code 5 to 7 and a nonzero padding byte of a WRITE are RESERVED_FIELD, a missing payload word
TRUNCATED (30_encoding R86, R89, R95); and what an agent performs is in its issuer set and defined in
its mode (30_encoding R92, R94). -/
def Obligations.DecoderChecksInOrder : Prop :=
  (∀ b : Byte, opcodeOf b = none ↔
    b.toNat = 0 ∨ (0x0C ≤ b.toNat ∧ b.toNat ≤ 0x0F) ∨ (0x14 ≤ b.toNat ∧ b.toNat ≤ 0x1F)
      ∨ 0x28 ≤ b.toNat)
  ∧ (∀ who m, decodeFor who m [] = .refuse .truncated)
  ∧ ∀ (who : Issuer) (m : Mode) (w0 : Word) (rest : List Word),
    (opcodeOf (fieldOp w0) = none → decodeFor who m (w0 :: rest) = .refuse .illegalOp)
    ∧ (∀ o, opcodeOf (fieldOp w0) = some o →
      (mayIssue who o = false → decodeFor who m (w0 :: rest) = .refuse .wrongIssuer)
      ∧ (mayIssue who o = true → definedIn m o = false →
          decodeFor who m (w0 :: rest) = .refuse .wrongMode)
      ∧ (mayIssue who o = true → definedIn m o = true → w0 &&& reservedBits o ≠ 0 →
          decodeFor who m (w0 :: rest) = .refuse .reservedField)
      ∧ (mayIssue who o = true → definedIn m o = true → w0 &&& reservedBits o = 0 →
        (o = .lineApply → 5 ≤ (w0.extractLsb' 10 3).toNat →
          decodeFor who m (w0 :: rest) = .refuse .reservedField)
        ∧ (o = .lineApply → (w0.extractLsb' 10 3).toNat < 5 → rest = [] →
          decodeFor who m (w0 :: rest) = .refuse .truncated)
        ∧ (o = .baudCalc → rest.length < 2 → decodeFor who m (w0 :: rest) = .refuse .truncated)
        ∧ ((o = .rbDequeueUpTo ∨ o = .write) → rest = [] →
          decodeFor who m (w0 :: rest) = .refuse .truncated)
        ∧ ∀ n more, o = .write → rest = n :: more →
          (more.length < (n.toNat + 3) / 4 → decodeFor who m (w0 :: rest) = .refuse .truncated)
          ∧ ((n.toNat + 3) / 4 ≤ more.length →
            (∃ j, n.toNat ≤ j ∧ j / 4 < (n.toNat + 3) / 4
              ∧ (more.getD (j / 4) 0).extractLsb' (8 * (j % 4)) 8 ≠ 0) →
            decodeFor who m (w0 :: rest) = .refuse .reservedField)))
    ∧ ∀ i more, decodeFor who m (w0 :: rest) = .command i more →
      mayIssue who (opcodeFor i) = true ∧ definedIn m (opcodeFor i) = true
        ∧ decode (w0 :: rest) = .command i more

/-! ### Registers, channels and the environment -/

/-- A register is reached by a word access at its own address, and by no other access: that one is
refused with `REG_ACCESS` (20_memory R63). A `DR` read pops the RX FIFO, with byte and status in the
fields of `RegMap`, in the default layout `{st, b}` zero-extended; a `DR` write pushes the TX FIFO or is
`TX_OVERFILL`; an `ICR` write clears the bits written 1 (R64, R65, 10_state R34, R43). Fields of another
layout are the model's reading of `RegMap` (log 4). -/
def Obligations.RegisterAccess : Prop :=
  (∀ (p : Params) (r : Reg), paramsOk p = true →
    regAt p (p.base + regOffset p.regMap r) 4 = some r)
  ∧ (∀ (s : State) (addr width : Nat) (v : Word),
    (width ≠ 4 ∨ addr % 4 ≠ 0 ∨ ∀ r, addr ≠ s.params.base + regOffset s.params.regMap r) →
    busRead addr width s
        = .error .regAccess (s.setPort fun q => { q with fault := some .regAccess })
      ∧ busWrite addr width v s
        = .error .regAccess (s.setPort fun q => { q with fault := some .regAccess }))
  ∧ ∀ (s : State) (v : Word),
    (∀ b st rest, s.uart.rxf = (b, st) :: rest → paramsOk s.params = true →
      ∃ w, popDr s = .ok w (s.setUart fun u => { u with rxf := rest })
        ∧ drData s.params.regMap w = b ∧ drStatus s.params.regMap w = st
        ∧ (s.params.regMap = RegMap.lm3s → w = (0#20 ++ st) ++ b))
    ∧ (s.uart.txf.length < s.depth → storeReg .dr v s = .ok () (s.setUart fun u =>
        { u with txf := u.txf ++ [v.extractLsb' s.params.regMap.data 8] }))
    ∧ (s.depth ≤ s.uart.txf.length → storeReg .dr v s
        = .error .txOverfill (s.setPort fun q => { q with fault := some .txOverfill }))
    ∧ storeReg .icr v s = .ok () (s.setUart fun u => { u with ris := u.ris &&& ~~~ v })

/-- The active divisor is loaded from the pending one by every `LCRH` write and by nothing else: no
other register write and no environment step before it changes it (20_memory R66). That `LCRH` then holds
the defined bits of the value is the model's reading of `v[7:0]` in R65 for any `RegMap` (log 4). -/
def Obligations.DivisorLatchesOnLineControlWritesOnly : Prop :=
  ∀ (s t : State) (r : Reg) (v : Word), regWrite r v s = .ok () t →
    (r = .lcrh → t.uart.ibrdAct = s.uart.ibrdPend ∧ t.uart.fbrdAct = s.uart.fbrdPend
      ∧ t.uart.lcrh = v &&& definedMask s.params.regMap .lcrh)
    ∧ (r ≠ .lcrh → t.uart.ibrdAct = s.uart.ibrdAct ∧ t.uart.fbrdAct = s.uart.fbrdAct)

/-- The channel contract (20_memory R69 to R73): start, arm, stop, remaining counts, query with
acknowledgment, after the environment steps that fall before the primitive; a stopped channel moves
nothing. -/
def Obligations.ChannelContract : Prop :=
  ∀ (s u : State), gap s = .ok () u →
    (∀ len, dmaStartTx len s =
      if u.dtx.run = false ∧ 1 ≤ len ∧ len ≤ u.params.stageCap
      then .ok () { u with dtx := ⟨true, len, 0, false⟩ }
      else .error .dmaMisuse (u.setPort fun q => { q with fault := some .dmaMisuse }))
    ∧ (∀ x, dmaArmRx x s =
      if u.drx.run = false
      then .ok () { u with drx := ⟨true, x, 1, u.params.slotCap - 1, false⟩ }
      else .error .dmaMisuse (u.setPort fun q => { q with fault := some .dmaMisuse }))
    ∧ dmaStopTx s = .ok () { u with dtx := { u.dtx with run := false, done := false } }
    ∧ dmaStopRx s = .ok () { u with drx := { u.drx with run := false, done := false } }
    ∧ dmaRemaining1 s = .ok u.drx.rem1 u ∧ dmaRemaining2 s = .ok u.drx.rem2 u
    ∧ dmaQueryAckTx s = .ok u.dtx.done { u with dtx := { u.dtx with done := false } }
    ∧ dmaQueryAckRx s = .ok u.drx.done { u with drx := { u.drx with done := false } }
    ∧ (u.dtx.run = false → envStep .dmaTx u = .ok () u)
    ∧ (u.drx.run = false → envStep .dmaRx u = .ok () u)

/-- The steps of `Uart` at the wire: the first TX byte leaves while the UART transmits and sends no
break, an arrival enters the RX FIFO if there is room, and nothing happens otherwise (20_memory R76,
R79). With a zero divisor the byte on the wire is free. The step of `DmaTx` moves one staged byte to the
TX FIFO, and the last one stops the channel and signals completion (20_memory R77, 60_exceptions
R216); without its condition it does nothing (log 14). That a transmit step which crosses the TX level
sets `RIS.TX` only if its flag `told` says so is the model's reading of R80 (log 13). -/
def Obligations.UartMovesBytes : Prop :=
  ∀ (s : State) (told : Bool) (b : Byte) (st : Status),
    let m := s.params.regMap
    (∀ x rest, s.uart.txf = x :: rest → s.uart.ctl.getLsbD m.uarten = true →
      s.uart.ctl.getLsbD m.txe = true → s.uart.lcrh.getLsbD m.brk = false →
      ∃ sent ris n, envStep (.uartTx told) s = .ok () { s with
          uart := { s.uart with txf := rest, wire := s.uart.wire ++ [sent], ris := ris }, draws := n }
        ∧ (s.uart.ibrdAct ≠ 0 → sent = x ∧ n = s.draws)
        ∧ (s.uart.ibrdAct = 0 → sent = Config.wireByte s.draws ∧ n = s.draws + 1)
        ∧ ris = (if told = true ∧ s.txLevel < s.uart.txf.length ∧ rest.length ≤ s.txLevel
            then s.uart.ris ||| BitVec.twoPow 32 m.txInt else s.uart.ris))
    ∧ ((s.uart.txf = [] ∨ s.uart.ctl.getLsbD m.uarten = false ∨ s.uart.ctl.getLsbD m.txe = false
        ∨ s.uart.lcrh.getLsbD m.brk = true) → envStep (.uartTx told) s = .ok () s)
    ∧ (s.uart.ctl.getLsbD m.uarten = true → s.uart.ctl.getLsbD m.rxe = true →
        s.uart.rxf.length < s.depth → envStep (.uartRx b st) s
          = .ok () (s.setUart fun u => { u with rxf := u.rxf ++ [(b, st)] }))
    ∧ ((s.uart.ctl.getLsbD m.uarten = false ∨ s.uart.ctl.getLsbD m.rxe = false
        ∨ s.depth ≤ s.uart.rxf.length) → envStep (.uartRx b st) s = .ok () s)
    ∧ (s.params.mode = .dma → s.dtx.run = true → s.uart.dmactl.getLsbD m.txdmae = true →
        0 < s.dtx.rem → s.uart.txf.length < s.depth → s.dtx.pos + s.dtx.rem ≤ s.params.stageCap →
        envStep .dmaTx s = .ok () { s with
          uart := { s.uart with
            txf := s.uart.txf ++ [s.memByte (s.params.stageAddr + s.dtx.pos)] }
          dtx := ⟨decide (s.dtx.rem ≠ 1), s.dtx.rem - 1, s.dtx.pos + 1,
            s.dtx.done || decide (s.dtx.rem = 1)⟩ })
    ∧ ((s.params.mode ≠ .dma ∨ s.dtx.run = false ∨ s.uart.dmactl.getLsbD m.txdmae = false
        ∨ s.dtx.rem = 0 ∨ s.depth ≤ s.uart.txf.length) → envStep .dmaTx s = .ok () s)

/-- `k` steps of `DmaRx` after arming slot `x` fill it in arrival order, and the remaining counts give
back `k`, for every `k` up to the slot's capacity (43_receive R175, 20_memory R78). -/
def Obligations.CapturedBytesAreCounted : Prop :=
  ∀ (s : State) (x : Slot) (k : Nat), s.params.mode = .dma → 2 ≤ s.params.slotCap →
    s.mem.wf = true → s.uart.dmactl.getLsbD s.params.regMap.rxdmae = true → s.port.landing = x →
    s.drx = ⟨true, x, 1, s.params.slotCap - 1, false⟩ → k ≤ s.params.slotCap →
    k ≤ s.uart.rxf.length →
    ∃ t, envSteps (List.replicate k .dmaRx) s = .ok () t
      ∧ t.params.slotCap - t.drx.rem1 - t.drx.rem2 = k
      ∧ t.drx.rem1 = (if k = 0 then 1 else 0)
      ∧ t.drx.rem2 = s.params.slotCap - 1 - (k - 1)
      ∧ t.memBytes (slotAddr s.params x) k = (s.uart.rxf.take k).map Prod.fst
      ∧ t.uart.rxf = s.uart.rxf.drop k
      ∧ t.drx.done = decide (k = s.params.slotCap)
      ∧ ∀ a, ¬ (slotAddr s.params x ≤ a ∧ a < slotAddr s.params x + k) →
          t.mem.read a = s.mem.read a

/-- The environment sets an interrupt bit only where 20_memory R80 allows it, and never clears one;
and where it is allowed, the raising step sets its bit. The steps that raise nothing do nothing (log
14). A transmit side that is above its TX level, or has its interrupt pending, stays so under every step
that meets R80's crossing condition (70_reset_and_hazards R249). -/
def Obligations.StatusRaisedOnlyWhenAllowed : Prop :=
  (∀ (e : EnvStep) (s t : State), envStep e s = .ok () t →
    (∀ k, s.uart.ris.getLsbD k = true → t.uart.ris.getLsbD k = true)
    ∧ (∀ k, s.uart.ris.getLsbD k = false → t.uart.ris.getLsbD k = true →
      (k = s.params.regMap.rxInt ∧ s.rxLevel ≤ s.uart.rxf.length)
      ∨ (k = s.params.regMap.txInt ∧ t.uart.txf.length ≤ t.txLevel)
      ∨ (k = s.params.regMap.rtInt ∧ (s.uart.rxf ≠ [] ∨ (s.drx.run = true
          ∧ 1 ≤ s.params.slotCap - s.drx.rem1 - s.drx.rem2)))
      ∨ ∃ j, k = errInt s.params.regMap j)
    ∧ (paramsOk s.params = true → tells e = true → drainPending s = true → drainPending t = true))
  ∧ ∀ s : State,
    let raised := fun k => s.setUart fun u => { u with ris := u.ris ||| BitVec.twoPow 32 k }
    envStep .raiseRx s
        = .ok () (if s.rxLevel ≤ s.uart.rxf.length then raised s.params.regMap.rxInt else s)
      ∧ envStep .raiseTx s
        = .ok () (if s.uart.txf.length ≤ s.txLevel then raised s.params.regMap.txInt else s)
      ∧ envStep .raiseRt s
        = .ok () (if s.uart.rxf ≠ [] ∨ (s.drx.run = true
            ∧ 1 ≤ s.params.slotCap - s.drx.rem1 - s.drx.rem2)
          then raised s.params.regMap.rtInt else s)
      ∧ ∀ k, envStep (.raiseErr k) s = .ok () (raised (errInt s.params.regMap k))

/-- Between a status read and the next primitive, in poll mode, `TXFF` can only fall, `TXFE` only
rise and `RXFE` only fall, whatever environment steps come (70_reset_and_hazards R248). -/
def Obligations.StaleStatusReadsAreSafe : Prop :=
  ∀ (s t : State), paramsOk s.params = true → s.params.mode = .poll →
    s.uart.txf.length ≤ s.depth → gap s = .ok () t →
    let m := s.params.regMap
    (s.flagsValue.getLsbD m.txff = false → t.flagsValue.getLsbD m.txff = false)
    ∧ (s.flagsValue.getLsbD m.txfe = true → t.flagsValue.getLsbD m.txfe = true)
    ∧ (s.flagsValue.getLsbD m.rxfe = false → t.flagsValue.getLsbD m.rxfe = false)

/-! ### Ring buffer -/

/-- The ring's commands (40_ringbuffer R111 to R114): RB_TRY_ENQUEUE is NOT_RUNNING, full, or stores at
`head`; RB_DEQUEUE_UP_TO takes the slice from `tail`, bounded by the request, by what is pending and by
the end of storage, each byte in a word of its own (the model's reading of 30_encoding R99, log 28);
RB_PENDING_COUNT answers the index difference reduced into `[0, N)`; RB_IS_EMPTY compares the indices. -/
def Obligations.RingCommandResults : Prop :=
  ∀ (s : State) (b : Byte) (n : Word),
    (s.port.life ≠ .running → exec (.rbTryEnqueue b) s
      = .next (s.setPort fun q => { q with fault := some .notRunning }))
    ∧ (s.port.life = .running → s.pending = s.params.ringN - 1 →
      exec (.rbTryEnqueue b) s = .next (s.reply (.result [0])))
    ∧ (s.port.life = .running → s.pending ≠ s.params.ringN - 1 → exec (.rbTryEnqueue b) s
      = .next ((s.setPort fun q => { q with
          ring := q.ring.write q.head b, head := (q.head + 1) % s.params.ringN }).reply
        (.result [1])))
    ∧ (let k := min n.toNat (min s.pending (s.params.ringN - s.port.tail))
      exec (.rbDequeueUpTo n) s
        = .next ((s.setPort fun q => { q with tail := (q.tail + k) % s.params.ringN }).reply
          (.result (BitVec.ofNat 32 k
            :: (List.range k).map fun i => (s.ringByte (s.port.tail + i)).zeroExtend 32))))
    ∧ (0 < s.params.ringN → s.params.ringN ≤ 2 ^ 32 →
      ∃ w : Word, exec .rbPendingCount s = .next (s.reply (.result [w]))
        ∧ (w.toNat : Int) = ((s.port.head : Int) - (s.port.tail : Int)) % (s.params.ringN : Int)
        ∧ s.pending = w.toNat)
    ∧ exec .rbIsEmpty s
      = .next (s.reply (.result [if s.port.head = s.port.tail then 1 else 0]))

/-- The ring is a queue over any sequence of enqueues and dequeues (40_ringbuffer R118): the bytes
held and then accepted are the bytes dequeued and then held, in order; so the counts balance and no
accepted byte is overwritten. -/
def Obligations.RingIsAQueue : Prop :=
  ∀ (ops : List RingOp) (s : State), RingInv s → s.port.life = .running →
    ∃ accepted dequeued t, ringRun ops s = .ok (accepted, dequeued) t
      ∧ RingInv t
      ∧ ringContents s ++ accepted = dequeued ++ ringContents t
      ∧ t.pending + dequeued.length = s.pending + accepted.length

/-- WRITE, first step (40_ringbuffer R116): exactly the prefix that fits is enqueued; the ring's other
bytes and the rest of the state stay. The owed second step is the model's form (log 8). -/
def Obligations.WriteAcceptsAPrefix : Prop :=
  ∀ (s : State) (data : List Byte), RingInv s → s.port.life = .running →
    let k := min data.length (room s)
    ∃ t, exec (.write data) s = .next t
      ∧ t = { s with writeOwed := some k, port := { s.port with
          ring := t.port.ring, head := (s.port.head + k) % s.params.ringN } }
      ∧ RingInv t
      ∧ ringContents t = ringContents s ++ data.take k
      ∧ ∀ j, (∀ i < k, j ≠ (s.port.head + i) % s.params.ringN) →
          t.port.ring.read j = s.port.ring.read j

/-- WRITE, second step (40_ringbuffer R116): the host's next turn kicks the TransmitEngine as TX_KICK
does and answers the accepted count. The two-step form is the model's (log 8). -/
def Obligations.WriteKicksAndAnswersTheCount : Prop :=
  ∀ (s t : State) (acc : Nat), paramsOk s.params = true → s.port.fault = none →
    (s.turns = [] ∨ s.turns.head? = some .host) → s.writeOwed = some acc →
    txKick { s with issuer := .host, turns := s.turns.tail, writeOwed := none } = .ok () t →
      step s = .next (t.reply (.result [BitVec.ofNat 32 acc]))
      ∧ exec .txKick { s with issuer := .host, turns := s.turns.tail, writeOwed := none }
          = .next (t.reply (.result []))

/-! ### Baud and line -/

/-- BAUD_CALC (41_baud_line R126 to R128): a baud of 0 faults, any other is clamped and divided, with
the remainder rounded half up to 64ths and the value 64 treated as the parameter says. -/
def Obligations.BaudCalcResult : Prop :=
  ∀ (s : State) (c b : Word),
    (b = 0 → exec (.baudCalc c b) s = .next (s.setPort fun q => { q with fault := some .baudZero }))
    ∧ (b ≠ 0 →
      let den := min b.toNat s.params.maxBaud * 16
      let brdi := c.toNat / den
      let frac := ((c.toNat - den * brdi) * 64 + den / 2) / den
      exec (.baudCalc c b) s = .next (s.reply (.result
        (if s.params.frac64 = .carry ∧ frac = 64 then [BitVec.ofNat 32 (brdi + 1), 0]
         else [BitVec.ofNat 32 brdi, BitVec.ofNat 32 frac]))))

/-- The divisor pair BAUD_CALC answers is within half a fractional tick of the clock (41_baud_line
R129): `|64 C - (64 brdi + divfrac) den| <= den / 2`, in both modes of `P_FRAC64`. -/
def Obligations.BaudCalcIsAccurate : Prop :=
  ∀ (s : State) (c b : Word), b ≠ 0 → 1 ≤ s.params.maxBaud →
    ∃ q f : Word, exec (.baudCalc c b) s = .next (s.reply (.result [q, f]))
      ∧ f.toNat ≤ 64
      ∧ (let den : Int := min b.toNat s.params.maxBaud * 16
         2 * |64 * (c.toNat : Int) - (64 * (q.toNat : Int) + (f.toNat : Int)) * den| ≤ den)

/-- MASK_CALC (41_baud_line R135): the two masks, class by class; and the line-control word of a line
format, field by field in every layout, and as the byte of 41_baud_line R134 in the default `RegMap`
(41_baud_line R131 to R134). -/
def Obligations.MasksAndLineControlByte : Prop :=
  (∀ (s : State) (p : Policy), ∃ rm im : Status,
    exec (.maskCalc p) s = .next (s.reply (.result [rm.zeroExtend 32, im.zeroExtend 32]))
      ∧ policyMasks p = (rm, im)
      ∧ rm.getLsbD 3 = true ∧ rm.getLsbD 2 = p.rptBrk
      ∧ rm.getLsbD 1 = p.chkPar ∧ rm.getLsbD 0 = p.chkPar
      ∧ im.getLsbD 3 = (p.ignPar && p.ignBrk) ∧ im.getLsbD 2 = p.ignBrk
      ∧ im.getLsbD 1 = p.ignPar ∧ im.getLsbD 0 = p.ignPar)
  ∧ (∀ (m : RegMap) (l : LineFormat), regMapOk m = true → l.wf = true →
    let w := lcrhWord m l
    w &&& definedMask m .lcrh = w
      ∧ w.getLsbD m.brk = false
      ∧ w.getLsbD m.pen = (l.parity != .none)
      ∧ w.getLsbD m.eps = (l.parity == .even || l.parity == .space)
      ∧ w.getLsbD m.stp2 = (l.stop == 2)
      ∧ w.getLsbD m.fen = true
      ∧ (w.extractLsb' m.wlen 2).toNat = l.wlen - 5
      ∧ w.getLsbD m.sps = (l.parity == .mark || l.parity == .space))
  ∧ ∀ l : LineFormat, l.wf = true → (lcrhWord RegMap.lm3s l).toNat
      = (if l.parity = .mark ∨ l.parity = .space then 128 else 0) + 32 * (l.wlen - 5) + 16
        + (if l.stop = 2 then 8 else 0) + (if l.parity = .even ∨ l.parity = .space then 4 else 0)
        + (if l.parity = .none then 0 else 2)

/-- LINE_APPLY (41_baud_line R136, R130): the divisor and the line-control word are committed and
latched, `CTL` is restored, the configuration, the commitment and the masks are recorded, and nothing
else the environment leaves alone is changed; a baud of 0 faults. -/
def Obligations.LineApplyCommits : Prop :=
  ∀ (s : State) (l : LineFormat) (p : Policy) (b : Word),
    (b = 0 → exec (.lineApply l p b) s
      = .next (s.setPort fun q => { q with fault := some .baudZero }))
    ∧ (b ≠ 0 → paramsOk s.params = true → channelsOk s = true →
      let m := s.params.regMap
      let d := baudDivisor s.params s.params.clk b.toNat
      let baud := min b.toNat s.params.maxBaud
      ∃ t, exec (.lineApply l p b) s = .next t
        ∧ Leaves s t (((s.setUart fun u => { u with
            ibrdPend := BitVec.ofNat 16 d.1, fbrdPend := BitVec.ofNat 6 d.2
            ibrdAct := BitVec.ofNat 16 d.1, fbrdAct := BitVec.ofNat 6 d.2
            lcrh := lcrhWord m l, ctl := u.ctl &&& definedMask m .ctl }).setPort fun q => { q with
            cfg := some ⟨l, baud, p⟩
            committed := some ⟨baud, d.1, d.2, lcrhWord m l⟩
            readMask := (policyMasks p).1, ignoreMask := (policyMasks p).2 }).reply
          (.result [BitVec.ofNat 32 baud, BitVec.ofNat 32 d.1, BitVec.ofNat 32 d.2,
            lcrhWord m l])))

/-- In the commit window the UART neither sends nor receives (70_reset_and_hazards R240): whatever
environment steps fall between LINE_APPLY's two `CTL` writes, no byte reaches the wire, none enters
the RX FIFO, and none leaves the TX FIFO. -/
def Obligations.CommitWindowIsSilent : Prop :=
  ∀ (s : State) (l : LineFormat) (p : Policy) (b : Word) (gs : List (List EnvStep)), b ≠ 0 →
    channelsOk s = true → s.gaps = [] :: [] :: gs →
    ∃ t k, exec (.lineApply l p b) s = .next t
      ∧ t.uart.wire = s.uart.wire ∧ t.uart.rxf = s.uart.rxf.drop k ∧ s.uart.txf <+: t.uart.txf

/-! ### Transmit -/

/-- TX_KICK in poll mode with no environment step inside it (42_transmit R148): an empty ring or a
stopped port only clears `TXIM`; otherwise as many bytes as the FIFO has room for move to it in ring
order, the wakeup test is made once, and `TXIM` says whether bytes remain. -/
def Obligations.KickInPollMode : Prop :=
  ∀ s : State, paramsOk s.params = true → s.gaps = [] → s.params.mode = .poll →
    s.port.life = .running → RingInv s → s.uart.txf.length ≤ s.depth →
    let m := s.params.regMap
    ((s.pending = 0 ∨ s.port.ttyStopped = true) → exec .txKick s
      = .next ((s.setUart fun u => { u with im := withBit (u.im &&& definedMask m .im) m.txInt false }).reply
        (.result [])))
    ∧ (s.pending ≠ 0 → s.port.ttyStopped = false →
      let k := min s.pending (s.depth - s.uart.txf.length)
      exec .txKick s = .next (((s.setUart fun u => { u with
          txf := u.txf ++ (ringContents s).take k
          im := withBit (u.im &&& definedMask m .im) m.txInt (decide (k < s.pending)) }).setPort fun q => { q with
          tail := (q.tail + k) % s.params.ringN
          cntTx := q.cntTx + BitVec.ofNat 32 k
          out := if s.pending - k < s.params.lowWater then q.out ++ [.wakeup] else q.out }).reply
        (.result [])))

/-- TX_KICK in poll mode whatever the environment does between its primitives (42_transmit R148): it
moves at least what the FIFO had room for and at most what was pending, in ring order, with no byte
lost or doubled. If bytes remain, `FEN` is set and the environment meets R80's crossing condition, then
a TX interrupt is pending and asserts the line, or the FIFO is above its TX level and its drain has
still to cross it (70_reset_and_hazards R249); StatusRaisedOnlyWhenAllowed says that this stays so. -/
def Obligations.KickInPollModeUnderAnyEnvironment : Prop :=
  ∀ s : State, paramsOk s.params = true → s.params.mode = .poll → s.port.life = .running →
    RingInv s → s.uart.txf.length ≤ s.depth → s.pending ≠ 0 → s.port.ttyStopped = false →
    let m := s.params.regMap
    ∃ t k, exec .txKick s = .next t
      ∧ min s.pending (s.depth - s.uart.txf.length) ≤ k ∧ k ≤ s.pending
      ∧ viewOf t = viewOf (((s.setUart fun u => { u with
          im := withBit (u.im &&& definedMask m .im) m.txInt (decide (k < s.pending)) }).setPort fun q => { q with
          tail := (q.tail + k) % s.params.ringN
          cntTx := q.cntTx + BitVec.ofNat 32 k
          out := if s.pending - k < s.params.lowWater then q.out ++ [.wakeup] else q.out }).reply
        (.result []))
      ∧ t.mem = s.mem ∧ t.uart.txf.length ≤ t.depth
      ∧ (s.uart.ibrdAct ≠ 0 → t.uart.wire ++ t.uart.txf
          = s.uart.wire ++ s.uart.txf ++ (ringContents s).take k)
      ∧ (k < s.pending → s.uart.fen m = true → s.txCode ≤ 4 →
          (∀ es ∈ s.gaps, ∀ e ∈ es, tells e = true) →
          t.uart.im.getLsbD m.txInt = true ∧ drainPending t = true
            ∧ (t.uart.ris.getLsbD m.txInt = true → t.irqLine = true))

/-- TX_KICK in DMA mode (42_transmit R149, R150): nothing with an empty ring, a stopped port or a
transfer outstanding; otherwise exactly the next contiguous run, at most the staging capacity, is
staged and started. -/
def Obligations.KickInDmaMode : Prop :=
  ∀ s : State, s.params.mode = .dma → s.port.life = .running →
    ((s.pending = 0 ∨ s.port.ttyStopped = true ∨ s.port.txBusy = true) →
      exec .txKick s = .next (s.reply (.result [])))
    ∧ (s.pending ≠ 0 → s.port.ttyStopped = false → s.port.txBusy = false → s.dtx.run = false →
      s.port.tail < s.params.ringN → paramsOk s.params = true → s.mem.wf = true →
      channelsOk s = true →
      let k := min s.pending (min (s.params.ringN - s.port.tail) s.params.stageCap)
      ∃ t, exec .txKick s = .next t
        ∧ Leaves s t ((((s.setMem (s.mem.writeList s.params.stageAddr
            (s.ringBytes s.port.tail k))).setDtx fun _ => ⟨true, k, 0, false⟩).setPort fun q =>
            { q with
              tail := (q.tail + k) % s.params.ringN, txBusy := true, txLen := k
              out := if s.pending - k < s.params.lowWater then q.out ++ [.wakeup] else q.out }).reply
          (.result []))
        ∧ 1 ≤ k ∧ t.dtx = ⟨true, k, 0, false⟩
        ∧ t.memBytes s.params.stageAddr k = s.ringBytes s.port.tail k)

/-- TX_DMA_DONE (42_transmit R152): with nothing owed it does nothing; otherwise it counts the
transfer, clears the busy flag and kicks, which in DMA mode with nothing to send leaves it there. -/
def Obligations.DmaDoneCountsAndKicks : Prop :=
  ∀ s : State,
    (s.port.txBusy = false → exec .txDmaDone s = .next (s.reply (.result [])))
    ∧ (s.port.txBusy = true →
      let idle := s.setPort fun q => { q with
        cntTx := q.cntTx + BitVec.ofNat 32 q.txLen, txBusy := false, txLen := 0 }
      exec .txDmaDone s = exec .txKick idle
        ∧ (s.params.mode = .dma → s.port.life = .running →
            (s.pending = 0 ∨ s.port.ttyStopped = true) →
            exec .txDmaDone s = .next (idle.reply (.result []))))

/-- TX_STOP (42_transmit R153): NOT_RUNNING; in DMA mode the channel stops and the busy flag clears;
in poll mode `TXIM` clears; the ring is kept. -/
def Obligations.StopResult : Prop :=
  ∀ s : State,
    (s.port.life ≠ .running → exec .txStop s
      = .next (s.setPort fun q => { q with fault := some .notRunning }))
    ∧ (s.port.life = .running → channelsOk s = true →
      let m := s.params.regMap
      (s.params.mode = .dma → ∃ t, exec .txStop s = .next t
        ∧ Leaves s t (((s.setDtx fun d => { d with run := false, done := false }).setPort fun q =>
            { q with txBusy := false, txLen := 0 }).reply (.result []))
        ∧ t.dtx.run = false ∧ t.dtx.done = false)
      ∧ (s.params.mode = .poll → ∃ t, exec .txStop s = .next t
        ∧ Leaves s t ((s.setUart fun u =>
            { u with im := withBit (u.im &&& definedMask m .im) m.txInt false }).reply (.result []))))

/-- Only a kick emits `Wakeup`, and one operation emits at most one (42_transmit R151): TX_KICK,
TX_DMA_DONE and IRQ_DISPATCH, which perform a kick, and the second step of WRITE. -/
def Obligations.WakeupsComeFromKicksOnly : Prop :=
  (∀ (i : Instr) (s t : State), exec i s = .next t →
    wakeups s.port.out ≤ wakeups t.port.out ∧ wakeups t.port.out ≤ wakeups s.port.out + 1
      ∧ (i ≠ .txKick → i ≠ .txDmaDone → i ≠ .irqDispatch →
          wakeups t.port.out = wakeups s.port.out))
  ∧ ∀ (acc : Nat) (s t : State), finishWrite acc s = .next t →
      wakeups t.port.out ≤ wakeups s.port.out + 1

/-- No byte accepted for transmission is lost, doubled or reordered (the safety part of 42_transmit
R155): wire, TX FIFO, staged bytes and ring, read in this order, only grow, by what the step's command
accepts, unless it is a TX_STOP or a SHUTDOWN. That a byte reaches the wire in the end is a liveness
claim, left out with fairness (log 16). A zero divisor, pending,
active or committed, would put free bytes on the wire (20_memory R76). -/
def Obligations.TransmitLineKeepsItsOrder : Prop :=
  ∀ s t : State, Inv s → s.uart.ibrdAct ≠ 0 → s.uart.ibrdPend ≠ 0 →
    (∀ c, s.port.committed = some c → BitVec.ofNat 16 c.brdi ≠ 0) →
    commandAt s ≠ some .txStop → commandAt s ≠ some .shutdown →
    step s = .next t →
      transmitLine t = transmitLine s ++ acceptedBy s (commandAt s)

/-! ### Receive -/

/-- RX_CLASSIFY (43_receive R166): break, parity, overrun, frame, in this order, on the unmasked
status. RX_FLAG (R168): flag, discard and overrun mark from the masked status. -/
def Obligations.StatusDecodeResults : Prop :=
  ∀ (s : State) (st : Status),
    exec (.rxClassify st) s = .next (s.reply (.result
      [if st.getLsbD 2 then 1 else if st.getLsbD 1 then 2 else if st.getLsbD 3 then 3
       else if st.getLsbD 0 then 4 else 0]))
    ∧ (let ms := st &&& s.port.readMask
      let ig := s.port.ignoreMask
      exec (.rxFlag st) s = .next (s.reply (.result
        [if ms.getLsbD 2 then 1 else if ms.getLsbD 1 then 2 else if ms.getLsbD 0 then 3 else 0,
         if (ms.getLsbD 2 && ig.getLsbD 2) || (ms.getLsbD 1 && ig.getLsbD 1)
            || (ms.getLsbD 0 && ig.getLsbD 0) then 1 else 0,
         if ms.getLsbD 3 && !ig.getLsbD 3 then 1 else 0])))

/-- RX_POLL_EVENT with no environment step inside it (43_receive R172): it reads the FIFO up to the
bound, counts every character and its class, and delivers one batch, if any. The answers of the host
to `HandleBreak` are free values (log 6). -/
def Obligations.PollEventReadsTheFifo : Prop :=
  ∀ s : State, paramsOk s.params = true → s.gaps = [] →
    let n := match s.params.pollMax with
      | none => s.uart.rxf.length
      | some bound => min bound s.uart.rxf.length
    let es := s.uart.rxf.take n
    let batch := batchOf s s.draws es
    let drawn : State := { s with draws := s.draws + es.countP fun e => has e.2 setBE }
    exec .rxPollEvent s = .next (((drawn.setUart fun u =>
          { u with rxf := u.rxf.drop n }).setPort fun q => { q with
        cntRx := q.cntRx + BitVec.ofNat 32 n
        cntBrk := q.cntBrk + classCount .brk es
        cntParity := q.cntParity + classCount .parity es
        cntOverrun := q.cntOverrun + classCount .overrun es
        cntFrame := q.cntFrame + classCount .frame es
        out := if batch = [] then q.out else q.out ++ [.deliver batch] }).reply (.result []))

/-- RX_POLL_EVENT without a bound ends with an empty RX FIFO, whatever arrives while it runs
(43_receive R172). That it ends is the model's finite schedule (log 15). -/
def Obligations.UnboundedPollEventEmptiesTheFifo : Prop :=
  ∀ s : State, paramsOk s.params = true → s.params.mode = .poll → s.params.pollMax = none →
    ∃ t, exec .rxPollEvent s = .next t ∧ t.uart.rxf = [] ∧ t.port.fault = s.port.fault
      ∧ t.port.ring = s.port.ring ∧ t.port.head = s.port.head ∧ t.port.tail = s.port.tail
      ∧ regsOf t.uart = regsOf s.uart ∧ t.mem = s.mem ∧ t.dtx = s.dtx ∧ t.drx = s.drx

/-- RX_DMA_EVENT (43_receive R174, R177): nothing while busy; otherwise the slots swap, the new
landing slot is armed, and captured bytes, if any, are handed to a task with the busy flag set. The
count is what had been captured when the channel stopped. -/
def Obligations.DmaEventSwapsTheSlots : Prop :=
  ∀ s : State, s.issuer ≠ .task →
    (s.port.rxBusy = true → exec .rxDmaEvent s = .next (s.reply (.result [])))
    ∧ (s.port.rxBusy = false → s.params.mode = .dma → 2 ≤ s.params.slotCap → channelsOk s = true →
      ∃ t n, exec .rxDmaEvent s = .next t
        ∧ s.captured ≤ n ∧ n ≤ s.params.slotCap ∧ (s.gaps = [] → n = s.captured)
        ∧ t.drx = ⟨true, otherSlot s.port.landing, 1, s.params.slotCap - 1, false⟩
        ∧ Leaves s t (((s.setDrx fun _ =>
            ⟨true, otherSlot s.port.landing, 1, s.params.slotCap - 1, false⟩).setPort fun q => { q with
              landing := otherSlot q.landing
              rxBusy := decide (0 < n)
              task := if 0 < n then some ⟨q.landing, n, .copy⟩ else q.task }).reply (.result [])))

/-- The Task's re-check (43_receive R181): when it is owed it clears the flag and performs the receive
event; when it is not owed the Task issues nothing, which the model shows as no effect (log 9). -/
def Obligations.RecheckRunsTheEventAgain : Prop :=
  ∀ s : State, s.issuer = .task →
    (s.port.recheck = true → s.port.life = .running → s.port.rxBusy = true →
      exec .rxDmaEvent s
        = .next ((s.setPort fun q => { q with recheck := false }).reply (.result [])))
    ∧ (s.port.recheck = true → s.port.life = .running →
      ∀ t, rxDmaEvent (s.setPort fun q => { q with recheck := false }) = .ok () t →
        exec .rxDmaEvent s = .next (t.reply (.result [])))
    ∧ ((s.port.recheck = false ∨ s.port.life ≠ .running) → exec .rxDmaEvent s = .next s)

/-- RX_TASK_COPY (43_receive R178): the ready slot's captured bytes are delivered, all flagged normal,
and the task moves to its FINISH phase; a task on the landing slot is `SLOT_RACE`. RX_TASK_FINISH
(R179): count, clear the busy flag, end the task, owe the re-check. -/
def Obligations.DeliveryTaskSteps : Prop :=
  ∀ (s : State) (x : Slot) (n : Nat), s.port.life = .running →
    (s.port.task = some ⟨x, n, .copy⟩ → x = s.port.landing → exec .rxTaskCopy s
      = .next (s.setPort fun q => { q with fault := some .slotRace }))
    ∧ (s.port.task = some ⟨x, n, .copy⟩ → x ≠ s.port.landing → s.params.mode = .dma →
      n ≤ s.params.slotCap → exec .rxTaskCopy s = .next ((s.setPort fun q => { q with
          out := q.out ++ [.deliver ((s.memBytes (slotAddr s.params x) n).map fun b => (b, .normal))]
          task := some ⟨x, n, .finish⟩ }).reply (.result [])))
    ∧ (s.port.task = some ⟨x, n, .finish⟩ → exec .rxTaskFinish s
      = .next ((s.setPort fun q => { q with
          cntRx := q.cntRx + BitVec.ofNat 32 n, rxBusy := false, task := none
          recheck := true }).reply (.result [])))

/-- Received bytes of DMA mode keep their arrival order (43_receive R183): delivered bytes, the task's
bytes, the captured bytes and the RX FIFO, read in this order, only grow at the end, and only by bytes
that may arrive in this step, unless the step is a SHUTDOWN. -/
def Obligations.ReceiveLineKeepsItsOrder : Prop :=
  ∀ s t : State, Inv s → s.params.mode = .dma → s.port.life = .running →
    commandAt s ≠ some .shutdown → step s = .next t →
      ∃ arrived, receiveLine t = receiveLine s ++ arrived
        ∧ arrived.Sublist (arrivalsAhead s)

/-- DMA mode decodes no receive errors (43_receive R182): the four error counters never change, and
every delivered flag is normal. -/
def Obligations.DmaModeReportsNoErrors : Prop :=
  ∀ s t : State, s.params.mode = .dma → step s = .next t →
    t.port.cntOverrun = s.port.cntOverrun ∧ t.port.cntParity = s.port.cntParity
      ∧ t.port.cntFrame = s.port.cntFrame ∧ t.port.cntBrk = s.port.cntBrk
      ∧ ∃ more, t.port.out = s.port.out ++ more
        ∧ ∀ recs, OutEvent.deliver recs ∈ more → ∀ r ∈ recs, r.2 = Flag.normal

/-! ### Interrupts -/

/-- IRQ_DISPATCH in poll mode with no environment step inside it (44_dispatch R196, R197, R199, R200):
every source is cleared, then the receive event runs if a receive bit was set and the kick runs if the
TX bit was, receive first. -/
def Obligations.DispatchInPollMode : Prop :=
  ∀ s : State, s.gaps = [] → s.port.life = .running → s.params.mode = .poll →
    let m := s.params.regMap
    let mis := s.uart.ris &&& s.uart.im
    let cleared := s.setUart fun u => { u with ris := u.ris &&& ~~~ icrAll m }
    ((mis.getLsbD m.rxInt || mis.getLsbD m.rtInt) = false →
      (mis.getLsbD m.txInt = false → exec .irqDispatch s = .next (cleared.reply (.result [])))
      ∧ (mis.getLsbD m.txInt = true → exec .irqDispatch s = exec .txKick cleared))
    ∧ ((mis.getLsbD m.rxInt || mis.getLsbD m.rtInt) = true →
      (mis.getLsbD m.txInt = false → exec .irqDispatch s = exec .rxPollEvent cleared)
      ∧ (mis.getLsbD m.txInt = true → ∃ u, rxPollEvent cleared = .ok () u
          ∧ exec .irqDispatch s = exec .txKick u))

/-- IRQ_DISPATCH in DMA mode with no environment step inside it (44_dispatch R196, R198, R199, R200):
every source is cleared, the receive channel is asked and the receive event runs on its answer or on a
receive bit, then the transmit channel is asked and the completion runs on its answer alone. -/
def Obligations.DispatchInDmaMode : Prop :=
  ∀ s : State, s.gaps = [] → s.port.life = .running → s.params.mode = .dma →
    let m := s.params.regMap
    let mis := s.uart.ris &&& s.uart.im
    let rx := s.drx.done || mis.getLsbD m.rxInt || mis.getLsbD m.rtInt
    let asked := (s.setUart fun u => { u with ris := u.ris &&& ~~~ icrAll m }).setDrx fun d =>
      { d with done := false }
    let acked := fun u : State => u.setDtx fun d => { d with done := false }
    (rx = false →
      (s.dtx.done = false → exec .irqDispatch s = .next ((acked asked).reply (.result [])))
      ∧ (s.dtx.done = true → exec .irqDispatch s = exec .txDmaDone (acked asked)))
    ∧ (rx = true → ∃ u, rxDmaEvent asked = .ok () u
      ∧ (s.dtx.done = false → exec .irqDispatch s = .next ((acked u).reply (.result [])))
      ∧ (s.dtx.done = true → exec .irqDispatch s = exec .txDmaDone (acked u)))

/-- In every state of a run, and whatever the environment does inside it, IRQ_DISPATCH completes
without a fault (44_dispatch R196). That it completes also with `P_RX_POLL_MAX = unbounded` is the
model's finite schedule (log 15): 44_dispatch R201 and 70_reset_and_hazards R246 let it run on there. -/
def Obligations.DispatchNeverFaults : Prop :=
  ∀ s : State, Inv s → s.port.life = .running →
    ∃ t, exec .irqDispatch s = .next t ∧ t.port.fault = s.port.fault
      ∧ t.replies = s.replies ++ [(s.issuer, .result [])]

/-- A TX interrupt raised between the `MIS` read and the clearing write is lost (70_reset_and_hazards
R243): the dispatch neither handles it nor leaves it pending, and the bytes of the ring wait. -/
def Obligations.TransmitInterruptCanBeLost : Prop :=
  ∀ s : State, s.params.mode = .poll → s.port.life = .running → s.misValue &&& icrAll s.params.regMap = 0 →
    s.uart.txf.length ≤ s.txLevel → s.gaps = [[], [.raiseTx]] →
    ∃ t, exec .irqDispatch s = .next t ∧ t.uart.ris.getLsbD s.params.regMap.txInt = false
      ∧ t.port = s.port ∧ t.uart.im = s.uart.im ∧ t.uart.txf = s.uart.txf

/-! ### Port control -/

/-- Lifecycle gating (45_port_control R208, 60_exceptions R210, R219). Host misuse faults before any
effect: the state is the one before the operation, with the fault set. `Irq` and `Task` issue nothing
outside RUNNING, and the Task nothing it does not owe, which the model shows as a step without effect
(log 9). -/
def Obligations.LifecycleGating : Prop :=
  ∀ (s : State) (data : List Byte) (on : Bool) (b : Byte),
    (s.port.life ≠ .running → ∀ i, i ∈ [Instr.write data, .txKick, .txStop, .setBreak on,
        .rbTryEnqueue b, .shutdown] →
      exec i s = .next (s.setPort fun q => { q with fault := some .notRunning }))
    ∧ (s.port.life = .running →
      exec .startup s = .next (s.setPort fun q => { q with fault := some .alreadyRunning }))
    ∧ (s.port.life ≠ .running → exec .irqDispatch s = .next s)
    ∧ ((s.port.life ≠ .running ∨ ∀ k, s.port.task = some k → k.phase ≠ .copy) →
        exec .rxTaskCopy s = .next s)
    ∧ ((s.port.life ≠ .running ∨ ∀ k, s.port.task = some k → k.phase ≠ .finish) →
        exec .rxTaskFinish s = .next s)

/-- The state after STARTUP (70_reset_and_hazards R233, 45_port_control R203): the running state is
re-initialised, the registers are programmed, a committed configuration is committed again, and in DMA
mode slot A is armed. -/
def Obligations.StartupResult : Prop :=
  ∀ s : State, s.port.life ≠ .running → paramsOk s.params = true → IdleInv s →
    (∀ c, s.port.committed = some c → c.lcrh.getLsbD s.params.regMap.fen = true) →
    let m := s.params.regMap
    ∃ t, exec .startup s = .next t
      ∧ Leaves s t ((((s.setUart fun u =>
          let v := match s.port.committed with
            | none => u
            | some c => { u with
                ibrdPend := BitVec.ofNat 16 c.brdi, fbrdPend := BitVec.ofNat 6 c.divfrac
                ibrdAct := BitVec.ofNat 16 c.brdi, fbrdAct := BitVec.ofNat 6 c.divfrac
                lcrh := c.lcrh &&& definedMask m .lcrh }
          { v with
            ris := v.ris &&& ~~~ icrAll m, ifls := iflsValue s.params, ctl := ctlOn m
            im := if s.params.mode = .dma then imDma m else imPoll m
            dmactl := if s.params.mode = .dma then dmactlOn m else 0 }).setDrx fun d =>
          if s.params.mode = .dma then ⟨true, .a, 1, s.params.slotCap - 1, false⟩ else d).setPort
          fun q => { q with
            life := .running, head := 0, tail := 0, txBusy := false, txLen := 0, rxBusy := false
            landing := .a, task := none, recheck := false }).reply (.result []))

/-- The state after SHUTDOWN (70_reset_and_hazards R234, 45_port_control R204). `DMACTL` is written in
DMA mode only. The interrupt line is low (60_exceptions R219). What the FIFOs hold is a draw: with no
environment step inside, some sub-list of what they held. -/
def Obligations.ShutdownResult : Prop :=
  ∀ s : State, s.port.life = .running → channelsOk s = true →
    let m := s.params.regMap
    ∃ t, exec .shutdown s = .next t
      ∧ viewOf t = viewOf (((s.setUart fun u => { u with
          im := 0, ctl := ctlOff m
          dmactl := if s.params.mode = .dma then 0 else u.dmactl
          lcrh := withBit (withBit u.lcrh m.brk false) m.fen false &&& definedMask m .lcrh
          ibrdAct := u.ibrdPend, fbrdAct := u.fbrdPend }).setPort fun q => { q with
          life := .stopped, head := 0, tail := 0, txBusy := false, txLen := 0, rxBusy := false
          task := none, recheck := false, landing := .a }).reply (.result []))
      ∧ (s.params.mode = .dma → t.dtx.run = false ∧ t.dtx.done = false
          ∧ t.drx.run = false ∧ t.drx.done = false)
      ∧ (s.params.mode = .dma ∨ (s.dtx.done = false ∧ s.drx.done = false) → t.irqLine = false)
      ∧ sameOutsideSlots s t
      ∧ (s.gaps = [] → t.uart.ris = s.uart.ris &&& ~~~ icrAll m ∧ t.uart.wire = s.uart.wire
          ∧ t.uart.txf.Sublist s.uart.txf ∧ t.uart.rxf.Sublist s.uart.rxf ∧ t.mem = s.mem)

/-- SET_BREAK (45_port_control R205): NOT_RUNNING, or `LCRH.BRK` is set as asked and the pending
divisor is latched; nothing else changes. -/
def Obligations.SetBreakResult : Prop :=
  ∀ (s : State) (on : Bool),
    (s.port.life ≠ .running → exec (.setBreak on) s
      = .next (s.setPort fun q => { q with fault := some .notRunning }))
    ∧ (s.port.life = .running → paramsOk s.params = true → channelsOk s = true →
      let m := s.params.regMap
      ∃ t, exec (.setBreak on) s = .next t
        ∧ Leaves s t ((s.setUart fun u => { u with
            lcrh := withBit u.lcrh m.brk on &&& definedMask m .lcrh, ibrdAct := u.ibrdPend, fbrdAct := u.fbrdPend }).reply
          (.result [])))

/-- QUERY_TX_EMPTY (45_port_control R206): 1 iff the TX FIFO is empty at the moment of the read. -/
def Obligations.QueryTxEmptyResult : Prop :=
  ∀ s : State, paramsOk s.params = true → channelsOk s = true →
    ∃ u, Leaves s u s ∧ exec .queryTxEmpty s
      = .next (u.reply (.result [if u.uart.txf = [] then 1 else 0]))

/-- SET_TTY_STOPPED (45_port_control R207): the flag is set as asked, in any life state, and nothing
else happens. -/
def Obligations.SetTtyStoppedResult : Prop :=
  ∀ (s : State) (on : Bool), exec (.setTtyStopped on) s
    = .next ((s.setPort fun q => { q with ttyStopped := on }).reply (.result []))

/-! ### The whole machine -/

/-- Only the producer moves `head` and only the TransmitEngine moves `tail`; STARTUP and SHUTDOWN
reset both (40_ringbuffer R117). RB_DEQUEUE_UP_TO stands for its part in a kick; the second step of
WRITE kicks, so it may move `tail` and leaves `head`. -/
def Obligations.RingIndexOwnership : Prop :=
  (∀ (i : Instr) (s t : State), exec i s = .next t →
    ((∀ d, i ≠ .write d) → (∀ b, i ≠ .rbTryEnqueue b) → i ≠ .startup → i ≠ .shutdown →
      t.port.head = s.port.head ∧ t.port.ring = s.port.ring)
    ∧ (i ≠ .txKick → i ≠ .txDmaDone → i ≠ .irqDispatch → (∀ n, i ≠ .rbDequeueUpTo n) →
      i ≠ .startup → i ≠ .shutdown → t.port.tail = s.port.tail))
  ∧ (∀ (acc : Nat) (s t : State), finishWrite acc s = .next t →
      t.port.head = s.port.head ∧ t.port.ring = s.port.ring)
  ∧ (∀ s t : State, s.port.life ≠ .running → exec .startup s = .next t →
      t.port.head = 0 ∧ t.port.tail = 0)
  ∧ ∀ s t : State, s.port.life = .running → channelsOk s = true → exec .shutdown s = .next t →
      t.port.head = 0 ∧ t.port.tail = 0

/-- STARTUP moves ATTACHED or STOPPED to RUNNING, SHUTDOWN moves RUNNING to STOPPED, and nothing else
moves `life` (10_state R21). The configuration, the commitment and the masks are written by LINE_APPLY
alone (10_state R22, R29). -/
def Obligations.LifeAndConfigurationOwnership : Prop :=
  ∀ s t : State, step s = .next t →
    (t.port.life ≠ s.port.life →
      (commandAt s = some .startup ∧ s.port.life ≠ .running ∧ t.port.life = .running)
      ∨ (commandAt s = some .shutdown ∧ s.port.life = .running ∧ t.port.life = .stopped))
    ∧ ((∀ l p b, commandAt s ≠ some (.lineApply l p b)) →
      t.port.cfg = s.port.cfg ∧ t.port.committed = s.port.committed
        ∧ t.port.readMask = s.port.readMask ∧ t.port.ignoreMask = s.port.ignoreMask)

/-- DMA-visible memory outside the slots is written by kicks only, and then only in the staging area
(20_memory R75): every other byte reads as before, after every command, and after the second step of
WRITE, which kicks. -/
def Obligations.MemoryWrittenByKicksAndDmaOnly : Prop :=
  (∀ (i : Instr) (s t : State), Inv s → exec i s = .next t →
    ∀ a, outsideSlots s.params a →
      (outsideStage s.params a ∨ (i ≠ .txKick ∧ i ≠ .txDmaDone ∧ i ≠ .irqDispatch)) →
      t.mem.read a = s.mem.read a)
  ∧ ∀ (acc : Nat) (s t : State), Inv s → finishWrite acc s = .next t →
    ∀ a, outsideSlots s.params a → outsideStage s.params a → t.mem.read a = s.mem.read a

/-- What a step emits is only ever added at the end: output events (10_state R31) and wire bytes
(10_state R45). The other clauses are about the model's own form: replies are only added to their list
(log 12), the words of the host's stream (30_encoding R92, log 17) are only taken from the front, and
the parameters stay (log 3). -/
def Obligations.OutputsOnlyGrow : Prop :=
  ∀ s t : State, step s = .next t →
    t.params = s.params ∧ s.port.out <+: t.port.out ∧ s.uart.wire <+: t.uart.wire
      ∧ s.replies <+: t.replies ∧ t.stream <:+ s.stream

/-- Every step keeps the machine's invariant: ring, FIFO and register bounds (the FIFOs of a stopped
port within `P_FIFO_DEPTH` only, log 7), canonical memory, the DMA invariants of 43_receive R184, idle
DMA where it is not in use. -/
def Obligations.StepKeepsTheInvariant : Prop :=
  ∀ s t : State, Inv s → step s = .next t → Inv t

/-- No operation and no channel reads a byte before it was written (10_state R24, R51): every byte
that will be read has been written, and every step keeps this. -/
def Obligations.StepKeepsReadableBytesWritten : Prop :=
  ∀ s t : State, Inv s → Written s → step s = .next t → Written t

/-- The faults that 60_exceptions R210 calls unreachable are never raised: from a state of a run no
step raises a fault other than NOT_RUNNING, ALREADY_RUNNING and BAUD_ZERO. -/
def Obligations.OnlyHostMisuseFaults : Prop :=
  ∀ s t : State, Inv s → s.port.fault = none → step s = .next t →
    t.port.fault = none ∨ t.port.fault = some .notRunning
      ∨ t.port.fault = some .alreadyRunning ∨ t.port.fault = some .baudZero
end

