-- ==== Sys2Proof/Laws/State.lean ====
section
/-! SUPPORT. One lemma per field of `State` and per update of it, so that no proof unfolds an update. -/

namespace Sys2Proof.Machine

variable (s : State)

/-! `State.setPort` -/

@[simp] theorem State.setPort_params (f : Port → Port) : (s.setPort f).params = s.params := rfl
@[simp] theorem State.setPort_port (f : Port → Port) : (s.setPort f).port = f s.port := rfl
@[simp] theorem State.setPort_uart (f : Port → Port) : (s.setPort f).uart = s.uart := rfl
@[simp] theorem State.setPort_dtx (f : Port → Port) : (s.setPort f).dtx = s.dtx := rfl
@[simp] theorem State.setPort_drx (f : Port → Port) : (s.setPort f).drx = s.drx := rfl
@[simp] theorem State.setPort_mem (f : Port → Port) : (s.setPort f).mem = s.mem := rfl
@[simp] theorem State.setPort_stream (f : Port → Port) : (s.setPort f).stream = s.stream := rfl
@[simp] theorem State.setPort_writeOwed (f : Port → Port) : (s.setPort f).writeOwed = s.writeOwed := rfl
@[simp] theorem State.setPort_issuer (f : Port → Port) : (s.setPort f).issuer = s.issuer := rfl
@[simp] theorem State.setPort_replies (f : Port → Port) : (s.setPort f).replies = s.replies := rfl
@[simp] theorem State.setPort_turns (f : Port → Port) : (s.setPort f).turns = s.turns := rfl
@[simp] theorem State.setPort_gaps (f : Port → Port) : (s.setPort f).gaps = s.gaps := rfl
@[simp] theorem State.setPort_draws (f : Port → Port) : (s.setPort f).draws = s.draws := rfl

/-! `State.setUart` -/

@[simp] theorem State.setUart_params (f : Uart → Uart) : (s.setUart f).params = s.params := rfl
@[simp] theorem State.setUart_port (f : Uart → Uart) : (s.setUart f).port = s.port := rfl
@[simp] theorem State.setUart_uart (f : Uart → Uart) : (s.setUart f).uart = f s.uart := rfl
@[simp] theorem State.setUart_dtx (f : Uart → Uart) : (s.setUart f).dtx = s.dtx := rfl
@[simp] theorem State.setUart_drx (f : Uart → Uart) : (s.setUart f).drx = s.drx := rfl
@[simp] theorem State.setUart_mem (f : Uart → Uart) : (s.setUart f).mem = s.mem := rfl
@[simp] theorem State.setUart_stream (f : Uart → Uart) : (s.setUart f).stream = s.stream := rfl
@[simp] theorem State.setUart_writeOwed (f : Uart → Uart) : (s.setUart f).writeOwed = s.writeOwed := rfl
@[simp] theorem State.setUart_issuer (f : Uart → Uart) : (s.setUart f).issuer = s.issuer := rfl
@[simp] theorem State.setUart_replies (f : Uart → Uart) : (s.setUart f).replies = s.replies := rfl
@[simp] theorem State.setUart_turns (f : Uart → Uart) : (s.setUart f).turns = s.turns := rfl
@[simp] theorem State.setUart_gaps (f : Uart → Uart) : (s.setUart f).gaps = s.gaps := rfl
@[simp] theorem State.setUart_draws (f : Uart → Uart) : (s.setUart f).draws = s.draws := rfl

/-! `State.setDtx` -/

@[simp] theorem State.setDtx_params (f : TxChannel → TxChannel) : (s.setDtx f).params = s.params := rfl
@[simp] theorem State.setDtx_port (f : TxChannel → TxChannel) : (s.setDtx f).port = s.port := rfl
@[simp] theorem State.setDtx_uart (f : TxChannel → TxChannel) : (s.setDtx f).uart = s.uart := rfl
@[simp] theorem State.setDtx_dtx (f : TxChannel → TxChannel) : (s.setDtx f).dtx = f s.dtx := rfl
@[simp] theorem State.setDtx_drx (f : TxChannel → TxChannel) : (s.setDtx f).drx = s.drx := rfl
@[simp] theorem State.setDtx_mem (f : TxChannel → TxChannel) : (s.setDtx f).mem = s.mem := rfl
@[simp] theorem State.setDtx_stream (f : TxChannel → TxChannel) : (s.setDtx f).stream = s.stream := rfl
@[simp] theorem State.setDtx_writeOwed (f : TxChannel → TxChannel) : (s.setDtx f).writeOwed = s.writeOwed := rfl
@[simp] theorem State.setDtx_issuer (f : TxChannel → TxChannel) : (s.setDtx f).issuer = s.issuer := rfl
@[simp] theorem State.setDtx_replies (f : TxChannel → TxChannel) : (s.setDtx f).replies = s.replies := rfl
@[simp] theorem State.setDtx_turns (f : TxChannel → TxChannel) : (s.setDtx f).turns = s.turns := rfl
@[simp] theorem State.setDtx_gaps (f : TxChannel → TxChannel) : (s.setDtx f).gaps = s.gaps := rfl
@[simp] theorem State.setDtx_draws (f : TxChannel → TxChannel) : (s.setDtx f).draws = s.draws := rfl

/-! `State.setDrx` -/

@[simp] theorem State.setDrx_params (f : RxChannel → RxChannel) : (s.setDrx f).params = s.params := rfl
@[simp] theorem State.setDrx_port (f : RxChannel → RxChannel) : (s.setDrx f).port = s.port := rfl
@[simp] theorem State.setDrx_uart (f : RxChannel → RxChannel) : (s.setDrx f).uart = s.uart := rfl
@[simp] theorem State.setDrx_dtx (f : RxChannel → RxChannel) : (s.setDrx f).dtx = s.dtx := rfl
@[simp] theorem State.setDrx_drx (f : RxChannel → RxChannel) : (s.setDrx f).drx = f s.drx := rfl
@[simp] theorem State.setDrx_mem (f : RxChannel → RxChannel) : (s.setDrx f).mem = s.mem := rfl
@[simp] theorem State.setDrx_stream (f : RxChannel → RxChannel) : (s.setDrx f).stream = s.stream := rfl
@[simp] theorem State.setDrx_writeOwed (f : RxChannel → RxChannel) : (s.setDrx f).writeOwed = s.writeOwed := rfl
@[simp] theorem State.setDrx_issuer (f : RxChannel → RxChannel) : (s.setDrx f).issuer = s.issuer := rfl
@[simp] theorem State.setDrx_replies (f : RxChannel → RxChannel) : (s.setDrx f).replies = s.replies := rfl
@[simp] theorem State.setDrx_turns (f : RxChannel → RxChannel) : (s.setDrx f).turns = s.turns := rfl
@[simp] theorem State.setDrx_gaps (f : RxChannel → RxChannel) : (s.setDrx f).gaps = s.gaps := rfl
@[simp] theorem State.setDrx_draws (f : RxChannel → RxChannel) : (s.setDrx f).draws = s.draws := rfl

/-! `State.setMem` -/

@[simp] theorem State.setMem_params (m : Memory) : (s.setMem m).params = s.params := rfl
@[simp] theorem State.setMem_port (m : Memory) : (s.setMem m).port = s.port := rfl
@[simp] theorem State.setMem_uart (m : Memory) : (s.setMem m).uart = s.uart := rfl
@[simp] theorem State.setMem_dtx (m : Memory) : (s.setMem m).dtx = s.dtx := rfl
@[simp] theorem State.setMem_drx (m : Memory) : (s.setMem m).drx = s.drx := rfl
@[simp] theorem State.setMem_mem (m : Memory) : (s.setMem m).mem = m := rfl
@[simp] theorem State.setMem_stream (m : Memory) : (s.setMem m).stream = s.stream := rfl
@[simp] theorem State.setMem_writeOwed (m : Memory) : (s.setMem m).writeOwed = s.writeOwed := rfl
@[simp] theorem State.setMem_issuer (m : Memory) : (s.setMem m).issuer = s.issuer := rfl
@[simp] theorem State.setMem_replies (m : Memory) : (s.setMem m).replies = s.replies := rfl
@[simp] theorem State.setMem_turns (m : Memory) : (s.setMem m).turns = s.turns := rfl
@[simp] theorem State.setMem_gaps (m : Memory) : (s.setMem m).gaps = s.gaps := rfl
@[simp] theorem State.setMem_draws (m : Memory) : (s.setMem m).draws = s.draws := rfl

/-! `State.reply` -/

@[simp] theorem State.reply_params (r : Reply) : (s.reply r).params = s.params := rfl
@[simp] theorem State.reply_port (r : Reply) : (s.reply r).port = s.port := rfl
@[simp] theorem State.reply_uart (r : Reply) : (s.reply r).uart = s.uart := rfl
@[simp] theorem State.reply_dtx (r : Reply) : (s.reply r).dtx = s.dtx := rfl
@[simp] theorem State.reply_drx (r : Reply) : (s.reply r).drx = s.drx := rfl
@[simp] theorem State.reply_mem (r : Reply) : (s.reply r).mem = s.mem := rfl
@[simp] theorem State.reply_stream (r : Reply) : (s.reply r).stream = s.stream := rfl
@[simp] theorem State.reply_writeOwed (r : Reply) : (s.reply r).writeOwed = s.writeOwed := rfl
@[simp] theorem State.reply_issuer (r : Reply) : (s.reply r).issuer = s.issuer := rfl
@[simp] theorem State.reply_replies (r : Reply) : (s.reply r).replies = s.replies ++ [(s.issuer, r)] := rfl
@[simp] theorem State.reply_turns (r : Reply) : (s.reply r).turns = s.turns := rfl
@[simp] theorem State.reply_gaps (r : Reply) : (s.reply r).gaps = s.gaps := rfl
@[simp] theorem State.reply_draws (r : Reply) : (s.reply r).draws = s.draws := rfl

/-! `State.issuedBy` -/

@[simp] theorem State.issuedBy_params (w : Issuer) : (s.issuedBy w).params = s.params := rfl
@[simp] theorem State.issuedBy_port (w : Issuer) : (s.issuedBy w).port = s.port := rfl
@[simp] theorem State.issuedBy_uart (w : Issuer) : (s.issuedBy w).uart = s.uart := rfl
@[simp] theorem State.issuedBy_dtx (w : Issuer) : (s.issuedBy w).dtx = s.dtx := rfl
@[simp] theorem State.issuedBy_drx (w : Issuer) : (s.issuedBy w).drx = s.drx := rfl
@[simp] theorem State.issuedBy_mem (w : Issuer) : (s.issuedBy w).mem = s.mem := rfl
@[simp] theorem State.issuedBy_stream (w : Issuer) : (s.issuedBy w).stream = s.stream := rfl
@[simp] theorem State.issuedBy_writeOwed (w : Issuer) : (s.issuedBy w).writeOwed = s.writeOwed := rfl
@[simp] theorem State.issuedBy_issuer (w : Issuer) : (s.issuedBy w).issuer = w := rfl
@[simp] theorem State.issuedBy_replies (w : Issuer) : (s.issuedBy w).replies = s.replies := rfl
@[simp] theorem State.issuedBy_turns (w : Issuer) : (s.issuedBy w).turns = s.turns := rfl
@[simp] theorem State.issuedBy_gaps (w : Issuer) : (s.issuedBy w).gaps = s.gaps := rfl
@[simp] theorem State.issuedBy_draws (w : Issuer) : (s.issuedBy w).draws = s.draws := rfl

end Sys2Proof.Machine
end

