-- ==== Sys2Proof/Laws/Effect.lean ====
section
/-! SUPPORT. How operation bodies run: one equation per construct, and two ways to compose what they
do: `Keeps` for a relation every outcome respects, `Runs` for a body that ends normally. -/

namespace Sys2Proof.Machine

/-! ### Equations -/

@[simp] theorem op_pure {α : Type} (a : α) (s : State) : (pure a : Op α) s = .ok a s := rfl

theorem op_bind {α β : Type} (x : Op α) (f : α → Op β) (s : State) :
    (x >>= f) s = match x s with
      | .ok a t => f a t
      | .error e t => .error e t := by
  show EStateM.bind x f s = _
  unfold EStateM.bind
  cases x s <;> rfl

/-- A body whose first part ends normally goes on in the state it left. -/
theorem op_bind_ok {α β : Type} {x : Op α} {f : α → Op β} {s t : State} {a : α}
    (h : x s = .ok a t) : (x >>= f) s = f a t := by rw [op_bind, h]

theorem op_bind_error {α β : Type} {x : Op α} {f : α → Op β} {s t : State} {e : FaultReason}
    (h : x s = .error e t) : (x >>= f) s = .error e t := by rw [op_bind, h]

@[simp] theorem theState_run (s : State) : theState s = .ok s s := rfl

@[simp] theorem theState_bind {β : Type} (f : State → Op β) (s : State) :
    (theState >>= f) s = f s s := rfl

@[simp] theorem pure_bind_run {α β : Type} (a : α) (f : α → Op β) (s : State) :
    ((pure a : Op α) >>= f) s = f a s := rfl

@[simp] theorem modifyPort_run (f : Port → Port) (s : State) :
    modifyPort f s = .ok () (s.setPort f) := rfl

@[simp] theorem modifyUart_run (f : Uart → Uart) (s : State) :
    modifyUart f s = .ok () (s.setUart f) := rfl

@[simp] theorem modifyDtx_run (f : TxChannel → TxChannel) (s : State) :
    modifyDtx f s = .ok () (s.setDtx f) := rfl

@[simp] theorem modifyDrx_run (f : RxChannel → RxChannel) (s : State) :
    modifyDrx f s = .ok () (s.setDrx f) := rfl

@[simp] theorem modifyPort_bind {β : Type} (f : Port → Port) (k : Unit → Op β) (s : State) :
    (modifyPort f >>= k) s = k () (s.setPort f) := rfl

@[simp] theorem modifyUart_bind {β : Type} (f : Uart → Uart) (k : Unit → Op β) (s : State) :
    (modifyUart f >>= k) s = k () (s.setUart f) := rfl

@[simp] theorem modifyDtx_bind {β : Type} (f : TxChannel → TxChannel) (k : Unit → Op β)
    (s : State) : (modifyDtx f >>= k) s = k () (s.setDtx f) := rfl

@[simp] theorem modifyDrx_bind {β : Type} (f : RxChannel → RxChannel) (k : Unit → Op β)
    (s : State) : (modifyDrx f >>= k) s = k () (s.setDrx f) := rfl

@[simp] theorem raiseFault_run {α : Type} (why : FaultReason) (s : State) :
    (raiseFault why : Op α) s = .error why (s.setPort fun q => { q with fault := some why }) := rfl

@[simp] theorem raiseFault_bind {α β : Type} (why : FaultReason) (k : α → Op β) (s : State) :
    ((raiseFault why : Op α) >>= k) s
      = .error why (s.setPort fun q => { q with fault := some why }) := rfl

@[simp] theorem draw_run (s : State) : draw s = .ok s.draws { s with draws := s.draws + 1 } := rfl

theorem op_bind_assoc {α β γ : Type} (x : Op α) (f : α → Op β) (g : β → Op γ) :
    ((x >>= f) >>= g) = (x >>= fun a => f a >>= g) := by
  funext s
  simp only [op_bind]
  cases x s <;> rfl

theorem op_ite_run {α : Type} (c : Prop) [Decidable c] (x y : Op α) (s : State) :
    (if c then x else y) s = if c then x s else y s := by
  split <;> rfl

/-- `requireRunning` in RUNNING does nothing. -/
theorem requireRunning_of_running {s : State} (h : s.port.life = .running) :
    requireRunning s = .ok () s := by
  simp [requireRunning, h]

/-- `requireRunning` outside RUNNING raises `NOT_RUNNING` and changes nothing else. -/
theorem requireRunning_of_not_running {s : State} (h : s.port.life ≠ .running) :
    requireRunning s
      = .error .notRunning (s.setPort fun q => { q with fault := some .notRunning }) := by
  simp [requireRunning, h]

/-! ### From a body to a step -/

theorem perform_ok {body : Op (List Word)} {s t : State} {ws : List Word}
    (h : body s = .ok ws t) : perform body s = .next (t.reply (.result ws)) := by
  simp [perform, h]

theorem perform_error {body : Op (List Word)} {s t : State} {e : FaultReason}
    (h : body s = .error e t) : perform body s = .next t := by
  simp [perform, h]

theorem performUnit_ok {body : Op Unit} {s t : State}
    (h : body s = .ok () t) : performUnit body s = .next (t.reply (.result [])) := by
  apply perform_ok
  rw [op_bind_ok h]
  rfl

theorem performUnit_error {body : Op Unit} {s t : State} {e : FaultReason}
    (h : body s = .error e t) : performUnit body s = .next t :=
  perform_error (op_bind_error h)

/-- A body always answers a next state: the one it ended in, with the reply, or the one with the
raised fault. -/
theorem performUnit_cases (body : Op Unit) (s : State) :
    (∃ t, body s = .ok () t ∧ performUnit body s = .next (t.reply (.result [])))
      ∨ ∃ e t, body s = .error e t ∧ performUnit body s = .next t := by
  cases h : body s with
  | ok a t => exact .inl ⟨t, rfl, performUnit_ok h⟩
  | error e t => exact .inr ⟨e, t, rfl, performUnit_error h⟩

theorem perform_cases (body : Op (List Word)) (s : State) :
    (∃ ws t, body s = .ok ws t ∧ perform body s = .next (t.reply (.result ws)))
      ∨ ∃ e t, body s = .error e t ∧ perform body s = .next t := by
  cases h : body s with
  | ok ws t => exact .inl ⟨ws, t, rfl, perform_ok h⟩
  | error e t => exact .inr ⟨e, t, rfl, perform_error h⟩

theorem performSilent_cases (body : Op Unit) (s : State) :
    (∃ t, body s = .ok () t ∧ performSilent body s = .next t)
      ∨ ∃ e t, body s = .error e t ∧ performSilent body s = .next t := by
  cases h : body s with
  | ok a t => exact .inl ⟨t, rfl, by simp [performSilent, h]⟩
  | error e t => exact .inr ⟨e, t, rfl, by simp [performSilent, h]⟩

/-! ### `Keeps`: a relation that holds from the start to every end of a body -/

/-- Whether it ends normally or by a fault, the body ends in a state related to where it began. -/
def Op.Keeps {α : Type} (R : State → State → Prop) (x : Op α) : Prop :=
  ∀ s, match x s with
    | .ok _ t => R s t
    | .error _ t => R s t

section keeps

variable {α β : Type} {R : State → State → Prop}

theorem Op.Keeps.ok {x : Op α} (h : x.Keeps R) {s t : State} {a : α} (e : x s = .ok a t) :
    R s t := by
  have := h s
  rwa [e] at this

theorem Op.Keeps.error {x : Op α} (h : x.Keeps R) {s t : State} {r : FaultReason}
    (e : x s = .error r t) : R s t := by
  have := h s
  rwa [e] at this

theorem Op.Keeps.of_update (f : State → State) (h : ∀ s, R s (f s)) :
    Op.Keeps (α := Unit) R (fun s => .ok () (f s)) := fun s => h s

theorem keeps_pure (refl : ∀ s, R s s) (a : α) : Op.Keeps R (pure a) := fun s => refl s

theorem keeps_theState (refl : ∀ s, R s s) : Op.Keeps R theState := fun s => refl s

theorem keeps_bind (trans : ∀ s t u, R s t → R t u → R s u) {x : Op α} {f : α → Op β}
    (hx : x.Keeps R) (hf : ∀ a, (f a).Keeps R) : Op.Keeps R (x >>= f) := by
  intro s
  rw [op_bind]
  have h := hx s
  cases e : x s with
  | error r t => rw [e] at h; exact h
  | ok a t =>
    rw [e] at h
    have h2 := hf a t
    simp only
    cases e2 : f a t with
    | ok b u => rw [e2] at h2; exact trans _ _ _ h h2
    | error r u => rw [e2] at h2; exact trans _ _ _ h h2

theorem keeps_ite (c : Prop) [Decidable c] {x y : Op α} (hx : x.Keeps R) (hy : y.Keeps R) :
    Op.Keeps R (if c then x else y) := by
  split <;> assumption

theorem keeps_modifyPort {f : Port → Port} (h : ∀ s : State, R s (s.setPort f)) :
    (modifyPort f).Keeps R := fun s => h s

theorem keeps_modifyUart {f : Uart → Uart} (h : ∀ s : State, R s (s.setUart f)) :
    (modifyUart f).Keeps R := fun s => h s

theorem keeps_modifyDtx {f : TxChannel → TxChannel} (h : ∀ s : State, R s (s.setDtx f)) :
    (modifyDtx f).Keeps R := fun s => h s

theorem keeps_modifyDrx {f : RxChannel → RxChannel} (h : ∀ s : State, R s (s.setDrx f)) :
    (modifyDrx f).Keeps R := fun s => h s

theorem keeps_raiseFault (why : FaultReason)
    (h : ∀ s : State, R s (s.setPort fun q => { q with fault := some why })) :
    Op.Keeps (α := α) R (raiseFault why) := fun s => h s

theorem keeps_draw (h : ∀ s : State, R s { s with draws := s.draws + 1 }) : draw.Keeps R :=
  fun s => h s

end keeps

/-! ### `Runs`: a body that ends normally -/

/-- From a state of `P` the body ends normally, with a value and a state in `Q`. -/
def Op.Runs {α : Type} (x : Op α) (s : State) (Q : α → State → Prop) : Prop :=
  ∃ a t, x s = .ok a t ∧ Q a t

section runs

variable {α β : Type} {s : State}

theorem runs_pure {a : α} {Q : α → State → Prop} (h : Q a s) : Op.Runs (pure a) s Q :=
  ⟨a, s, rfl, h⟩

theorem runs_bind {x : Op α} {f : α → Op β} {P : α → State → Prop} {Q : β → State → Prop}
    (hx : x.Runs s P) (hf : ∀ a t, P a t → (f a).Runs t Q) : Op.Runs (x >>= f) s Q := by
  obtain ⟨a, t, e, h⟩ := hx
  obtain ⟨b, u, e2, h2⟩ := hf a t h
  exact ⟨b, u, by rw [op_bind_ok e, e2], h2⟩

theorem runs_mono {x : Op α} {P Q : α → State → Prop} (hx : x.Runs s P)
    (h : ∀ a t, P a t → Q a t) : x.Runs s Q := by
  obtain ⟨a, t, e, p⟩ := hx
  exact ⟨a, t, e, h a t p⟩

end runs

end Sys2Proof.Machine
end

