-- ==== Sys2Proof/Laws/Memory.lean ====
section
/-! SUPPORT. The laws of the canonical memory list: read after write, canonical form, ranges. -/

namespace Sys2Proof.Machine

/-- Addresses of a canonical list are all above the first. -/
theorem Memory.wf_cons {a : Nat} {x : Byte} {m : Memory} (h : Memory.wf ((a, x) :: m) = true) :
    m.wf = true ∧ ∀ c ∈ m, a < c.1 := by
  induction m generalizing a x with
  | nil => simp [Memory.wf]
  | cons c m ih =>
    obtain ⟨b, y⟩ := c
    simp only [Memory.wf, Bool.and_eq_true, decide_eq_true_eq] at h
    refine ⟨h.2, ?_⟩
    intro c hc
    rcases List.mem_cons.mp hc with rfl | hc
    · exact h.1
    · exact Nat.lt_trans h.1 ((ih h.2).2 c hc)

theorem Memory.wf_of_cons {a : Nat} {x : Byte} {m : Memory} (h : m.wf = true)
    (hlt : ∀ c ∈ m, a < c.1) : Memory.wf ((a, x) :: m) = true := by
  cases m with
  | nil => rfl
  | cons c m =>
    obtain ⟨b, y⟩ := c
    simp only [Memory.wf, Bool.and_eq_true, decide_eq_true_eq]
    exact ⟨hlt (b, y) (by simp), h⟩

/-- The entries of a memory after a write are the old ones and the new one. -/
theorem Memory.mem_write {m : Memory} {k : Nat} {v : Byte} {c : Host.Cell}
    (h : c ∈ Memory.write m k v) : c = (k, v) ∨ c ∈ m := by
  induction m with
  | nil => simpa [Memory.write] using h
  | cons d m ih =>
    obtain ⟨a, x⟩ := d
    simp only [Memory.write] at h
    split at h
    · simpa [or_assoc] using h
    · split at h
      · rcases List.mem_cons.mp h with h | h
        · exact .inl h
        · exact .inr (List.mem_cons_of_mem _ h)
      · rcases List.mem_cons.mp h with h | h
        · exact .inr (by simp [h])
        · rcases ih h with h | h
          · exact .inl h
          · exact .inr (List.mem_cons_of_mem _ h)

/-- A write keeps the canonical form. -/
theorem Memory.write_wf {m : Memory} (k : Nat) (v : Byte) (h : m.wf = true) :
    (m.write k v).wf = true := by
  induction m with
  | nil => rfl
  | cons d m ih =>
    obtain ⟨a, x⟩ := d
    obtain ⟨hm, hlt⟩ := Memory.wf_cons h
    simp only [Memory.write]
    split
    · rename_i hk
      refine Memory.wf_of_cons h ?_
      intro c hc
      rcases List.mem_cons.mp hc with rfl | hc
      · exact hk
      · exact Nat.lt_trans hk (hlt c hc)
    · split
      · rename_i hk
        subst hk
        exact Memory.wf_of_cons hm hlt
      · refine Memory.wf_of_cons (ih hm) ?_
        intro c hc
        rcases Memory.mem_write hc with rfl | hc
        · show a < k
          omega
        · exact hlt c hc

/-- An address below every entry is not listed. -/
theorem Memory.read_of_below {m : Memory} {k : Nat} (h : ∀ c ∈ m, k < c.1) : m.read k = none := by
  induction m with
  | nil => rfl
  | cons d m ih =>
    obtain ⟨a, x⟩ := d
    have : k < a := h (a, x) (by simp)
    simp only [Memory.read]
    rw [if_neg (by omega)]
    exact ih fun c hc => h c (by simp [hc])

/-- Reading after a write: the written byte at its address, elsewhere what was there. -/
theorem Memory.read_write {m : Memory} (k : Nat) (v : Byte) (j : Nat) (h : m.wf = true) :
    (m.write k v).read j = if j = k then some v else m.read j := by
  induction m with
  | nil => simp [Memory.write, Memory.read, eq_comm]
  | cons d m ih =>
    obtain ⟨a, x⟩ := d
    obtain ⟨hm, hlt⟩ := Memory.wf_cons h
    simp only [Memory.write]
    split
    · rename_i hk
      simp only [Memory.read]
      by_cases hj : k = j
      · simp [hj]
      · simp [hj, Ne.symm hj]
    · split
      · rename_i hk
        subst hk
        simp only [Memory.read]
        by_cases hj : k = j
        · simp [hj]
        · simp [hj, Ne.symm hj]
      · rename_i h1 h2
        simp only [Memory.read, ih hm]
        by_cases hj : a = j
        · subst hj
          simp [Ne.symm h2]
        · simp [hj]

/-- A list of writes keeps the canonical form. -/
theorem Memory.writeList_wf (bs : List Byte) {m : Memory} (k : Nat) (h : m.wf = true) :
    (m.writeList k bs).wf = true := by
  induction bs generalizing m k with
  | nil => exact h
  | cons b bs ih => exact ih (k + 1) (Memory.write_wf k b h)

theorem Memory.mem_writeList {bs : List Byte} {m : Memory} {k : Nat} {c : Host.Cell}
    (h : c ∈ m.writeList k bs) : (k ≤ c.1 ∧ c.1 < k + bs.length) ∨ c ∈ m := by
  induction bs generalizing m k with
  | nil => exact .inr h
  | cons b bs ih =>
    rcases ih h with h | h
    · simp only [List.length_cons]
      exact .inl (by omega)
    · rcases Memory.mem_write h with rfl | h
      · simp only [List.length_cons]
        exact .inl (by omega)
      · exact .inr h

/-- Reading after a list of writes: byte `j - k` of the list inside its range, elsewhere what was
there. -/
theorem Memory.read_writeList (bs : List Byte) {m : Memory} (k j : Nat) (h : m.wf = true) :
    (m.writeList k bs).read j
      = if k ≤ j ∧ j < k + bs.length then bs[j - k]? else m.read j := by
  induction bs generalizing m k with
  | nil => rw [if_neg (by simp only [List.length_nil]; omega)]; rfl
  | cons b bs ih =>
    rw [Memory.writeList, ih (k + 1) (Memory.write_wf k b h), Memory.read_write k b j h]
    by_cases h1 : j = k
    · subst h1
      simp
    · by_cases h2 : k + 1 ≤ j ∧ j < k + 1 + bs.length
      · have h3 : k ≤ j ∧ j < k + (b :: bs).length := by
          simp only [List.length_cons]; omega
        rw [if_pos h2, if_pos h3]
        obtain ⟨d, hd⟩ : ∃ d, j - k = d + 1 := ⟨j - k - 1, by omega⟩
        rw [hd, show j - (k + 1) = d by omega]
        rfl
      · have h3 : ¬ (k ≤ j ∧ j < k + (b :: bs).length) := by
          simp only [List.length_cons]; omega
        rw [if_neg h2, if_neg h3, if_neg h1]

/-- The same without the canonical form, away from the written range. -/
theorem Memory.read_write_ne {m : Memory} {k j : Nat} (v : Byte) (h : j ≠ k) :
    (m.write k v).read j = m.read j := by
  induction m with
  | nil => simp [Memory.write, Memory.read, Ne.symm h]
  | cons d m ih =>
    obtain ⟨a, x⟩ := d
    simp only [Memory.write]
    split
    · simp [Memory.read, Ne.symm h]
    · split
      · rename_i hk
        subst hk
        simp [Memory.read, Ne.symm h]
      · simp [Memory.read, ih]

theorem Memory.read_writeList_out (bs : List Byte) {m : Memory} {k j : Nat}
    (h : ¬ (k ≤ j ∧ j < k + bs.length)) : (m.writeList k bs).read j = m.read j := by
  induction bs generalizing m k with
  | nil => rfl
  | cons b bs ih =>
    simp only [List.length_cons] at h
    rw [Memory.writeList, ih (by omega), Memory.read_write_ne b (by omega)]

/-- A byte that is listed stays listed by a write. -/
theorem Memory.isSome_write {m : Memory} {k j : Nat} (v : Byte) (h : m.wf = true)
    (hj : (m.read j).isSome) : ((m.write k v).read j).isSome := by
  rw [Memory.read_write k v j h]
  split <;> simp_all

theorem Memory.isSome_writeList (bs : List Byte) {m : Memory} {k j : Nat} (h : m.wf = true)
    (hj : (m.read j).isSome) : ((m.writeList k bs).read j).isSome := by
  induction bs generalizing m k with
  | nil => exact hj
  | cons b bs ih => exact ih (Memory.write_wf k b h) (Memory.isSome_write b h hj)

@[simp] theorem memBytes_length (s : State) (a n : Nat) : (s.memBytes a n).length = n := by
  simp [State.memBytes]

@[simp] theorem ringBytes_length (s : State) (i k : Nat) : (s.ringBytes i k).length = k := by
  simp [State.ringBytes]

/-- `MemRead` inside a region answers the bytes and changes nothing (20_memory R61). -/
theorem memRead_run {s : State} {a n : Nat} (h : inRegion s.params a n = true) :
    memRead a n s = .ok (s.memBytes a n) s := by
  simp [memRead, h]

/-- `MemWrite` inside a region stores the bytes and changes nothing else (20_memory R61). -/
theorem memWrite_run {s : State} {a : Nat} {bs : List Byte}
    (h : inRegion s.params a bs.length = true) :
    memWrite a bs s = .ok () (s.setMem (s.mem.writeList a bs)) := by
  simp [memWrite, h]

end Sys2Proof.Machine
end

