-- ==== Sys2Proof/Laws/Environment.lean ====
section
/-! SUPPORT. What the environment can do to a state, once for all its steps: `Unseen` says what it
leaves, and no step of it raises a fault while the channels are sound. -/

namespace Sys2Proof.Machine

open Sys2Proof.Safety

/-! ### `Unseen`: the relation every environment step respects -/

/-- `t` differs from `s` only in what the environment may change, and its channels are sound if those
of `s` are. -/
structure Unseen (s t : State) : Prop where
  view : viewOf t = viewOf s
  memory : sameOutsideSlots s t
  gaps : t.gaps = s.gaps

theorem Unseen.refl (s : State) : Unseen s s := ⟨rfl, fun _ _ => rfl, rfl⟩

theorem viewOf_params {s t : State} (h : viewOf t = viewOf s) : t.params = s.params :=
  congrArg View.params h

theorem viewOf_port {s t : State} (h : viewOf t = viewOf s) : t.port = s.port :=
  congrArg View.port h

theorem viewOf_regs {s t : State} (h : viewOf t = viewOf s) : regsOf t.uart = regsOf s.uart :=
  congrArg View.regs h

theorem viewOf_slot {s t : State} (h : viewOf t = viewOf s) : t.drx.slot = s.drx.slot :=
  congrArg View.rxSlot h

theorem viewOf_issuer {s t : State} (h : viewOf t = viewOf s) : t.issuer = s.issuer :=
  congrArg View.issuer h

theorem viewOf_replies {s t : State} (h : viewOf t = viewOf s) : t.replies = s.replies :=
  congrArg View.replies h

theorem Unseen.trans {s t u : State} (h : Unseen s t) (k : Unseen t u) : Unseen s u where
  view := k.view.trans h.view
  memory a ha := (k.memory a (by rw [viewOf_params h.view]; exact ha)).trans (h.memory a ha)
  gaps := k.gaps.trans h.gaps

/-- An update of the UART that leaves its control registers alone is unseen. -/
theorem unseen_setUart (s : State) {f : Uart → Uart} (h : regsOf (f s.uart) = regsOf s.uart) :
    Unseen s (s.setUart f) := by
  refine ⟨?_, fun _ _ => rfl, rfl⟩
  simp [viewOf, h]

theorem unseen_setDtx (s : State) (f : TxChannel → TxChannel) : Unseen s (s.setDtx f) :=
  ⟨rfl, fun _ _ => rfl, rfl⟩

theorem unseen_setDrx (s : State) {f : RxChannel → RxChannel} (h : (f s.drx).slot = s.drx.slot) :
    Unseen s (s.setDrx f) := by
  refine ⟨?_, fun _ _ => rfl, rfl⟩
  simp [viewOf, h]

/-- Spending draws is unseen. -/
theorem unseen_draws (s : State) (n : Nat) : Unseen s { s with draws := n } :=
  ⟨rfl, fun _ _ => rfl, rfl⟩

/-! ### The channels -/

/-- `channelsOk` in words. -/
theorem channelsOk_iff (s : State) :
    channelsOk s = true ↔
      (s.dtx.run = true → s.dtx.pos + s.dtx.rem ≤ s.params.stageCap)
        ∧ (s.drx.run = true → s.drx.slot = s.port.landing ∧ s.drx.rem1 ≤ 1
            ∧ s.drx.rem2 < s.params.slotCap ∧ 1 ≤ s.drx.rem1 + s.drx.rem2) := by
  unfold channelsOk
  cases s.dtx.run <;> cases s.drx.run <;> simp [and_assoc]

/-- Soundness of the channels depends on the channels, the landing slot and the capacities only. -/
theorem channelsOk_congr {s t : State} (hp : t.params = s.params) (hl : t.port.landing = s.port.landing)
    (hx : t.dtx = s.dtx) (hr : t.drx = s.drx) : channelsOk t = channelsOk s := by
  unfold channelsOk
  rw [hp, hl, hx, hr]

/-! ### Each step -/

/-- The `Uart` transmit step: it does nothing, or moves the first byte of the TX FIFO (R76). -/
theorem uartTransmit_run (told : Bool) (s : State) :
    uartTransmit told s = .ok () s
      ∨ ∃ b rest sent ris n,
          s.uart.txf = b :: rest ∧ s.uart.ctl.getLsbD s.params.regMap.uarten = true
          ∧ s.uart.ctl.getLsbD s.params.regMap.txe = true ∧ s.uart.lcrh.getLsbD s.params.regMap.brk = false
          ∧ (s.uart.ibrdAct ≠ 0 → sent = b)
          ∧ uartTransmit told s = .ok () { s with
              uart := { s.uart with txf := rest, wire := s.uart.wire ++ [sent], ris := ris }
              draws := n } := by
  unfold uartTransmit
  cases h : s.uart.txf with
  | nil => exact .inl rfl
  | cons b rest =>
    by_cases g : (s.uart.ctl.getLsbD s.params.regMap.uarten && s.uart.ctl.getLsbD s.params.regMap.txe
        && !s.uart.lcrh.getLsbD s.params.regMap.brk) = true
    · have g' := g
      simp only [Bool.and_eq_true, Bool.not_eq_true'] at g'
      refine .inr ⟨b, rest, _, _, _, rfl, g'.1.1, g'.1.2, g'.2, ?_, if_pos g⟩
      intro hz
      rw [if_neg (by simpa using hz)]
    · exact .inl (if_neg g)

/-- The `Uart` receive step: it does nothing, or appends the arrival (R79). -/
theorem uartReceive_run (b : Byte) (st : Status) (s : State) :
    uartReceive b st s = .ok () s
      ∨ (s.uart.ctl.getLsbD s.params.regMap.uarten = true ∧ s.uart.ctl.getLsbD s.params.regMap.rxe = true
          ∧ s.uart.rxf.length < s.depth
          ∧ uartReceive b st s
              = .ok () (s.setUart fun u => { u with rxf := u.rxf ++ [(b, st)] })) := by
  unfold uartReceive
  by_cases g : (s.uart.ctl.getLsbD s.params.regMap.uarten && s.uart.ctl.getLsbD s.params.regMap.rxe
      && decide (s.uart.rxf.length < s.depth)) = true
  · have g' := g
    simp only [Bool.and_eq_true, decide_eq_true_eq] at g'
    exact .inr ⟨g'.1.1, g'.1.2, g'.2, if_pos g⟩
  · exact .inl (if_neg g)

/-- A byte inside the staging area is inside a region. -/
theorem inRegion_stage {p : Params} {o n : Nat} (hm : p.mode = .dma) (h : o + n ≤ p.stageCap) :
    inRegion p (p.stageAddr + o) n = true := by
  simp only [inRegion, hm, beq_self_eq_true, Bool.true_and, Bool.or_eq_true, Bool.and_eq_true,
    decide_eq_true_eq]
  omega

/-- A range inside a slot is inside a region. -/
theorem inRegion_slot {p : Params} {x : Slot} {o n : Nat} (hm : p.mode = .dma)
    (h : o + n ≤ p.slotCap) : inRegion p (slotAddr p x + o) n = true := by
  simp only [inRegion, hm, beq_self_eq_true, Bool.true_and, Bool.or_eq_true, Bool.and_eq_true,
    decide_eq_true_eq]
  cases x <;> simp only [slotAddr] <;> omega

/-- The `DmaTx` step with sound channels: it does nothing, or moves one staged byte (R77). -/
theorem dmaTxStep_run {s : State} (h : channelsOk s = true) :
    dmaTxStep s = .ok () s
      ∨ (s.params.mode = .dma ∧ s.dtx.run = true ∧ s.uart.dmactl.getLsbD s.params.regMap.txdmae = true
          ∧ 0 < s.dtx.rem ∧ s.uart.txf.length < s.depth
          ∧ dmaTxStep s = .ok () ((s.setUart fun u =>
                { u with txf := u.txf ++ [s.memByte (s.params.stageAddr + s.dtx.pos)] }).setDtx
              TxChannel.afterByte)) := by
  by_cases g : s.params.mode = .dma ∧ s.dtx.run = true ∧ s.uart.dmactl.getLsbD s.params.regMap.txdmae = true
      ∧ 0 < s.dtx.rem ∧ s.uart.txf.length < s.depth
  · obtain ⟨hm, hr, hd, hp, hl⟩ := g
    have hcap := ((channelsOk_iff s).mp h).1 hr
    refine .inr ⟨hm, hr, hd, hp, hl, ?_⟩
    have hin := inRegion_stage (p := s.params) (o := s.dtx.pos) (n := 1) hm (by omega)
    unfold dmaTxStep
    rw [theState_bind, if_pos ⟨hm, hr, hd, hp, hl⟩, op_bind_ok (memRead_run hin)]
    simp [State.memBytes]
  · refine .inl ?_
    unfold dmaTxStep
    rw [theState_bind, if_neg g]
    rfl

/-- Where the next captured byte goes is inside the slot. -/
theorem nextOffset_lt {p : Params} {d : RxChannel} (h2 : d.rem2 < p.slotCap)
    (h1 : 1 ≤ d.rem1 + d.rem2) (h0 : d.rem1 ≤ 1) : d.nextOffset p < p.slotCap := by
  unfold RxChannel.nextOffset
  split <;> omega

/-- The `DmaRx` step with sound channels: it does nothing, or captures one byte (R78). -/
theorem dmaRxStep_run {s : State} (h : channelsOk s = true) :
    dmaRxStep s = .ok () s
      ∨ ∃ b st rest, s.uart.rxf = (b, st) :: rest
          ∧ s.params.mode = .dma ∧ s.drx.run = true ∧ s.uart.dmactl.getLsbD s.params.regMap.rxdmae = true
          ∧ dmaRxStep s = .ok () (((s.setUart fun u => { u with rxf := rest }).setMem
              (s.mem.write (slotAddr s.params s.drx.slot + s.drx.nextOffset s.params) b)).setDrx
                RxChannel.afterByte) := by
  cases hx : s.uart.rxf with
  | nil =>
    refine .inl ?_
    unfold dmaRxStep
    rw [theState_bind]
    simp [hx]
  | cons e rest =>
    obtain ⟨b, st⟩ := e
    by_cases g : s.params.mode = .dma ∧ s.drx.run = true ∧ s.uart.dmactl.getLsbD s.params.regMap.rxdmae = true
    · obtain ⟨hm, hr, hd⟩ := g
      obtain ⟨hs, h0, h2, h1⟩ := ((channelsOk_iff s).mp h).2 hr
      refine .inr ⟨b, st, rest, rfl, hm, hr, hd, ?_⟩
      have hin := inRegion_slot (p := s.params) (x := s.drx.slot) (o := s.drx.nextOffset s.params)
        (n := 1) hm (nextOffset_lt h2 h1 h0)
      unfold dmaRxStep
      rw [theState_bind]
      simp only [hx]
      rw [if_pos ⟨hm, hr, hd⟩, if_neg (by simp [hs]), modifyUart_bind, op_bind_ok (memWrite_run ?_)]
      · rfl
      · exact hin
    · refine .inl ?_
      unfold dmaRxStep
      rw [theState_bind]
      simp only [hx]
      rw [if_neg g]
      rfl

/-- The last unit ends a transmit transfer and signals completion. -/
theorem TxChannel.afterByte_last {d : TxChannel} (h : d.rem = 1) :
    d.afterByte = { run := false, rem := 0, pos := d.pos + 1, done := true } := if_pos h

/-- Any other unit leaves a transfer running. -/
theorem TxChannel.afterByte_more {d : TxChannel} (h : d.rem ≠ 1) :
    d.afterByte = { d with rem := d.rem - 1, pos := d.pos + 1 } := if_neg h

/-- The channel after a captured byte keeps its slot. -/
@[simp] theorem RxChannel.afterByte_slot (d : RxChannel) : d.afterByte.slot = d.slot := by
  simp only [RxChannel.afterByte]
  by_cases h : d.rem1 = 1
  · by_cases k : d.rem2 = 0 <;> simp [h, k]
  · by_cases k : d.rem1 = 0 ∧ d.rem2 - 1 = 0 <;> simp [h, k]

/-- The counts after a captured byte, of a channel that had a unit left. -/
theorem RxChannel.afterByte_counts {d : RxChannel} (h0 : d.rem1 ≤ 1) :
    d.afterByte.rem1 = 0 ∧ d.afterByte.rem2 = (if d.rem1 = 1 then d.rem2 else d.rem2 - 1) := by
  simp only [RxChannel.afterByte]
  by_cases h : d.rem1 = 1
  · by_cases k : d.rem2 = 0 <;> simp [h, k]
  · have z : d.rem1 = 0 := by omega
    by_cases k : d.rem2 - 1 = 0 <;> simp [z, k]

/-- A captured byte ends the transfer, and signals it, exactly when no unit is left. -/
theorem RxChannel.afterByte_run {d : RxChannel} (h0 : d.rem1 ≤ 1) (hr : d.run = true) :
    d.afterByte.run = decide (d.afterByte.rem2 ≠ 0)
      ∧ d.afterByte.done = (d.done || decide (d.afterByte.rem2 = 0)) := by
  simp only [RxChannel.afterByte]
  by_cases h : d.rem1 = 1
  · by_cases k : d.rem2 = 0 <;> simp [h, k, hr]
  · have z : d.rem1 = 0 := by omega
    by_cases k : d.rem2 - 1 = 0 <;> simp [z, k, hr]

/-- A raising step only sets a `RIS` bit, or does nothing (R80). -/
theorem setRis_run (k : Nat) (s : State) :
    setRis k s = .ok () (s.setUart fun u => { u with ris := withBit u.ris k true }) := rfl

/-! ### All steps -/

/-- With sound channels an environment step raises no fault, is unseen, and leaves sound channels. -/
theorem envStep_unseen (e : EnvStep) {s : State} (h : channelsOk s = true) :
    ∃ t, envStep e s = .ok () t ∧ Unseen s t ∧ channelsOk t = true := by
  have skip : ∃ t, (pure () : Op Unit) s = .ok () t ∧ Unseen s t ∧ channelsOk t = true :=
    ⟨s, rfl, Unseen.refl s, h⟩
  have raises : ∀ k, ∃ t, setRis k s = .ok () t ∧ Unseen s t ∧ channelsOk t = true := fun k =>
    ⟨_, setRis_run k s, unseen_setUart s rfl, h⟩
  cases e with
  | uartTx told =>
    rcases uartTransmit_run told s with e | ⟨b, rest, sent, ris, n, -, -, -, -, -, e⟩
    · exact ⟨s, e, Unseen.refl s, h⟩
    · exact ⟨_, e, ⟨rfl, fun _ _ => rfl, rfl⟩, h⟩
  | uartRx b st =>
    rcases uartReceive_run b st s with e | ⟨-, -, -, e⟩
    · exact ⟨s, e, Unseen.refl s, h⟩
    · exact ⟨_, e, unseen_setUart s rfl, h⟩
  | dmaTx =>
    rcases dmaTxStep_run h with e | ⟨-, hr, -, hp, -, e⟩
    · exact ⟨s, e, Unseen.refl s, h⟩
    · refine ⟨_, e, (unseen_setUart s rfl).trans (unseen_setDtx _ _), ?_⟩
      have := (channelsOk_iff s).mp h
      refine (channelsOk_iff _).mpr ⟨?_, this.2⟩
      simp only [State.setDtx_dtx, State.setUart_dtx, State.setDtx_params, State.setUart_params]
      have := this.1 hr
      by_cases hl : s.dtx.rem = 1
      · simp [TxChannel.afterByte_last hl]
      · simp only [TxChannel.afterByte_more hl]
        intro _
        omega
  | dmaRx =>
    rcases dmaRxStep_run h with e | ⟨b, st, rest, -, -, hr, -, e⟩
    · exact ⟨s, e, Unseen.refl s, h⟩
    · obtain ⟨htx, hrx⟩ := (channelsOk_iff s).mp h
      obtain ⟨hs, h0, h2, h1⟩ := hrx hr
      have hoff := nextOffset_lt h2 h1 h0
      refine ⟨_, e, ⟨?_, ?_, rfl⟩, (channelsOk_iff _).mpr ⟨htx, ?_⟩⟩
      · simp [viewOf, regsOf]
      · intro a ha
        simp only [State.setDrx_mem, State.setMem_mem]
        refine Memory.read_write_ne b ?_
        obtain ⟨ha1, ha2⟩ := ha
        cases hsl : s.drx.slot <;> simp only [slotAddr] <;> omega
      · obtain ⟨c1, c2⟩ := RxChannel.afterByte_counts h0
        simp only [State.setDrx_drx, State.setMem_drx, State.setUart_drx, State.setDrx_params,
          State.setMem_params, State.setUart_params, State.setDrx_port, State.setMem_port,
          State.setUart_port, RxChannel.afterByte_slot, hs, true_and]
        rw [(RxChannel.afterByte_run h0 hr).1, c1, c2]
        simp only [decide_eq_true_eq]
        intro hne
        refine ⟨by omega, ?_, by omega⟩
        split <;> omega
  | raiseRx =>
    simp only [envStep, theState_bind]
    split
    · exact raises _
    · exact skip
  | raiseRt =>
    simp only [envStep, theState_bind]
    split
    · exact raises _
    · exact skip
  | raiseTx =>
    simp only [envStep, theState_bind]
    split
    · exact raises _
    · exact skip
  | raiseErr k => exact raises _

theorem envSteps_unseen (es : List EnvStep) {s : State} (h : channelsOk s = true) :
    ∃ t, envSteps es s = .ok () t ∧ Unseen s t ∧ channelsOk t = true := by
  induction es generalizing s with
  | nil => exact ⟨s, rfl, Unseen.refl s, h⟩
  | cons e es ih =>
    obtain ⟨t, e1, u1, c1⟩ := envStep_unseen e h
    obtain ⟨t2, e2, u2, c2⟩ := ih c1
    exact ⟨t2, by rw [envSteps, op_bind_ok e1, e2], u1.trans u2, c2⟩

/-- With no environment steps scheduled a gap does nothing. -/
theorem gap_quiet {s : State} (h : s.gaps = []) : gap s = .ok () s := by
  simp [gap, h]

/-- With sound channels a gap raises no fault and leaves what the environment cannot change. -/
theorem gap_leaves {s : State} (h : channelsOk s = true) :
    ∃ t, gap s = .ok () t ∧ Leaves s t s := by
  cases hg : s.gaps with
  | nil => exact ⟨s, gap_quiet hg, ⟨rfl, h, fun _ _ => rfl, fun _ => rfl⟩⟩
  | cons es more =>
    have hc : channelsOk { s with gaps := more } = true := h
    obtain ⟨t, e, u, c⟩ := envSteps_unseen es hc
    refine ⟨t, ?_, ⟨u.view, c, u.memory, ?_⟩⟩
    · unfold gap
      simp only [hg]
      exact e
    · intro hq
      simp [hg] at hq

/-! ### Poll mode -/

/-- What the environment leaves in poll mode, where no channel moves (00_scope R6): besides what it
cannot change anyway, all of memory and both channels, and the TX FIFO only loses bytes at its
front. -/
structure PollUnseen (s t : State) : Prop where
  view : viewOf t = viewOf s
  mem : t.mem = s.mem
  dtx : t.dtx = s.dtx
  drx : t.drx = s.drx
  sent : ∃ k, t.uart.txf = s.uart.txf.drop k
  line : s.uart.ibrdAct ≠ 0 → t.uart.wire ++ t.uart.txf = s.uart.wire ++ s.uart.txf
  received : s.uart.rxf <+: t.uart.rxf

theorem PollUnseen.refl (s : State) : PollUnseen s s :=
  ⟨rfl, rfl, rfl, rfl, ⟨0, rfl⟩, fun _ => rfl, List.prefix_rfl⟩

theorem PollUnseen.trans {s t u : State} (h : PollUnseen s t) (k : PollUnseen t u) :
    PollUnseen s u where
  view := k.view.trans h.view
  mem := k.mem.trans h.mem
  dtx := k.dtx.trans h.dtx
  drx := k.drx.trans h.drx
  sent := by
    obtain ⟨a, ha⟩ := h.sent
    obtain ⟨b, hb⟩ := k.sent
    exact ⟨a + b, by rw [hb, ha, List.drop_drop]⟩
  line hz := by
    have : t.uart.ibrdAct = s.uart.ibrdAct := congrArg Regs.ibrdAct (viewOf_regs h.view)
    rw [k.line (by rw [this]; exact hz), h.line hz]
  received := h.received.trans k.received

/-- In poll mode an environment step raises no fault, in any state. -/
theorem envStep_poll (e : EnvStep) {s : State} (h : s.params.mode = .poll) :
    ∃ t, envStep e s = .ok () t ∧ PollUnseen s t ∧ t.gaps = s.gaps := by
  have skip : ∃ t, (pure () : Op Unit) s = .ok () t ∧ PollUnseen s t ∧ t.gaps = s.gaps :=
    ⟨s, rfl, PollUnseen.refl s, rfl⟩
  have raises : ∀ k, ∃ t, setRis k s = .ok () t ∧ PollUnseen s t ∧ t.gaps = s.gaps := fun k =>
    ⟨_, setRis_run k s, ⟨rfl, rfl, rfl, rfl, ⟨0, rfl⟩, fun _ => rfl, List.prefix_rfl⟩, rfl⟩
  cases e with
  | uartTx told =>
    rcases uartTransmit_run told s with e | ⟨b, rest, sent, ris, n, hx, -, -, -, hz, e⟩
    · exact ⟨s, e, PollUnseen.refl s, rfl⟩
    · refine ⟨_, e, ⟨rfl, rfl, rfl, rfl, ⟨1, by simp [hx]⟩, ?_, List.prefix_rfl⟩, rfl⟩
      intro hne
      simp [hx, hz hne]
  | uartRx b st =>
    rcases uartReceive_run b st s with e | ⟨-, -, -, e⟩
    · exact ⟨s, e, PollUnseen.refl s, rfl⟩
    · exact ⟨_, e, ⟨rfl, rfl, rfl, rfl, ⟨0, rfl⟩, fun _ => rfl, List.prefix_append _ _⟩, rfl⟩
  | dmaTx =>
    refine ⟨s, ?_, PollUnseen.refl s, rfl⟩
    simp [envStep, dmaTxStep, h]
  | dmaRx =>
    refine ⟨s, ?_, PollUnseen.refl s, rfl⟩
    simp only [envStep, dmaRxStep, theState_bind]
    cases s.uart.rxf <;> simp [h]
  | raiseRx =>
    simp only [envStep, theState_bind]
    split
    · exact raises _
    · exact skip
  | raiseRt =>
    simp only [envStep, theState_bind]
    split
    · exact raises _
    · exact skip
  | raiseTx =>
    simp only [envStep, theState_bind]
    split
    · exact raises _
    · exact skip
  | raiseErr k => exact raises _

theorem envSteps_poll (es : List EnvStep) {s : State} (h : s.params.mode = .poll) :
    ∃ t, envSteps es s = .ok () t ∧ PollUnseen s t ∧ t.gaps = s.gaps := by
  induction es generalizing s with
  | nil => exact ⟨s, rfl, PollUnseen.refl s, rfl⟩
  | cons e es ih =>
    obtain ⟨t, e1, u1, g1⟩ := envStep_poll e h
    obtain ⟨t2, e2, u2, g2⟩ := ih (by rw [viewOf_params u1.view]; exact h)
    exact ⟨t2, by rw [envSteps, op_bind_ok e1, e2], u1.trans u2, g2.trans g1⟩

/-- In poll mode a gap raises no fault, in any state, and takes one entry off the schedule. -/
theorem gap_poll {s : State} (h : s.params.mode = .poll) :
    ∃ t, gap s = .ok () t ∧ PollUnseen s t ∧ t.gaps = s.gaps.tail := by
  cases hg : s.gaps with
  | nil => exact ⟨s, gap_quiet hg, PollUnseen.refl s, by simp [hg]⟩
  | cons es more =>
    obtain ⟨t, e, u, g⟩ := envSteps_poll es (s := { s with gaps := more }) h
    refine ⟨t, ?_, ⟨u.view, u.mem, u.dtx, u.drx, u.sent, u.line, u.received⟩, by simp [g]⟩
    unfold gap
    simp only [hg]
    exact e

/-! ### `Keeps` for whatever every environment step keeps -/

theorem envSteps_keeps {R : State → State → Prop} (refl : ∀ s, R s s)
    (trans : ∀ s t u, R s t → R t u → R s u) (h : ∀ e, (envStep e).Keeps R) (es : List EnvStep) :
    (envSteps es).Keeps R := by
  induction es with
  | nil => exact fun s => refl s
  | cons e es ih => exact keeps_bind trans (h e) fun _ => ih

/-- A relation that every environment step keeps and that taking an entry off the schedule keeps is
kept by a gap. -/
theorem gap_keeps {R : State → State → Prop} (refl : ∀ s, R s s)
    (trans : ∀ s t u, R s t → R t u → R s u) (h : ∀ e, (envStep e).Keeps R)
    (hg : ∀ (s : State) g, R s { s with gaps := g }) : gap.Keeps R := by
  intro s
  unfold gap
  cases hs : s.gaps with
  | nil => exact refl s
  | cons es more =>
    have h2 := envSteps_keeps refl trans h es { s with gaps := more }
    simp only
    cases e : envSteps es { s with gaps := more } with
    | ok a t => rw [e] at h2; exact trans _ _ _ (hg s more) h2
    | error r t => rw [e] at h2; exact trans _ _ _ (hg s more) h2

end Sys2Proof.Machine
end

