-- ==== Sys2Proof/Laws/Fields.lean ====
section
/-! SUPPORT. Words made of fields, bit by bit: what `putField`, `withBit` and `definedMask` hold at a bit,
and what a layout that `regMapOk` admits gives back of the words the block builds (10_state R33 to R44). -/

namespace Sys2Proof.Machine

/-! ### One bit of a word -/

theorem getLsbD_putField {n : Nat} (low : Nat) (v : BitVec n) (k : Nat) :
    (putField low v).getLsbD k = (decide (k < 32) && decide (low ≤ k) && v.getLsbD (k - low)) := by
  simp only [putField, BitVec.getLsbD_shiftLeft, BitVec.getLsbD_setWidth]
  by_cases h : k < 32
  · by_cases g : k < low
    · have : ¬ low ≤ k := by omega
      simp [g, this]
    · have h1 : low ≤ k := by omega
      have h2 : k - low < 32 := by omega
      simp [h, g, h1, h2]
  · simp [h]

theorem getLsbD_putBit (low : Nat) (v : Bool) (k : Nat) :
    (putBit low v).getLsbD k = (decide (k < 32) && decide (k = low) && v) := by
  rw [putBit, getLsbD_putField]
  by_cases h : k = low
  · simp [h]
  · by_cases g : low ≤ k
    · have : k - low ≠ 0 := by omega
      simp [h, this]
    · simp [h, g]

theorem getLsbD_fieldMask (f : Nat × Nat) (k : Nat) :
    (fieldMask f).getLsbD k = (decide (k < 32) && decide (f.1 ≤ k) && decide (k < f.1 + f.2)) := by
  simp only [fieldMask, BitVec.getLsbD_ofNat, Nat.testBit_mul_two_pow, Nat.testBit_two_pow_sub_one]
  by_cases h : f.1 ≤ k
  · have : decide (k - f.1 < f.2) = decide (k < f.1 + f.2) := by
      simp only [decide_eq_decide]
      omega
    simp [h, this]
  · simp [h]

/-- A bit is defined iff a field of the register covers it (20_memory R64). -/
theorem getLsbD_definedMask (m : RegMap) (r : Reg) (k : Nat) :
    (definedMask m r).getLsbD k
      = (fieldsOf m r).any fun f => decide (k < 32) && decide (f.1 ≤ k) && decide (k < f.1 + f.2) := by
  unfold definedMask
  induction fieldsOf m r with
  | nil => simp
  | cons f more ih =>
    rw [List.foldr_cons, BitVec.getLsbD_or, ih, getLsbD_fieldMask, List.any_cons]

theorem getLsbD_withBit (w : Word) (b : Nat) (v : Bool) (k : Nat) :
    (withBit w b v).getLsbD k = (decide (k < 32) && if k = b then v else w.getLsbD k) := by
  unfold withBit
  by_cases hk : k < 32
  · cases v
    · by_cases h : k = b
      · simp [h]
      · simp [hk, h]
    · by_cases h : k = b
      · subst h
        simp [hk]
      · simp [hk, h]
  · rw [BitVec.getLsbD_of_ge _ _ (by omega)]
    simp [hk]

/-! ### Words inside the defined bits -/

/-- A word keeps every bit when it is stored if a field covers each of its bits. -/
theorem and_definedMask_of_covered {m : RegMap} {r : Reg} {w : Word}
    (h : ∀ k, w.getLsbD k = true → (definedMask m r).getLsbD k = true) :
    w &&& definedMask m r = w := by
  apply BitVec.eq_of_getLsbD_eq
  intro k _
  rw [BitVec.getLsbD_and]
  cases hk : w.getLsbD k
  · rfl
  · rw [h k hk]
    rfl

/-- A field's value lies within its register's defined bits. -/
theorem putField_covered {n low k : Nat} {m : RegMap} {r : Reg} {v : BitVec n}
    (hf : (low, n) ∈ fieldsOf m r) (h : (putField low v).getLsbD k = true) :
    (definedMask m r).getLsbD k = true := by
  simp only [getLsbD_putField, Bool.and_eq_true, decide_eq_true_eq] at h
  have hn := BitVec.lt_of_getLsbD h.2
  rw [getLsbD_definedMask, List.any_eq_true]
  refine ⟨_, hf, ?_⟩
  simp only [Bool.and_eq_true, decide_eq_true_eq]
  omega

theorem ctlOn_defined (m : RegMap) : ctlOn m &&& definedMask m .ctl = ctlOn m := by
  refine and_definedMask_of_covered fun k h => ?_
  simp only [ctlOn, ctlOff, BitVec.getLsbD_or, Bool.or_eq_true] at h
  rcases h with h | h | h <;> exact putField_covered (by simp [fieldsOf]) h

theorem ctlOff_defined (m : RegMap) : ctlOff m &&& definedMask m .ctl = ctlOff m := by
  refine and_definedMask_of_covered fun k h => ?_
  simp only [ctlOff, BitVec.getLsbD_or, Bool.or_eq_true] at h
  rcases h with h | h <;> exact putField_covered (by simp [fieldsOf]) h

theorem imPoll_defined (m : RegMap) : imPoll m &&& definedMask m .im = imPoll m := by
  refine and_definedMask_of_covered fun k h => ?_
  simp only [imPoll, BitVec.getLsbD_or, Bool.or_eq_true] at h
  rcases h with h | h <;> exact putField_covered (by simp [fieldsOf]) h

theorem imDma_defined (m : RegMap) : imDma m &&& definedMask m .im = imDma m :=
  and_definedMask_of_covered fun _ h => putField_covered (by simp [fieldsOf]) h

theorem dmactlOn_defined (m : RegMap) : dmactlOn m &&& definedMask m .dmactl = dmactlOn m := by
  refine and_definedMask_of_covered fun k h => ?_
  simp only [dmactlOn, BitVec.getLsbD_or, Bool.or_eq_true] at h
  rcases h with h | h <;> exact putField_covered (by simp [fieldsOf]) h

theorem iflsValue_defined (p : Params) :
    iflsValue p &&& definedMask p.regMap .ifls = iflsValue p := by
  refine and_definedMask_of_covered fun k h => ?_
  simp only [iflsValue, BitVec.getLsbD_or, Bool.or_eq_true] at h
  rcases h with h | h <;> exact putField_covered (by simp [fieldsOf]) h

theorem lcrhWord_defined (m : RegMap) (l : LineFormat) :
    lcrhWord m l &&& definedMask m .lcrh = lcrhWord m l := by
  refine and_definedMask_of_covered fun k h => ?_
  simp only [lcrhWord, BitVec.getLsbD_or, Bool.or_eq_true] at h
  rcases h with h | h | h | h | h | h <;> exact putField_covered (by simp [fieldsOf]) h

/-- A one-bit field keeps its value when its register is stored. -/
theorem getLsbD_and_definedMask {m : RegMap} {r : Reg} {b : Nat} (hf : (b, 1) ∈ fieldsOf m r)
    (w : Word) : (w &&& definedMask m r).getLsbD b = w.getLsbD b := by
  rw [BitVec.getLsbD_and]
  cases hw : w.getLsbD b
  · rfl
  · have hb := BitVec.lt_of_getLsbD hw
    rw [getLsbD_definedMask, Bool.true_and, List.any_eq_true]
    exact ⟨_, hf, by simp [hb]⟩

/-! ### Layouts that a part can have -/

/-- Ranges of such a list that stand at different places share no point. -/
theorem rangesDisjoint_apart {fs : List (Nat × Nat)} (h : rangesDisjoint fs = true) :
    fs.Pairwise fun f g => f.1 + f.2 ≤ g.1 ∨ g.1 + g.2 ≤ f.1 := by
  induction fs with
  | nil => exact .nil
  | cons f more ih =>
    simp only [rangesDisjoint, Bool.and_eq_true, List.all_eq_true] at h
    refine .cons (fun g hg => ?_) (ih h.2)
    simpa [disjoint] using h.1 g hg

/-- What `regMapOk` says of one register. -/
theorem regMapOk_fields {m : RegMap} (h : regMapOk m = true) (r : Reg) :
    (∀ f ∈ fieldsOf m r, f.1 + f.2 ≤ 32)
      ∧ (fieldsOf m r).Pairwise fun f g => f.1 + f.2 ≤ g.1 ∨ g.1 + g.2 ≤ f.1 := by
  simp only [regMapOk, Bool.and_eq_true, List.all_eq_true, decide_eq_true_eq] at h
  have hr := h.2 r (by cases r <;> decide)
  exact ⟨hr.1, rangesDisjoint_apart hr.2⟩

/-- A well-formed parameter set has a layout a part can have. -/
theorem regMapOk_of_paramsOk {p : Params} (h : paramsOk p = true) : regMapOk p.regMap = true := by
  simp only [paramsOk, List.all_cons, id_eq, Bool.and_eq_true] at h
  exact h.2.1

/-- A field alone in a word is read back. -/
theorem extract_putField {n low : Nat} (h : low + n ≤ 32) (v : BitVec n) :
    (putField low v).extractLsb' low n = v := by
  apply BitVec.eq_of_getLsbD_eq
  intro k hk
  rw [BitVec.getLsbD_extractLsb', getLsbD_putField]
  have h1 : low + k < 32 := by omega
  simp [hk, h1]

/-- The byte and the status of a `DR` word are read back (10_state R34, 20_memory R64). -/
theorem drWord_read {m : RegMap} (h : regMapOk m = true) (e : Byte × Status) :
    drData m (drWord m e) = e.1 ∧ drStatus m (drWord m e) = e.2 := by
  obtain ⟨hw, hd⟩ := regMapOk_fields h .dr
  simp only [fieldsOf, List.pairwise_cons, List.mem_cons, List.not_mem_nil, or_false, forall_eq_or_imp,
    forall_eq, IsEmpty.forall_iff, implies_true, List.Pairwise.nil, and_true] at hw hd
  constructor
  · apply BitVec.eq_of_getLsbD_eq
    intro k hk
    have h0 : m.data + k < 32 := by omega
    have h1 : m.data + k ≠ m.drFe ∧ m.data + k ≠ m.drPe ∧ m.data + k ≠ m.drBe
        ∧ m.data + k ≠ m.drOe := by omega
    simp only [drData, drWord, BitVec.getLsbD_extractLsb', BitVec.getLsbD_or, getLsbD_putField,
      getLsbD_putBit]
    simp [hk, h0, h1]
  · have nd : ∀ b, (b + 1 ≤ m.data ∨ m.data + 8 ≤ b) →
        (decide (m.data ≤ b) && e.1.getLsbD (b - m.data)) = false := by
      intro b hb
      rcases hb with hb | hb
      · have : ¬ m.data ≤ b := by omega
        simp [this]
      · rw [BitVec.getLsbD_of_ge _ _ (by omega), Bool.and_false]
    have hb : ∀ b, b ∈ [m.drFe, m.drPe, m.drBe, m.drOe] → (drWord m e).getLsbD b
        = ((decide (b = m.drFe) && e.2.getLsbD 0) || (decide (b = m.drPe) && e.2.getLsbD 1)
          || (decide (b = m.drBe) && e.2.getLsbD 2) || (decide (b = m.drOe) && e.2.getLsbD 3)) := by
      intro b hb
      simp only [List.mem_cons, List.not_mem_nil, or_false] at hb
      have h32 : b < 32 := by omega
      have hx : b + 1 ≤ m.data ∨ m.data + 8 ≤ b := by omega
      simp only [drWord, BitVec.getLsbD_or, getLsbD_putField, getLsbD_putBit, Bool.and_assoc, nd b hx]
      simp [h32, Bool.or_assoc]
    have e0 := hb m.drFe (by simp)
    have e1 := hb m.drPe (by simp)
    have e2 := hb m.drBe (by simp)
    have e3 := hb m.drOe (by simp)
    have n1 : m.drFe ≠ m.drPe ∧ m.drFe ≠ m.drBe ∧ m.drFe ≠ m.drOe ∧ m.drPe ≠ m.drBe
        ∧ m.drPe ≠ m.drOe ∧ m.drBe ≠ m.drOe := by omega
    simp [n1, n1.1.symm, n1.2.1.symm, n1.2.2.1.symm, n1.2.2.2.1.symm, n1.2.2.2.2.1.symm,
      n1.2.2.2.2.2.symm] at e0 e1 e2 e3
    rw [drStatus, e0, e1, e2, e3]
    generalize e.2 = st
    revert st
    decide

/-- The three flags of `FR` are read back (10_state R35). -/
theorem flagsValue_bits {s : State} (h : regMapOk s.params.regMap = true) :
    s.flagsValue.getLsbD s.params.regMap.rxfe = (s.uart.rxf.length == 0)
      ∧ s.flagsValue.getLsbD s.params.regMap.txff = (s.uart.txf.length == s.depth)
      ∧ s.flagsValue.getLsbD s.params.regMap.txfe = (s.uart.txf.length == 0) := by
  obtain ⟨hw, hd⟩ := regMapOk_fields h .fr
  simp only [fieldsOf, List.pairwise_cons, List.mem_cons, List.not_mem_nil, or_false, forall_eq_or_imp,
    forall_eq, IsEmpty.forall_iff, implies_true, List.Pairwise.nil, and_true] at hw hd
  have n : s.params.regMap.rxfe ≠ s.params.regMap.txff ∧ s.params.regMap.rxfe ≠ s.params.regMap.txfe
      ∧ s.params.regMap.txff ≠ s.params.regMap.txfe := by omega
  have l : s.params.regMap.rxfe < 32 ∧ s.params.regMap.txff < 32 ∧ s.params.regMap.txfe < 32 := by
    omega
  simp only [State.flagsValue, BitVec.getLsbD_or, getLsbD_putBit]
  simp [n, l, n.1.symm, n.2.1.symm, n.2.2.symm]

/-- The line-control word of the LineConfigurator has `FEN` set, in any layout that places it in the
word (41_baud_line R134). -/
theorem lcrhWord_fen {m : RegMap} (h : regMapOk m = true) (l : LineFormat) :
    (lcrhWord m l).getLsbD m.fen = true := by
  have hf := (regMapOk_fields h .lcrh).1 (m.fen, 1) (by simp [fieldsOf])
  have : m.fen < 32 := hf
  simp only [lcrhWord, BitVec.getLsbD_or, getLsbD_putBit]
  simp [this]

end Sys2Proof.Machine
end

