-- ==== Sys2Proof/Laws/Primitives.lean ====
section
/-! SUPPORT. What each primitive does, once: a register or channel primitive runs the environment
steps before it and then acts, and `Leaves` is carried from one primitive to the next. -/

namespace Sys2Proof.Safety

open Sys2Proof.Machine

/-! ### Carrying `Leaves` -/

section leaves

variable {s t t0 : State}

theorem Leaves.start (h : channelsOk s = true) : Leaves s s s :=
  ⟨rfl, h, fun _ _ => rfl, fun _ => rfl⟩

/-- A gap keeps `Leaves`. -/
theorem Leaves.gap (h : Leaves s t t0) (hq : t0.gaps = s.gaps) :
    ∃ u, gap t = .ok () u ∧ Leaves s u t0 := by
  obtain ⟨u, e, k⟩ := gap_leaves h.channels
  refine ⟨u, e, k.view.trans h.view, k.channels, ?_, ?_⟩
  · intro a ha
    exact (k.memory a (by rw [viewOf_params h.view]; exact ha)).trans (h.memory a ha)
  · intro hs
    have : t = t0 := h.quiet hs
    rw [k.quiet (by rw [this, hq, hs]), this]

/-- The same update of the block on both sides keeps `Leaves`. -/
theorem Leaves.setPort (h : Leaves s t t0) (f : Port → Port)
    (hc : channelsOk (t.setPort f) = true) : Leaves s (t.setPort f) (t0.setPort f) where
  view := by
    have := h.view
    simp only [viewOf, View.mk.injEq] at this ⊢
    simp only [State.setPort_params, State.setPort_port, State.setPort_uart, State.setPort_drx,
      State.setPort_stream, State.setPort_writeOwed, State.setPort_issuer, State.setPort_replies,
      State.setPort_turns]
    exact ⟨this.1, by rw [this.2.1], this.2.2⟩
  channels := hc
  memory a ha := h.memory a ha
  quiet hs := by rw [h.quiet hs]

/-- The same update of the control registers on both sides keeps `Leaves`. -/
theorem Leaves.setUart (h : Leaves s t t0) (f : Uart → Uart)
    (hf : ∀ u v : Uart, regsOf u = regsOf v → regsOf (f u) = regsOf (f v)) :
    Leaves s (t.setUart f) (t0.setUart f) where
  view := by
    have := h.view
    simp only [viewOf, View.mk.injEq] at this ⊢
    simp only [State.setUart_params, State.setUart_port, State.setUart_uart, State.setUart_drx,
      State.setUart_stream, State.setUart_writeOwed, State.setUart_issuer, State.setUart_replies,
      State.setUart_turns]
    exact ⟨this.1, this.2.1, hf _ _ this.2.2.1, this.2.2.2⟩
  channels := h.channels
  memory a ha := h.memory a ha
  quiet hs := by rw [h.quiet hs]

/-- The same update of the transmit channel on both sides keeps `Leaves`. -/
theorem Leaves.setDtx (h : Leaves s t t0) (f : TxChannel → TxChannel)
    (hc : channelsOk (t.setDtx f) = true) : Leaves s (t.setDtx f) (t0.setDtx f) where
  view := h.view
  channels := hc
  memory a ha := h.memory a ha
  quiet hs := by rw [h.quiet hs]

/-- The same update of the receive channel on both sides keeps `Leaves`. -/
theorem Leaves.setDrx (h : Leaves s t t0) (f : RxChannel → RxChannel)
    (hf : ∀ c d : RxChannel, c.slot = d.slot → (f c).slot = (f d).slot)
    (hc : channelsOk (t.setDrx f) = true) : Leaves s (t.setDrx f) (t0.setDrx f) where
  view := by
    have := h.view
    simp only [viewOf, View.mk.injEq] at this ⊢
    simp only [State.setDrx_params, State.setDrx_port, State.setDrx_uart, State.setDrx_drx,
      State.setDrx_stream, State.setDrx_writeOwed, State.setDrx_issuer, State.setDrx_replies,
      State.setDrx_turns]
    exact ⟨this.1, this.2.1, this.2.2.1, hf _ _ this.2.2.2.1, this.2.2.2.2⟩
  channels := hc
  memory a ha := h.memory a ha
  quiet hs := by rw [h.quiet hs]

/-- The same reply on both sides keeps `Leaves`. -/
theorem Leaves.reply (h : Leaves s t t0) (r : Reply) : Leaves s (t.reply r) (t0.reply r) where
  view := by
    have := h.view
    simp only [viewOf, View.mk.injEq] at this ⊢
    obtain ⟨h1, h2, h3, h4, h5, h6, h7, h8, h9⟩ := this
    exact ⟨h1, h2, h3, h4, h5, h6, h7, by simp only [State.reply, h7, h8], h9⟩
  channels := h.channels
  memory a ha := h.memory a ha
  quiet hs := by rw [h.quiet hs]

end leaves

end Sys2Proof.Safety

namespace Sys2Proof.Machine

open Sys2Proof.Safety

/-! ### What a view fixes -/

/-- The registers whose value the environment cannot change. -/
theorem regValue_of_view {t t0 : State} (h : viewOf t = viewOf t0) {r : Reg}
    (hr : r ≠ .fr ∧ r ≠ .ris ∧ r ≠ .mis) : t.regValue r = t0.regValue r := by
  have := viewOf_regs h
  simp only [regsOf, Regs.mk.injEq] at this
  obtain ⟨h1, h2, h3, h4, h5, h6, h7, h8, h9⟩ := this
  cases r <;> simp_all [State.regValue, viewOf_params h]

/-- The FIFO depth in force is fixed by the view. -/
theorem depth_of_view {t t0 : State} (h : viewOf t = viewOf t0) : t.depth = t0.depth := by
  have hu := viewOf_regs h
  simp only [regsOf, Regs.mk.injEq] at hu
  have hf (m : RegMap) : t.uart.fen m = t0.uart.fen m := by unfold Uart.fen; rw [hu.2.2.2.2.1]
  simp only [State.depth, depthOf, hf, viewOf_params h]

/-- The transmit state of dma mode, the ring and every other part of the block are fixed by the
view. -/
theorem pending_of_view {t t0 : State} (h : viewOf t = viewOf t0) : t.pending = t0.pending := by
  simp only [State.pending, viewOf_params h, viewOf_port h]

/-! ### Registers -/

/-- `rd` answers the defined bits at the moment of the read, after the environment steps before it
(20_memory R64, R81). -/
theorem rd_eq (r : Reg) (s : State) :
    rd r s = match gap s with
      | .ok _ t => .ok (t.regValue r &&& definedMask t.params.regMap r) t
      | .error e t => .error e t := by
  rw [rd, op_bind]
  cases gap s <;> rfl

theorem rd_quiet {s : State} (r : Reg) (h : s.gaps = []) :
    rd r s = .ok (s.regValue r &&& definedMask s.params.regMap r) s := by
  rw [rd_eq, gap_quiet h]

end Sys2Proof.Machine

namespace Sys2Proof.Safety

open Sys2Proof.Machine

theorem Leaves.rd {s t t0 : State} (h : Leaves s t t0) (hq : t0.gaps = s.gaps) (r : Reg) :
    ∃ u, Machine.rd r t = .ok (u.regValue r &&& definedMask u.params.regMap r) u ∧ Leaves s u t0 := by
  obtain ⟨u, e, k⟩ := h.gap hq
  exact ⟨u, by rw [rd_eq, e], k⟩

/-- A control register reads as it stood before the operation. -/
theorem Leaves.rdControl {s t t0 : State} (h : Leaves s t t0) (hq : t0.gaps = s.gaps) {r : Reg}
    (hr : r ≠ .fr ∧ r ≠ .ris ∧ r ≠ .mis) :
    ∃ u, Machine.rd r t = .ok (t0.regValue r &&& definedMask t0.params.regMap r) u ∧ Leaves s u t0 := by
  obtain ⟨u, e, k⟩ := h.rd hq r
  exact ⟨u, by rw [e, regValue_of_view k.view hr, viewOf_params k.view], k⟩

end Sys2Proof.Safety

namespace Sys2Proof.Machine

open Sys2Proof.Safety

/-- A register write stores after the environment steps before it (R65, R81). -/
theorem regWrite_eq (r : Reg) (v : Word) (s : State) :
    regWrite r v s = match gap s with
      | .ok _ t => storeReg r v t
      | .error e t => .error e t := by
  rw [regWrite, op_bind]
  cases gap s <;> rfl

theorem regWrite_quiet {s : State} (r : Reg) (v : Word) (h : s.gaps = []) :
    regWrite r v s = storeReg r v s := by
  rw [regWrite_eq, gap_quiet h]

@[simp] theorem storeReg_ibrd (v : Word) (s : State) : storeReg .ibrd v s = .ok ()
    (s.setUart fun u => { u with ibrdPend := v.extractLsb' s.params.regMap.divint 16 }) := rfl
@[simp] theorem storeReg_fbrd (v : Word) (s : State) : storeReg .fbrd v s = .ok ()
    (s.setUart fun u => { u with fbrdPend := v.extractLsb' s.params.regMap.divfrac 6 }) := rfl
@[simp] theorem storeReg_ctl (v : Word) (s : State) : storeReg .ctl v s
    = .ok () (s.setUart fun u => { u with ctl := v &&& definedMask s.params.regMap .ctl }) := rfl
@[simp] theorem storeReg_ifls (v : Word) (s : State) : storeReg .ifls v s
    = .ok () (s.setUart fun u => { u with ifls := v &&& definedMask s.params.regMap .ifls }) := rfl
@[simp] theorem storeReg_im (v : Word) (s : State) : storeReg .im v s
    = .ok () (s.setUart fun u => { u with im := v &&& definedMask s.params.regMap .im }) := rfl
@[simp] theorem storeReg_icr (v : Word) (s : State) : storeReg .icr v s
    = .ok () (s.setUart fun u => { u with ris := u.ris &&& ~~~ v }) := rfl
@[simp] theorem storeReg_dmactl (v : Word) (s : State) : storeReg .dmactl v s
    = .ok () (s.setUart fun u => { u with dmactl := v &&& definedMask s.params.regMap .dmactl }) := rfl
@[simp] theorem storeReg_lcrh (v : Word) (s : State) : storeReg .lcrh v s = storeLcrh v s := rfl

/-- A `DR` write with room appends the byte in its `DATA` field (R65). -/
theorem storeReg_dr_room {s : State} (v : Word) (h : s.uart.txf.length < s.depth) :
    storeReg .dr v s
      = .ok () (s.setUart fun u => { u with txf := u.txf ++ [drData s.params.regMap v] }) := by
  simp only [storeReg, theState_bind, if_pos h]
  rfl

@[simp] theorem Uart.withLcrh_lcrh (m : RegMap) (v : Word) (u : Uart) :
    (u.withLcrh m v).lcrh = v &&& definedMask m .lcrh := rfl
@[simp] theorem Uart.withLcrh_ibrdAct (m : RegMap) (v : Word) (u : Uart) :
    (u.withLcrh m v).ibrdAct = u.ibrdPend := rfl
@[simp] theorem Uart.withLcrh_fbrdAct (m : RegMap) (v : Word) (u : Uart) :
    (u.withLcrh m v).fbrdAct = u.fbrdPend := rfl

/-- `FEN` after a write of `LCRH` is the bit of the word written. -/
@[simp] theorem Uart.withLcrh_fen (m : RegMap) (v : Word) (u : Uart) :
    (u.withLcrh m v).fen m = v.getLsbD m.fen :=
  getLsbD_and_definedMask (by simp [fieldsOf]) v

/-- An `LCRH` store that does not clear `FEN` stores the defined bits and latches the divisor (R65,
R66). -/
theorem storeLcrh_latch {s : State} {v : Word} (h : s.uart.fen s.params.regMap = false
    ∨ v.getLsbD s.params.regMap.fen = true) :
    storeLcrh v s = .ok () (s.setUart (Uart.withLcrh s.params.regMap v)) := by
  have : (s.uart.fen s.params.regMap && !v.getLsbD s.params.regMap.fen) = false := by
    rcases h with h | h <;> simp [h]
  unfold storeLcrh
  simp only [Uart.withLcrh_fen, this]
  rfl

/-- What a fall of `FEN` leaves of a FIFO is a sub-list (R65). -/
theorem survivors_sublist {α : Type} (keep : Nat → Bool) (xs : List α) :
    (survivors keep xs).Sublist xs := by
  have h2 : (xs.zipIdx.filter fun x => keep x.2).Sublist xs.zipIdx := List.filter_sublist
  have h3 := h2.map Prod.fst
  rwa [List.zipIdx_map_fst] at h3

/-- Every `LCRH` store stores the defined bits, latches the divisor, and touches nothing else but the
FIFOs and the draws (R65, R66). -/
theorem storeLcrh_run (v : Word) (s : State) :
    ∃ xs ys n, storeLcrh v s = .ok () { s with
        uart := { s.uart.withLcrh s.params.regMap v with txf := xs, rxf := ys }
        draws := n }
      ∧ xs.Sublist s.uart.txf ∧ ys.Sublist s.uart.rxf
      ∧ ((s.uart.fen s.params.regMap = false ∨ v.getLsbD s.params.regMap.fen = true) →
          xs = s.uart.txf ∧ ys = s.uart.rxf ∧ n = s.draws) := by
  by_cases h : s.uart.fen s.params.regMap = false ∨ v.getLsbD s.params.regMap.fen = true
  · exact ⟨s.uart.txf, s.uart.rxf, s.draws, storeLcrh_latch h, List.Sublist.refl _,
      List.Sublist.refl _, fun _ => ⟨rfl, rfl, rfl⟩⟩
  · obtain ⟨h1, h2⟩ := not_or.mp h
    have g : (s.uart.fen s.params.regMap && !v.getLsbD s.params.regMap.fen) = true := by
      simp only [Bool.not_eq_false, Bool.not_eq_true] at h1 h2
      simp [h1, h2]
    refine ⟨survivors (Config.keepTx s.draws) s.uart.txf, survivors (Config.keepRx s.draws) s.uart.rxf,
      s.draws + 1, ?_, survivors_sublist _ _, survivors_sublist _ _, fun k => absurd k h⟩
    unfold storeLcrh
    simp only [Uart.withLcrh_fen, g]
    rfl

/-! ### `Keeps` for the register primitives -/

theorem rd_keeps {R : State → State → Prop} (refl : ∀ s, R s s)
    (trans : ∀ s t u, R s t → R t u → R s u) (h : gap.Keeps R) (r : Reg) : (rd r).Keeps R :=
  keeps_bind trans h fun _ => keeps_bind trans (keeps_theState refl) fun _ => keeps_pure refl _

theorem regWrite_keeps {R : State → State → Prop} (trans : ∀ s t u, R s t → R t u → R s u)
    (h : gap.Keeps R) (r : Reg) (v : Word) (hs : (storeReg r v).Keeps R) : (regWrite r v).Keeps R :=
  keeps_bind trans h fun _ => hs

/-! ### Channels -/

/-- `DmaStartTx` of an idle channel with a good length (R69). -/
theorem dmaStartTx_run {s t : State} {n : Nat} (hg : gap s = .ok () t) (hr : t.dtx.run = false)
    (h1 : 1 ≤ n) (h2 : n ≤ t.params.stageCap) :
    dmaStartTx n s
      = .ok () (t.setDtx fun _ => { run := true, rem := n, pos := 0, done := false }) := by
  rw [dmaStartTx, op_bind_ok hg]
  simp [hr, h1, h2]

/-- `DmaArmRx` of an idle channel (R70). -/
theorem dmaArmRx_run {s t : State} {x : Slot} (hg : gap s = .ok () t) (hr : t.drx.run = false) :
    dmaArmRx x s = .ok () (t.setDrx fun _ =>
      { run := true, slot := x, rem1 := 1, rem2 := t.params.slotCap - 1, done := false }) := by
  rw [dmaArmRx, op_bind_ok hg]
  simp [hr]

/-- `DmaStop(TX)` (R71). -/
theorem dmaStopTx_run {s t : State} (hg : gap s = .ok () t) :
    dmaStopTx s = .ok () (t.setDtx fun d => { d with run := false, done := false }) := by
  rw [dmaStopTx, op_bind_ok hg]
  rfl

/-- `DmaStop(RX)` (R71). -/
theorem dmaStopRx_run {s t : State} (hg : gap s = .ok () t) :
    dmaStopRx s = .ok () (t.setDrx fun d => { d with run := false, done := false }) := by
  rw [dmaStopRx, op_bind_ok hg]
  rfl

/-- `DmaRemaining(RX, 1)` and `DmaRemaining(RX, 2)` (R72). -/
theorem dmaRemaining_run {s t : State} (hg : gap s = .ok () t) :
    dmaRemaining1 s = .ok t.drx.rem1 t ∧ dmaRemaining2 s = .ok t.drx.rem2 t := by
  rw [dmaRemaining1, dmaRemaining2, op_bind_ok hg, op_bind_ok hg]
  exact ⟨rfl, rfl⟩

/-- `DmaQueryAck(TX)` (R73). -/
theorem dmaQueryAckTx_run {s t : State} (hg : gap s = .ok () t) :
    dmaQueryAckTx s = .ok t.dtx.done (t.setDtx fun d => { d with done := false }) := by
  rw [dmaQueryAckTx, op_bind_ok hg]
  rfl

/-- `DmaQueryAck(RX)` (R73). -/
theorem dmaQueryAckRx_run {s t : State} (hg : gap s = .ok () t) :
    dmaQueryAckRx s = .ok t.drx.done (t.setDrx fun d => { d with done := false }) := by
  rw [dmaQueryAckRx, op_bind_ok hg]
  rfl

/-! ### Ring and shared operations of the engines -/

/-- The ring refuses when full (40_ringbuffer R111). -/
theorem ringEnqueue_full {s : State} (b : Byte) (hr : s.port.life = .running)
    (h : s.ringFull = true) : ringEnqueue b s = .ok false s := by
  rw [ringEnqueue, op_bind_ok (requireRunning_of_running hr)]
  simp [h]

/-- The ring takes a byte at its head (R111). -/
theorem ringEnqueue_room {s : State} (b : Byte) (hr : s.port.life = .running)
    (h : s.ringFull = false) :
    ringEnqueue b s = .ok true (s.setPort fun q =>
      { q with ring := q.ring.write q.head b, head := (q.head + 1) % s.params.ringN }) := by
  rw [ringEnqueue, op_bind_ok (requireRunning_of_running hr), theState_bind, if_neg (by simp [h])]
  rfl

/-- Outside RUNNING the ring takes nothing and faults (R111). -/
theorem ringEnqueue_fault {s : State} (b : Byte) (hr : s.port.life ≠ .running) :
    ringEnqueue b s
      = .error .notRunning (s.setPort fun q => { q with fault := some .notRunning }) := by
  rw [ringEnqueue, op_bind_error (requireRunning_of_not_running hr)]

@[simp] theorem ringDequeue_run (n : Nat) (s : State) :
    ringDequeue n s = .ok (s.ringBytes s.port.tail (s.sliceLength n))
      (s.setPort fun q => { q with tail := (q.tail + s.sliceLength n) % s.params.ringN }) := rfl

/-- The wakeup test emits one `Wakeup` below the mark, else nothing (42_transmit R151). -/
theorem lowWaterTest_run (s : State) :
    lowWaterTest s = .ok () (if s.pending < s.params.lowWater
      then s.setPort fun q => { q with out := q.out ++ [.wakeup] } else s) := by
  unfold lowWaterTest wakeup
  rw [theState_bind]
  split <;> rfl

/-- The requested baud 0 faults, any other answers the divisor (41_baud_line R127). -/
theorem baudCalc_zero (c : Nat) (s : State) : baudCalc c 0 s
    = .error .baudZero (s.setPort fun q => { q with fault := some .baudZero }) := rfl

theorem baudCalc_run {b : Nat} (c : Nat) (s : State) (h : b ≠ 0) :
    baudCalc c b s = .ok (baudDivisor s.params c b) s := by
  simp [baudCalc, h]

/-- `IM` after `setIM(TXIM, v)` (42_transmit R145). -/
theorem txim_stored (m : RegMap) (im : Word) (v : Bool) :
    withBit (im &&& definedMask m .im) m.txInt v &&& definedMask m .im
      = withBit (im &&& definedMask m .im) m.txInt v := by
  refine and_definedMask_of_covered fun k h => ?_
  rw [getLsbD_withBit, Bool.and_eq_true, decide_eq_true_eq] at h
  by_cases hk : k = m.txInt
  · rw [getLsbD_definedMask, List.any_eq_true]
    exact ⟨(m.txInt, 1), by simp [fieldsOf], by simp [hk, hk ▸ h.1]⟩
  · rw [if_neg hk, BitVec.getLsbD_and, Bool.and_eq_true] at h
    exact h.2.2

/-- Without environment steps `setIM` replaces `IM.TXIM` (42_transmit R145). -/
theorem setTxim_quiet {s : State} (v : Bool) (h : s.gaps = []) :
    setTxim v s = .ok () (s.setUart fun u => { u with
      im := withBit (u.im &&& definedMask s.params.regMap .im) s.params.regMap.txInt v }) := by
  rw [setTxim, theState_bind, op_bind_ok (rd_quiet .im h), regWrite_quiet _ _ h, storeReg_im]
  simp only [State.regValue, txim_stored]
  rfl

/-- Under any environment a write of a register that stores by an update of the control registers
acts as that update. -/
theorem regWrite_leaves {s t t0 : State} (h : Leaves s t t0) (hq : t0.gaps = s.gaps) {r : Reg}
    {v : Word} (f : Uart → Uart)
    (hs : ∀ x, x.params = t0.params → storeReg r v x = .ok () (x.setUart f))
    (hf : ∀ u w : Uart, regsOf u = regsOf w → regsOf (f u) = regsOf (f w)) :
    ∃ u, regWrite r v t = .ok () u ∧ Leaves s u (t0.setUart f) := by
  obtain ⟨u, e, k⟩ := h.gap hq
  exact ⟨_, by rw [regWrite_eq, e]; exact hs u (viewOf_params k.view), k.setUart f hf⟩

/-- An update of a UART that writes control registers from control registers and constants. -/
theorem regs_congr {f : Uart → Uart} (g : Regs → Regs) (h : ∀ u, regsOf (f u) = g (regsOf u)) :
    ∀ u w : Uart, regsOf u = regsOf w → regsOf (f u) = regsOf (f w) := by
  intro u w e
  rw [h, h, e]

/-- Under any environment `setIM` replaces `IM.TXIM` and leaves the rest (42_transmit R145). -/
theorem setTxim_leaves {s t t0 : State} (h : Leaves s t t0) (hq : t0.gaps = s.gaps) (v : Bool) :
    ∃ u, setTxim v t = .ok () u ∧ Leaves s u (t0.setUart fun w => { w with
      im := withBit (t0.uart.im &&& definedMask t0.params.regMap .im) t0.params.regMap.txInt v }) := by
  obtain ⟨u1, e1, k1⟩ := h.rdControl hq (r := .im) (by decide)
  obtain ⟨u2, e2, k2⟩ := regWrite_leaves k1 hq (r := .im)
    (v := withBit (t0.regValue .im &&& definedMask t0.params.regMap .im) t0.params.regMap.txInt v)
    (fun w => { w with
      im := withBit (t0.uart.im &&& definedMask t0.params.regMap .im) t0.params.regMap.txInt v })
    (fun x hx => by rw [storeReg_im, hx, State.regValue, txim_stored])
    (regs_congr (fun r => { r with im := _ }) fun _ => rfl)
  refine ⟨u2, ?_, k2⟩
  rw [setTxim, theState_bind, op_bind_ok e1, viewOf_params h.view]
  exact e2

/-- Under any environment the commit protocol of 41_baud_line R137 leaves the divisor and the
line-control word stored and latched, with the UART disabled; it answers `CTL` as it was. `FEN` is set
in every line-control word the LineConfigurator derives. -/
theorem commitLine_leaves {s t t0 : State} (h : Leaves s t t0) (hq : t0.gaps = s.gaps)
    (hm : regMapOk t0.params.regMap = true) (brdi divfrac : Nat) {l : Word}
    (hl : l.getLsbD t0.params.regMap.fen = true) :
    ∃ u, commitLine brdi divfrac l t
        = .ok (t0.uart.ctl &&& definedMask t0.params.regMap .ctl) u
      ∧ Leaves s u (t0.setUart fun w => { w with
          ctl := withBit (t0.uart.ctl &&& definedMask t0.params.regMap .ctl)
            t0.params.regMap.uarten false &&& definedMask t0.params.regMap .ctl
          ibrdPend := BitVec.ofNat 16 brdi
          fbrdPend := BitVec.ofNat 6 divfrac
          ibrdAct := BitVec.ofNat 16 brdi
          fbrdAct := BitVec.ofNat 6 divfrac
          lcrh := l &&& definedMask t0.params.regMap .lcrh }) := by
  have hi := (regMapOk_fields hm .ibrd).1 (t0.params.regMap.divint, 16) (by simp [fieldsOf])
  have hf := (regMapOk_fields hm .fbrd).1 (t0.params.regMap.divfrac, 6) (by simp [fieldsOf])
  obtain ⟨u1, e1, k1⟩ := h.rdControl hq (r := .ctl) (by decide)
  obtain ⟨u2, e2, k2⟩ := regWrite_leaves k1 hq (r := .ctl)
    (v := withBit (t0.regValue .ctl &&& definedMask t0.params.regMap .ctl)
      t0.params.regMap.uarten false)
    (fun w => { w with
      ctl := withBit (t0.regValue .ctl &&& definedMask t0.params.regMap .ctl)
        t0.params.regMap.uarten false &&& definedMask t0.params.regMap .ctl })
    (fun x hx => by rw [storeReg_ctl, hx])
    (regs_congr (fun r => { r with ctl := _ }) fun _ => rfl)
  obtain ⟨u3, e3, k3⟩ := regWrite_leaves k2 hq (r := .ibrd)
    (v := putField t0.params.regMap.divint (BitVec.ofNat 16 brdi))
    (fun w => { w with ibrdPend := BitVec.ofNat 16 brdi })
    (fun x hx => by
      have hx' : x.params = t0.params := hx
      rw [storeReg_ibrd, hx', extract_putField hi])
    (regs_congr (fun r => { r with ibrdPend := _ }) fun _ => rfl)
  obtain ⟨u4, e4, k4⟩ := regWrite_leaves k3 hq (r := .fbrd)
    (v := putField t0.params.regMap.divfrac (BitVec.ofNat 6 divfrac))
    (fun w => { w with fbrdPend := BitVec.ofNat 6 divfrac })
    (fun x hx => by
      have hx' : x.params = t0.params := hx
      rw [storeReg_fbrd, hx', extract_putField hf])
    (regs_congr (fun r => { r with fbrdPend := _ }) fun _ => rfl)
  obtain ⟨u5, e5, k5⟩ := regWrite_leaves k4 hq (r := .lcrh) (v := l)
    (Uart.withLcrh t0.params.regMap l)
    (fun x hx => by
      have hx' : x.params = t0.params := hx
      rw [storeReg_lcrh, storeLcrh_latch (.inr (by rw [hx']; exact hl)), hx'])
    (regs_congr (fun r => { r with lcrh := _, ibrdAct := r.ibrdPend, fbrdAct := r.fbrdPend })
      fun _ => rfl)
  refine ⟨u5, ?_, k5⟩
  rw [commitLine, theState_bind, op_bind_ok e1, viewOf_params h.view, op_bind_ok e2, op_bind_ok e3,
    op_bind_ok e4, op_bind_ok e5]
  rfl

end Sys2Proof.Machine
end

