-- ==== Sys2Proof/Laws/Engines.lean ====
section
/-! SUPPORT. The shared operations of the engines: output events and counters, the kick, the loops of
WRITE and of the poll-mode engines one pass at a time, the receive event. -/

namespace Sys2Proof.Machine

open Sys2Proof.Safety

/-! ### Output events and counters -/

@[simp] theorem deliver_run (recs : List (Byte × Flag)) (s : State) :
    deliver recs s = .ok () (s.setPort fun q => { q with out := q.out ++ [.deliver recs] }) := rfl

@[simp] theorem wakeup_run (s : State) :
    wakeup s = .ok () (s.setPort fun q => { q with out := q.out ++ [.wakeup] }) := rfl

@[simp] theorem schedule_run (x : Slot) (n : Nat) (s : State) :
    schedule x n s = .ok () (s.setPort fun q => { q with task := some ⟨x, n, .copy⟩ }) := rfl

@[simp] theorem countTx_run (n : Nat) (s : State) : countTx n s
    = .ok () (s.setPort fun q => { q with cntTx := q.cntTx + BitVec.ofNat 32 n }) := rfl

@[simp] theorem countRx_run (n : Nat) (s : State) : countRx n s
    = .ok () (s.setPort fun q => { q with cntRx := q.cntRx + BitVec.ofNat 32 n }) := rfl

/-! ### The transmit kick -/

/-- Outside RUNNING a kick faults and does nothing else (42_transmit R147). -/
theorem txKick_fault {s : State} (h : s.port.life ≠ .running) : txKick s
    = .error .notRunning (s.setPort fun q => { q with fault := some .notRunning }) := by
  rw [txKick, op_bind_error (requireRunning_of_not_running h)]

theorem txKick_poll {s : State} (h : s.port.life = .running) (hm : s.params.mode = .poll) :
    txKick s = txKickPoll s := by
  rw [txKick, op_bind_ok (requireRunning_of_running h), theState_bind]
  simp only [hm]

theorem txKick_dma {s : State} (h : s.port.life = .running) (hm : s.params.mode = .dma) :
    txKick s = txKickDma s := by
  rw [txKick, op_bind_ok (requireRunning_of_running h), theState_bind]
  simp only [hm]

/-- A DMA kick that starts nothing (42_transmit R149). -/
theorem txKickDma_none {s : State}
    (h : s.pending = 0 ∨ s.port.ttyStopped = true ∨ s.port.txBusy = true) :
    txKickDma s = .ok () s := by
  unfold txKickDma
  rw [theState_bind]
  by_cases h1 : s.pending = 0 ∨ s.port.ttyStopped = true
  · rw [if_pos h1]
    rfl
  · rw [if_neg h1, if_pos ((h.resolve_left fun k => h1 (.inl k)).resolve_left fun k => h1 (.inr k))]
    rfl

/-- One pass of the push loop, from what the status read answers (42_transmit R148). -/
theorem pushLoop_full {fuel : Nat} {s t : State} {fr : Word} (h : rd .fr s = .ok fr t)
    (hf : fr.getLsbD t.params.regMap.txff = true) : pushLoop (fuel + 1) s = .ok () t := by
  rw [pushLoop, op_bind_ok h, theState_bind, if_pos hf]
  rfl

theorem pushLoop_empty {fuel : Nat} {s t : State} {fr : Word} (h : rd .fr s = .ok fr t)
    (hp : t.pending = 0) : pushLoop (fuel + 1) s = .ok () t := by
  rw [pushLoop, op_bind_ok h, theState_bind, if_pos hp]
  split <;> rfl

/-! ### The accepting loop of WRITE -/

theorem writeLoop_full {s : State} {b : Byte} {more : List Byte} (hr : s.port.life = .running)
    (hf : s.ringFull = true) : writeLoop (b :: more) s = .ok 0 s := by
  rw [writeLoop, op_bind_ok (ringEnqueue_full b hr hf)]
  rfl

theorem writeLoop_room {s t : State} {b : Byte} {more : List Byte} {k : Nat}
    (hr : s.port.life = .running) (hf : s.ringFull = false)
    (h : writeLoop more (s.setPort fun q =>
      { q with ring := q.ring.write q.head b, head := (q.head + 1) % s.params.ringN }) = .ok k t) :
    writeLoop (b :: more) s = .ok (k + 1) t := by
  rw [writeLoop, op_bind_ok (ringEnqueue_room b hr hf), if_neg (by simp), op_bind_ok h]
  rfl

/-! ### Receive -/

/-- A receive event while a task is in flight does nothing (43_receive R177). -/
theorem rxDmaEvent_busy {s : State} (h : s.port.rxBusy = true) : rxDmaEvent s = .ok () s := by
  rw [rxDmaEvent, theState_bind, if_pos h]
  rfl

/-- One pass of the receive loop that stops: at the bound, or at an empty FIFO (43_receive R172). -/
theorem pollLoop_bound {fuel count : Nat} {batch : List (Byte × Flag)} {s : State}
    (h : s.params.pollMax = some count) : pollLoop (fuel + 1) count batch s = .ok batch s := by
  rw [pollLoop, theState_bind, if_pos h]
  rfl

theorem pollLoop_empty {fuel count : Nat} {batch : List (Byte × Flag)} {s t : State} {fr : Word}
    (hb : s.params.pollMax ≠ some count) (h : rd .fr s = .ok fr t)
    (hf : fr.getLsbD s.params.regMap.rxfe = true) : pollLoop (fuel + 1) count batch s = .ok batch t := by
  rw [pollLoop, theState_bind, if_neg hb, op_bind_ok h, if_pos hf]
  rfl

/-- The last step of a RX_POLL_EVENT delivers a batch that is not empty, and nothing else (43_receive
R173). -/
theorem rxPollEvent_of_loop {s t : State} {batch : List (Byte × Flag)}
    (h : pollLoop s.receivePasses 0 [] s = .ok batch t) : rxPollEvent s
      = .ok () (if batch = [] then t
          else t.setPort fun q => { q with out := q.out ++ [.deliver batch] }) := by
  rw [rxPollEvent, theState_bind, op_bind_ok h]
  by_cases hb : batch = []
  · rw [if_neg (by simp [hb]), if_pos hb]
    rfl
  · rw [if_pos hb, if_neg hb]
    rfl

end Sys2Proof.Machine
end

