-- ==== Sys2Proof/Laws/PerInstr.lean ====
section
/-! SUPPORT. Statements made per instruction: one lemma for each constructor of `Instr`. -/

/-- The decoder's length rule agrees with the encoder: a command takes exactly the words that encode
it (30_encoding R87). -/
def Sys2Proof.Laws.EncodedLength.Statement (i : Sys2Proof.Instr) : Prop :=
  i.wf = true → Sys2Proof.commandLength (Sys2Proof.encode i) = (Sys2Proof.encode i).length

namespace Sys2Proof.Laws.EncodedLength

/-- The data words that hold `n` bytes are `ceil(n / 4)` (30_encoding R86). -/
theorem packBytes_length : ∀ bs : List Byte, (packBytes bs).length = dataWords bs.length
  | [] => rfl
  | [_] => by simp [packBytes, dataWords]
  | [_, _] => by simp [packBytes, dataWords]
  | [_, _, _] => by simp [packBytes, dataWords]
  | _ :: _ :: _ :: _ :: more => by
    have ih := packBytes_length more
    simp only [packBytes, List.length_cons, ih, dataWords]
    omega

/-- The opcode byte of a command word is its opcode's. -/
theorem fieldOp_commandWord (o : Opcode) (a b : Byte) : fieldOp (commandWord o a b) = opcodeByte o := by
  ext i hi
  have h1 : BitVec.getLsbD (w := 8 + 8 + (8 + 8)) ((0#8 ++ b) ++ (a ++ opcodeByte o)) i = _ :=
    BitVec.getLsbD_append
  have h2 : BitVec.getLsbD (w := 8 + 8) (a ++ opcodeByte o) i = _ := BitVec.getLsbD_append
  rw [if_pos (by omega)] at h1 h2
  rw [fieldOp, BitVec.getElem_extractLsb', Nat.zero_add]
  exact (h1.trans h2).trans (BitVec.getLsbD_eq_getElem hi)

/-- Every opcode is found by its byte. -/
theorem opcodeOf_opcodeByte (o : Opcode) : opcodeOf (opcodeByte o) = some o := by
  cases o <;> decide

theorem opcodeOf_commandWord (o : Opcode) (a b : Byte) :
    opcodeOf (fieldOp (commandWord o a b)) = some o := by
  rw [fieldOp_commandWord, opcodeOf_opcodeByte]

theorem baudCalc (c b : Word) : Statement (.baudCalc c b) := by
  intro _
  simp [encode, commandLength, opcodeOf_commandWord]

theorem maskCalc (p : Policy) : Statement (.maskCalc p) := by
  intro _
  simp [encode, commandLength, opcodeOf_commandWord]

theorem lineApply (l : LineFormat) (p : Policy) (b : Word) : Statement (.lineApply l p b) := by
  intro _
  simp [encode, commandLength, opcodeOf_commandWord]

theorem write (d : List Byte) : Statement (.write d) := by
  intro h
  simp only [Instr.wf, decide_eq_true_eq] at h
  simp only [encode, commandLength, opcodeOf_commandWord, List.length_cons, packBytes_length,
    BitVec.toNat_ofNat, Nat.mod_eq_of_lt h]
  omega

theorem setBreak (on : Bool) : Statement (.setBreak on) := by
  intro _
  simp [encode, commandLength, opcodeOf_commandWord]

theorem queryTxEmpty : Statement .queryTxEmpty := by
  intro _
  simp [encode, commandLength, opcodeOf_commandWord]

theorem startup : Statement .startup := by
  intro _
  simp [encode, commandLength, opcodeOf_commandWord]

theorem shutdown : Statement .shutdown := by
  intro _
  simp [encode, commandLength, opcodeOf_commandWord]

theorem setTtyStopped (on : Bool) : Statement (.setTtyStopped on) := by
  intro _
  simp [encode, commandLength, opcodeOf_commandWord]

theorem txKick : Statement .txKick := by
  intro _
  simp [encode, commandLength, opcodeOf_commandWord]

theorem txStop : Statement .txStop := by
  intro _
  simp [encode, commandLength, opcodeOf_commandWord]

theorem rbTryEnqueue (b : Byte) : Statement (.rbTryEnqueue b) := by
  intro _
  simp [encode, commandLength, opcodeOf_commandWord]

theorem rbDequeueUpTo (n : Word) : Statement (.rbDequeueUpTo n) := by
  intro _
  simp [encode, commandLength, opcodeOf_commandWord]

theorem rbPendingCount : Statement .rbPendingCount := by
  intro _
  simp [encode, commandLength, opcodeOf_commandWord]

theorem rbIsEmpty : Statement .rbIsEmpty := by
  intro _
  simp [encode, commandLength, opcodeOf_commandWord]

theorem irqDispatch : Statement .irqDispatch := by
  intro _
  simp [encode, commandLength, opcodeOf_commandWord]

theorem txDmaDone : Statement .txDmaDone := by
  intro _
  simp [encode, commandLength, opcodeOf_commandWord]

theorem rxPollEvent : Statement .rxPollEvent := by
  intro _
  simp [encode, commandLength, opcodeOf_commandWord]

theorem rxDmaEvent : Statement .rxDmaEvent := by
  intro _
  simp [encode, commandLength, opcodeOf_commandWord]

theorem rxTaskCopy : Statement .rxTaskCopy := by
  intro _
  simp [encode, commandLength, opcodeOf_commandWord]

theorem rxTaskFinish : Statement .rxTaskFinish := by
  intro _
  simp [encode, commandLength, opcodeOf_commandWord]

theorem rxClassify (st : Status) : Statement (.rxClassify st) := by
  intro _
  simp [encode, commandLength, opcodeOf_commandWord]

theorem rxFlag (st : Status) : Statement (.rxFlag st) := by
  intro _
  simp [encode, commandLength, opcodeOf_commandWord]

end Sys2Proof.Laws.EncodedLength
end

