-- ==== Sys2Proof/Tests/Slice0.lean ====
section
/-! SUPPORT. Tests: the operand checks, words written out from the encoding tables, one-step vectors of
95_test_vectors, and for each statement a state and operands that meet its hypotheses. -/

namespace Sys2Proof.Tests

open Sys2Proof Sys2Proof.Machine Sys2Proof.Safety

/-! ### Ill-formed terms are refused (30_encoding R86, R89) -/

theorem test_wf_wlen_low : Instr.wf (.lineApply ⟨4, .none, 1⟩ ⟨false, false, false, false⟩ 1) = false := by
  decide
theorem test_wf_wlen_high : Instr.wf (.lineApply ⟨9, .none, 1⟩ ⟨false, false, false, false⟩ 1) = false := by
  decide
theorem test_wf_stop : Instr.wf (.lineApply ⟨8, .none, 3⟩ ⟨false, false, false, false⟩ 1) = false := by
  decide
theorem write_too_long (d : List Byte) (h : d.length = 2 ^ 32) : Instr.wf (.write d) = false := by
  simp [Instr.wf, h]
theorem test_wf_write_too_long : Instr.wf (.write (List.replicate (2 ^ 32) 0)) = false :=
  write_too_long _ List.length_replicate
theorem test_wf_good : Instr.wf (.lineApply ⟨8, .mark, 2⟩ ⟨true, false, true, false⟩ 9600) = true := by
  decide

/-! ### Words decode to the command the tables give them (30_encoding R85 to R94) -/

theorem test_decode_baud_calc : decode [0x00000001, 0x00F42400, 0x0001C200] = .command (.baudCalc 16000000 115200) [] := by decide
theorem test_decode_mask_calc : decode [0x00050002] = .command (.maskCalc ⟨true, false, true, false⟩) [] := by decide
theorem test_decode_line_apply : decode [0x00082D03, 0x0000E100] = .command (.lineApply ⟨6, .space, 2⟩ ⟨false, false, false, true⟩ 57600) [] := by decide
theorem test_decode_write : decode [0x00000004, 0x00000005, 0x4C4C4548, 0x0000004F] = .command (.write [0x48, 0x45, 0x4C, 0x4C, 0x4F]) [] := by decide
theorem test_decode_set_break : decode [0x00000105] = .command (.setBreak true) [] := by decide
theorem test_decode_query_tx_empty : decode [0x00000006] = .command (.queryTxEmpty) [] := by decide
theorem test_decode_startup : decode [0x00000007] = .command (.startup) [] := by decide
theorem test_decode_shutdown : decode [0x00000008] = .command (.shutdown) [] := by decide
theorem test_decode_set_tty_stopped : decode [0x00000109] = .command (.setTtyStopped true) [] := by decide
theorem test_decode_tx_kick : decode [0x0000000A] = .command (.txKick) [] := by decide
theorem test_decode_tx_stop : decode [0x0000000B] = .command (.txStop) [] := by decide
theorem test_decode_rb_try_enqueue : decode [0x00001110] = .command (.rbTryEnqueue 0x11) [] := by decide
theorem test_decode_rb_dequeue_up_to : decode [0x00000011, 8] = .command (.rbDequeueUpTo 8) [] := by decide
theorem test_decode_rb_pending_count : decode [0x00000012] = .command (.rbPendingCount) [] := by decide
theorem test_decode_rb_is_empty : decode [0x00000013] = .command (.rbIsEmpty) [] := by decide
theorem test_decode_irq_dispatch : decode [0x00000020] = .command (.irqDispatch) [] := by decide
theorem test_decode_tx_dma_done : decode [0x00000021] = .command (.txDmaDone) [] := by decide
theorem test_decode_rx_poll_event : decode [0x00000022] = .command (.rxPollEvent) [] := by decide
theorem test_decode_rx_dma_event : decode [0x00000023] = .command (.rxDmaEvent) [] := by decide
theorem test_decode_rx_task_copy : decode [0x00000024] = .command (.rxTaskCopy) [] := by decide
theorem test_decode_rx_task_finish : decode [0x00000025] = .command (.rxTaskFinish) [] := by decide
theorem test_decode_rx_classify : decode [0x00000926] = .command (.rxClassify 9) [] := by decide
theorem test_decode_rx_flag : decode [0x00000227] = .command (.rxFlag 2) [] := by decide

/-! Refusals of 95_test_vectors section 2.10. -/

theorem test_refuse_illegal : decodeFor .host .poll [0x0000000C] = .refuse .illegalOp := by decide
theorem test_refuse_reserved_a : decodeFor .host .poll [0x00000107] = .refuse .reservedField := by decide
theorem test_refuse_issuer_before_mode : decodeFor .host .poll [0x00000024] = .refuse .wrongIssuer := by decide
theorem test_refuse_truncated : decodeFor .host .poll [0x00000004, 5, 0x4C4C4548] = .refuse .truncated := by decide
theorem test_refuse_padding : decodeFor .host .poll [0x00000004, 1, 0x00004100] = .refuse .reservedField := by decide
theorem test_refuse_policy : decodeFor .host .poll [0x00170303, 0x00002580] = .refuse .reservedField := by decide
theorem test_refuse_parity_code : decodeFor .host .poll [0x00001403, 0x00002580] = .refuse .reservedField := by decide
theorem test_refuse_mode : decodeFor .task .poll [0x00000024] = .refuse .wrongMode := by decide

/-! ### States the tests and the witnesses use -/

/-- A running port in poll mode with two bytes in its ring, as after P1's STARTUP and LINE_APPLY; the
host is about to enqueue a byte and kick. -/
def pollState : State :=
  { State.reset with
    port := { Port.reset with
      life := .running, ring := [(0, 0x48), (1, 0x49)], head := 2, readMask := 0xB
      committed := some ⟨9600, 104, 11, 0x70⟩ }
    uart := { Uart.reset with
      ibrdPend := 104, ibrdAct := 104, fbrdPend := 11, fbrdAct := 11, lcrh := 0x70, ctl := 0x301
      im := 0x050 }
    stream := [0x00004110, 0x0000000A] }

/-- The parameters of a port in dma mode. -/
def dmaParams : Params := { Params.common with mode := .dma, txCh := some 0, rxCh := some 1 }

/-- A running port in dma mode, slot A armed, two bytes in its ring. -/
def dmaState : State :=
  { pollState with
    params := dmaParams
    uart := { pollState.uart with im := 0x040, dmactl := 0x3 }
    drx := ⟨true, .a, 1, 7, false⟩ }

/-- A layout that is not the default: other offsets, fields shifted and reordered. -/
def otherMap : RegMap :=
  { RegMap.lm3s with
    offCtl := 0x100, offIm := 0x104, data := 16, drFe := 3, drPe := 2, drBe := 1, drOe := 0
    txff := 9, divint := 16, brk := 20, fen := 31, wlen := 8, uarten := 15, txe := 0, rxiflsel := 0
    txiflsel := 13, rxInt := 21, txInt := 30, txdmae := 6 }

/-- `pollState` on a part with that layout. -/
def otherState : State :=
  { pollState with
    params := { Params.common with regMap := otherMap }
    uart := { pollState.uart with lcrh := 0x80000000, ctl := 0x8201, ifls := 0x4002, im := 0x00200040 } }

/-- `dmaState` with a delivery task on slot B in a given phase. -/
def taskState (ph : Phase) : State :=
  { dmaState with
    mem := [(0x20000200, 0x61), (0x20000201, 0x62)]
    port := { dmaState.port with rxBusy := true, task := some ⟨.b, 2, ph⟩ } }

/-- The words of the last reply of a next state. -/
def lastResult : Host.Outcome State Fault Refusal → Option (List Word)
  | .next t =>
    match t.replies.getLast? with
    | some (_, .result ws) => some ws
    | _ => none
  | _ => none

/-- A value read off a next state. -/
def after {α : Type} (f : State → α) : Host.Outcome State Fault Refusal → Option α
  | .next t => some (f t)
  | _ => none

/-! ### One step each, from 95_test_vectors -/

theorem test_baud_calc_source : lastResult (exec (.baudCalc 16000000 115200) State.reset)
    = some [8, 44] := by decide
theorem test_baud_calc_carry : lastResult (exec (.baudCalc 16000000 815)
    { State.reset with params := { Params.common with frac64 := .carry } }) = some [1227, 0] := by decide
theorem test_mask_calc : lastResult (exec (.maskCalc ⟨true, true, false, false⟩) State.reset)
    = some [8, 0xF] := by decide
theorem test_line_apply_result :
    lastResult (exec (.lineApply ⟨5, .mark, 1⟩ ⟨false, false, false, false⟩ 300) State.reset)
      = some [300, 3333, 21, 0x92] := by decide
theorem test_line_apply_clamps :
    after (fun t => (t.uart.ibrdAct, t.uart.fbrdAct, t.uart.lcrh, t.uart.ctl))
      (exec (.lineApply ⟨8, .none, 1⟩ ⟨false, false, false, false⟩ 2000000) State.reset)
      = some (1, 0, 0x70, 0x300) := by decide
theorem test_enqueue_full : lastResult (exec (.rbTryEnqueue 0x44)
    { pollState with port := { pollState.port with head := 15 } }) = some [0] := by decide
theorem test_enqueue_wraps : after (fun t => (t.port.head, t.port.ring.read 15)) (exec (.rbTryEnqueue 0x41)
    { pollState with port := { pollState.port with head := 15, tail := 3 } })
    = some (0, some 0x41) := by decide
theorem test_dequeue_stops_at_the_end : lastResult (exec (.rbDequeueUpTo 8)
    { pollState with port := { pollState.port with
        ring := [(12, 1), (13, 2), (14, 3), (15, 4)], tail := 12, head := 2 } })
    = some [4, 1, 2, 3, 4] := by decide
theorem test_pending_wraps : lastResult (exec .rbPendingCount
    { pollState with port := { pollState.port with tail := 12, head := 2 } }) = some [6] := by decide
theorem test_write_accepts_one : after (fun t => t.writeOwed) (exec (.write [1, 2, 3, 4, 5])
    { pollState with port := { pollState.port with head := 14 } }) = some (some 1) := by decide
theorem test_kick_poll : after (fun t => (t.uart.txf, t.port.tail, t.port.cntTx, t.port.out, t.uart.im))
    (exec .txKick pollState) = some ([0x48, 0x49], 2, 2, [.wakeup], 0x050) := by decide
theorem test_kick_poll_full_fifo : after (fun t => (t.uart.txf, t.port.tail, t.uart.im))
    (exec .txKick { pollState with uart := { pollState.uart with lcrh := 0x60, txf := [7] } })
    = some ([7], 0, 0x070) := by decide
theorem test_kick_dma_wrap : after (fun t => (t.dtx.rem, t.port.tail, t.port.txLen, t.port.out, t.memBytes 0x20000000 4))
    (exec .txKick { dmaState with port := { dmaState.port with
        ring := [(0, 5), (1, 6), (12, 1), (13, 2), (14, 3), (15, 4)], tail := 12, head := 2 } })
    = some (4, 0, 4, [.wakeup], [1, 2, 3, 4]) := by decide
theorem test_stop_dma : after (fun t => (t.dtx.run, t.port.txBusy, t.port.txLen, t.port.cntTx))
    (exec .txStop { dmaState with
      dtx := ⟨true, 5, 3, false⟩, port := { dmaState.port with txBusy := true, txLen := 8 } })
    = some (false, false, 0, 0) := by decide
theorem test_dma_done_counts : after (fun t => (t.port.cntTx, t.port.txLen, t.dtx.rem))
    (exec .txDmaDone { dmaState with port := { dmaState.port with txBusy := true, txLen := 4 } })
    = some (4, 2, 2) := by decide
theorem test_classify_overrun : lastResult (exec (.rxClassify 9) pollState) = some [3] := by decide
theorem test_flag_parity : lastResult (exec (.rxFlag 2) pollState) = some [2, 0, 0] := by decide
theorem test_flag_overrun : lastResult (exec (.rxFlag 9) pollState) = some [3, 0, 1] := by decide
theorem test_poll_event : after (fun t => (t.port.cntRx, t.port.cntOverrun, t.port.cntParity, t.port.out))
    (exec .rxPollEvent { pollState with uart := { pollState.uart with
        rxf := [(0x41, 0), (0x42, 9), (0x43, 2)] } })
    = some (3, 1, 1, [.deliver [(0x41, .normal), (0x42, .frame), (0x43, .parity)]]) := by decide
theorem test_dma_event : after (fun t => (t.port.landing, t.port.task, t.port.rxBusy, t.drx.slot))
    (exec .rxDmaEvent { dmaState with drx := ⟨true, .a, 0, 5, false⟩ })
    = some (.b, some ⟨.a, 3, .copy⟩, true, .b) := by decide
theorem test_task_copy : after (fun t => (t.port.out, t.port.task)) (exec .rxTaskCopy (taskState .copy))
    = some ([.deliver [(0x61, .normal), (0x62, .normal)]], some ⟨.b, 2, .finish⟩) := by decide
theorem test_task_finish : after (fun t => (t.port.cntRx, t.port.rxBusy, t.port.recheck))
    (exec .rxTaskFinish (taskState .finish)) = some (2, false, true) := by decide
theorem test_dispatch_poll : after (fun t => (t.uart.ris, t.port.cntRx, t.port.tail))
    (exec .irqDispatch { pollState with uart := { pollState.uart with
        ris := 0x050, rxf := [(1, 0), (2, 0), (3, 0)] } }) = some (0, 3, 0) := by decide
/-- The default layout is one a part can have, with the masks and constants of R34 to R44, R202. -/
theorem test_default_map : regMapOk RegMap.lm3s = true
    ∧ allRegs.map (definedMask RegMap.lm3s) = [0xFFF, 0x0B0, 0xFFFF, 0x3F, 0xFF, 0x301, 0x3F, 0x070,
      0x7F0, 0x7F0, 0x7F0, 0x3]
    ∧ icrAll RegMap.lm3s = 0x7F0 ∧ ctlOn RegMap.lm3s = 0x301 ∧ ctlOff RegMap.lm3s = 0x300
    ∧ imPoll RegMap.lm3s = 0x050 ∧ imDma RegMap.lm3s = 0x040 ∧ dmactlOn RegMap.lm3s = 0x3
    ∧ iflsValue { Params.common with rxIfls := 3, txIfls := 1 } = 0x19 := by decide
theorem test_default_dr : drWord RegMap.lm3s (0x41, 9) = 0x941
    ∧ drData RegMap.lm3s 0x941 = 0x41 ∧ drStatus RegMap.lm3s 0x941 = 9 := by decide
theorem test_overlapping_map : paramsOk { Params.common with regMap := { RegMap.lm3s with txe := 9 } } = false
    ∧ paramsOk { Params.common with regMap := { RegMap.lm3s with offIm := 0x030 } } = false := by decide
theorem test_other_map_kick : after (fun t => (t.uart.txf, t.port.tail, t.uart.im, t.uart.lcrh))
    (exec .txKick { otherState with uart := { otherState.uart with txf := List.replicate 15 7 } })
    = some (List.replicate 15 7 ++ [0x48], 1, 0x40200040, 0x80000000) := by decide
theorem test_other_map_event : after (fun t => t.port.out) (exec .rxPollEvent { otherState with
      uart := { otherState.uart with rxf := [(0x42, 9), (0x43, 2)] } })
    = some [.deliver [(0x42, .frame), (0x43, .parity)]] := by decide
/-- `LINE_APPLY 115200, 8, none, 1`, `WRITE "hi"` and `8N1 9600` (R97, R98). -/
theorem test_assembly_line_apply : assemble
    ⟨.lineApply, [.number 115200, .number 8, .parity .none, .number 1]⟩
    = some (.lineApply ⟨8, .none, 1⟩ ⟨false, false, false, false⟩ 115200) := by decide
theorem test_assembly_write : assemble ⟨.write, [.text [0x68, 0x69]]⟩ = some (.write [0x68, 0x69]) := by
  decide
theorem test_assembly_bad_operands : assemble ⟨.setBreak, [.number 2]⟩ = none
    ∧ assemble ⟨.lineApply, [.number 9600, .number 9, .parity .odd, .number 1]⟩ = none := by decide
theorem test_mnemonic_named : opcodeNamed "RX_FLAG" = some .rxFlag ∧ opcodeNamed "NOP" = none := by
  decide
theorem test_pseudo_flow_start : Pseudo.expand .flowStart = [.setTtyStopped false, .txKick] := by decide
theorem test_pseudo_write_room : Pseudo.result Params.common .writeRoom [3] = [12] := by decide
theorem test_startup_poll : after (fun t => (t.port.life, t.uart.ctl, t.uart.im, t.uart.ifls, t.uart.lcrh))
    (exec .startup State.reset) = some (.running, 0x301, 0x050, 0x12, 0) := by decide
theorem test_startup_dma : after (fun t => (t.uart.im, t.uart.dmactl, t.drx))
    (exec .startup { State.reset with params := dmaParams })
    = some (0x040, 0x3, ⟨true, .a, 1, 7, false⟩) := by decide
theorem test_shutdown : after (fun t => (t.port.life, t.uart.im, t.uart.ctl, t.uart.lcrh, t.port.head))
    (exec .shutdown pollState) = some (.stopped, 0, 0x300, 0x60, 0) := by decide
theorem test_set_break : after (fun t => t.uart.lcrh) (exec (.setBreak true) pollState)
    = some 0x71 := by decide
theorem test_query_tx_empty : lastResult (exec .queryTxEmpty
    { pollState with uart := { pollState.uart with txf := [1] } }) = some [0] := by decide
theorem test_set_tty_stopped : after (fun t => t.port.ttyStopped) (exec (.setTtyStopped true) pollState)
    = some true := by decide
theorem test_step_refuses : after (fun t => (t.replies, t.stream))
    (step { pollState with stream := [0x0000000C, 0x00000012] })
    = some ([(.host, .refused .illegalOp)], [0x00000012]) := by decide
theorem test_fetch_runs_irq : after (fun t => t.replies)
    (step (pollState.withFetchWord 32 0x20)) = some [(.irq, .result [])] := by decide
theorem test_table_word : decodeTableWord 32 0x111110 = none := by decide
theorem test_table_word_write : decodeTableWord 32 0x04 = some (.write []) := by decide

/-! ### States that meet the invariants -/

theorem ringInv_of {s : State} (h : (decide (s.port.head < s.params.ringN) && decide (s.port.tail < s.params.ringN)
    && s.port.ring.wf && s.port.ring.all fun c => c.1 < s.params.ringN) = true) : RingInv s := by
  simp only [Bool.and_eq_true, decide_eq_true_eq, List.all_eq_true] at h
  exact ⟨h.1.1.1, h.1.1.2, h.1.2, h.2⟩

theorem witness_ringInv : RingInv pollState := ringInv_of (by decide)

theorem witness_idleInv : IdleInv State.reset := by
  constructor <;> decide

theorem witness_inv_poll : Inv pollState where
  params := by decide
  agents := by decide
  ring := witness_ringInv
  uart := by constructor <;> decide
  mem := by constructor <;> decide
  tx := by constructor <;> decide
  rx h := by cases h
  poll_idle _ := by constructor <;> decide
  stopped_idle h := absurd rfl h
  stopped_empty h := absurd rfl h
  owed_running _ := rfl
  committed_fen c h := by cases h; decide

theorem witness_inv_dma : Inv dmaState where
  params := by decide
  agents := by decide
  ring := ringInv_of (by decide)
  uart := by constructor <;> decide
  mem := by constructor <;> decide
  tx := by constructor <;> decide
  rx _ := by
    refine ⟨by decide, by decide, by decide, by decide, by decide, by decide, ?_⟩
    intro k h
    cases h
  poll_idle h := by cases h
  stopped_idle h := absurd rfl h
  stopped_empty h := absurd rfl h
  owed_running _ := rfl
  committed_fen c h := by cases h; decide

theorem witness_written_dma : Written dmaState where
  ring := by decide
  staged h := by cases h
  captured _ _ := by decide
  task k h := by cases h

theorem witness_reset_params : paramsOk State.reset.params = true ∧ State.reset.port.fault = none := by
  decide

/-! ### A state and operands for the hypotheses of each statement -/

theorem witness_StepPerforms_host : paramsOk pollState.params = true ∧ pollState.port.fault = none
    ∧ pollState.turns = [] ∧ pollState.writeOwed = none
    ∧ decodeFor .host pollState.params.mode pollState.stream = .command (.rbTryEnqueue 0x41) [0x0A] := by
  decide
theorem witness_StepPerforms_host_turn : ∃ s : State, paramsOk s.params = true ∧ s.port.fault = none
    ∧ s.turns.head? = some .host ∧ s.writeOwed = none
    ∧ decodeFor .host s.params.mode s.stream = .command .txKick [] :=
  ⟨{ pollState with stream := [0x0A], turns := [.host] }, by decide⟩
theorem witness_StepPerforms_irq : ∃ s : State, paramsOk s.params = true ∧ s.port.fault = none
    ∧ s.turns.head? = some (.irq [0x20])
    ∧ decodeFor .irq s.params.mode [0x20] = .command .irqDispatch [] :=
  ⟨{ pollState with turns := [.irq [0x20]] }, by decide⟩
theorem witness_StepPerforms_task : ∃ s : State, paramsOk s.params = true ∧ s.port.fault = none
    ∧ s.turns.head? = some (.task [0x24])
    ∧ decodeFor .task s.params.mode [0x24] = .command .rxTaskCopy [] :=
  ⟨{ dmaState with turns := [.task [0x24]] }, by decide⟩
theorem witness_StepPerforms_internal : ∃ s : State, paramsOk s.params = true ∧ s.port.fault = none
    ∧ s.turns.head? = some (.internal [0x22])
    ∧ decodeFor .internal s.params.mode [0x22] = .command .rxPollEvent [] :=
  ⟨{ pollState with turns := [.internal [0x22]] }, by decide⟩
theorem witness_StepPerforms_env : ∃ s t : State, paramsOk s.params = true
    ∧ s.turns.head? = some (.env (.uartRx 0x41 0))
    ∧ envStep (.uartRx 0x41 0) { s with turns := s.turns.tail } = .ok () t :=
  ⟨{ pollState with turns := [.env (.uartRx 0x41 0)] }, _, by decide, rfl, rfl⟩
theorem witness_Refused_host : ∃ s : State, paramsOk s.params = true ∧ s.port.fault = none
    ∧ s.turns = [] ∧ s.writeOwed = none ∧ s.stream ≠ []
    ∧ decodeFor .host s.params.mode s.stream = .refuse .truncated :=
  ⟨{ pollState with stream := [0x03] }, by decide⟩
theorem witness_Refused_irq : ∃ s : State, paramsOk s.params = true ∧ s.port.fault = none
    ∧ s.turns.head? = some (.irq [0x0A]) ∧ decodeFor .irq s.params.mode [0x0A] = .refuse .wrongIssuer :=
  ⟨{ pollState with turns := [.irq [0x0A]] }, by decide⟩
theorem witness_Refused_task : ∃ s : State, paramsOk s.params = true ∧ s.port.fault = none
    ∧ s.turns.head? = some (.task [0x24]) ∧ decodeFor .task s.params.mode [0x24] = .refuse .wrongMode :=
  ⟨{ pollState with turns := [.task [0x24]] }, by decide⟩
theorem witness_FaultIsTerminal_block : ∃ s : State, paramsOk s.params = true
    ∧ s.port.fault = some .baudZero ∧ ∀ e, s.turns.head? ≠ some (.env e) :=
  ⟨{ pollState with port := { pollState.port with fault := some .baudZero } }, by decide, rfl,
    fun _ h => by cases h⟩
theorem witness_FaultIsTerminal_env : ∃ s : State, paramsOk s.params = true
    ∧ s.port.fault = some .baudZero ∧ s.turns.head? = some (.env .dmaTx) :=
  ⟨{ pollState with
    port := { pollState.port with fault := some .baudZero }, turns := [.env .dmaTx] }, by decide⟩
theorem witness_DecodeInvertsEncode : Instr.wf (.lineApply ⟨5, .odd, 2⟩ ⟨true, true, false, false⟩ 300) = true
    ∧ mayIssue .host .lineApply = true ∧ definedIn .dma .lineApply = true := by decide
theorem witness_EncodeInvertsDecode : decode [0x04, 1, 0x41, 0x0A] = .command (.write [0x41]) [0x0A] := by
  decide
theorem witness_AssemblerLines : Instr.wf (.lineApply ⟨5, .odd, 2⟩ ⟨true, true, false, false⟩ 300) = true := by
  decide
theorem witness_DecoderChecks_payload :
    mayIssue .host .lineApply = true ∧ definedIn .poll .lineApply = true
    ∧ (0x1403 : Word) &&& reservedBits .lineApply = 0
    ∧ 5 ≤ ((0x1403 : Word).extractLsb' 10 3).toNat ∧ ((0x1003 : Word).extractLsb' 10 3).toNat < 5
    ∧ (0x01 : Word) &&& reservedBits .baudCalc = 0 ∧ ([7] : List Word).length < 2
    ∧ mayIssue .internal .rbDequeueUpTo = true ∧ (0x04 : Word) &&& reservedBits .write = 0
    ∧ ([0x41] : List Word).length < ((5 : Word).toNat + 3) / 4
    ∧ ((1 : Word).toNat + 3) / 4 ≤ ([0x4100] : List Word).length
    ∧ (1 : Word).toNat ≤ 1 ∧ 1 / 4 < ((1 : Word).toNat + 3) / 4
    ∧ (([0x4100] : List Word).getD (1 / 4) 0).extractLsb' (8 * (1 % 4)) 8 ≠ 0 := by decide
theorem witness_DecoderChecks :
    opcodeOf (fieldOp 0x0F) = none
    ∧ opcodeOf (fieldOp 0x20) = some .irqDispatch ∧ mayIssue .host .irqDispatch = false
    ∧ mayIssue .task .rxTaskCopy = true ∧ definedIn .poll .rxTaskCopy = false
    ∧ opcodeOf (fieldOp 0x107) = some .startup ∧ mayIssue .host .startup = true
    ∧ definedIn .dma .startup = true ∧ (0x107 : Word) &&& reservedBits .startup ≠ 0
    ∧ decodeFor .host .dma [0x07] = .command .startup [] := by decide
theorem witness_RegisterAccess_bad (a : Nat) (h : a = 0x4000C04C) :
    (8 ≠ 4 ∨ a % 4 ≠ 0) ∧ (4 ≠ 4 ∨ 0x4000C001 % 4 ≠ 0)
      ∧ ∀ r, a ≠ State.reset.params.base + regOffset RegMap.lm3s r := by
  subst h
  refine ⟨by decide, by decide, ?_⟩
  intro r
  cases r <;> decide
theorem witness_RegisterAccess_state : paramsOk State.reset.params = true
    ∧ pollState.uart.txf.length < pollState.depth
    ∧ (∃ s : State, s.uart.rxf = [(0x41, 9)] ∧ paramsOk s.params = true
      ∧ s.depth ≤ s.uart.txf.length) :=
  ⟨by decide, by decide, { State.reset with uart := { Uart.reset with rxf := [(0x41, 9)], txf := [1] } },
    by decide⟩
theorem witness_DivisorLatches : (∃ t, regWrite .lcrh 0x70 pollState = .ok () t)
    ∧ ∃ t, regWrite .ibrd 5 { pollState with gaps := [[.uartRx 1 0]] } = .ok () t :=
  ⟨⟨_, rfl⟩, _, rfl⟩
theorem witness_ChannelContract : (∃ u, gap { dmaState with gaps := [[.dmaTx]] } = .ok () u)
    ∧ dmaState.dtx.run = false ∧ dmaState.drx.run = true ∧ State.reset.drx.run = false :=
  ⟨⟨_, rfl⟩, by decide⟩
theorem witness_UartMovesBytes_dma : ∃ s : State, s.params.mode = .dma ∧ s.dtx.run = true
    ∧ s.uart.dmactl.getLsbD s.params.regMap.txdmae = true ∧ 0 < s.dtx.rem
    ∧ s.uart.txf.length < s.depth ∧ s.dtx.pos + s.dtx.rem ≤ s.params.stageCap ∧ s.dtx.rem = 1 :=
  ⟨{ dmaState with dtx := ⟨true, 1, 7, false⟩ }, by decide⟩
theorem witness_UartMovesBytes_dma_idle : State.reset.params.mode ≠ .dma ∧ dmaState.dtx.run = false
    ∧ dmaState.dtx.rem = 0 := by decide
theorem witness_UartMovesBytes_sends : ∃ s : State, s.uart.txf = 0x41 :: [0x42]
    ∧ s.uart.ctl.getLsbD 0 = true ∧ s.uart.ctl.getLsbD 8 = true ∧ s.uart.lcrh.getLsbD 0 = false
    ∧ s.uart.ctl.getLsbD 9 = true ∧ s.uart.rxf.length < s.depth ∧ s.uart.ibrdAct ≠ 0 :=
  ⟨{ pollState with uart := { pollState.uart with txf := [0x41, 0x42] } }, by decide⟩
theorem witness_UartMovesBytes_waits : State.reset.uart.txf = [] ∧ State.reset.uart.ctl.getLsbD 0 = false
    ∧ State.reset.uart.ibrdAct = 0 ∧ ∃ s : State, s.depth ≤ s.uart.rxf.length :=
  ⟨rfl, by decide, rfl, { State.reset with uart := { Uart.reset with rxf := [(1, 0)] } }, by decide⟩
theorem witness_CapturedBytes : ∃ s : State, s.params.mode = .dma ∧ 2 ≤ s.params.slotCap
    ∧ s.mem.wf = true ∧ s.uart.dmactl.getLsbD 0 = true ∧ s.port.landing = .a
    ∧ s.drx = ⟨true, .a, 1, s.params.slotCap - 1, false⟩
    ∧ 8 ≤ s.params.slotCap ∧ 8 ≤ s.uart.rxf.length :=
  ⟨{ dmaState with uart := { dmaState.uart with rxf := List.replicate 8 (0x41, 0) } }, by decide⟩
theorem witness_StatusRaised_rx : ∃ s t : State, envStep .raiseRx s = .ok () t
    ∧ s.uart.ris.getLsbD 4 = false ∧ t.uart.ris.getLsbD 4 = true :=
  ⟨{ pollState with uart := { pollState.uart with rxf := List.replicate 8 (1, 0) } }, _, rfl, by decide⟩
theorem witness_StatusRaised_tx : ∃ t : State, envStep .raiseTx pollState = .ok () t
    ∧ t.uart.ris.getLsbD 5 = true := ⟨_, rfl, by decide⟩
theorem witness_StatusRaised_rt : ∃ s t : State, envStep .raiseRt s = .ok () t
    ∧ s.uart.rxf = [] ∧ t.uart.ris.getLsbD 6 = true :=
  ⟨{ dmaState with drx := ⟨true, .a, 0, 7, false⟩ }, _, rfl, rfl, by decide⟩
theorem witness_StatusRaised_drain : ∃ s t : State, envStep (.uartTx true) s = .ok () t
    ∧ paramsOk s.params = true ∧ tells (.uartTx true) = true ∧ drainPending s = true
    ∧ s.uart.ris = 0 ∧ t.uart.ris.getLsbD 5 = true :=
  ⟨{ pollState with uart := { pollState.uart with txf := List.replicate 9 1 } }, _, rfl, by decide⟩
theorem witness_StatusRaised_error : ∃ t : State, envStep (.raiseErr 3) pollState = .ok () t
    ∧ t.uart.ris.getLsbD 10 = true := ⟨_, rfl, by decide⟩
theorem witness_StaleStatus : ∃ s t : State, paramsOk s.params = true ∧ s.params.mode = .poll ∧ s.uart.txf.length ≤ s.depth
    ∧ gap s = .ok () t ∧ s.flagsValue.getLsbD 5 = false ∧ s.flagsValue.getLsbD 7 = true :=
  ⟨{ pollState with gaps := [[.uartRx 1 0]] }, _, by decide, rfl, by decide, rfl, by decide, by decide⟩
theorem witness_StaleStatus_received : ∃ s t : State, paramsOk s.params = true ∧ s.params.mode = .poll
    ∧ s.uart.txf.length ≤ s.depth ∧ gap s = .ok () t ∧ s.flagsValue.getLsbD 4 = false :=
  ⟨{ pollState with gaps := [[.uartTx true]], uart := { pollState.uart with rxf := [(1, 0)], txf := [3] } },
    _, by decide, rfl, by decide, rfl, by decide⟩
theorem witness_RingCommands : State.reset.port.life ≠ .running
    ∧ pollState.port.life = .running ∧ pollState.pending ≠ pollState.params.ringN - 1
    ∧ 0 < pollState.params.ringN ∧ pollState.params.ringN ≤ 2 ^ 32
    ∧ ∃ s : State, s.port.life = .running ∧ s.pending = s.params.ringN - 1 :=
  ⟨by decide, rfl, by decide, by decide, by decide,
    { pollState with port := { pollState.port with head := 15 } }, rfl, by decide⟩
theorem witness_Ring : RingInv pollState ∧ pollState.port.life = .running ∧ room pollState = 13 :=
  ⟨witness_ringInv, rfl, by decide⟩
theorem witness_WriteKicks : ∃ s t : State, paramsOk s.params = true ∧ s.port.fault = none
    ∧ s.turns = [] ∧ s.writeOwed = some 2
    ∧ txKick { s with issuer := .host, turns := s.turns.tail, writeOwed := none } = .ok () t :=
  ⟨{ pollState with writeOwed := some 2 }, _, by decide, rfl, rfl, rfl, rfl⟩
theorem witness_BaudCalc : (0 : Word) = 0 ∧ (115200 : Word) ≠ 0 ∧ 1 ≤ State.reset.params.maxBaud := by
  decide
theorem witness_LineControlByte : regMapOk RegMap.lm3s = true ∧ regMapOk otherMap = true ∧ LineFormat.wf ⟨5, .space, 2⟩ = true := by decide
theorem witness_channelsOk : channelsOk pollState = true ∧ channelsOk dmaState = true
    ∧ channelsOk { dmaState with gaps := [[.uartRx 1 0], [.dmaRx]] } = true := by decide
theorem witness_CommitWindow : ∃ s : State, (9600 : Word) ≠ 0 ∧ channelsOk s = true
    ∧ s.gaps = [] :: [] :: [[.uartTx true, .uartRx 1 0], [.dmaRx]] :=
  ⟨{ dmaState with gaps := [[], [], [.uartTx true, .uartRx 1 0], [.dmaRx]] }, by decide⟩
theorem witness_KickPoll : paramsOk pollState.params = true ∧ pollState.gaps = [] ∧ pollState.params.mode = .poll
    ∧ pollState.port.life = .running ∧ RingInv pollState
    ∧ pollState.uart.txf.length ≤ pollState.depth ∧ pollState.pending ≠ 0
    ∧ pollState.port.ttyStopped = false :=
  ⟨by decide, rfl, rfl, rfl, witness_ringInv, by decide, by decide, rfl⟩
theorem witness_KickPoll_remaining : ∃ s t : State, paramsOk s.params = true ∧ s.params.mode = .poll
    ∧ s.port.life = .running ∧ RingInv s ∧ s.uart.txf.length ≤ s.depth ∧ s.pending ≠ 0
    ∧ s.port.ttyStopped = false ∧ s.uart.fen s.params.regMap = true ∧ s.txCode ≤ 4
    ∧ (∀ es ∈ s.gaps, ∀ e ∈ es, tells e = true)
    ∧ exec .txKick s = .next t ∧ t.pending ≠ 0 ∧ drainPending t = true :=
  ⟨{ pollState with
      gaps := [[], [.uartTx true]], uart := { pollState.uart with txf := List.replicate 16 7 } },
    _, by decide, rfl, rfl, ringInv_of (by decide), by decide, by decide, rfl, by decide, by decide,
    by decide, rfl, by decide, by decide⟩
theorem witness_KickPoll_idle : ∃ s : State, paramsOk s.params = true ∧ s.gaps = [] ∧ s.params.mode = .poll
    ∧ s.port.life = .running ∧ RingInv s ∧ s.uart.txf.length ≤ s.depth ∧ s.pending = 0 :=
  ⟨{ pollState with port := { pollState.port with head := 0 } }, by decide, rfl, rfl, rfl,
    ringInv_of (by decide), by decide, by decide⟩
theorem witness_KickDma : dmaState.params.mode = .dma ∧ dmaState.port.life = .running
    ∧ dmaState.pending ≠ 0 ∧ dmaState.port.ttyStopped = false ∧ dmaState.port.txBusy = false
    ∧ dmaState.dtx.run = false ∧ dmaState.port.tail < dmaState.params.ringN
    ∧ paramsOk dmaState.params = true ∧ dmaState.mem.wf = true ∧ channelsOk dmaState = true := by
  decide
theorem witness_KickDma_none : ∃ s : State, s.params.mode = .dma ∧ s.port.life = .running
    ∧ s.port.txBusy = true :=
  ⟨{ dmaState with port := { dmaState.port with txBusy := true, txLen := 2 } }, by decide⟩
theorem witness_DmaDone : dmaState.port.txBusy = false ∧ ∃ s : State, s.port.txBusy = true
    ∧ s.params.mode = .dma ∧ s.port.life = .running ∧ s.pending = 0 :=
  ⟨rfl, { dmaState with port := { dmaState.port with txBusy := true, txLen := 2, head := 0 } }, by decide⟩
theorem witness_Wakeups : (∃ t, exec .txKick pollState = .next t) ∧ (∃ t, exec .txStop pollState = .next t)
    ∧ ∃ t, finishWrite 2 pollState = .next t := ⟨⟨_, rfl⟩, ⟨_, rfl⟩, _, rfl⟩
theorem witness_TransmitLine : ∃ t : State, Inv pollState ∧ pollState.uart.ibrdAct ≠ 0
    ∧ pollState.uart.ibrdPend ≠ 0
    ∧ (∀ c, pollState.port.committed = some c → BitVec.ofNat 16 c.brdi ≠ 0)
    ∧ commandAt pollState = some (.rbTryEnqueue 0x41) ∧ step pollState = .next t :=
  ⟨_, witness_inv_poll, by decide, by decide, fun c h => by cases h; decide, by decide, rfl⟩
theorem witness_PollEvent : paramsOk pollState.params = true ∧ pollState.gaps = [] ∧ pollState.params.mode = .poll
    ∧ pollState.params.pollMax = none := by decide
theorem witness_DmaEvent : dmaState.issuer ≠ .task ∧ dmaState.port.rxBusy = false
    ∧ dmaState.params.mode = .dma ∧ 2 ≤ dmaState.params.slotCap ∧ channelsOk dmaState = true
    ∧ (taskState .copy).port.rxBusy = true ∧ (taskState .copy).issuer ≠ .task := by decide
theorem witness_Recheck : ∃ s t : State, s.issuer = .task ∧ s.port.recheck = true
    ∧ s.port.life = .running
    ∧ rxDmaEvent (s.setPort fun q => { q with recheck := false }) = .ok () t :=
  ⟨{ dmaState with issuer := .task, port := { dmaState.port with recheck := true } }, _, rfl, rfl, rfl, rfl⟩
theorem witness_Recheck_other : (∃ s : State, s.issuer = .task ∧ s.port.recheck = true
      ∧ s.port.life = .running ∧ s.port.rxBusy = true)
    ∧ ∃ s : State, s.issuer = .task ∧ s.port.recheck = false :=
  ⟨⟨{ taskState .copy with
      issuer := .task, port := { (taskState .copy).port with recheck := true } }, by decide⟩,
    { dmaState with issuer := .task }, by decide⟩
theorem witness_DeliveryTask : (taskState .copy).port.life = .running
    ∧ (taskState .copy).port.task = some ⟨.b, 2, .copy⟩ ∧ Slot.b ≠ (taskState .copy).port.landing
    ∧ (taskState .copy).params.mode = .dma ∧ 2 ≤ (taskState .copy).params.slotCap
    ∧ (taskState .finish).port.task = some ⟨.b, 2, .finish⟩
    ∧ ∃ s : State, s.port.life = .running ∧ s.port.task = some ⟨.b, 2, .copy⟩ ∧ .b = s.port.landing :=
  ⟨rfl, rfl, by decide, rfl, by decide, rfl,
    { taskState .copy with port := { (taskState .copy).port with landing := .b } }, by decide⟩
theorem witness_ReceiveLine : ∃ t : State, Inv dmaState ∧ dmaState.params.mode = .dma
    ∧ dmaState.port.life = .running ∧ commandAt dmaState ≠ some .shutdown
    ∧ step dmaState = .next t := ⟨_, witness_inv_dma, rfl, rfl, by decide, rfl⟩
theorem witness_DmaMode : ∃ s t : State, s.params.mode = .dma ∧ step s = .next t
    ∧ commandAt s = some .rxTaskCopy :=
  ⟨{ taskState .copy with turns := [.task [0x24]] }, _, rfl, rfl, by decide⟩
theorem witness_DispatchPoll (r : Word) (_ : r = 0x010 ∨ r = 0x020 ∨ r = 0x030 ∨ r = 0) : ∃ s : State,
    s.gaps = [] ∧ s.port.life = .running ∧ s.params.mode = .poll ∧ s.uart.ris &&& s.uart.im = r := by
  refine ⟨{ pollState with uart := { pollState.uart with ris := r, im := 0x070 } }, rfl, rfl, rfl, ?_⟩
  rcases ‹_› with h | h | h | h <;> subst h <;> decide
theorem witness_DispatchDma (rx tx : Bool) : ∃ s : State, s.gaps = [] ∧ s.port.life = .running
    ∧ s.params.mode = .dma ∧ s.dtx.done = tx
    ∧ (s.drx.done || (s.uart.ris &&& s.uart.im).getLsbD 4 || (s.uart.ris &&& s.uart.im).getLsbD 6) = rx :=
  ⟨{ dmaState with dtx := ⟨false, 0, 2, tx⟩, drx := ⟨false, .a, 0, 0, rx⟩ }, rfl, rfl, rfl, rfl, by
    cases rx <;> cases tx <;> decide⟩
theorem witness_DispatchNeverFaults : Inv dmaState ∧ dmaState.port.life = .running :=
  ⟨witness_inv_dma, rfl⟩
theorem witness_InterruptLost : ∃ s : State, s.params.mode = .poll ∧ s.port.life = .running
    ∧ s.misValue &&& icrAll s.params.regMap = 0 ∧ s.uart.txf.length ≤ s.txLevel ∧ s.gaps = [[], [.raiseTx]]
    ∧ s.uart.im.getLsbD 5 = true :=
  ⟨{ pollState with gaps := [[], [.raiseTx]], uart := { pollState.uart with im := 0x070 } }, by decide⟩
theorem witness_Lifecycle : State.reset.port.life ≠ .running ∧ pollState.port.life = .running
    ∧ (∀ k, dmaState.port.task = some k → k.phase ≠ .copy)
    ∧ ∀ k, (taskState .copy).port.task = some k → k.phase ≠ .finish := by
  refine ⟨by decide, rfl, fun k h => ?_, fun k h => ?_⟩
  · cases h
  · cases h
    decide
theorem witness_Startup : ∃ s : State, s.port.life ≠ .running ∧ paramsOk s.params = true ∧ IdleInv s
    ∧ s.port.committed = some ⟨9600, 104, 11, 0x70⟩
    ∧ ∀ c, s.port.committed = some c → c.lcrh.getLsbD s.params.regMap.fen = true :=
  ⟨{ State.reset with
      params := dmaParams, port := { Port.reset with committed := some ⟨9600, 104, 11, 0x70⟩ } },
    by decide, by decide, by constructor <;> decide, rfl, fun c h => by cases h; decide⟩
theorem witness_Shutdown : pollState.port.life = .running ∧ channelsOk pollState = true
    ∧ pollState.dtx.done = false ∧ pollState.drx.done = false
    ∧ dmaState.port.life = .running ∧ channelsOk dmaState = true := by decide
theorem witness_RingIndex : (∃ t, exec .txKick dmaState = .next t)
    ∧ (∃ t, State.reset.port.life ≠ .running ∧ exec .startup State.reset = .next t)
    ∧ (∃ t, dmaState.port.life = .running ∧ channelsOk dmaState = true
      ∧ exec .shutdown dmaState = .next t)
    ∧ (∃ t, exec (.rbTryEnqueue 1) dmaState = .next t) ∧ ∃ t, finishWrite 0 dmaState = .next t :=
  ⟨⟨_, rfl⟩, ⟨_, by decide, rfl⟩, ⟨_, rfl, by decide, rfl⟩, ⟨_, rfl⟩, _, rfl⟩
theorem witness_Life : ∃ s t : State, step s = .next t ∧ t.port.life ≠ s.port.life
    ∧ ∀ l p b, commandAt s ≠ some (.lineApply l p b) := by
  refine ⟨{ State.reset with stream := [0x07] }, _, rfl, by decide, ?_⟩
  intro l p b h
  have : some Instr.startup = some (.lineApply l p b) := h
  cases this
theorem witness_Memory : ∃ t : State, Inv dmaState ∧ exec .txKick dmaState = .next t
    ∧ outsideSlots dmaState.params 0x20000200 = False
    ∧ outsideSlots dmaState.params 0x200001FF ∧ outsideStage dmaState.params 0x20000008 := by
  refine ⟨_, witness_inv_dma, rfl, ?_, ?_, ?_⟩
  · simp [outsideSlots, dmaState, dmaParams, Params.common]
  · simp [outsideSlots, dmaState, dmaParams, Params.common]
  · simp [outsideStage, dmaState, dmaParams, Params.common]
theorem witness_Memory_write : ∃ t : State, Inv dmaState ∧ finishWrite 0 dmaState = .next t :=
  ⟨_, witness_inv_dma, rfl⟩
theorem witness_StepKeeps : ∃ t : State, Inv dmaState ∧ Written dmaState ∧ dmaState.port.fault = none
    ∧ step dmaState = .next t := ⟨_, witness_inv_dma, witness_written_dma, rfl, rfl⟩
theorem witness_EveryStepGoesOn : paramsOk dmaState.params = true ∧ dmaState.port.fault = none := by decide
theorem witness_RingIsAQueue : RingInv pollState ∧ pollState.port.life = .running :=
  ⟨witness_ringInv, rfl⟩
theorem witness_WriteAccepts : RingInv pollState ∧ pollState.port.life = .running
    ∧ room pollState = 13 := ⟨witness_ringInv, rfl, by decide⟩
theorem witness_LineApplyCommits : (9600 : Word) ≠ 0 ∧ paramsOk pollState.params = true ∧ channelsOk pollState = true
    ∧ channelsOk { dmaState with gaps := [[.uartRx 1 0], [.dmaRx]] } = true := by decide
theorem witness_Stop : State.reset.port.life ≠ .running ∧ dmaState.port.life = .running
    ∧ channelsOk dmaState = true ∧ dmaState.params.mode = .dma
    ∧ pollState.port.life = .running ∧ channelsOk pollState = true
    ∧ pollState.params.mode = .poll := by decide
theorem witness_UnboundedPollEvent : paramsOk pollState.params = true ∧ pollState.params.mode = .poll
    ∧ pollState.params.pollMax = none := by decide
theorem witness_PollEvent_noGap : pollState.gaps = []
    ∧ ∃ s : State, paramsOk s.params = true ∧ s.gaps = [] ∧ s.params.pollMax = some 1
      ∧ s.uart.rxf = [(0x41, 4), (0x42, 2)] :=
  ⟨rfl, { pollState with
      params := { pollState.params with pollMax := some 1 }
      uart := { pollState.uart with rxf := [(0x41, 4), (0x42, 2)] } }, by decide⟩
theorem witness_SetBreak : State.reset.port.life ≠ .running ∧ pollState.port.life = .running
    ∧ paramsOk pollState.params = true ∧ channelsOk pollState = true := by decide
theorem witness_QueryTxEmpty : paramsOk pollState.params = true ∧ channelsOk pollState = true := by decide
theorem witness_OutputsOnlyGrow : ∃ t : State, step pollState = .next t := ⟨_, rfl⟩
theorem witness_WrittenStep : ∃ t : State, Inv dmaState ∧ Written dmaState
    ∧ step dmaState = .next t := ⟨_, witness_inv_dma, witness_written_dma, rfl⟩
theorem witness_OnlyHostMisuse : ∃ t : State, Inv pollState ∧ pollState.port.fault = none
    ∧ step pollState = .next t := ⟨_, witness_inv_poll, rfl, rfl⟩

end Sys2Proof.Tests
end

/-! PROOFS of the family 00_scope: what a step does with its turn, that every body answers a next state,
and the register file as a bus slave (00_scope R6, R7, R12; 20_memory R63 to R65). -/

namespace Sys2Proof.Machine

/-! ### A step by the turn at the head of the schedule (00_scope R6) -/

section turns

variable {s : State}

/-- The turn at the head of the schedule is taken, in the state without it. -/
theorem step_of_head {t : Turn} (hp : paramsOk s.params = true) (ht : s.turns.head? = some t) :
    step s = takeTurn t { s with turns := s.turns.tail } := by
  obtain ⟨ts, hts⟩ := List.head?_eq_some_iff.mp ht
  simp [step, hp, hts]

/-- With no turns left the host moves. -/
theorem step_of_no_turns (hp : paramsOk s.params = true) (ht : s.turns = []) :
    step s = takeTurn .host s := by
  simp [step, hp, ht]

/-- A block that has not faulted takes its turn. -/
theorem blockTurn_of_no_fault (turn : State → Host.Outcome State Fault Refusal)
    (hf : s.port.fault = none) : blockTurn turn s = turn s := by
  simp [blockTurn, hf]

/-- The host moves when the schedule names it, and when no turns are left. -/
theorem step_of_host (hp : paramsOk s.params = true) (hf : s.port.fault = none)
    (ht : s.turns = [] ∨ s.turns.head? = some .host) :
    step s = hostTurn { s with turns := s.turns.tail } := by
  have htake : step s = takeTurn .host { s with turns := s.turns.tail } := by
    rcases ht with ht | ht
    · have htail : ({ s with turns := s.turns.tail } : State) = s := by
        rw [ht, List.tail_nil, ← ht]
      rw [htail, step_of_no_turns hp ht]
    · exact step_of_head hp ht
  exact htake.trans (blockTurn_of_no_fault _ hf)

/-- The turn of `Irq`, of the Task or of a component exercise issues its words. -/
theorem step_of_words {who : Issuer} {ws : List Word} (hw : who ≠ .host)
    (hp : paramsOk s.params = true) (hf : s.port.fault = none)
    (ht : s.turns.head? = some (turnOf who ws)) :
    step s = issueWords who ws { s with turns := s.turns.tail } := by
  have htake : takeTurn (turnOf who ws) { s with turns := s.turns.tail }
      = blockTurn (issueWords who ws) { s with turns := s.turns.tail } := by
    cases who with
    | host => exact absurd rfl hw
    | irq => rfl
    | task => rfl
    | internal => rfl
  exact ((step_of_head hp ht).trans htake).trans (blockTurn_of_no_fault _ hf)

/-! ### A turn by what the decoder answers (30_encoding R92, 60_exceptions R211) -/

theorem issueWords_command {who : Issuer} {ws rest : List Word} {i : Instr}
    (hd : decodeFor who s.params.mode ws = .command i rest) :
    issueWords who ws s = exec i (s.issuedBy who) := by
  simp [issueWords, hd]

theorem issueWords_refuse {who : Issuer} {ws : List Word} {why : RefuseReason}
    (hd : decodeFor who s.params.mode ws = .refuse why) :
    issueWords who ws s = .next ((s.issuedBy who).reply (.refused why)) := by
  simp [issueWords, hd]

theorem hostTurn_owed {acc : Nat} (ho : s.writeOwed = some acc) :
    hostTurn s = finishWrite acc (s.issuedBy .host) := by
  simp [hostTurn, ho]

theorem hostTurn_no_words (ho : s.writeOwed = none) (hs : s.stream = []) :
    hostTurn s = .next s := by
  simp [hostTurn, ho, hs]

theorem hostTurn_command {rest : List Word} {i : Instr} (ho : s.writeOwed = none)
    (hd : decodeFor .host s.params.mode s.stream = .command i rest) :
    hostTurn s = exec i { s.issuedBy .host with stream := rest } := by
  cases hs : s.stream with
  | nil => simp [hs, decodeFor] at hd
  | cons w0 ws =>
    rw [hs] at hd
    simp [hostTurn, ho, hs, hd]

theorem hostTurn_refuse {why : RefuseReason} (ho : s.writeOwed = none) (hs : s.stream ≠ [])
    (hd : decodeFor .host s.params.mode s.stream = .refuse why) :
    hostTurn s = .next (State.reply { s.issuedBy .host with
      stream := s.stream.drop (commandLength s.stream) } (.refused why)) := by
  obtain ⟨w0, ws, hw⟩ := List.exists_cons_of_ne_nil hs
  rw [hw] at hd
  simp [hostTurn, ho, hw, hd]

end turns

/-- Settles O4: a block agent's turn reaches `exec` through the decoder, an environment turn is its
step. -/
theorem stepPerformsTheDecodedCommand : Obligations.StepPerformsTheDecodedCommand := by
  intro s i rest hp
  refine ⟨fun hf => ⟨?host, ?irq, ?task, ?internal⟩, ?env⟩
  case host =>
    intro ht ho hd
    exact (step_of_host hp hf ht).trans (hostTurn_command ho hd)
  case irq =>
    exact fun ws ht hd => (step_of_words (who := .irq) (by decide) hp hf ht).trans
      (issueWords_command hd)
  case task =>
    exact fun ws ht hd => (step_of_words (who := .task) (by decide) hp hf ht).trans
      (issueWords_command hd)
  case internal =>
    exact fun ws ht hd => (step_of_words (who := .internal) (by decide) hp hf ht).trans
      (issueWords_command hd)
  case env =>
    intro e t ht he
    simp [step_of_head hp ht, takeTurn, performSilent, he]

/-! ### Every body answers a next state (60_exceptions R210) -/

theorem perform_next (body : Op (List Word)) (s : State) : ∃ t, perform body s = .next t := by
  rcases perform_cases body s with ⟨_, _, -, h⟩ | ⟨_, _, -, h⟩ <;> exact ⟨_, h⟩

theorem performUnit_next (body : Op Unit) (s : State) : ∃ t, performUnit body s = .next t :=
  perform_next _ s

theorem performSilent_next (body : Op Unit) (s : State) : ∃ t, performSilent body s = .next t := by
  rcases performSilent_cases body s with ⟨_, -, h⟩ | ⟨_, _, -, h⟩ <;> exact ⟨_, h⟩

/-- `IRQ_DISPATCH` runs, or outside RUNNING nothing is issued. -/
theorem execIrqDispatch_next (s : State) : ∃ t, execIrqDispatch s = .next t := by
  unfold execIrqDispatch
  split
  · exact performUnit_next _ s
  · exact ⟨s, rfl⟩

/-- `RX_DMA_EVENT` runs as itself or as the Task's re-check, or none is owed and nothing is issued. -/
theorem execRxDmaEvent_next (s : State) : ∃ t, execRxDmaEvent s = .next t := by
  unfold execRxDmaEvent
  split
  · split
    · exact performUnit_next _ s
    · exact ⟨s, rfl⟩
  · exact performUnit_next _ s

/-- `RX_TASK_COPY` runs for the task in phase COPY, or there is none and nothing is issued. -/
theorem execRxTaskCopy_next (s : State) : ∃ t, execRxTaskCopy s = .next t := by
  unfold execRxTaskCopy
  split
  · exact performUnit_next _ s
  · exact ⟨s, rfl⟩

/-- `RX_TASK_FINISH` runs for the task in phase FINISH, or there is none and nothing is issued. -/
theorem execRxTaskFinish_next (s : State) : ∃ t, execRxTaskFinish s = .next t := by
  unfold execRxTaskFinish
  split
  · exact performUnit_next _ s
  · exact ⟨s, rfl⟩

/-- Every command has a meaning, and its meaning answers a next state (30_encoding R94). The arms closed
by `rfl` are the commands whose bodies cannot raise a fault, so that the next state is computed. -/
theorem exec_next (i : Instr) (s : State) : ∃ t, exec i s = .next t := by
  cases i with
  | baudCalc c b => exact perform_next _ s
  | maskCalc policy => exact ⟨_, rfl⟩
  | lineApply line policy baud => exact perform_next _ s
  | write data => exact performSilent_next _ s
  | setBreak on => exact performUnit_next _ s
  | queryTxEmpty => exact perform_next _ s
  | startup => exact performUnit_next _ s
  | shutdown => exact performUnit_next _ s
  | setTtyStopped on => exact ⟨_, rfl⟩
  | txKick => exact performUnit_next _ s
  | txStop => exact performUnit_next _ s
  | rbTryEnqueue b => exact perform_next _ s
  | rbDequeueUpTo n => exact ⟨_, rfl⟩
  | rbPendingCount => exact ⟨_, rfl⟩
  | rbIsEmpty => exact ⟨_, rfl⟩
  | irqDispatch => exact execIrqDispatch_next s
  | txDmaDone => exact performUnit_next _ s
  | rxPollEvent => exact performUnit_next _ s
  | rxDmaEvent => exact execRxDmaEvent_next s
  | rxTaskCopy => exact execRxTaskCopy_next s
  | rxTaskFinish => exact execRxTaskFinish_next s
  | rxClassify st => exact ⟨_, rfl⟩
  | rxFlag st => exact ⟨_, rfl⟩

/-- Words that decode are performed, others are refused with a reply (R211). -/
theorem issueWords_next (who : Issuer) (ws : List Word) (s : State) :
    ∃ t, issueWords who ws s = .next t := by
  cases hd : decodeFor who s.params.mode ws with
  | command i rest => rw [issueWords_command hd]; exact exec_next _ _
  | refuse why => exact ⟨_, issueWords_refuse hd⟩

/-- The host finishes a WRITE, has nothing to issue, or issues a command that is performed or
refused. -/
theorem hostTurn_next (s : State) : ∃ t, hostTurn s = .next t := by
  cases ho : s.writeOwed with
  | some acc => rw [hostTurn_owed ho]; exact perform_next _ _
  | none =>
    by_cases hs : s.stream = []
    · exact ⟨s, hostTurn_no_words ho hs⟩
    · cases hd : decodeFor .host s.params.mode s.stream with
      | command i rest => rw [hostTurn_command ho hd]; exact exec_next _ _
      | refuse why => exact ⟨_, hostTurn_refuse ho hs hd⟩

/-- While the block has not faulted every turn answers a next state. -/
theorem takeTurn_next (t : Turn) {s : State} (hf : s.port.fault = none) :
    ∃ u, takeTurn t s = .next u := by
  cases t with
  | host => rw [takeTurn, blockTurn_of_no_fault _ hf]; exact hostTurn_next s
  | env e => exact performSilent_next _ s
  | irq ws => rw [takeTurn, blockTurn_of_no_fault _ hf]; exact issueWords_next _ ws s
  | task ws => rw [takeTurn, blockTurn_of_no_fault _ hf]; exact issueWords_next _ ws s
  | internal ws => rw [takeTurn, blockTurn_of_no_fault _ hf]; exact issueWords_next _ ws s

/-- Settles O6: the turn that moves answers a next state, whichever agent's it is. -/
theorem everyStepGoesOn : Obligations.EveryStepGoesOn := by
  intro s hp hf
  cases ht : s.turns.head? with
  | none => rw [step_of_no_turns hp (List.head?_eq_none_iff.mp ht)]; exact takeTurn_next _ hf
  | some t => rw [step_of_head hp ht]; exact takeTurn_next t hf

/-! ### Register addresses (20_memory R63) -/

theorem mem_allRegs (r : Reg) : r ∈ allRegs := by
  cases r <;> decide

/-- Registers of a sound layout stand at different offsets. -/
theorem regOffset_injective {m : RegMap} (h : regMapOk m = true) :
    Function.Injective (regOffset m) := by
  intro r r' heq
  simp only [regMapOk, Bool.and_eq_true] at h
  obtain ⟨⟨-, hranges⟩, -⟩ := h
  have hnodup : (allRegs.map (regOffset m)).Nodup :=
    List.pairwise_map.mpr ((List.pairwise_map.mp (rangesDisjoint_apart hranges)).imp
      fun hapart => by simp only at hapart; omega)
  exact List.inj_on_of_nodup_map hnodup (mem_allRegs r) (mem_allRegs r') heq

/-- A register's address in a well-formed parameter set is a multiple of 4. -/
theorem regAddr_aligned {p : Params} (h : paramsOk p = true) (r : Reg) :
    (p.base + regOffset p.regMap r) % 4 = 0 := by
  have hm := regMapOk_of_paramsOk h
  simp only [regMapOk, Bool.and_eq_true, List.all_eq_true, beq_iff_eq] at hm
  obtain ⟨⟨halign, -⟩, -⟩ := hm
  have hoff := halign r (mem_allRegs r)
  simp only [paramsOk, List.all_cons, id_eq, Bool.and_eq_true, beq_iff_eq] at h
  obtain ⟨hbase, -⟩ := h
  omega

/-- A word access at a register's own address reaches that register. -/
theorem regAt_regAddr {p : Params} (h : paramsOk p = true) (r : Reg) :
    regAt p (p.base + regOffset p.regMap r) 4 = some r := by
  rw [regAt, if_pos ⟨rfl, regAddr_aligned h r⟩]
  cases hfind : allRegs.find? (fun r' => p.base + regOffset p.regMap r'
      == p.base + regOffset p.regMap r) with
  | none => exact absurd (List.find?_eq_none.mp hfind r (mem_allRegs r)) (by simp)
  | some r' =>
    have hsame := List.find?_some hfind
    rw [beq_iff_eq, Nat.add_left_cancel_iff] at hsame
    rw [regOffset_injective (regMapOk_of_paramsOk h) hsame]

/-- An access of another width, unaligned or unlisted reaches no register, in any layout. -/
theorem regAt_eq_none {p : Params} {addr width : Nat}
    (h : width ≠ 4 ∨ addr % 4 ≠ 0 ∨ ∀ r, addr ≠ p.base + regOffset p.regMap r) :
    regAt p addr width = none := by
  unfold regAt
  split
  · next hword =>
    have hunlisted : ∀ r, addr ≠ p.base + regOffset p.regMap r := by
      rcases h with h | h | h
      · exact absurd hword.1 h
      · exact absurd hword.2 h
      · exact h
    exact List.find?_eq_none.mpr fun r _ => by simpa using (hunlisted r).symm
  · rfl

theorem busRead_unlisted {s : State} {addr width : Nat} (h : regAt s.params addr width = none) :
    busRead addr width s
      = .error .regAccess (s.setPort fun q => { q with fault := some .regAccess }) := by
  simp [busRead, h]

theorem busWrite_unlisted {s : State} {addr width : Nat} (v : Word)
    (h : regAt s.params addr width = none) :
    busWrite addr width v s
      = .error .regAccess (s.setPort fun q => { q with fault := some .regAccess }) := by
  simp [busWrite, h]

/-! ### Side effects of `DR` (20_memory R64, R65) -/

/-- A `DR` read of a nonempty FIFO pops its first entry. -/
theorem popDr_cons {s : State} {e : Byte × Status} {rest : List (Byte × Status)}
    (h : s.uart.rxf = e :: rest) :
    popDr s = .ok (drWord s.params.regMap e) (s.setUart fun u => { u with rxf := rest }) := by
  simp [popDr, h]

/-- In the default layout a `DR` word is the status above the byte, zero-extended (10_state R34). -/
theorem drWord_lm3s (b : Byte) (st : Status) :
    drWord RegMap.lm3s (b, st) = (0#20 ++ st) ++ b := by
  apply BitVec.eq_of_getLsbD_eq
  intro k hk
  simp only [drWord, BitVec.getLsbD_or, getLsbD_putField, getLsbD_putBit, RegMap.lm3s,
    BitVec.getLsbD_append]
  by_cases hb : k < 8
  · have hst : k ≠ 8 ∧ k ≠ 9 ∧ k ≠ 10 ∧ k ≠ 11 := by omega
    simp [hk, hb, hst]
  · have hbyte : b.getLsbD k = false := BitVec.getLsbD_of_ge _ _ (by omega)
    by_cases hst : k < 12
    · obtain rfl | rfl | rfl | rfl : k = 8 ∨ k = 9 ∨ k = 10 ∨ k = 11 := by omega
      all_goals simp
    · have hno : k ≠ 8 ∧ k ≠ 9 ∧ k ≠ 10 ∧ k ≠ 11 ∧ ¬ k - 8 < 4 := by omega
      simp [hb, hbyte, hno]

/-- A `DR` write to a full FIFO is `TX_OVERFILL`. -/
theorem storeReg_dr_full {s : State} (v : Word) (h : s.depth ≤ s.uart.txf.length) :
    storeReg .dr v s
      = .error .txOverfill (s.setPort fun q => { q with fault := some .txOverfill }) := by
  simp [storeReg, Nat.not_lt.mpr h]

/-- Settles O13: register addresses are apart and aligned, so each reaches its own register and all
others none; `DR` and `ICR` by their own equations. -/
theorem registerAccess : Obligations.RegisterAccess := by
  refine ⟨fun p r h => regAt_regAddr h r, ?others, fun s v => ⟨?read, ?room, ?full, ?icr⟩⟩
  case others =>
    intro s addr width v h
    have hnone := regAt_eq_none h
    exact ⟨busRead_unlisted hnone, busWrite_unlisted v hnone⟩
  case read =>
    intro b st rest hrx hp
    obtain ⟨hdata, hstatus⟩ := drWord_read (regMapOk_of_paramsOk hp) (b, st)
    refine ⟨drWord s.params.regMap (b, st), popDr_cons hrx, hdata, hstatus, fun hm => ?_⟩
    rw [hm, drWord_lm3s]
  case room => exact storeReg_dr_room v
  case full => exact storeReg_dr_full v
  case icr => exact storeReg_icr v s

end Sys2Proof.Machine

/-! PROOFS of the family 10_state: what a step can do, what every step leaves or only adds to, and the
invariants `Inv` and `Written` (10_state R20 to R53). -/

namespace Sys2Proof.Machine

open Sys2Proof.Safety

/-! ### What the decoder lets an agent issue (30_encoding R92, R94) -/

/-- The operands of an opcode make a command of that opcode and leave the last words of the payload. -/
theorem decodeOperands_command {o : Opcode} {w0 : Word} {ws rest : List Word} {i : Instr}
    (h : decodeOperands o w0 ws = .command i rest) : opcodeFor i = o ∧ rest <:+ ws := by
  have one (w : Word) (more : List Word) : more <:+ w :: more := List.suffix_cons w more
  cases o <;> simp only [decodeOperands, bare] at h
  case baudCalc =>
    split at h <;> cases h
    exact ⟨rfl, (one _ _).trans (one _ _)⟩
  case lineApply =>
    split at h
    · cases h
    · split at h <;> cases h
      exact ⟨rfl, one _ _⟩
  case write =>
    split at h
    · cases h
    · split at h
      · cases h
      · split at h <;> cases h
        exact ⟨rfl, (List.drop_suffix _ _).trans (one _ _)⟩
  case rbDequeueUpTo =>
    split at h <;> cases h
    exact ⟨rfl, one _ _⟩
  all_goals
    cases h
    exact ⟨rfl, List.suffix_refl _⟩

/-- A command that decodes is one its agent may issue, in a mode that defines it; the words left are the
last ones. -/
theorem decodeFor_command {who : Issuer} {m : Mode} {ws rest : List Word} {i : Instr}
    (h : decodeFor who m ws = .command i rest) :
    mayIssue who (opcodeFor i) = true ∧ definedIn m (opcodeFor i) = true ∧ rest <:+ ws := by
  cases ws with
  | nil => cases h
  | cons w0 more =>
    simp only [decodeFor, decodeBody] at h
    split at h
    · cases h
    · split at h
      · cases h
      · next hissue =>
        split at h
        · cases h
        · next hmode =>
          split at h
          · cases h
          · obtain ⟨hop, hrest⟩ := decodeOperands_command h
            rw [hop]
            exact ⟨by simpa using hissue, by simpa using hmode, hrest.trans (List.suffix_cons _ _)⟩

/-! ### What a step can do (00_scope R6) -/

/-- The state in which `who` acts at the head of the schedule, with `ws` left of the host's stream. -/
def State.actedBy (s : State) (who : Issuer) (ws : List Word) : State :=
  { s with issuer := who, stream := ws, turns := s.turns.tail }

/-- Everything a step that goes on can be. -/
inductive Stepped (s : State) : State → Prop
  /-- An environment step. -/
  | env (e : EnvStep) (t : State) (head : s.turns.head? = some (.env e))
      (run : performSilent (envStep e) { s with turns := s.turns.tail } = .next t) : Stepped s t
  /-- A block agent's command. -/
  | command (who : Issuer) (i : Instr) (ws : List Word) (t : State) (at_head : commandAt s = some i)
      (host : who = .host → s.writeOwed = none)
      (agent : who = .internal → ∃ u ∈ s.turns, isAgentTurn u = false)
      (may : mayIssue who (opcodeFor i) = true) (defined : definedIn s.params.mode (opcodeFor i) = true)
      (rest : ws <:+ s.stream) (run : exec i (s.actedBy who ws) = .next t) : Stepped s t
  /-- The second step of a WRITE. -/
  | owed (acc : Nat) (t : State) (at_head : commandAt s = none) (count : s.writeOwed = some acc)
      (run : finishWrite acc (s.actedBy .host s.stream) = .next t) : Stepped s t
  /-- A refusal. -/
  | refused (who : Issuer) (why : RefuseReason) (ws : List Word) (at_head : commandAt s = none)
      (rest : ws <:+ s.stream) : Stepped s ((s.actedBy who ws).reply (.refused why))
  /-- The host has nothing to issue. -/
  | nothing (at_head : commandAt s = none) : Stepped s { s with turns := s.turns.tail }

theorem commandAt_owed {s : State} {acc : Nat} (ht : s.turns = [] ∨ s.turns.head? = some .host)
    (ho : s.writeOwed = some acc) : commandAt s = none := by
  rcases ht with ht | ht
  · simp only [commandAt, ht, ho]
  · obtain ⟨ts, hts⟩ := List.head?_eq_some_iff.mp ht
    simp only [commandAt, hts, ho]

theorem commandAt_host {s : State} (ht : s.turns = [] ∨ s.turns.head? = some .host)
    (ho : s.writeOwed = none) :
    commandAt s = performed (decodeFor .host s.params.mode s.stream) := by
  rcases ht with ht | ht
  · simp only [commandAt, ht, ho]
  · obtain ⟨ts, hts⟩ := List.head?_eq_some_iff.mp ht
    simp only [commandAt, hts, ho]

theorem commandAt_words {s : State} {who : Issuer} {ws : List Word} (hw : who ≠ .host)
    (ht : s.turns.head? = some (turnOf who ws)) :
    commandAt s = performed (decodeFor who s.params.mode ws) := by
  obtain ⟨ts, hts⟩ := List.head?_eq_some_iff.mp ht
  cases who with
  | host => exact absurd rfl hw
  | irq => simp only [commandAt, hts, turnOf]
  | task => simp only [commandAt, hts, turnOf]
  | internal => simp only [commandAt, hts, turnOf]

/-- The host's turn, from its place at the head of the schedule. -/
theorem hostTurn_stepped {s t : State} (ht : s.turns = [] ∨ s.turns.head? = some .host)
    (h : hostTurn { s with turns := s.turns.tail } = .next t) : Stepped s t := by
  cases ho : s.writeOwed with
  | some acc =>
    rw [hostTurn_owed (s := { s with turns := s.turns.tail }) ho] at h
    exact .owed acc t (commandAt_owed ht ho) ho h
  | none =>
    have hat := commandAt_host ht ho
    by_cases hs : s.stream = []
    · rw [hostTurn_no_words (s := { s with turns := s.turns.tail }) ho hs] at h
      cases h
      exact .nothing (by simp [hat, hs, decodeFor, performed])
    · cases hd : decodeFor .host s.params.mode s.stream with
      | command i rest =>
        rw [hostTurn_command (s := { s with turns := s.turns.tail }) ho hd] at h
        obtain ⟨hmay, hdef, hrest⟩ := decodeFor_command hd
        exact .command .host i rest t (by rw [hat, hd]; rfl) (fun _ => ho) (fun hw => by cases hw)
          hmay hdef hrest h
      | refuse why =>
        rw [hostTurn_refuse (s := { s with turns := s.turns.tail }) ho hs hd] at h
        cases h
        exact .refused .host why _ (by rw [hat, hd]; rfl) (List.drop_suffix _ _)

/-- The turn of an agent that issues words, from its place at the head of the schedule. -/
theorem issueWords_stepped {s t : State} {who : Issuer} {ws : List Word} (hw : who ≠ .host)
    (ht : s.turns.head? = some (turnOf who ws))
    (h : issueWords who ws { s with turns := s.turns.tail } = .next t) : Stepped s t := by
  have hat := commandAt_words hw ht
  cases hd : decodeFor who s.params.mode ws with
  | command i rest =>
    rw [issueWords_command (s := { s with turns := s.turns.tail }) hd] at h
    obtain ⟨hmay, hdef, -⟩ := decodeFor_command hd
    refine .command who i s.stream t (by rw [hat, hd]; rfl) (fun hwho => absurd hwho hw) ?_ hmay hdef
      (List.suffix_refl _) h
    intro hwho
    exact ⟨turnOf who ws, List.mem_of_mem_head? ht, by rw [hwho]; rfl⟩
  | refuse why =>
    rw [issueWords_refuse (s := { s with turns := s.turns.tail }) hd] at h
    cases h
    exact .refused who why s.stream (by rw [hat, hd]; rfl) (List.suffix_refl _)

theorem paramsOk_of_step {s t : State} (h : step s = .next t) : paramsOk s.params = true := by
  by_contra hp
  rw [step, if_pos (by simpa using hp)] at h
  cases h

/-- A block agent's turn that goes on is one of a block that has not faulted. -/
theorem blockTurn_eq_next {turn : State → Host.Outcome State Fault Refusal} {s t : State}
    (h : blockTurn turn s = .next t) : turn s = .next t := by
  unfold blockTurn at h
  split at h
  · cases h
  · exact h

theorem step_stepped {s t : State} (h : step s = .next t) : Stepped s t := by
  have hp := paramsOk_of_step h
  cases ht : s.turns.head? with
  | none =>
    have hnil := List.head?_eq_none_iff.mp ht
    have hself : ({ s with turns := s.turns.tail } : State) = s := by
      rw [hnil, List.tail_nil, ← hnil]
    rw [step_of_no_turns hp hnil] at h
    exact hostTurn_stepped (.inl hnil) (by rw [hself]; exact blockTurn_eq_next h)
  | some turn =>
    rw [step_of_head hp ht] at h
    cases turn with
    | host => exact hostTurn_stepped (.inr ht) (blockTurn_eq_next h)
    | env e => exact .env e t ht h
    | irq ws => exact issueWords_stepped (who := .irq) (by decide) ht (blockTurn_eq_next h)
    | task ws => exact issueWords_stepped (who := .task) (by decide) ht (blockTurn_eq_next h)
    | internal ws => exact issueWords_stepped (who := .internal) (by decide) ht (blockTurn_eq_next h)

/-! ### Where a body ends, normally or by a fault -/

/-- The body ends, normally or by a fault, in a state of `Q`. -/
def Op.Ends {α : Type} (x : Op α) (s : State) (Q : State → Prop) : Prop :=
  match x s with
  | .ok _ t => Q t
  | .error _ t => Q t

section ends

variable {α β : Type} {s t : State} {Q : State → Prop}

theorem Op.Ends.of_ok {x : Op α} {a : α} (e : x s = .ok a t) (h : Q t) : x.Ends s Q := by
  rw [Op.Ends, e]
  exact h

theorem Op.Ends.of_error {x : Op α} {r : FaultReason} (e : x s = .error r t) (h : Q t) :
    x.Ends s Q := by
  rw [Op.Ends, e]
  exact h

theorem Op.Ends.of_runs {x : Op α} (h : x.Runs s fun _ t => Q t) : x.Ends s Q := by
  obtain ⟨a, t, e, ht⟩ := h
  exact .of_ok e ht

theorem Op.Ends.of_eq {x y : Op α} (e : x s = y s) (h : y.Ends s Q) : x.Ends s Q := by
  rw [Op.Ends, e]
  exact h

/-- A part that ends normally is left behind. -/
theorem ends_bind_ok {x : Op α} {f : α → Op β} {a : α} (e : x s = .ok a t) (h : (f a).Ends t Q) :
    Op.Ends (x >>= f) s Q := by
  rw [Op.Ends, op_bind_ok e]
  exact h

theorem ends_bind_runs {x : Op α} {f : α → Op β} {P : α → State → Prop} (hx : x.Runs s P)
    (hf : ∀ a t, P a t → (f a).Ends t Q) : Op.Ends (x >>= f) s Q := by
  obtain ⟨a, t, e, ht⟩ := hx
  exact ends_bind_ok e (hf a t ht)

theorem ends_bind {x : Op α} {f : α → Op β} {P : State → Prop} (hx : x.Ends s P)
    (herr : ∀ t, P t → Q t) (hf : ∀ a t, P t → (f a).Ends t Q) : Op.Ends (x >>= f) s Q := by
  unfold Op.Ends at hx ⊢
  rw [op_bind]
  cases e : x s with
  | ok a t => rw [e] at hx; exact hf a t hx
  | error r t => rw [e] at hx; exact herr t hx

theorem Op.Ends.and {x : Op α} {P : State → Prop} (h : x.Ends s P) (k : x.Ends s Q) :
    x.Ends s fun t => P t ∧ Q t := by
  unfold Op.Ends at h k ⊢
  cases e : x s <;> rw [e] at h k <;> exact ⟨h, k⟩

/-- A part that is performed on a condition, with the rest of the body after it. -/
theorem ends_when {c : Prop} [Decidable c] {x : Op Unit} {k : Unit → Op β}
    (hx : c → (x >>= k).Ends s Q) (hk : (k ()).Ends s Q) :
    Op.Ends (if c then x >>= k else k ()) s Q := by
  split
  · next hc => exact hx hc
  · exact hk

theorem keeps_when {R : State → State → Prop} (trans : ∀ s t u, R s t → R t u → R s u)
    {c : Prop} [Decidable c] {x : Op Unit} {k : Unit → Op β} (hx : x.Keeps R)
    (hk : ∀ a, (k a).Keeps R) : Op.Keeps R (if c then x >>= k else k ()) :=
  keeps_ite c (keeps_bind trans hx hk) (hk ())

/-- The same for a body that ends normally. -/
theorem runs_bind_ok {x : Op α} {f : α → Op β} {a : α} {Q : β → State → Prop} (e : x s = .ok a t)
    (h : (f a).Runs t Q) : Op.Runs (x >>= f) s Q := by
  obtain ⟨b, u, e2, hu⟩ := h
  exact ⟨b, u, (op_bind_ok e).trans e2, hu⟩

theorem Op.Keeps.ends {R : State → State → Prop} {x : Op α} (h : x.Keeps R) (s : State) :
    x.Ends s (R s) := h s

/-- The step a body makes ends where the body does, up to the reply. -/
theorem perform_ends {body : Op (List Word)} (hb : body.Ends s Q)
    (hreply : ∀ u r, Q u → Q (u.reply r)) (h : perform body s = .next t) : Q t := by
  unfold Op.Ends at hb
  rcases perform_cases body s with ⟨ws, u, e, hp⟩ | ⟨r, u, e, hp⟩ <;>
    rw [e] at hb <;> rw [hp] at h <;> cases h
  · exact hreply u _ hb
  · exact hb

theorem performUnit_ends {body : Op Unit} (hb : body.Ends s Q)
    (hreply : ∀ u r, Q u → Q (u.reply r)) (h : performUnit body s = .next t) : Q t :=
  perform_ends (ends_bind hb (fun _ hu => hu) fun _ _ hu => .of_ok rfl hu) hreply h

theorem performSilent_ends {body : Op Unit} (hb : body.Ends s Q)
    (h : performSilent body s = .next t) : Q t := by
  unfold Op.Ends at hb
  rcases performSilent_cases body s with ⟨u, e, hp⟩ | ⟨r, u, e, hp⟩ <;>
    rw [e] at hb <;> rw [hp] at h <;> cases h <;> exact hb

end ends

/-! ### Relations that the shared primitives of the engines keep -/

/-- An update of the block that moves counters and adds output events, and nothing else. -/
def Emits (f : Port → Port) : Prop :=
  ∀ q, ∃ out c1 c2 c3 c4 c5 c6, q.out <+: out
    ∧ f q = { q with
        out := out, cntOverrun := c1, cntParity := c2, cntFrame := c3, cntBrk := c4, cntTx := c5
        cntRx := c6 }

/-- A relation that the environment keeps, and every primitive of the poll-mode engines and of the
ring: the bodies built of them keep it, whichever relation it is. -/
structure Benign (R : State → State → Prop) : Prop where
  refl : ∀ s, R s s
  trans : ∀ s t u, R s t → R t u → R s u
  env : ∀ e, (envStep e).Keeps R
  gaps : ∀ (s : State) g, R s { s with gaps := g }
  draws : ∀ s : State, R s { s with draws := s.draws + 1 }
  fault : ∀ (s : State) why, R s (s.setPort fun q => { q with fault := some why })
  emit : ∀ (s : State) f, Emits f → R s (s.setPort f)
  pop : ∀ (s : State) e rest, s.uart.rxf = e :: rest →
    R s (s.setUart fun u => { u with rxf := rest })
  push : ∀ (s : State) b, s.uart.txf.length < s.depth →
    R s (s.setUart fun u => { u with txf := u.txf ++ [b] })
  mask : ∀ (s : State) v,
    R s (s.setUart fun u => { u with im := v &&& definedMask s.params.regMap .im })
  enqueue : ∀ (s : State) b, s.port.life = .running → s.ringFull = false → R s (s.setPort fun q =>
    { q with ring := q.ring.write q.head b, head := (q.head + 1) % s.params.ringN })
  dequeue : ∀ (s : State) n, R s (s.setPort fun q =>
    { q with tail := (q.tail + s.sliceLength n) % s.params.ringN })

namespace Benign

variable {R : State → State → Prop} {α β : Type}

theorem pure (hR : Benign R) (a : α) : Op.Keeps R (Pure.pure a) := keeps_pure hR.refl a

theorem bind (hR : Benign R) {x : Op α} {f : α → Op β} (hx : x.Keeps R)
    (hf : ∀ a, (f a).Keeps R) : Op.Keeps R (x >>= f) := keeps_bind hR.trans hx hf

theorem withState (hR : Benign R) {f : State → Op β} (hf : ∀ s, (f s).Keeps R) :
    Op.Keeps R (theState >>= f) := hR.bind (keeps_theState hR.refl) hf

theorem raise (hR : Benign R) (why : FaultReason) : Op.Keeps (α := α) R (raiseFault why) :=
  keeps_raiseFault why fun s => hR.fault s why

theorem gap (hR : Benign R) : gap.Keeps R := gap_keeps hR.refl hR.trans hR.env hR.gaps

theorem rd (hR : Benign R) (r : Reg) : (rd r).Keeps R := rd_keeps hR.refl hR.trans hR.gap r

/-! Counters and output events. -/

theorem emits (hR : Benign R) {f : Port → Port} (hf : Emits f) : (modifyPort f).Keeps R :=
  keeps_modifyPort fun s => hR.emit s f hf

theorem deliver (hR : Benign R) (recs : List (Byte × Flag)) : (deliver recs).Keeps R :=
  hR.emits fun _ => ⟨_, _, _, _, _, _, _, List.prefix_append _ _, rfl⟩

theorem wakeup (hR : Benign R) : wakeup.Keeps R :=
  hR.emits fun _ => ⟨_, _, _, _, _, _, _, List.prefix_append _ _, rfl⟩

theorem countTx (hR : Benign R) (n : Nat) : (countTx n).Keeps R :=
  hR.emits fun _ => ⟨_, _, _, _, _, _, _, List.prefix_rfl, rfl⟩

theorem countRx (hR : Benign R) (n : Nat) : (countRx n).Keeps R :=
  hR.emits fun _ => ⟨_, _, _, _, _, _, _, List.prefix_rfl, rfl⟩

theorem countClass (hR : Benign R) (c : ErrClass) : (countClass c).Keeps R := by
  refine hR.emits fun q => ?_
  cases c <;> exact ⟨_, _, _, _, _, _, _, List.prefix_rfl, rfl⟩

/-! Registers. -/

theorem writeDr (hR : Benign R) (v : Word) : (regWrite .dr v).Keeps R := by
  refine regWrite_keeps hR.trans hR.gap .dr v fun s => ?_
  by_cases hroom : s.uart.txf.length < s.depth
  · rw [storeReg_dr_room v hroom]
    exact hR.push s _ hroom
  · rw [storeReg_dr_full v (Nat.not_lt.mp hroom)]
    exact hR.fault s _

theorem writeIm (hR : Benign R) (v : Word) : (regWrite .im v).Keeps R :=
  regWrite_keeps hR.trans hR.gap .im v fun s => hR.mask s v

theorem readDr (hR : Benign R) : readDr.Keeps R := by
  refine hR.bind hR.gap fun _ s => ?_
  cases hx : s.uart.rxf with
  | nil =>
    simp only [popDr, hx]
    exact hR.draws s
  | cons e rest =>
    rw [popDr_cons hx]
    exact hR.pop s e rest hx

theorem setTxim (hR : Benign R) (v : Bool) : (setTxim v).Keeps R :=
  hR.withState fun _ => hR.bind (hR.rd .im) fun _ => hR.writeIm _

/-! The ring. -/

theorem requireRunning (hR : Benign R) : requireRunning.Keeps R :=
  hR.withState fun _ => keeps_ite _ (hR.pure _) (hR.raise _)

theorem ringEnqueue (hR : Benign R) (b : Byte) : (ringEnqueue b).Keeps R := by
  intro s
  by_cases hr : s.port.life = .running
  · cases hf : s.ringFull with
    | true => rw [ringEnqueue_full b hr hf]; exact hR.refl s
    | false => rw [ringEnqueue_room b hr hf]; exact hR.enqueue s b hr hf
  · rw [ringEnqueue_fault b hr]
    exact hR.fault s _

theorem ringDequeue (hR : Benign R) (n : Nat) : (ringDequeue n).Keeps R := fun s => hR.dequeue s n

theorem writeLoop (hR : Benign R) (data : List Byte) : (writeLoop data).Keeps R := by
  induction data with
  | nil => exact hR.pure _
  | cons b more ih =>
    exact hR.bind (hR.ringEnqueue b) fun taken =>
      keeps_ite _ (hR.pure _) (hR.bind ih fun _ => hR.pure _)

/-! The poll-mode kick. -/

theorem lowWaterTest (hR : Benign R) : lowWaterTest.Keeps R :=
  hR.withState fun _ => keeps_ite _ hR.wakeup (hR.pure _)

theorem pushLoop (hR : Benign R) (fuel : Nat) : (pushLoop fuel).Keeps R := by
  induction fuel with
  | zero => exact hR.pure _
  | succ fuel ih =>
    refine hR.bind (hR.rd .fr) fun _ => hR.withState fun _ =>
      keeps_ite _ (hR.pure _) (keeps_ite _ (hR.pure _) (hR.bind (hR.ringDequeue 1) fun bs => ?_))
    cases bs with
    | nil => exact hR.pure _
    | cons b _ => exact hR.bind (hR.writeDr _) fun _ => hR.bind (hR.countTx 1) fun _ => ih

theorem txKickPoll (hR : Benign R) : txKickPoll.Keeps R :=
  hR.withState fun _ => keeps_ite _ (hR.setTxim _)
    (hR.bind (hR.pushLoop _) fun _ => hR.bind hR.lowWaterTest fun _ =>
      hR.withState fun _ => keeps_ite _ (hR.setTxim _) (hR.setTxim _))

/-! The polled receive event. -/

theorem receiveChar (hR : Benign R) (ch : Byte) (st : Status) : (receiveChar ch st).Keeps R :=
  hR.bind (hR.countRx 1) fun _ => hR.bind (hR.countClass _) fun _ => hR.withState fun _ =>
    keeps_ite _ (hR.bind (hR.bind (keeps_draw hR.draws) fun _ => hR.pure _) fun _ =>
      keeps_ite _ (hR.pure _) (hR.pure _)) (hR.pure _)

theorem pollLoop (hR : Benign R) (fuel count : Nat) (batch : List (Byte × Flag)) :
    (pollLoop fuel count batch).Keeps R := by
  induction fuel generalizing count batch with
  | zero => exact hR.pure _
  | succ fuel ih =>
    exact hR.withState fun _ => keeps_ite _ (hR.pure _) (hR.bind (hR.rd .fr) fun _ =>
      keeps_ite _ (hR.pure _) (hR.bind hR.readDr fun _ =>
        hR.bind (hR.receiveChar _ _) fun _ => ih _ _))

theorem rxPollEvent (hR : Benign R) : rxPollEvent.Keeps R :=
  hR.withState fun _ => hR.bind (hR.pollLoop _ _ _) fun _ =>
    keeps_ite _ (hR.deliver _) (hR.pure _)

end Benign

/-! ### What every body leaves or only adds to (10_state R21, R22, R29, R31, R45) -/

/-- Outputs grow, the stream is consumed from its front, a fault stays, and the parameters, `life`, the
configuration, the commitment and the masks stay. -/
structure Onward (s t : State) : Prop where
  params : t.params = s.params
  out : s.port.out <+: t.port.out
  wire : s.uart.wire <+: t.uart.wire
  replies : s.replies <+: t.replies
  stream : t.stream <:+ s.stream
  fault : s.port.fault ≠ none → t.port.fault ≠ none
  life : t.port.life = s.port.life
  cfg : t.port.cfg = s.port.cfg
  committed : t.port.committed = s.port.committed
  readMask : t.port.readMask = s.port.readMask
  ignoreMask : t.port.ignoreMask = s.port.ignoreMask

namespace Onward

theorem refl (s : State) : Onward s s :=
  ⟨rfl, List.prefix_rfl, List.prefix_rfl, List.prefix_rfl, List.suffix_refl _, id, rfl, rfl, rfl, rfl,
    rfl⟩

theorem trans (s t u : State) (h : Onward s t) (k : Onward t u) : Onward s u where
  params := k.params.trans h.params
  out := h.out.trans k.out
  wire := h.wire.trans k.wire
  replies := h.replies.trans k.replies
  stream := k.stream.trans h.stream
  fault hf := k.fault (h.fault hf)
  life := k.life.trans h.life
  cfg := k.cfg.trans h.cfg
  committed := k.committed.trans h.committed
  readMask := k.readMask.trans h.readMask
  ignoreMask := k.ignoreMask.trans h.ignoreMask

variable (s : State)

theorem setUart {f : Uart → Uart} (h : s.uart.wire <+: (f s.uart).wire) : Onward s (s.setUart f) :=
  { refl s with wire := h }

theorem setDtx (f : TxChannel → TxChannel) : Onward s (s.setDtx f) := { refl s with }

theorem setDrx (f : RxChannel → RxChannel) : Onward s (s.setDrx f) := { refl s with }

theorem setMem (m : Memory) : Onward s (s.setMem m) := { refl s with }

theorem fault_set (why : FaultReason) :
    Onward s (s.setPort fun q => { q with fault := some why }) :=
  { refl s with fault := fun _ => Option.some_ne_none _ }

theorem emit {f : Port → Port} (hf : Emits f) : Onward s (s.setPort f) := by
  obtain ⟨out, c1, c2, c3, c4, c5, c6, hout, hq⟩ := hf s.port
  have he : s.setPort f = s.setPort fun q => { q with
      out := out, cntOverrun := c1, cntParity := c2, cntFrame := c3, cntBrk := c4, cntTx := c5
      cntRx := c6 } := by rw [State.setPort, hq, State.setPort]
  rw [he]
  exact { refl s with out := hout }

theorem reply (r : Reply) : Onward s (s.reply r) := { refl s with replies := List.prefix_append _ _ }

end Onward

/-- Memory accesses: the bytes of a region, or a fault. -/
theorem onward_memRead (a n : Nat) : (memRead a n).Keeps Onward :=
  keeps_bind Onward.trans (keeps_theState Onward.refl) fun _ =>
    keeps_ite _ (keeps_pure Onward.refl _) (keeps_raiseFault _ fun s => Onward.fault_set s _)

theorem onward_memWrite (a : Nat) (bs : List Byte) : (memWrite a bs).Keeps Onward :=
  keeps_bind Onward.trans (keeps_theState Onward.refl) fun _ =>
    keeps_ite _ (fun s => Onward.setMem s _) (keeps_raiseFault _ fun s => Onward.fault_set s _)

theorem onward_setRis (k : Nat) : (setRis k).Keeps Onward :=
  keeps_modifyUart fun s => Onward.setUart s List.prefix_rfl

theorem onward_dmaTxStep : dmaTxStep.Keeps Onward :=
  keeps_bind Onward.trans (keeps_theState Onward.refl) fun _ =>
    keeps_ite _ (keeps_bind Onward.trans (onward_memRead _ _) fun _ =>
      keeps_bind Onward.trans (keeps_modifyUart fun s => Onward.setUart s List.prefix_rfl) fun _ =>
        keeps_modifyDtx fun s => Onward.setDtx s _) (keeps_pure Onward.refl _)

theorem onward_dmaRxStep : dmaRxStep.Keeps Onward := by
  refine keeps_bind Onward.trans (keeps_theState Onward.refl) fun s => ?_
  cases s.uart.rxf with
  | nil => exact keeps_pure Onward.refl _
  | cons e rest =>
    exact keeps_ite _ (keeps_ite _ (keeps_raiseFault _ fun s => Onward.fault_set s _)
      (keeps_bind Onward.trans (keeps_modifyUart fun s => Onward.setUart s List.prefix_rfl) fun _ =>
        keeps_bind Onward.trans (onward_memWrite _ _) fun _ =>
          keeps_modifyDrx fun s => Onward.setDrx s _)) (keeps_pure Onward.refl _)

theorem onward_uartTransmit (told : Bool) : (uartTransmit told).Keeps Onward := by
  intro s
  rcases uartTransmit_run told s with e | ⟨b, rest, sent, ris, n, -, -, -, -, -, e⟩
  · rw [e]
    exact Onward.refl s
  · rw [e]
    exact { Onward.refl s with wire := List.prefix_append _ _ }

theorem onward_uartReceive (b : Byte) (st : Status) : (uartReceive b st).Keeps Onward := by
  intro s
  rcases uartReceive_run b st s with e | ⟨-, -, -, e⟩
  · rw [e]
    exact Onward.refl s
  · rw [e]
    exact Onward.setUart s List.prefix_rfl

/-- Whatever the state, an environment step leaves what `Onward` names; where the channels are unsound
it may raise a fault. -/
theorem onward_envStep (e : EnvStep) : (envStep e).Keeps Onward := by
  have skip : (pure () : Op Unit).Keeps Onward := keeps_pure Onward.refl _
  cases e with
  | uartTx told => exact onward_uartTransmit told
  | uartRx b st => exact onward_uartReceive b st
  | dmaTx => exact onward_dmaTxStep
  | dmaRx => exact onward_dmaRxStep
  | raiseRx | raiseRt | raiseTx =>
    exact keeps_bind Onward.trans (keeps_theState Onward.refl) fun _ =>
      keeps_ite _ (onward_setRis _) skip
  | raiseErr k =>
    exact keeps_bind Onward.trans (keeps_theState Onward.refl) fun _ => onward_setRis _

theorem onward_benign : Benign Onward where
  refl := Onward.refl
  trans := Onward.trans
  env := onward_envStep
  gaps s _ := { Onward.refl s with }
  draws s := { Onward.refl s with }
  fault s why := Onward.fault_set s why
  emit s _ hf := Onward.emit s hf
  pop s _ _ _ := Onward.setUart s List.prefix_rfl
  push s _ _ := Onward.setUart s List.prefix_rfl
  mask s _ := Onward.setUart s List.prefix_rfl
  enqueue s _ _ _ := { Onward.refl s with }
  dequeue s _ := { Onward.refl s with }

/-- Settles O7: the block's turn stops at its guard, and no environment step clears the fault. -/
theorem faultIsTerminalForTheBlock : Obligations.FaultIsTerminalForTheBlock := by
  intro s why hp hf
  refine ⟨fun hblock => ?_, fun e he => ?_⟩
  · have stops (turn : State → Host.Outcome State Fault Refusal) (ts : List Turn) :
        blockTurn turn { s with turns := ts } = .fault (.terminal why) := by
      simp only [blockTurn, hf]
    cases ht : s.turns.head? with
    | none =>
      rw [step_of_no_turns hp (List.head?_eq_none_iff.mp ht)]
      exact stops hostTurn s.turns
    | some turn =>
      rw [step_of_head hp ht]
      cases turn with
      | env e => exact absurd ht (hblock e)
      | host => exact stops _ _
      | irq ws => exact stops _ _
      | task ws => exact stops _ _
      | internal ws => exact stops _ _
  · rw [step_of_head hp he]
    obtain ⟨t, ht⟩ := performSilent_next (envStep e) { s with turns := s.turns.tail }
    have hon : Onward { s with turns := s.turns.tail } t :=
      performSilent_ends ((onward_envStep e).ends _) ht
    exact ⟨t, ht, hon.fault (by simp [hf])⟩

/-! ### Every body is `Onward`, up to the last write of the three that set life or configuration -/

section onward

variable {α β : Type}

theorem onward_bind {x : Op α} {f : α → Op β} (hx : x.Keeps Onward) (hf : ∀ a, (f a).Keeps Onward) :
    Op.Keeps Onward (x >>= f) := onward_benign.bind hx hf

theorem onward_state {f : State → Op β} (hf : ∀ s, (f s).Keeps Onward) :
    Op.Keeps Onward (theState >>= f) := onward_benign.withState hf

theorem onward_skip : (pure () : Op Unit).Keeps Onward := onward_benign.pure _

theorem onward_gap_then {f : Unit → Op β} (hf : ∀ a, (f a).Keeps Onward) :
    Op.Keeps Onward (gap >>= f) := onward_bind onward_benign.gap hf

/-- An update of the block that writes none of the fields `Onward` names. -/
theorem onward_port {f : Port → Port} (h : ∀ q, (f q).out = q.out ∧ (f q).fault = q.fault
    ∧ (f q).life = q.life ∧ (f q).cfg = q.cfg ∧ (f q).committed = q.committed
    ∧ (f q).readMask = q.readMask ∧ (f q).ignoreMask = q.ignoreMask := by
      exact fun _ => ⟨rfl, rfl, rfl, rfl, rfl, rfl, rfl⟩) :
    (modifyPort f).Keeps Onward := by
  refine keeps_modifyPort fun s => ?_
  obtain ⟨hout, hfault, hlife, hcfg, hcom, hrm, him⟩ := h s.port
  exact { Onward.refl s with
    out := by rw [State.setPort_port, hout]
    fault := by rw [State.setPort_port, hfault]; exact id
    life := hlife, cfg := hcfg, committed := hcom, readMask := hrm, ignoreMask := him }

theorem onward_storeLcrh (v : Word) : (storeLcrh v).Keeps Onward := by
  intro s
  obtain ⟨xs, ys, n, e, -, -, -⟩ := storeLcrh_run v s
  rw [e]
  exact { Onward.refl s with }

theorem onward_storeReg (r : Reg) (v : Word) : (storeReg r v).Keeps Onward := by
  intro s
  cases r with
  | dr =>
    by_cases hroom : s.uart.txf.length < s.depth
    · rw [storeReg_dr_room v hroom]
      exact Onward.setUart s List.prefix_rfl
    · rw [storeReg_dr_full v (Nat.not_lt.mp hroom)]
      exact Onward.fault_set s _
  | lcrh => exact onward_storeLcrh v s
  | ibrd | fbrd | ctl | ifls | im | icr | dmactl => exact Onward.setUart s List.prefix_rfl
  | fr | ris | mis => exact Onward.fault_set s _

theorem onward_regWrite (r : Reg) (v : Word) : (regWrite r v).Keeps Onward :=
  regWrite_keeps Onward.trans onward_benign.gap r v (onward_storeReg r v)

/-! The channel primitives (20_memory R69 to R73). -/

theorem onward_dmaStartTx (n : Nat) : (dmaStartTx n).Keeps Onward :=
  onward_gap_then fun _ => onward_state fun _ =>
    keeps_ite _ (keeps_modifyDtx fun s => Onward.setDtx s _) (onward_benign.raise _)

theorem onward_dmaArmRx (x : Slot) : (dmaArmRx x).Keeps Onward :=
  onward_gap_then fun _ => onward_state fun _ =>
    keeps_ite _ (keeps_modifyDrx fun s => Onward.setDrx s _) (onward_benign.raise _)

theorem onward_dmaStopTx : dmaStopTx.Keeps Onward :=
  onward_gap_then fun _ => keeps_modifyDtx fun s => Onward.setDtx s _

theorem onward_dmaStopRx : dmaStopRx.Keeps Onward :=
  onward_gap_then fun _ => keeps_modifyDrx fun s => Onward.setDrx s _

theorem onward_dmaRemaining1 : dmaRemaining1.Keeps Onward :=
  onward_gap_then fun _ => onward_state fun _ => onward_benign.pure _

theorem onward_dmaRemaining2 : dmaRemaining2.Keeps Onward :=
  onward_gap_then fun _ => onward_state fun _ => onward_benign.pure _

theorem onward_dmaQueryAckTx : dmaQueryAckTx.Keeps Onward :=
  onward_gap_then fun _ => onward_state fun _ =>
    onward_bind (keeps_modifyDtx fun s => Onward.setDtx s _) fun _ => onward_benign.pure _

theorem onward_dmaQueryAckRx : dmaQueryAckRx.Keeps Onward :=
  onward_gap_then fun _ => onward_state fun _ =>
    onward_bind (keeps_modifyDrx fun s => Onward.setDrx s _) fun _ => onward_benign.pure _

/-! The engines. -/

theorem onward_txKickDma : txKickDma.Keeps Onward :=
  onward_state fun _ => keeps_ite _ onward_skip (keeps_ite _ onward_skip
    (onward_bind (onward_benign.ringDequeue _) fun _ => onward_bind (onward_memWrite _ _) fun _ =>
      onward_bind (onward_dmaStartTx _) fun _ =>
        onward_bind onward_port fun _ =>
          onward_benign.lowWaterTest))

theorem onward_txKick : txKick.Keeps Onward := by
  refine onward_bind onward_benign.requireRunning fun _ => onward_state fun s => ?_
  cases s.params.mode
  · exact onward_benign.txKickPoll
  · exact onward_txKickDma

theorem onward_txDmaDone : txDmaDone.Keeps Onward :=
  onward_state fun _ => keeps_ite _ onward_skip (onward_bind (onward_benign.countTx _) fun _ =>
    onward_bind onward_port fun _ => onward_txKick)

theorem onward_txStop : txStop.Keeps Onward := by
  refine onward_bind onward_benign.requireRunning fun _ => onward_state fun s => ?_
  cases s.params.mode
  · exact onward_benign.setTxim _
  · exact onward_bind onward_dmaStopTx fun _ =>
      onward_port

theorem onward_rxDmaEvent : rxDmaEvent.Keeps Onward :=
  onward_state fun _ => keeps_ite _ onward_skip (onward_bind onward_dmaStopRx fun _ =>
    onward_bind onward_port fun _ =>
      onward_bind onward_dmaRemaining1 fun _ => onward_bind onward_dmaRemaining2 fun _ =>
        onward_bind (onward_dmaArmRx _) fun _ => keeps_ite _
          (onward_bind onward_port fun _ =>
            onward_port) onward_skip)

theorem onward_recheck : recheck.Keeps Onward :=
  onward_bind onward_port fun _ => onward_rxDmaEvent

theorem onward_taskCopy (k : Task) : (taskCopy k).Keeps Onward :=
  onward_state fun _ => keeps_ite _ (onward_benign.raise _) (onward_bind (onward_memRead _ _) fun _ =>
    onward_bind (onward_benign.deliver _) fun _ =>
      onward_port)

theorem onward_taskFinish (k : Task) : (taskFinish k).Keeps Onward :=
  onward_bind (onward_benign.countRx _) fun _ =>
onward_port

theorem onward_routePoll (mis : Word) : (routePoll mis).Keeps Onward :=
  onward_state fun _ => keeps_when Onward.trans onward_benign.rxPollEvent fun _ =>
    keeps_ite _ onward_txKick onward_skip

theorem onward_routeDma (mis : Word) : (routeDma mis).Keeps Onward :=
  onward_state fun _ => onward_bind onward_dmaQueryAckRx fun _ =>
    keeps_when Onward.trans onward_rxDmaEvent fun _ =>
      onward_bind onward_dmaQueryAckTx fun _ => keeps_ite _ onward_txDmaDone onward_skip

theorem onward_irqDispatch : irqDispatch.Keeps Onward := by
  refine onward_state fun s => onward_bind (onward_benign.rd _) fun _ =>
    onward_bind (onward_regWrite _ _) fun _ => ?_
  cases s.params.mode
  · exact onward_routePoll _
  · exact onward_routeDma _

theorem onward_setBreak (on : Bool) : (setBreak on).Keeps Onward :=
  onward_bind onward_benign.requireRunning fun _ => onward_state fun _ =>
    onward_bind (onward_benign.rd _) fun _ => onward_regWrite _ _

theorem onward_baudCalc (c b : Nat) : (baudCalc c b).Keeps Onward :=
  onward_state fun _ => keeps_ite _ (onward_benign.raise _) (onward_benign.pure _)

theorem onward_commitLine (brdi divfrac : Nat) (l : Word) : (commitLine brdi divfrac l).Keeps Onward :=
  onward_state fun _ => onward_bind (onward_benign.rd _) fun _ =>
    onward_bind (onward_regWrite _ _) fun _ => onward_bind (onward_regWrite _ _) fun _ =>
      onward_bind (onward_regWrite _ _) fun _ => onward_bind (onward_regWrite _ _) fun _ =>
        onward_benign.pure _

end onward

/-! ### STARTUP, SHUTDOWN and LINE_APPLY end with their write -/

/-- The body is `Onward` up to a last update of the block, one of `W`. -/
def Op.OnwardThen {α : Type} (W : (Port → Port) → Prop) (x : Op α) : Prop :=
  ∀ s, match x s with
    | .ok _ t => ∃ m f, Onward s m ∧ W f ∧ t = m.setPort f
    | .error _ t => Onward s t

section onwardThen

variable {α β : Type} {W : (Port → Port) → Prop}

theorem onwardThen_bind {x : Op α} {f : α → Op β} (hx : x.Keeps Onward)
    (hf : ∀ a, (f a).OnwardThen W) : Op.OnwardThen W (x >>= f) := by
  intro s
  have hs := hx s
  rw [op_bind]
  cases e : x s with
  | error r t => rw [e] at hs; exact hs
  | ok a t =>
    rw [e] at hs
    have ht := hf a t
    simp only
    cases e2 : f a t with
    | error r u => rw [e2] at ht; exact hs.trans _ _ _ ht
    | ok b u =>
      rw [e2] at ht
      obtain ⟨m, g, hm, hg, hu⟩ := ht
      exact ⟨m, g, hs.trans _ _ _ hm, hg, hu⟩

theorem onwardThen_state {f : State → Op β} (hf : ∀ s, (f s).OnwardThen W) :
    Op.OnwardThen W (theState >>= f) := onwardThen_bind (keeps_theState Onward.refl) hf

theorem onwardThen_write {f : Port → Port} (hf : W f) : Op.OnwardThen W (modifyPort f) :=
  fun s => ⟨s, f, Onward.refl s, hf, rfl⟩

/-- The result of the last update changes nothing. -/
theorem onwardThen_write_pure {f : Port → Port} (hf : W f) (a : α) :
    Op.OnwardThen W (modifyPort f >>= fun _ => (pure a : Op α)) :=
  fun s => ⟨s, f, Onward.refl s, hf, rfl⟩

end onwardThen

/-- The last write of a command that sets life or configuration (45_port_control R203, R204,
41_baud_line R136), issued at `s`. -/
inductive LastWrite (s : State) : Instr → (Port → Port) → Prop
  | startup (h : s.port.life ≠ .running) : LastWrite s .startup fun q => { q with life := .running }
  | shutdown (h : s.port.life = .running) :
    LastWrite s .shutdown fun q => { q with head := 0, tail := 0, life := .stopped }
  | lineApply (line : LineFormat) (policy : Policy) (baud : Word) (cfg : Option LineConfig)
    (com : Option Committed) (rm im : Status) :
    LastWrite s (.lineApply line policy baud) fun q => { q with
      cfg := cfg, committed := com, readMask := rm, ignoreMask := im }

/-! The parts of STARTUP and SHUTDOWN, in the order of 45_port_control R203 and R204. -/

/-- STARTUP clears the ring, the transfers and the task. -/
def Port.cleared (q : Port) : Port :=
  { q with
    head := 0, tail := 0, txBusy := false, txLen := 0, rxBusy := false
    landing := .a, task := none, recheck := false }

/-- SHUTDOWN clears the transfers and the task. -/
def Port.idled (q : Port) : Port :=
  { q with
    txBusy := false, txLen := 0, rxBusy := false
    task := none, recheck := false, landing := .a }

/-- STARTUP commits the line again if one was committed before. -/
def recommit (c : Option Committed) : Op Unit :=
  match c with
  | some c => commitLine c.brdi c.divfrac c.lcrh >>= fun _ => pure ()
  | none => pure ()

/-- STARTUP arms the receive channel in dma mode, and opens the interrupts of its mode. -/
def openMode (p : Params) : Op Unit :=
  match p.mode with
  | .dma => do
    dmaArmRx .a
    regWrite .dmactl (dmactlOn p.regMap)
    regWrite .im (imDma p.regMap)
  | .poll => do
    regWrite .dmactl 0
    regWrite .im (imPoll p.regMap)

/-- SHUTDOWN stops both channels in dma mode. -/
def closeMode (p : Params) : Op Unit :=
  match p.mode with
  | .dma => do
    dmaStopTx
    dmaStopRx
    regWrite .dmactl 0
  | .poll => pure ()

theorem startup_eq : startup = (theState >>= fun s =>
    if s.port.life = .running then raiseFault .alreadyRunning
    else do
      modifyPort Port.cleared
      regWrite .im 0
      regWrite .icr (icrAll s.params.regMap)
      regWrite .ifls (iflsValue s.params)
      recommit s.port.committed
      regWrite .ctl (ctlOn s.params.regMap)
      openMode s.params
      modifyPort fun q => { q with life := .running }) := by
  unfold startup recommit openMode
  congr 1
  funext s
  cases s.port.committed <;> cases s.params.mode <;> simp only [op_bind_assoc] <;> rfl

theorem shutdown_eq : shutdown = (do
    requireRunning
    let s ← theState
    regWrite .im 0
    regWrite .icr (icrAll s.params.regMap)
    closeMode s.params
    modifyPort Port.idled
    regWrite .ctl (ctlOff s.params.regMap)
    let l ← rd .lcrh
    regWrite .lcrh (withBit (withBit l s.params.regMap.brk false) s.params.regMap.fen false)
    modifyPort fun q => { q with head := 0, tail := 0, life := .stopped }) := by
  unfold shutdown closeMode
  congr 1
  funext _
  congr 1
  funext s
  cases s.params.mode <;> simp only [op_bind_assoc] <;> rfl

theorem onward_recommit (c : Option Committed) : (recommit c).Keeps Onward := by
  cases c with
  | none => exact onward_skip
  | some c => exact onward_bind (onward_commitLine _ _ _) fun _ => onward_skip

theorem onward_openMode (p : Params) : (openMode p).Keeps Onward := by
  unfold openMode
  cases p.mode with
  | poll => exact onward_bind (onward_regWrite _ _) fun _ => onward_regWrite _ _
  | dma =>
    exact onward_bind (onward_dmaArmRx _) fun _ => onward_bind (onward_regWrite _ _) fun _ =>
      onward_regWrite _ _

theorem onward_closeMode (p : Params) : (closeMode p).Keeps Onward := by
  unfold closeMode
  cases p.mode with
  | poll => exact onward_skip
  | dma =>
    exact onward_bind onward_dmaStopTx fun _ => onward_bind onward_dmaStopRx fun _ =>
      onward_regWrite _ _

theorem onwardThen_startup {s : State} (h : s.port.life ≠ .running) :
    startup.OnwardThen (LastWrite s .startup) := by
  rw [startup_eq]
  refine onwardThen_state fun s => ?_
  split
  · exact fun s => Onward.fault_set s _
  · exact onwardThen_bind onward_port fun _ =>
      onwardThen_bind (onward_regWrite _ _) fun _ => onwardThen_bind (onward_regWrite _ _) fun _ =>
        onwardThen_bind (onward_regWrite _ _) fun _ => onwardThen_bind (onward_recommit _) fun _ =>
          onwardThen_bind (onward_regWrite _ _) fun _ => onwardThen_bind (onward_openMode _) fun _ =>
            onwardThen_write (.startup h)

theorem startup_fault {s : State} (h : s.port.life = .running) : startup s
    = .error .alreadyRunning (s.setPort fun q => { q with fault := some .alreadyRunning }) := by
  simp [startup_eq, h]

theorem onwardThen_shutdown {s : State} (h : s.port.life = .running) :
    shutdown.OnwardThen (LastWrite s .shutdown) := by
  rw [shutdown_eq]
  exact onwardThen_bind onward_benign.requireRunning fun _ => onwardThen_state fun _ =>
    onwardThen_bind (onward_regWrite _ _) fun _ => onwardThen_bind (onward_regWrite _ _) fun _ =>
      onwardThen_bind (onward_closeMode _) fun _ =>
        onwardThen_bind onward_port fun _ =>
          onwardThen_bind (onward_regWrite _ _) fun _ => onwardThen_bind (onward_benign.rd _) fun _ =>
            onwardThen_bind (onward_regWrite _ _) fun _ => onwardThen_write (.shutdown h)

theorem shutdown_fault {s : State} (h : s.port.life ≠ .running) : shutdown s
    = .error .notRunning (s.setPort fun q => { q with fault := some .notRunning }) := by
  rw [shutdown_eq, op_bind_error (requireRunning_of_not_running h)]

theorem onwardThen_lineApply (s : State) (line : LineFormat) (policy : Policy) (baud : Word) :
    (lineApply line policy baud.toNat).OnwardThen (LastWrite s (.lineApply line policy baud)) :=
  onwardThen_state fun _ => onwardThen_bind (onward_baudCalc _ _) fun _ =>
    onwardThen_bind (onward_commitLine _ _ _) fun _ => onwardThen_bind (onward_regWrite _ _) fun _ =>
      onwardThen_write_pure (.lineApply line policy baud _ _ _ _) _

/-! ### Every command -/

/-- What a command leaves: `Onward`, or `Onward` up to its last write and the reply. -/
def Leaving (i : Instr) (s t : State) : Prop :=
  Onward s t ∨ ∃ m f r, Onward s m ∧ LastWrite s i f ∧ t = (m.setPort f).reply r

section leaving

variable {i : Instr} {s t : State}

theorem leaving_perform {body : Op (List Word)} (hb : body.Keeps Onward)
    (h : perform body s = .next t) : Leaving i s t :=
  .inl (perform_ends (hb.ends s) (fun u r hu => hu.trans _ _ _ (Onward.reply u r)) h)

theorem leaving_performUnit {body : Op Unit} (hb : body.Keeps Onward)
    (h : performUnit body s = .next t) : Leaving i s t :=
  leaving_perform (onward_bind hb fun _ => onward_benign.pure _) h

theorem leaving_performSilent {body : Op Unit} (hb : body.Keeps Onward)
    (h : performSilent body s = .next t) : Leaving i s t :=
  .inl (performSilent_ends (hb.ends s) h)

theorem leaving_perform_then {body : Op (List Word)} (hb : body.OnwardThen (LastWrite s i))
    (h : perform body s = .next t) : Leaving i s t := by
  have hs := hb s
  rcases perform_cases body s with ⟨ws, u, e, hp⟩ | ⟨r, u, e, hp⟩ <;>
    rw [e] at hs <;> rw [hp] at h <;> cases h
  · obtain ⟨m, f, hm, hf, rfl⟩ := hs
    exact .inr ⟨m, f, _, hm, hf, rfl⟩
  · exact .inl hs

theorem leaving_performUnit_then {body : Op Unit} (hb : body.OnwardThen (LastWrite s i))
    (h : performUnit body s = .next t) : Leaving i s t := by
  have hs := hb s
  rcases performUnit_cases body s with ⟨u, e, hp⟩ | ⟨r, u, e, hp⟩ <;>
    rw [e] at hs <;> rw [hp] at h <;> cases h
  · obtain ⟨m, f, hm, hf, rfl⟩ := hs
    exact .inr ⟨m, f, _, hm, hf, rfl⟩
  · exact .inl hs

theorem leaving_startup (h : execStartup s = .next t) : Leaving .startup s t := by
  by_cases hr : s.port.life = .running
  · rw [execStartup, performUnit_error (startup_fault hr)] at h
    cases h
    exact .inl (Onward.fault_set s _)
  · exact leaving_performUnit_then (onwardThen_startup hr) h

theorem leaving_shutdown (h : execShutdown s = .next t) : Leaving .shutdown s t := by
  by_cases hr : s.port.life = .running
  · exact leaving_performUnit_then (onwardThen_shutdown hr) h
  · rw [execShutdown, performUnit_error (shutdown_fault hr)] at h
    cases h
    exact .inl (Onward.fault_set s _)

/-- A command that issues nothing leaves the state as it is. -/
theorem leaving_self (h : Host.Outcome.next (φ := Fault) (ρ := Refusal) s = .next t) :
    Leaving i s t := by
  cases h
  exact .inl (Onward.refl s)

/-- Every command leaves what `Onward` names, but for the last write of three of them. -/
theorem exec_leaving (h : exec i s = .next t) : Leaving i s t := by
  have read (f : State → List Word) : Op.Keeps Onward (theState >>= fun u => pure (f u)) :=
    onward_state fun _ => onward_benign.pure _
  cases i with
  | baudCalc c b =>
    exact leaving_perform (onward_bind (onward_baudCalc _ _) fun _ => onward_benign.pure _) h
  | maskCalc policy => exact leaving_perform (onward_benign.pure _) h
  | lineApply line policy baud => exact leaving_perform_then (onwardThen_lineApply s line policy baud) h
  | write data =>
    rw [exec, execWrite] at h
    exact leaving_performSilent (onward_bind onward_benign.requireRunning fun _ =>
      onward_bind (onward_benign.writeLoop data) fun acc =>
        Op.Keeps.of_update (fun u => { u with writeOwed := some acc }) fun u => { Onward.refl u with }) h
  | setBreak on => exact leaving_performUnit (onward_setBreak on) h
  | queryTxEmpty =>
    exact leaving_perform (onward_state fun _ => onward_bind (onward_benign.rd _) fun _ =>
      onward_benign.pure _) h
  | startup => exact leaving_startup h
  | shutdown => exact leaving_shutdown h
  | setTtyStopped on =>
    rw [exec, execSetTtyStopped] at h
    exact leaving_performUnit onward_port h
  | txKick => exact leaving_performUnit onward_txKick h
  | txStop => exact leaving_performUnit onward_txStop h
  | rbTryEnqueue b =>
    exact leaving_perform (onward_bind (onward_benign.ringEnqueue b) fun _ => onward_benign.pure _) h
  | rbDequeueUpTo n =>
    exact leaving_perform (onward_bind (onward_benign.ringDequeue _) fun _ => onward_benign.pure _) h
  | rbPendingCount =>
    rw [exec, execRbPendingCount] at h
    exact leaving_perform (read _) h
  | rbIsEmpty =>
    rw [exec, execRbIsEmpty] at h
    exact leaving_perform (read _) h
  | irqDispatch =>
    simp only [exec, execIrqDispatch] at h
    split at h
    · exact leaving_performUnit onward_irqDispatch h
    · exact leaving_self h
  | txDmaDone => exact leaving_performUnit onward_txDmaDone h
  | rxPollEvent => exact leaving_performUnit onward_benign.rxPollEvent h
  | rxDmaEvent =>
    simp only [exec, execRxDmaEvent] at h
    split at h
    · split at h
      · exact leaving_performUnit onward_recheck h
      · exact leaving_self h
    · exact leaving_performUnit onward_rxDmaEvent h
  | rxTaskCopy =>
    simp only [exec, execRxTaskCopy] at h
    split at h
    · exact leaving_performUnit (onward_taskCopy _) h
    · exact leaving_self h
  | rxTaskFinish =>
    simp only [exec, execRxTaskFinish] at h
    split at h
    · exact leaving_performUnit (onward_taskFinish _) h
    · exact leaving_self h
  | rxClassify st => exact leaving_perform (onward_benign.pure _) h
  | rxFlag st =>
    rw [exec, execRxFlag] at h
    exact leaving_perform (read _) h

end leaving

/-- What a step leaves: as its command, where it performs one. -/
theorem step_leaving {s t : State} (h : step s = .next t) :
    Onward s t ∨ ∃ i m f r, commandAt s = some i ∧ Onward s m ∧ LastWrite s i f
      ∧ t = (m.setPort f).reply r := by
  have acted (who : Issuer) {ws : List Word} (hw : ws <:+ s.stream) : Onward s (s.actedBy who ws) :=
    { Onward.refl s with stream := hw }
  cases step_stepped h with
  | env e _ _ run =>
    have hon : Onward { s with turns := s.turns.tail } t :=
      performSilent_ends ((onward_envStep e).ends _) run
    exact .inl { hon with }
  | command who i ws _ hat _ _ _ _ hrest run =>
    rcases exec_leaving run with hon | ⟨m, f, r, hm, hf, ht⟩
    · exact .inl ((acted who hrest).trans _ _ _ hon)
    · have hlast : LastWrite s i f := by cases hf <;> constructor <;> assumption
      exact .inr ⟨i, m, f, r, hat, (acted who hrest).trans _ _ _ hm, hlast, ht⟩
  | owed acc _ _ _ run =>
    have hon : Onward { s.actedBy .host s.stream with writeOwed := none } t :=
      perform_ends ((onward_bind onward_txKick fun _ => onward_benign.pure _).ends _)
        (fun u r hu => hu.trans _ _ _ (Onward.reply u r)) run
    exact .inl { hon with }
  | refused who why ws _ hrest => exact .inl ((acted who hrest).trans _ _ _ (Onward.reply _ _))
  | nothing _ => exact .inl { Onward.refl s with }

/-- Settles O55: every step is `Onward` but for the last write of STARTUP, SHUTDOWN and LINE_APPLY. -/
theorem lifeAndConfigurationOwnership : Obligations.LifeAndConfigurationOwnership := by
  intro s t h
  rcases step_leaving h with hon | ⟨i, m, f, r, hat, hon, hf, rfl⟩
  · exact ⟨fun hlife => absurd hon.life hlife,
      fun _ => ⟨hon.cfg, hon.committed, hon.readMask, hon.ignoreMask⟩⟩
  · cases hf with
    | startup hr =>
      exact ⟨fun _ => .inl ⟨hat, hr, rfl⟩,
        fun _ => ⟨hon.cfg, hon.committed, hon.readMask, hon.ignoreMask⟩⟩
    | shutdown hr =>
      exact ⟨fun _ => .inr ⟨hat, hr, rfl⟩,
        fun _ => ⟨hon.cfg, hon.committed, hon.readMask, hon.ignoreMask⟩⟩
    | lineApply line policy baud cfg com rm im =>
      exact ⟨fun hlife => absurd hon.life hlife, fun hno => absurd hat (hno line policy baud)⟩

/-- Settles O57: `Onward` says it, and a last write touches none of these. -/
theorem outputsOnlyGrow : Obligations.OutputsOnlyGrow := by
  intro s t h
  rcases step_leaving h with hon | ⟨i, m, f, r, -, hon, hf, rfl⟩
  · exact ⟨hon.params, hon.out, hon.wire, hon.replies, hon.stream⟩
  · have hout : (f m.port).out = m.port.out := by cases hf <;> rfl
    refine ⟨hon.params, ?_, hon.wire, hon.replies.trans (List.prefix_append _ _), hon.stream⟩
    simpa only [State.reply_port, State.setPort_port, hout] using hon.out

/-! ### The invariant at every point of an operation

`Inv` and `Written` hold between operations. Inside one, environment steps fall between its primitives
(20_memory R81), so what they need must hold there too. `Sound` is that: the clauses of `Inv` and
`Written`, on the parts of the state they speak of, with three of them open where an operation breaks
them for a while. -/

/-- Which clauses are open at a point inside an operation. Between operations none is. -/
structure Midway where
  /-- LINE_APPLY has latched `FEN` and has not recorded its commitment yet. -/
  committing : Bool := false
  /-- The landing slot has moved, and the receive channel is not armed on it yet. -/
  swapping : Bool := false
  /-- STARTUP has armed the receive channel, and the port does not run yet. -/
  arming : Bool := false

/-- `RingInv` on its parts. -/
structure RingOk (p : Params) (ring : Memory) (head tail : Nat) : Prop where
  head_lt : head < p.ringN
  tail_lt : tail < p.ringN
  canonical : ring.wf = true
  inside : ∀ c ∈ ring, c.1 < p.ringN

/-- The registers of `UartInv`. -/
structure RegsOk (p : Params) (u : Uart) : Prop where
  lcrh : u.lcrh &&& definedMask p.regMap .lcrh = u.lcrh
  ctl : u.ctl &&& definedMask p.regMap .ctl = u.ctl
  im : u.im &&& definedMask p.regMap .im = u.im
  ifls : u.ifls &&& definedMask p.regMap .ifls = u.ifls
  dmactl : u.dmactl &&& definedMask p.regMap .dmactl = u.dmactl
  ris : u.ris &&& definedMask p.regMap .ris = u.ris
  tx_code : (u.ifls.extractLsb' p.regMap.txiflsel 3).toNat ≤ 4
  rx_code : (u.ifls.extractLsb' p.regMap.rxiflsel 3).toNat ≤ 4

/-- The FIFOs of `UartInv`, where `fit` says that the depth in force bounds them. -/
structure FifosOk (p : Params) (u : Uart) (fit : Prop) : Prop where
  txf_le : u.txf.length ≤ p.fifoDepth
  rxf_le : u.rxf.length ≤ p.fifoDepth
  fits : fit → u.txf.length ≤ depthOf p u ∧ u.rxf.length ≤ depthOf p u

/-- `MemInv` on its parts. -/
structure MemOk (p : Params) (m : Memory) : Prop where
  canonical : m.wf = true
  inside : ∀ c ∈ m, inRegion p c.1 1 = true

/-- `TxInv` on its parts. -/
structure TxOk (p : Params) (busy : Bool) (len : Nat) (d : TxChannel) : Prop where
  len_le : len ≤ p.stageCap
  len_pos : busy = true → 1 ≤ len
  len_zero : busy = false → len = 0
  run_busy : d.run = true → busy = true
  done_busy : d.done = true → busy = true ∧ d.run = false
  run_span : d.run = true → d.pos + d.rem = len ∧ 1 ≤ d.rem

/-- The receive channel of `RxInv`; while it runs it stands at the landing slot. -/
structure RxOk (p : Params) (landing : Slot) (d : RxChannel) : Prop where
  rem1_le : d.rem1 ≤ 1
  rem2_le : d.rem2 ≤ p.slotCap - 1
  in_order : d.rem1 = 1 → d.rem2 = p.slotCap - 1
  run_rem : d.run = true → 1 ≤ d.rem1 + d.rem2
  armed : d.run = true → d.slot = landing

/-- The task of `RxInv`. -/
structure TaskOk (p : Params) (landing : Slot) (task : Option Task) : Prop where
  ready : ∀ k, task = some k → k.slot ≠ landing ∧ 1 ≤ k.count ∧ k.count ≤ p.slotCap

/-- `IdleInv` on its parts: the block's side, and the channels. -/
structure IdleBlock (q : Port) : Prop where
  tx : q.txBusy = false ∧ q.txLen = 0
  rx : q.rxBusy = false ∧ q.task = none ∧ q.recheck = false

/-- Both channels are idle and have nothing to signal. -/
structure IdleChannels (dtx : TxChannel) (drx : RxChannel) : Prop where
  tx : dtx.run = false ∧ dtx.done = false
  rx : drx.run = false ∧ drx.done = false

/-- The `n` bytes of a memory from an address on have been written. -/
def WrittenAt (m : Memory) (a n : Nat) : Prop := ∀ i < n, (m.read (a + i)).isSome

/-- What holds at every point of an operation where an environment step may fall; with `w`, every byte
that will be read has been written. -/
structure Sound (w : Prop) (m : Midway) (s : State) : Prop where
  params : paramsOk s.params = true
  agents : ∀ t ∈ s.turns, isAgentTurn t = true
  ring : RingOk s.params s.port.ring s.port.head s.port.tail
  stopped_empty : s.port.life ≠ .running → s.port.head = s.port.tail
  regs : RegsOk s.params s.uart
  fifos : FifosOk s.params s.uart (s.port.life ≠ .stopped ∨ s.port.committed = none)
  committed_fen : ∀ c, s.port.committed = some c → c.lcrh.getLsbD s.params.regMap.fen = true
  fen_committed : m.committing = false → s.uart.lcrh.getLsbD s.params.regMap.fen = true →
    s.port.committed ≠ none
  mem : MemOk s.params s.mem
  tx : TxOk s.params s.port.txBusy s.port.txLen s.dtx
  rx : s.params.mode = .dma → RxOk s.params s.port.landing s.drx
  slot_landing : m.swapping = false → s.params.mode = .dma → s.port.life = .running →
    s.drx.slot = s.port.landing
  busy_iff : s.params.mode = .dma → s.port.life = .running →
    (s.port.rxBusy = true ↔ s.port.task ≠ none)
  task : s.params.mode = .dma → TaskOk s.params s.port.landing s.port.task
  idle_block : s.params.mode = .poll ∨ s.port.life ≠ .running → IdleBlock s.port
  idle_channels : s.params.mode = .poll ∨ m.arming = false ∧ s.port.life ≠ .running →
    IdleChannels s.dtx s.drx
  owed_running : s.writeOwed ≠ none → s.port.life = .running
  ring_written : w → ∀ i < pendingOf s.params s.port,
    (s.port.ring.read ((s.port.tail + i) % s.params.ringN)).isSome
  staged_written : w → s.dtx.run = true →
    WrittenAt s.mem (s.params.stageAddr + s.dtx.pos) s.dtx.rem
  captured_written : w → m.arming = true ∨ s.port.life = .running → s.params.mode = .dma →
    WrittenAt s.mem (slotAddr s.params s.drx.slot) (s.params.slotCap - s.drx.rem1 - s.drx.rem2)
  task_written : w → ∀ k, s.port.task = some k → WrittenAt s.mem (slotAddr s.params k.slot) k.count

theorem idleInv_iff (s : State) : IdleInv s ↔ IdleBlock s.port ∧ IdleChannels s.dtx s.drx :=
  ⟨fun h => ⟨⟨h.tx, h.rx⟩, h.dtx, h.drx⟩, fun h => ⟨h.1.tx, h.1.rx, h.2.tx, h.2.rx⟩⟩

section tie

variable {w : Prop} {s : State}

/-- Between operations `Inv` and `Written` make the state sound. -/
theorem Sound.of_inv (h : Inv s) (hw : w → Written s) : Sound w {} s where
  params := h.params
  agents := h.agents
  ring := ⟨h.ring.head_lt, h.ring.tail_lt, h.ring.canonical, h.ring.inside⟩
  stopped_empty := h.stopped_empty
  regs := ⟨h.uart.lcrh_defined, h.uart.ctl_defined, h.uart.im_defined, h.uart.ifls_defined,
    h.uart.dmactl_defined, h.uart.ris_defined, h.uart.tx_code, h.uart.rx_code⟩
  fifos := ⟨h.uart.txf_le, h.uart.rxf_le, h.uart.fits⟩
  committed_fen := h.committed_fen
  fen_committed _ := h.uart.fen_committed
  mem := ⟨h.mem.canonical, h.mem.inside⟩
  tx := ⟨h.tx.len_le, h.tx.len_pos, h.tx.len_zero, h.tx.run_busy, h.tx.done_busy, h.tx.run_span⟩
  rx hm := by
    have hrx := h.rx hm
    refine ⟨hrx.rem1_le, hrx.rem2_le, hrx.in_order, hrx.run_rem, fun hrun => ?_⟩
    by_cases hl : s.port.life = .running
    · exact hrx.slot_landing hl
    · exact absurd hrun (by simp [(h.stopped_idle hl).drx.1])
  slot_landing _ hm := (h.rx hm).slot_landing
  busy_iff hm := (h.rx hm).busy_iff
  task hm := ⟨(h.rx hm).task_ready⟩
  idle_block hu := ((idleInv_iff s).mp (hu.elim h.poll_idle h.stopped_idle)).1
  idle_channels hu := ((idleInv_iff s).mp (hu.elim h.poll_idle fun k => h.stopped_idle k.2)).2
  owed_running := h.owed_running
  ring_written hw' := (hw hw').ring
  staged_written hw' := (hw hw').staged
  captured_written hw' ha := (hw hw').captured (ha.resolve_left (by decide))
  task_written hw' := (hw hw').task

theorem Sound.inv (h : Sound w {} s) : Inv s where
  params := h.params
  agents := h.agents
  ring := ⟨h.ring.head_lt, h.ring.tail_lt, h.ring.canonical, h.ring.inside⟩
  uart := ⟨h.fifos.txf_le, h.fifos.rxf_le, h.fifos.fits, h.regs.lcrh, h.regs.ctl, h.regs.im,
    h.regs.ifls, h.regs.dmactl, h.regs.ris, h.regs.tx_code, h.regs.rx_code, h.fen_committed rfl⟩
  mem := ⟨h.mem.canonical, h.mem.inside⟩
  tx := ⟨h.tx.len_le, h.tx.len_pos, h.tx.len_zero, h.tx.run_busy, h.tx.done_busy, h.tx.run_span⟩
  rx hm := ⟨(h.rx hm).rem1_le, (h.rx hm).rem2_le, (h.rx hm).in_order, (h.rx hm).run_rem,
    h.slot_landing rfl hm, h.busy_iff hm, (h.task hm).ready⟩
  poll_idle hm := (idleInv_iff s).mpr ⟨h.idle_block (.inl hm), h.idle_channels (.inl hm)⟩
  stopped_idle hl := (idleInv_iff s).mpr ⟨h.idle_block (.inr hl), h.idle_channels (.inr ⟨rfl, hl⟩)⟩
  stopped_empty := h.stopped_empty
  owed_running := h.owed_running
  committed_fen := h.committed_fen

theorem Sound.written (h : Sound w {} s) (hw : w) : Written s where
  ring := h.ring_written hw
  staged := h.staged_written hw
  captured hl := h.captured_written hw (.inr hl)
  task := h.task_written hw

end tie

/-! ### What sound parameters give (00_scope R7, R8) -/

/-- The bounds of a well-formed parameter set that the block's arithmetic needs. -/
theorem paramsOk_bounds {p : Params} (h : paramsOk p = true) :
    2 ≤ p.ringN ∧ 1 ≤ p.fifoDepth ∧ p.rxIfls ≤ 4 ∧ p.txIfls ≤ 4 := by
  simp only [paramsOk, List.all_cons, id_eq, Bool.and_eq_true, decide_eq_true_eq] at h
  obtain ⟨-, -, -, -, -, -, hn, -, -, hf, hrx, htx, -⟩ := h
  exact ⟨hn, hf, hrx, htx⟩

theorem dmaParamsOk_of_paramsOk {p : Params} (h : paramsOk p = true) (hm : p.mode = .dma) :
    dmaParamsOk p = true := by
  simp only [paramsOk, List.all_cons, id_eq, Bool.and_eq_true, hm] at h
  obtain ⟨-, -, -, -, -, -, -, -, -, -, -, -, -, hd, -⟩ := h
  exact hd

/-- In dma mode the staging area and the slots are not empty, and apart. -/
theorem dmaParams_regions {p : Params} (h : paramsOk p = true) (hm : p.mode = .dma) :
    1 ≤ p.stageCap ∧ 2 ≤ p.slotCap
      ∧ (p.slotA + p.slotCap ≤ p.slotB ∨ p.slotB + p.slotCap ≤ p.slotA)
      ∧ (p.stageAddr + p.stageCap ≤ p.slotA ∨ p.slotA + p.slotCap ≤ p.stageAddr)
      ∧ (p.stageAddr + p.stageCap ≤ p.slotB ∨ p.slotB + p.slotCap ≤ p.stageAddr) := by
  have hd := dmaParamsOk_of_paramsOk h hm
  simp only [dmaParamsOk, disjoint, Bool.and_eq_true, Bool.or_eq_true, decide_eq_true_eq] at hd
  obtain ⟨⟨⟨⟨⟨⟨⟨⟨-, hst⟩, hsl⟩, -⟩, -⟩, -⟩, hab⟩, hsa⟩, hsb⟩ := hd
  omega

/-- The depth in force is at most the FIFO's. -/
theorem depthOf_le {p : Params} (h : paramsOk p = true) (u : Uart) : depthOf p u ≤ p.fifoDepth := by
  obtain ⟨-, hf, -⟩ := paramsOk_bounds h
  unfold depthOf
  split <;> omega

/-- The channels of a sound state are such that no environment step faults. -/
theorem Sound.channelsOk {w : Prop} {m : Midway} {s : State} (h : Sound w m s) :
    channelsOk s = true := by
  refine (channelsOk_iff s).mpr ⟨fun hrun => ?_, fun hrun => ?_⟩
  · have := h.tx.run_span hrun
    have := h.tx.len_le
    omega
  · cases hm : s.params.mode with
    | poll => exact absurd hrun (by simp [(h.idle_channels (.inl hm)).rx.1])
    | dma =>
      obtain ⟨-, hcap, -⟩ := dmaParams_regions h.params hm
      have hrx := h.rx hm
      have := hrx.rem2_le
      exact ⟨hrx.armed hrun, hrx.rem1_le, by omega, hrx.run_rem hrun⟩

/-! ### Updates that keep a sound state sound -/

/-- A one-bit field of a register may be set in a word within the register's defined bits. -/
theorem withBit_defined {m : RegMap} {r : Reg} {b : Nat} {v : Word} (on : Bool)
    (hf : (b, 1) ∈ fieldsOf m r) (hv : v &&& definedMask m r = v) :
    withBit v b on &&& definedMask m r = withBit v b on := by
  refine and_definedMask_of_covered fun k hk => ?_
  rw [getLsbD_withBit, Bool.and_eq_true, decide_eq_true_eq] at hk
  obtain ⟨hk32, hbit⟩ := hk
  by_cases hkb : k = b
  · rw [getLsbD_definedMask, List.any_eq_true]
    exact ⟨(b, 1), hf, by simp [hkb, hkb ▸ hk32]⟩
  · rw [if_neg hkb, ← hv, BitVec.getLsbD_and, Bool.and_eq_true] at hbit
    exact hbit.2

theorem and_definedMask_self (v mask : Word) : v &&& mask &&& mask = v &&& mask := by
  rw [BitVec.and_assoc, BitVec.and_self]

/-- Clearing bits stays within the defined ones. -/
theorem and_defined_of_and {r mask : Word} (v : Word) (h : r &&& mask = r) :
    r &&& ~~~v &&& mask = r &&& ~~~v := by
  rw [BitVec.and_assoc, BitVec.and_comm (~~~v), ← BitVec.and_assoc, h]

/-- A FIFO that grows within the depth in force, or shrinks, stays within its bounds. -/
theorem FifosOk.resize {p : Params} {u v : Uart} {fit : Prop} (h : FifosOk p u fit)
    (hp : paramsOk p = true) (hl : v.lcrh = u.lcrh)
    (htx : v.txf.length ≤ u.txf.length ∨ v.txf.length ≤ depthOf p u)
    (hrx : v.rxf.length ≤ u.rxf.length ∨ v.rxf.length ≤ depthOf p u) : FifosOk p v fit := by
  have hd := depthOf_le hp u
  have hdepth : depthOf p v = depthOf p u := by rw [depthOf, depthOf, Uart.fen, Uart.fen, hl]
  refine ⟨?_, ?_, fun hfit => ?_⟩
  · have := h.txf_le
    omega
  · have := h.rxf_le
    omega
  · have := h.fits hfit
    omega

/-- An update of the block that writes nothing that `Sound` reads. -/
def Aside (f : Port → Port) : Prop :=
  ∀ q, ∃ cfg rm im tty fault out c1 c2 c3 c4 c5 c6, f q = { q with
    cfg := cfg, readMask := rm, ignoreMask := im, ttyStopped := tty, fault := fault, out := out
    cntOverrun := c1, cntParity := c2, cntFrame := c3, cntBrk := c4, cntTx := c5, cntRx := c6 }

theorem Emits.aside {f : Port → Port} (h : Emits f) : Aside f := by
  intro q
  obtain ⟨out, c1, c2, c3, c4, c5, c6, -, hq⟩ := h q
  exact ⟨_, _, _, _, _, out, c1, c2, c3, c4, c5, c6, hq⟩

section sound

variable {w : Prop} {m : Midway} {s t : State}

theorem Sound.aside (h : Sound w m s) {f : Port → Port} (hf : Aside f) : Sound w m (s.setPort f) := by
  obtain ⟨cfg, rm, im, tty, fault, out, c1, c2, c3, c4, c5, c6, hq⟩ := hf s.port
  have he : s.setPort f = { s with port := { s.port with
      cfg := cfg, readMask := rm, ignoreMask := im, ttyStopped := tty, fault := fault, out := out
      cntOverrun := c1, cntParity := c2, cntFrame := c3, cntBrk := c4, cntTx := c5
      cntRx := c6 } } := by rw [State.setPort, hq]
  rw [he]
  exact { h with idle_block := fun hu => { h.idle_block hu with } }

theorem Sound.fault_set (h : Sound w m s) (why : FaultReason) :
    Sound w m (s.setPort fun q => { q with fault := some why }) :=
  h.aside fun _ => ⟨_, _, _, _, _, _, _, _, _, _, _, _, rfl⟩

theorem Sound.reply (h : Sound w m s) (r : Reply) : Sound w m (s.reply r) := { h with }

/-- An update of the UART: its registers, its FIFOs and `FEN` must stay sound. -/
theorem Sound.setUart (h : Sound w m s) {f : Uart → Uart} (hregs : RegsOk s.params (f s.uart))
    (hfifos : FifosOk s.params (f s.uart) (s.port.life ≠ .stopped ∨ s.port.committed = none))
    (hfen : m.committing = false → (f s.uart).lcrh.getLsbD s.params.regMap.fen = true →
      s.port.committed ≠ none) : Sound w m (s.setUart f) :=
  { h with regs := hregs, fifos := hfifos, fen_committed := hfen }

/-- The byte or the entry at the front of a FIFO leaves it. -/
theorem Sound.pop (h : Sound w m s) {e : Byte × Status} {rest : List (Byte × Status)}
    (hx : s.uart.rxf = e :: rest) : Sound w m (s.setUart fun u => { u with rxf := rest }) :=
  h.setUart { h.regs with }
    (h.fifos.resize h.params rfl (.inl (Nat.le_refl _)) (.inl (by simp [hx]))) h.fen_committed

theorem Sound.push (h : Sound w m s) (b : Byte) (hroom : s.uart.txf.length < s.depth) :
    Sound w m (s.setUart fun u => { u with txf := u.txf ++ [b] }) :=
  h.setUart { h.regs with }
    (h.fifos.resize h.params rfl (.inr (by rw [List.length_append]; exact hroom))
      (.inl (Nat.le_refl _))) h.fen_committed

theorem Sound.receive (h : Sound w m s) (e : Byte × Status) (hroom : s.uart.rxf.length < s.depth) :
    Sound w m (s.setUart fun u => { u with rxf := u.rxf ++ [e] }) :=
  h.setUart { h.regs with }
    (h.fifos.resize h.params rfl (.inl (Nat.le_refl _))
      (.inr (by rw [List.length_append]; exact hroom))) h.fen_committed

/-- A byte leaves for the wire; `RIS` may be raised. -/
theorem Sound.sent (h : Sound w m s) {b : Byte} {rest wire : List Byte} {ris : Word} {n : Nat}
    (hx : s.uart.txf = b :: rest) (hris : ris &&& definedMask s.params.regMap .ris = ris) :
    Sound w m { s with uart := { s.uart with txf := rest, wire := wire, ris := ris }, draws := n } :=
  { h with
    regs := { h.regs with ris := hris }
    fifos := h.fifos.resize h.params rfl (.inl (by simp [hx])) (.inl (Nat.le_refl _)) }

theorem Sound.setRis (h : Sound w m s) {k : Nat} (hk : (k, 1) ∈ fieldsOf s.params.regMap .ris) :
    Sound w m (s.setUart fun u => { u with ris := withBit u.ris k true }) :=
  h.setUart { h.regs with ris := withBit_defined true hk h.regs.ris } { h.fifos with } h.fen_committed

/-! ### Environment steps in a sound state (20_memory R76 to R80) -/

/-- What the environment leaves in a sound state: what it cannot change, and a channel that does not
run. -/
structure Passed (s t : State) : Prop where
  view : viewOf t = viewOf s
  memory : sameOutsideSlots s t
  dtx : s.dtx.run = false → t.dtx = s.dtx
  drx : s.drx.run = false → t.drx = s.drx

theorem Passed.refl (s : State) : Passed s s := ⟨rfl, fun _ _ => rfl, fun _ => rfl, fun _ => rfl⟩

theorem Passed.trans {s t u : State} (h : Passed s t) (k : Passed t u) : Passed s u where
  view := k.view.trans h.view
  memory a ha := (k.memory a (by rw [viewOf_params h.view]; exact ha)).trans (h.memory a ha)
  dtx hrun := (k.dtx (by rw [h.dtx hrun]; exact hrun)).trans (h.dtx hrun)
  drx hrun := (k.drx (by rw [h.drx hrun]; exact hrun)).trans (h.drx hrun)

/-- The transmit step leaves `RIS`, or sets `RIS.TX` (R80). -/
theorem uartTransmit_ris {told : Bool} (h : uartTransmit told s = .ok () t) :
    t.uart.ris = s.uart.ris ∨ t.uart.ris = withBit s.uart.ris s.params.regMap.txInt true := by
  unfold uartTransmit at h
  split at h
  · cases h
    exact .inl rfl
  · split at h
    · cases h
      simp only
      split
      · exact .inr rfl
      · exact .inl rfl
    · cases h
      exact .inl rfl

theorem Sound.uartTransmit (h : Sound w m s) {told : Bool} (he : uartTransmit told s = .ok () t) :
    Sound w m t ∧ t.dtx = s.dtx ∧ t.drx = s.drx := by
  have hris := uartTransmit_ris he
  rcases uartTransmit_run told s with e | ⟨b, rest, sent, ris, n, hx, -, -, -, -, e⟩ <;>
    rw [e] at he <;> cases he
  · exact ⟨h, rfl, rfl⟩
  · refine ⟨h.sent hx ?_, rfl, rfl⟩
    rcases hris with hris | hris <;> simp only at hris <;> subst hris
    · exact h.regs.ris
    · exact withBit_defined true (by simp [fieldsOf]) h.regs.ris

theorem Sound.uartReceive (h : Sound w m s) {b : Byte} {st : Status}
    (he : uartReceive b st s = .ok () t) : Sound w m t ∧ t.dtx = s.dtx ∧ t.drx = s.drx := by
  rcases uartReceive_run b st s with e | ⟨-, -, hroom, e⟩ <;> rw [e] at he <;> cases he
  · exact ⟨h, rfl, rfl⟩
  · exact ⟨h.receive _ hroom, rfl, rfl⟩

/-- A transmit channel after a byte: it goes on inside its transfer, or has signalled its end. -/
theorem TxOk.afterByte {p : Params} {busy : Bool} {len : Nat} {d : TxChannel} (h : TxOk p busy len d)
    (hrun : d.run = true) : TxOk p busy len d.afterByte := by
  obtain ⟨hspan, hrem⟩ := h.run_span hrun
  have hbusy := h.run_busy hrun
  by_cases hl : d.rem = 1
  · rw [TxChannel.afterByte_last hl]
    exact { h with
      run_busy := fun k => by cases k
      done_busy := fun _ => ⟨hbusy, rfl⟩
      run_span := fun k => by cases k }
  · rw [TxChannel.afterByte_more hl]
    exact { h with run_span := fun _ => by simp only; omega }

theorem Sound.dmaTxStep (h : Sound w m s) (he : dmaTxStep s = .ok () t) :
    Sound w m t ∧ (s.dtx.run = false → t.dtx = s.dtx) ∧ t.drx = s.drx := by
  rcases dmaTxStep_run h.channelsOk with e | ⟨hm, hrun, -, hpos, hroom, e⟩ <;> rw [e] at he <;> cases he
  · exact ⟨h, fun _ => rfl, rfl⟩
  · refine ⟨?_, fun hno => absurd hrun (by simp [hno]), rfl⟩
    have hpush := h.push (s.memByte (s.params.stageAddr + s.dtx.pos)) hroom
    refine { hpush with
      tx := h.tx.afterByte hrun
      idle_channels := fun hu => absurd hrun (by simp [(h.idle_channels hu).tx.1])
      staged_written := fun hw _ => ?_ }
    have hst := h.staged_written hw hrun
    simp only [State.setDtx_dtx, State.setUart_dtx, State.setDtx_mem, State.setUart_mem,
      State.setDtx_params, State.setUart_params]
    by_cases hl : s.dtx.rem = 1
    · rw [TxChannel.afterByte_last hl]
      exact fun i hi => absurd hi (Nat.not_lt_zero i)
    · rw [TxChannel.afterByte_more hl]
      intro i hi
      simp only at hi ⊢
      have := hst (i + 1) (by omega)
      rwa [show s.params.stageAddr + s.dtx.pos + (i + 1) = s.params.stageAddr + (s.dtx.pos + 1) + i by
        omega] at this

/-- A receive channel after a captured byte. -/
theorem RxOk.afterByte {p : Params} {x : Slot} {d : RxChannel} (h : RxOk p x d) (hrun : d.run = true) :
    RxOk p x d.afterByte := by
  obtain ⟨hr1, hr2⟩ := RxChannel.afterByte_counts h.rem1_le
  obtain ⟨hgo, -⟩ := RxChannel.afterByte_run h.rem1_le hrun
  have hle := h.rem2_le
  refine ⟨by omega, ?_, fun k => by omega, fun k => ?_, fun _ => ?_⟩
  · rw [hr2]
    split <;> omega
  · rw [hgo, decide_eq_true_eq] at k
    omega
  · rw [RxChannel.afterByte_slot]
    exact h.armed hrun

/-- The captured bytes of a slot grow by the byte that is written behind them (43_receive R175). -/
theorem captured_afterByte {p : Params} {x : Slot} {d : RxChannel} (h : RxOk p x d)
    (hrun : d.run = true) (hcap : 2 ≤ p.slotCap) :
    p.slotCap - d.afterByte.rem1 - d.afterByte.rem2 = p.slotCap - d.rem1 - d.rem2 + 1
      ∧ d.nextOffset p = p.slotCap - d.rem1 - d.rem2 := by
  obtain ⟨hr1, hr2⟩ := RxChannel.afterByte_counts h.rem1_le
  have hrem := h.run_rem hrun
  have hle := h.rem2_le
  have h1 := h.rem1_le
  rw [hr1, hr2]
  unfold RxChannel.nextOffset
  by_cases hfirst : d.rem1 = 1
  · have := h.in_order hfirst
    rw [if_pos hfirst, if_pos hfirst]
    omega
  · rw [if_neg hfirst, if_neg hfirst]
    omega

theorem WrittenAt.write {mem : Memory} {a n k : Nat} (h : WrittenAt mem a n) (v : Byte)
    (hwf : mem.wf = true) : WrittenAt (mem.write k v) a n :=
  fun i hi => Memory.isSome_write v hwf (h i hi)

/-- The byte written behind the written ones. -/
theorem WrittenAt.snoc {mem : Memory} {a n : Nat} (h : WrittenAt mem a n) (v : Byte)
    (hwf : mem.wf = true) : WrittenAt (mem.write (a + n) v) a (n + 1) := by
  intro i hi
  rcases Nat.lt_succ_iff_lt_or_eq.mp hi with hlt | rfl
  · exact h.write v hwf i hlt
  · rw [Memory.read_write _ v _ hwf, if_pos rfl]
    rfl

theorem MemOk.write {p : Params} {mem : Memory} {k : Nat} (h : MemOk p mem) (v : Byte)
    (hk : inRegion p k 1 = true) : MemOk p (mem.write k v) where
  canonical := Memory.write_wf k v h.canonical
  inside c hc := by
    rcases Memory.mem_write hc with rfl | hc
    · exact hk
    · exact h.inside c hc

theorem Sound.dmaRxStep (h : Sound w m s) (he : dmaRxStep s = .ok () t) :
    Sound w m t ∧ t.dtx = s.dtx ∧ (s.drx.run = false → t.drx = s.drx) := by
  rcases dmaRxStep_run h.channelsOk with e | ⟨b, st, rest, hx, hm, hrun, -, e⟩ <;>
    rw [e] at he <;> cases he
  · exact ⟨h, rfl, fun _ => rfl⟩
  · refine ⟨?_, rfl, fun hno => absurd hrun (by simp [hno])⟩
    obtain ⟨-, hcap, -⟩ := dmaParams_regions h.params hm
    have hrx := h.rx hm
    obtain ⟨hgrow, hoff⟩ := captured_afterByte hrx hrun hcap
    have hlt : s.drx.nextOffset s.params < s.params.slotCap :=
      nextOffset_lt (by have := hrx.rem2_le; omega) (hrx.run_rem hrun) hrx.rem1_le
    have hwf := h.mem.canonical
    exact { h.pop hx with
      mem := h.mem.write b (inRegion_slot hm hlt)
      rx := fun hm => (h.rx hm).afterByte hrun
      slot_landing := fun hs hm hl => (RxChannel.afterByte_slot _).trans (h.slot_landing hs hm hl)
      idle_channels := fun hu => absurd hrun (by simp [(h.idle_channels hu).rx.1])
      staged_written := fun hw hr => (h.staged_written hw hr).write b hwf
      captured_written := fun hw ha hm => by
        have := (h.captured_written hw ha hm).snoc b hwf
        simp only [State.setDrx_drx, State.setDrx_mem, State.setDrx_params, State.setMem_drx,
          State.setMem_mem, State.setMem_params, State.setUart_drx, State.setUart_params,
          RxChannel.afterByte_slot, hgrow]
        rwa [hoff]
      task_written := fun hw k hk => (h.task_written hw k hk).write b hwf }

/-- An environment step keeps a sound state sound, and moves no channel that does not run. -/
theorem Sound.after_envStep (h : Sound w m s) {e : EnvStep} (he : envStep e s = .ok () t) :
    Sound w m t ∧ (s.dtx.run = false → t.dtx = s.dtx) ∧ (s.drx.run = false → t.drx = s.drx) := by
  have raised {k : Nat} (hk : (k, 1) ∈ fieldsOf s.params.regMap .ris)
      (hs : Machine.setRis k s = .ok () t) :
      Sound w m t ∧ (s.dtx.run = false → t.dtx = s.dtx) ∧ (s.drx.run = false → t.drx = s.drx) := by
    rw [setRis_run] at hs
    cases hs
    exact ⟨h.setRis hk, fun _ => rfl, fun _ => rfl⟩
  have skipped (hs : (pure () : Op Unit) s = .ok () t) :
      Sound w m t ∧ (s.dtx.run = false → t.dtx = s.dtx) ∧ (s.drx.run = false → t.drx = s.drx) := by
    cases hs
    exact ⟨h, fun _ => rfl, fun _ => rfl⟩
  cases e with
  | uartTx told =>
    obtain ⟨hs, hd, hr⟩ := h.uartTransmit he
    exact ⟨hs, fun _ => hd, fun _ => hr⟩
  | uartRx b st =>
    obtain ⟨hs, hd, hr⟩ := h.uartReceive he
    exact ⟨hs, fun _ => hd, fun _ => hr⟩
  | dmaTx =>
    obtain ⟨hs, hd, hr⟩ := h.dmaTxStep he
    exact ⟨hs, hd, fun _ => hr⟩
  | dmaRx =>
    obtain ⟨hs, hd, hr⟩ := h.dmaRxStep he
    exact ⟨hs, fun _ => hd, hr⟩
  | raiseRx | raiseRt | raiseTx =>
    simp only [envStep, theState_bind] at he
    split at he
    · exact raised (by simp [fieldsOf]) he
    · exact skipped he
  | raiseErr k =>
    refine raised ?_ he
    match k with
    | 0 | 1 | 2 | 3 => simp [fieldsOf, errInt]

/-- In a sound state an environment step raises no fault and leaves a sound state. -/
theorem Sound.envStep (h : Sound w m s) (e : EnvStep) :
    (envStep e).Runs s fun _ t => Sound w m t ∧ Passed s t := by
  obtain ⟨t, he, hu, -⟩ := envStep_unseen e h.channelsOk
  obtain ⟨hs, hdtx, hdrx⟩ := h.after_envStep he
  exact ⟨(), t, he, hs, hu.view, hu.memory, hdtx, hdrx⟩

theorem Sound.envSteps (h : Sound w m s) (es : List EnvStep) :
    (envSteps es).Runs s fun _ t => Sound w m t ∧ Passed s t := by
  induction es generalizing s with
  | nil => exact runs_pure ⟨h, Passed.refl s⟩
  | cons e es ih =>
    refine runs_bind (h.envStep e) fun _ t ht => runs_mono (ih ht.1) fun _ u hu => ?_
    exact ⟨hu.1, ht.2.trans hu.2⟩

/-- The environment steps before a primitive (R81). -/
theorem Sound.gap (h : Sound w m s) : gap.Runs s fun _ t => Sound w m t ∧ Passed s t := by
  cases hg : s.gaps with
  | nil => exact ⟨(), s, gap_quiet hg, h, Passed.refl s⟩
  | cons es more =>
    have h' : Sound w m { s with gaps := more } := { h with }
    obtain ⟨_, t, e, hs, hp⟩ := h'.envSteps es
    refine ⟨(), t, ?_, hs, hp.view, hp.memory, hp.dtx, hp.drx⟩
    simp only [Machine.gap, hg]
    exact e

end sound

/-! ### The ring in a sound state (40_ringbuffer R111, R112, R115) -/

/-- `pending` without the modulus, for indices in range (10_state R25). -/
theorem pendingOf_eq {p : Params} {q : Port} (hh : q.head < p.ringN) (ht : q.tail < p.ringN) :
    pendingOf p q = if q.tail ≤ q.head then q.head - q.tail else q.head + p.ringN - q.tail := by
  rw [pendingOf, Nat.mod_eq_of_lt ht]
  split
  · rw [show q.head + (p.ringN - q.tail) = q.head - q.tail + p.ringN by omega, Nat.add_mod_right,
      Nat.mod_eq_of_lt (by omega)]
  · rw [Nat.mod_eq_of_lt (by omega)]
    omega

/-- The head stands behind the last unconsumed byte. -/
theorem tail_add_pending {p : Params} {q : Port} (hh : q.head < p.ringN) (ht : q.tail < p.ringN) :
    (q.tail + pendingOf p q) % p.ringN = q.head := by
  rw [pendingOf_eq hh ht]
  split
  · rw [show q.tail + (q.head - q.tail) = q.head by omega, Nat.mod_eq_of_lt hh]
  · rw [show q.tail + (q.head + p.ringN - q.tail) = q.head + p.ringN by omega, Nat.add_mod_right,
      Nat.mod_eq_of_lt hh]

/-- The next index of the ring. -/
theorem succ_mod_ring {n i : Nat} (h : i < n) : (i + 1) % n = if i + 1 = n then 0 else i + 1 := by
  split
  · next heq => rw [heq, Nat.mod_self]
  · exact Nat.mod_eq_of_lt (by omega)

/-- An accepted byte is one more unconsumed byte. -/
theorem pendingOf_enqueue {p : Params} {q : Port} {ring : Memory} (hh : q.head < p.ringN)
    (ht : q.tail < p.ringN) (hroom : pendingOf p q ≠ p.ringN - 1) :
    pendingOf p { q with ring := ring, head := (q.head + 1) % p.ringN } = pendingOf p q + 1 := by
  rw [pendingOf_eq hh ht] at hroom ⊢
  rw [pendingOf_eq (q := { q with ring := ring, head := (q.head + 1) % p.ringN })
    (Nat.mod_lt _ (by omega)) ht]
  simp only [succ_mod_ring hh]
  split at hroom <;> split <;> split <;> omega

/-- A slice that is taken leaves the rest unconsumed. -/
theorem pendingOf_dequeue {p : Params} {q : Port} {k : Nat} (hh : q.head < p.ringN)
    (ht : q.tail < p.ringN) (hk : k ≤ pendingOf p q) (hend : k ≤ p.ringN - q.tail) :
    pendingOf p { q with tail := (q.tail + k) % p.ringN } = pendingOf p q - k := by
  have htail : (q.tail + k) % p.ringN = if q.tail + k = p.ringN then 0 else q.tail + k := by
    split
    · next heq => rw [heq, Nat.mod_self]
    · exact Nat.mod_eq_of_lt (by omega)
  rw [pendingOf_eq hh ht] at hk ⊢
  rw [pendingOf_eq (q := { q with tail := (q.tail + k) % p.ringN }) hh (Nat.mod_lt _ (by omega))]
  simp only [htail]
  split at hk <;> split <;> split <;> omega

section sound

variable {w : Prop} {m : Midway} {s : State}

theorem Sound.enqueue (h : Sound w m s) (b : Byte) (hr : s.port.life = .running)
    (hf : s.ringFull = false) : Sound w m (s.setPort fun q =>
      { q with ring := q.ring.write q.head b, head := (q.head + 1) % s.params.ringN }) := by
  have hh := h.ring.head_lt
  have ht := h.ring.tail_lt
  have hwf := h.ring.canonical
  have hroom : pendingOf s.params s.port ≠ s.params.ringN - 1 := by
    simpa [State.ringFull, State.pending] using hf
  refine { h with
    ring := ⟨Nat.mod_lt _ (by omega), ht, Memory.write_wf _ b hwf, fun c hc => ?_⟩
    stopped_empty := fun hl => absurd hr hl
    idle_block := fun hu => { h.idle_block hu with }
    ring_written := fun hw i hi => ?_ }
  · rcases Memory.mem_write hc with rfl | hc
    · exact hh
    · exact h.ring.inside c hc
  · simp only [State.setPort_port, State.setPort_params] at hi ⊢
    rw [pendingOf_enqueue hh ht hroom] at hi
    rcases Nat.lt_succ_iff_lt_or_eq.mp hi with hlt | rfl
    · exact Memory.isSome_write b hwf (h.ring_written hw i hlt)
    · rw [tail_add_pending hh ht, Memory.read_write _ b _ hwf, if_pos rfl]
      rfl

theorem sliceLength_le (s : State) (n : Nat) :
    s.sliceLength n ≤ pendingOf s.params s.port ∧ s.sliceLength n ≤ s.params.ringN - s.port.tail := by
  simp only [State.sliceLength, State.pending]
  omega

theorem Sound.dequeue (h : Sound w m s) (n : Nat) : Sound w m (s.setPort fun q =>
    { q with tail := (q.tail + s.sliceLength n) % s.params.ringN }) := by
  have hh := h.ring.head_lt
  have ht := h.ring.tail_lt
  obtain ⟨hk, hend⟩ := sliceLength_le s n
  refine { h with
    ring := { h.ring with tail_lt := Nat.mod_lt _ (by omega) }
    stopped_empty := fun hl => ?_
    idle_block := fun hu => { h.idle_block hu with }
    ring_written := fun hw i hi => ?_ }
  · have hempty := h.stopped_empty hl
    rw [pendingOf_eq hh ht, if_pos (by omega)] at hk
    simp only [State.setPort_port]
    rw [show s.sliceLength n = 0 by omega, Nat.add_zero, Nat.mod_eq_of_lt ht]
    exact hempty
  · simp only [State.setPort_port, State.setPort_params] at hi ⊢
    rw [pendingOf_dequeue hh ht hk hend] at hi
    rw [Nat.mod_add_mod, Nat.add_assoc]
    exact h.ring_written hw _ (by omega)

/-- Sound states stay sound: what the poll-mode engines and the ring keep. -/
def SoundKept (w : Prop) (m : Midway) (s t : State) : Prop := Sound w m s → Sound w m t

theorem soundKept_iff {α : Type} {x : Op α} :
    x.Keeps (SoundKept w m) ↔ ∀ s, Sound w m s → x.Ends s (Sound w m) := by
  refine forall_congr' fun s => ?_
  unfold Op.Ends
  cases x s <;> rfl

theorem soundKept_benign (w : Prop) (m : Midway) : Benign (SoundKept w m) where
  refl _ := id
  trans _ _ _ h k := k ∘ h
  env e := soundKept_iff.mpr fun _ h => .of_runs (runs_mono (h.envStep e) fun _ _ ht => ht.1)
  gaps _ _ h := { h with }
  draws _ h := { h with }
  fault _ why h := h.fault_set why
  emit _ _ hf h := h.aside hf.aside
  pop _ _ _ hx h := h.pop hx
  push _ b hroom h := h.push b hroom
  mask _ _ h := h.setUart { h.regs with im := and_definedMask_self _ _ } { h.fifos with } h.fen_committed
  enqueue _ b hr hf h := h.enqueue b hr hf
  dequeue _ n h := h.dequeue n

end sound

/-! ### Primitives in a sound state -/

/-- What the block's side keeps across a register or channel primitive: the parameters, the `port`
record, `LCRH`, the armed slot, an owed WRITE, and a channel that does not run. -/
structure Held (s t : State) : Prop where
  params : t.params = s.params
  port : t.port = s.port
  lcrh : t.uart.lcrh = s.uart.lcrh
  slot : t.drx.slot = s.drx.slot
  owed : t.writeOwed = s.writeOwed
  dtx : s.dtx.run = false → t.dtx = s.dtx
  drx : s.drx.run = false → t.drx = s.drx

theorem Held.refl (s : State) : Held s s := ⟨rfl, rfl, rfl, rfl, rfl, fun _ => rfl, fun _ => rfl⟩

theorem Held.trans {s t u : State} (h : Held s t) (k : Held t u) : Held s u where
  params := k.params.trans h.params
  port := k.port.trans h.port
  lcrh := k.lcrh.trans h.lcrh
  slot := k.slot.trans h.slot
  owed := k.owed.trans h.owed
  dtx hrun := (k.dtx (by rw [h.dtx hrun]; exact hrun)).trans (h.dtx hrun)
  drx hrun := (k.drx (by rw [h.drx hrun]; exact hrun)).trans (h.drx hrun)

theorem Passed.held {s t : State} (h : Passed s t) : Held s t where
  params := viewOf_params h.view
  port := viewOf_port h.view
  lcrh := congrArg Regs.lcrh (viewOf_regs h.view)
  slot := viewOf_slot h.view
  owed := congrArg View.writeOwed h.view
  dtx := h.dtx
  drx := h.drx

/-- Idle channels stay as they are. -/
theorem IdleChannels.held {s t : State} (hi : IdleChannels s.dtx s.drx) (h : Held s t) :
    IdleChannels t.dtx t.drx := by
  rw [h.dtx hi.tx.1, h.drx hi.rx.1]
  exact hi

section sound

variable {w : Prop} {m : Midway} {s t : State}

/-! Fewer clauses are asked inside LINE_APPLY and while the slots are swapped. -/

theorem Sound.committing (h : Sound w {} s) : Sound w { committing := true } s :=
  { h with fen_committed := fun k => by cases k }

theorem Sound.swapping (h : Sound w {} s) : Sound w { swapping := true } s :=
  { h with slot_landing := fun k => by cases k }

/-! Registers (20_memory R64, R65). -/

/-- A read answers the register's defined bits after the environment steps before it. -/
theorem Sound.rd (h : Sound w m s) (r : Reg) : (rd r).Runs s fun v t =>
    v = t.regValue r &&& definedMask t.params.regMap r ∧ Sound w m t ∧ Held s t := by
  obtain ⟨_, t, e, hs, hp⟩ := h.gap
  exact ⟨_, t, by rw [rd_eq, e], rfl, hs, hp.held⟩

theorem Sound.rdLcrh (h : Sound w m s) : (Machine.rd .lcrh).Runs s fun v t =>
    v = s.uart.lcrh ∧ Sound w m t ∧ Held s t := by
  refine runs_mono (h.rd .lcrh) fun v t ht => ?_
  obtain ⟨hv, hs, hh⟩ := ht
  exact ⟨by rw [hv, State.regValue, hs.regs.lcrh, hh.lcrh], hs, hh⟩

/-- A write of a register other than `DR`, `LCRH` and `IFLS` keeps a sound state sound. -/
theorem Sound.regWrite (h : Sound w m s) {r : Reg}
    (hr : r ∈ [Reg.ibrd, .fbrd, .ctl, .im, .icr, .dmactl]) (v : Word) :
    (regWrite r v).Runs s fun _ t => Sound w m t ∧ Held s t := by
  obtain ⟨_, t, e, hs, hp⟩ := h.gap
  have stored {f : Uart → Uart} (hf : storeReg r v t = .ok () (t.setUart f))
      (hl : (f t.uart).lcrh = t.uart.lcrh) (hsound : Sound w m (t.setUart f)) :
      (Machine.regWrite r v).Runs s fun _ t => Sound w m t ∧ Held s t :=
    ⟨(), _, by rw [regWrite_eq, e]; exact hf, hsound,
      hp.held.trans { Held.refl t with lcrh := hl }⟩
  have hself := and_definedMask_self v (definedMask t.params.regMap r)
  cases r with
  | ibrd =>
    exact stored (storeReg_ibrd v t) rfl
      (hs.setUart { hs.regs with } { hs.fifos with } hs.fen_committed)
  | fbrd =>
    exact stored (storeReg_fbrd v t) rfl
      (hs.setUart { hs.regs with } { hs.fifos with } hs.fen_committed)
  | ctl =>
    exact stored (storeReg_ctl v t) rfl
      (hs.setUart { hs.regs with ctl := hself } { hs.fifos with } hs.fen_committed)
  | im =>
    exact stored (storeReg_im v t) rfl
      (hs.setUart { hs.regs with im := hself } { hs.fifos with } hs.fen_committed)
  | dmactl =>
    exact stored (storeReg_dmactl v t) rfl
      (hs.setUart { hs.regs with dmactl := hself } { hs.fifos with } hs.fen_committed)
  | icr =>
    exact stored (storeReg_icr v t) rfl (hs.setUart
      { hs.regs with ris := and_defined_of_and v hs.regs.ris } { hs.fifos with } hs.fen_committed)
  | dr | fr | lcrh | ifls | ris | mis => simp at hr

/-- The level codes of STARTUP's `IFLS` value are the parameters' (45_port_control R202). -/
theorem iflsValue_codes {p : Params} (h : paramsOk p = true) :
    (((iflsValue p).extractLsb' p.regMap.txiflsel 3).toNat = p.txIfls)
      ∧ ((iflsValue p).extractLsb' p.regMap.rxiflsel 3).toNat = p.rxIfls := by
  obtain ⟨-, -, hrx, htx⟩ := paramsOk_bounds h
  obtain ⟨hw, hd⟩ := regMapOk_fields (regMapOk_of_paramsOk h) .ifls
  simp only [fieldsOf, List.pairwise_cons, List.mem_cons, List.not_mem_nil, or_false, forall_eq_or_imp,
    forall_eq, IsEmpty.forall_iff, implies_true, List.Pairwise.nil, and_true] at hw hd
  have apart {lo other : Nat} {v : BitVec 3} (hap : lo + 3 ≤ other ∨ other + 3 ≤ lo) :
      (putField other v).extractLsb' lo 3 = 0#3 := by
    apply BitVec.eq_of_getLsbD_eq
    intro k hk
    rw [BitVec.getLsbD_extractLsb', getLsbD_putField]
    rcases hap with hap | hap
    · have : ¬ other ≤ lo + k := by omega
      simp [this]
    · rw [BitVec.getLsbD_of_ge v _ (by omega)]
      simp
  have htxv := extract_putField (low := p.regMap.txiflsel) (by omega) (BitVec.ofNat 3 p.txIfls)
  have hrxv := extract_putField (low := p.regMap.rxiflsel) (by omega) (BitVec.ofNat 3 p.rxIfls)
  constructor
  · rw [iflsValue, BitVec.extractLsb'_or, htxv, apart (by omega), BitVec.zero_or, BitVec.toNat_ofNat]
    omega
  · rw [iflsValue, BitVec.extractLsb'_or, hrxv, apart (by omega), BitVec.or_zero, BitVec.toNat_ofNat]
    omega

theorem Sound.writeIfls (h : Sound w m s) : (Machine.regWrite .ifls (iflsValue s.params)).Runs s
    fun _ t => Sound w m t ∧ Held s t := by
  obtain ⟨_, t, e, hs, hp⟩ := h.gap
  obtain ⟨-, -, hrx, htx⟩ := paramsOk_bounds hs.params
  obtain ⟨htxc, hrxc⟩ := iflsValue_codes hs.params
  have hw := iflsValue_defined t.params
  have hregs : RegsOk t.params { t.uart with ifls := iflsValue t.params } :=
    { hs.regs with ifls := hw, tx_code := htxc ▸ htx, rx_code := hrxc ▸ hrx }
  refine ⟨(), t.setUart fun u => { u with ifls := iflsValue t.params }, ?_,
    hs.setUart hregs { hs.fifos with } hs.fen_committed, hp.held.trans { Held.refl t with }⟩
  rw [regWrite_eq, e, ← hp.held.params]
  simp only [storeReg_ifls, hw]

/-- A write of `LCRH` that leaves `FEN` as it is, or sets it where that is allowed, keeps a sound state
sound (20_memory R65, R66). -/
theorem Sound.writeLcrh (h : Sound w m s) {v : Word}
    (hv : v.getLsbD s.params.regMap.fen = s.uart.lcrh.getLsbD s.params.regMap.fen
      ∨ v.getLsbD s.params.regMap.fen = true ∧ (m.committing = true ∨ s.port.committed ≠ none)) :
    (Machine.regWrite .lcrh v).Runs s fun _ t => Sound w m t
      ∧ Held { s with uart := { s.uart with lcrh := v &&& definedMask s.params.regMap .lcrh } } t := by
  obtain ⟨_, t, e, hs, hp⟩ := h.gap
  have hh := hp.held
  rw [← hh.params, ← hh.lcrh, ← hh.port] at hv
  have hlatch : storeLcrh v t = .ok () (t.setUart (Uart.withLcrh t.params.regMap v)) := by
    refine storeLcrh_latch ?_
    rcases hv with hv | hv
    · cases hf : v.getLsbD t.params.regMap.fen
      · rw [hf] at hv
        exact .inl hv.symm
      · exact .inr rfl
    · exact .inr hv.1
  have hfen : (t.uart.withLcrh t.params.regMap v).fen t.params.regMap = v.getLsbD t.params.regMap.fen :=
    Uart.withLcrh_fen _ v _
  refine ⟨(), _, by rw [regWrite_eq, e]; exact hlatch, ?_, ?_⟩
  · refine hs.setUart { hs.regs with lcrh := and_definedMask_self _ _ } ?_ fun hc hset => ?_
    · refine ⟨hs.fifos.txf_le, hs.fifos.rxf_le, fun hfit => ?_⟩
      rw [depthOf, hfen]
      rcases hv with hv | hv
      · rw [hv]
        exact hs.fifos.fits hfit
      · rw [if_pos hv.1]
        exact ⟨hs.fifos.txf_le, hs.fifos.rxf_le⟩
    · rcases hv with hv | hv
      · exact hs.fen_committed hc (by rw [← hv, ← hfen]; exact hset)
      · exact hv.2.resolve_left (by simp [hc])
  · exact ⟨hh.params, hh.port, by rw [← hh.params]; rfl, hh.slot, hh.owed, hh.dtx, hh.drx⟩

end sound

/-! ### The transmit engine in a sound state (42_transmit R147 to R153) -/

/-- A list of bytes written inside the regions keeps memory sound. -/
theorem MemOk.writeList {p : Params} {mem : Memory} {a : Nat} {bs : List Byte} (h : MemOk p mem)
    (ha : ∀ i < bs.length, inRegion p (a + i) 1 = true) : MemOk p (mem.writeList a bs) where
  canonical := Memory.writeList_wf bs a h.canonical
  inside c hc := by
    rcases Memory.mem_writeList hc with ⟨hle, hlt⟩ | hc
    · have := ha (c.1 - a) (by omega)
      rwa [show a + (c.1 - a) = c.1 by omega] at this
    · exact h.inside c hc

theorem WrittenAt.writeList {mem : Memory} {a n k : Nat} (h : WrittenAt mem a n) (bs : List Byte)
    (hwf : mem.wf = true) : WrittenAt (mem.writeList k bs) a n :=
  fun i hi => Memory.isSome_writeList bs hwf (h i hi)

/-- The written bytes themselves. -/
theorem writtenAt_writeList {mem : Memory} (a : Nat) (bs : List Byte) (hwf : mem.wf = true) :
    WrittenAt (mem.writeList a bs) a bs.length := by
  intro i hi
  rw [Memory.read_writeList bs a _ hwf, if_pos (by omega), Nat.add_sub_cancel_left,
    List.getElem?_eq_getElem hi]
  rfl

section sound

variable {w : Prop} {m : Midway} {s : State}

/-- Bytes written to the staging area. -/
theorem Sound.stage (h : Sound w m s) (hm : s.params.mode = .dma) {bs : List Byte}
    (hlen : bs.length ≤ s.params.stageCap) :
    Sound w m (s.setMem (s.mem.writeList s.params.stageAddr bs)) :=
  { h with
    mem := h.mem.writeList fun i hi => inRegion_stage hm (by omega)
    staged_written := fun hw hr => (h.staged_written hw hr).writeList bs h.mem.canonical
    captured_written := fun hw ha hm => (h.captured_written hw ha hm).writeList bs h.mem.canonical
    task_written := fun hw k hk => (h.task_written hw k hk).writeList bs h.mem.canonical }

/-- A transfer of `n` staged bytes is started, and recorded as outstanding. -/
theorem Sound.startTx (h : Sound w m s) (hm : s.params.mode = .dma) (hl : s.port.life = .running)
    {n : Nat} (hpos : 1 ≤ n) (hlen : n ≤ s.params.stageCap)
    (hwritten : w → WrittenAt s.mem s.params.stageAddr n) :
    Sound w m ((s.setDtx fun _ => { run := true, rem := n, pos := 0, done := false }).setPort
      fun q => { q with txBusy := true, txLen := n }) := by
  have used : ¬ (s.params.mode = .poll ∨ s.port.life ≠ .running) := by simp [hm, hl]
  exact { h with
    tx := ⟨hlen, fun _ => hpos, (by cases ·), fun _ => rfl, (by cases ·),
      fun _ => ⟨Nat.zero_add n, hpos⟩⟩
    idle_block := fun hu => absurd hu used
    idle_channels := fun hu => absurd (hu.imp_right fun k => k.2) used
    staged_written := fun hw _ => hwritten hw }

/-- With an idle channel only the record of the transfer matters. -/
theorem TxOk.of_idle {p : Params} {busy : Bool} {len : Nat} {d : TxChannel} (hle : len ≤ p.stageCap)
    (hpos : busy = true → 1 ≤ len) (hzero : busy = false → len = 0)
    (hd : d.run = false ∧ d.done = false) : TxOk p busy len d :=
  ⟨hle, hpos, hzero, fun k => by simp [hd.1] at k, fun k => by simp [hd.2] at k,
    fun k => by simp [hd.1] at k⟩

/-- An outstanding transfer whose channel is idle is given up. -/
theorem Sound.endTx (h : Sound w m s) (hd : s.dtx.run = false ∧ s.dtx.done = false) :
    Sound w m (s.setPort fun q => { q with txBusy := false, txLen := 0 }) :=
  { h with
    tx := .of_idle (Nat.zero_le _) (by cases ·) (fun _ => rfl) hd
    idle_block := fun hu => { h.idle_block hu with tx := ⟨rfl, rfl⟩ } }

/-- The transmit channel is stopped (20_memory R71). -/
theorem Sound.stopTx (h : Sound w m s) :
    Sound w m (s.setDtx fun d => { d with run := false, done := false }) :=
  { h with
    tx := .of_idle h.tx.len_le h.tx.len_pos h.tx.len_zero ⟨rfl, rfl⟩
    idle_channels := fun hu => { h.idle_channels hu with tx := ⟨rfl, rfl⟩ }
    staged_written := fun _ => (by cases ·) }

/-- The completion of the transmit channel is acknowledged (R73). -/
theorem Sound.ackTx (h : Sound w m s) : Sound w m (s.setDtx fun d => { d with done := false }) :=
  { h with
    tx := { h.tx with done_busy := (by cases ·) }
    idle_channels := fun hu => { h.idle_channels hu with tx := ⟨(h.idle_channels hu).tx.1, rfl⟩ } }

/-- The receive channel is stopped (R71). -/
theorem Sound.stopRx (h : Sound w m s) :
    Sound w m (s.setDrx fun d => { d with run := false, done := false }) :=
  { h with
    rx := fun hm => { h.rx hm with run_rem := (by cases ·), armed := (by cases ·) }
    idle_channels := fun hu => { h.idle_channels hu with rx := ⟨rfl, rfl⟩ } }

/-- The completion of the receive channel is acknowledged (R73). -/
theorem Sound.ackRx (h : Sound w m s) : Sound w m (s.setDrx fun d => { d with done := false }) :=
  { h with
    rx := fun hm => { h.rx hm with }
    idle_channels := fun hu => { h.idle_channels hu with rx := ⟨(h.idle_channels hu).rx.1, rfl⟩ } }

/-! The channel primitives, after the environment steps before them. -/

theorem Sound.dmaStopTx (h : Sound w m s) : dmaStopTx.Runs s fun _ t => Sound w m t
    ∧ ∃ u, Held s u ∧ t = u.setDtx fun d => { d with run := false, done := false } := by
  obtain ⟨_, u, e, hs, hp⟩ := h.gap
  exact ⟨(), _, dmaStopTx_run e, hs.stopTx, u, hp.held, rfl⟩

theorem Sound.dmaStopRx (h : Sound w m s) : dmaStopRx.Runs s fun _ t => Sound w m t
    ∧ ∃ u, Held s u ∧ t = u.setDrx fun d => { d with run := false, done := false } := by
  obtain ⟨_, u, e, hs, hp⟩ := h.gap
  exact ⟨(), _, dmaStopRx_run e, hs.stopRx, u, hp.held, rfl⟩

/-- The slice of a DMA kick that starts one is not empty and fits the staging area (R150). -/
theorem Sound.dmaRun_bounds (h : Sound w m s) (hm : s.params.mode = .dma) (hp : s.pending ≠ 0) :
    s.sliceLength s.dmaRun = s.dmaRun ∧ 1 ≤ s.dmaRun ∧ s.dmaRun ≤ s.params.stageCap := by
  obtain ⟨hcap, -⟩ := dmaParams_regions h.params hm
  have := h.ring.tail_lt
  simp only [State.sliceLength, State.dmaRun]
  omega

/-- The staged bytes are still written after environment steps, which write to the slots only. -/
theorem Passed.staged {s t : State} (h : Passed s t) (hp : paramsOk s.params = true)
    (hm : s.params.mode = .dma) {n : Nat} (hn : n ≤ s.params.stageCap)
    (hw : WrittenAt s.mem s.params.stageAddr n) : WrittenAt t.mem s.params.stageAddr n := by
  obtain ⟨-, -, -, ha, hb⟩ := dmaParams_regions hp hm
  intro i hi
  rw [h.memory _ ⟨by omega, by omega⟩]
  exact hw i hi

/-- The DMA kick (42_transmit R149): it starts nothing, or stages a slice of the ring and starts its
transfer. -/
theorem Sound.txKickDma (h : Sound w m s) (hm : s.params.mode = .dma) (hl : s.port.life = .running) :
    txKickDma.Runs s fun _ t => Sound w m t := by
  by_cases hnone : s.pending = 0 ∨ s.port.ttyStopped = true ∨ s.port.txBusy = true
  · exact ⟨(), s, txKickDma_none hnone, h⟩
  obtain ⟨hpend, htty, hbusy⟩ :
      s.pending ≠ 0 ∧ ¬ s.port.ttyStopped = true ∧ ¬ s.port.txBusy = true := by
    simpa only [not_or] using hnone
  obtain ⟨hslice, hpos, hcap⟩ := h.dmaRun_bounds hm hpend
  refine runs_bind_ok (theState_run s) ?_
  rw [if_neg (by simp [hpend, htty]), if_neg hbusy]
  refine runs_bind_ok (ringDequeue_run _ s) ?_
  have h1 := h.dequeue s.dmaRun
  have hlen : (s.ringBytes s.port.tail (s.sliceLength s.dmaRun)).length = s.dmaRun := by simp [hslice]
  generalize s.ringBytes s.port.tail (s.sliceLength s.dmaRun) = bs at hlen ⊢
  rw [← hlen] at hpos hcap
  refine runs_bind_ok (memWrite_run (inRegion_stage (o := 0) hm (by rw [Nat.zero_add]; exact hcap))) ?_
  have h2 := h1.stage hm hcap
  obtain ⟨_, t, e, h3, hp⟩ := h2.gap
  have hh := hp.held
  have hbusy' : t.port.txBusy = false := by rw [hh.port]; simpa using hbusy
  have hidle : t.dtx.run = false := by
    by_contra hrun
    rw [h3.tx.run_busy (by simpa using hrun)] at hbusy'
    cases hbusy'
  have hwritten : WrittenAt t.mem t.params.stageAddr bs.length := by
    rw [hh.params]
    exact hp.staged h2.params hm hcap (writtenAt_writeList _ bs h.mem.canonical)
  have h4 := h3.startTx (by rw [hh.params]; exact hm) (by rw [hh.port]; exact hl) hpos
    (by rw [hh.params]; exact hcap) fun _ => hwritten
  refine runs_bind_ok (dmaStartTx_run e hidle hpos (by rw [hh.params]; exact hcap)) ?_
  refine runs_bind_ok (modifyPort_run _ _) ⟨(), _, lowWaterTest_run _, ?_⟩
  split
  · exact (soundKept_benign w m).wakeup _ h4
  · exact h4

theorem soundKept_txKick : txKick.Keeps (SoundKept w m) := by
  refine soundKept_iff.mpr fun s h => ?_
  by_cases hl : s.port.life = .running
  · cases hm : s.params.mode with
    | poll =>
      exact .of_eq (txKick_poll hl hm) (soundKept_iff.mp (soundKept_benign w m).txKickPoll s h)
    | dma => exact .of_eq (txKick_dma hl hm) (.of_runs (h.txKickDma hm hl))
  · exact .of_error (txKick_fault hl) (h.fault_set _)

/-- The transfer that is done is counted and given up, then the ring is kicked (42_transmit R152). -/
theorem Sound.txDmaDone (h : Sound w m s) (hd : s.dtx.run = false ∧ s.dtx.done = false) :
    txDmaDone.Ends s (Sound w m) := by
  unfold Machine.txDmaDone
  refine ends_bind_ok (theState_run s) ?_
  split
  · exact .of_ok rfl h
  · refine ends_bind_ok (countTx_run _ s) (ends_bind_ok (modifyPort_run _ _) ?_)
    have hcount := (soundKept_benign w m).countTx s.port.txLen s h
    exact soundKept_iff.mp soundKept_txKick _ (Sound.endTx hcount hd)

theorem Sound.txStop (h : Sound w m s) : txStop.Ends s (Sound w m) := by
  unfold Machine.txStop
  refine ends_bind (soundKept_iff.mp (soundKept_benign w m).requireRunning s h) (fun _ => id)
    fun _ s h => ends_bind_ok (theState_run s) ?_
  cases s.params.mode with
  | poll => exact soundKept_iff.mp ((soundKept_benign w m).setTxim false) s h
  | dma =>
    refine ends_bind_runs h.dmaStopTx fun _ t ht => ?_
    obtain ⟨hs, u, -, rfl⟩ := ht
    exact .of_ok (modifyPort_run _ _) (hs.endTx ⟨rfl, rfl⟩)

/-! ### The receive engine in a sound state (43_receive R174 to R181) -/

theorem otherSlot_ne (x : Slot) : x ≠ otherSlot x := by cases x <;> decide

/-- The landing slot is swapped while the channel is stopped and no task is out (R174). -/
theorem Sound.swap (h : Sound w {} s) (hrun : s.drx.run = false) (ht : s.port.task = none) (x : Slot) :
    Sound w { swapping := true } (s.setPort fun q => { q with landing := x }) :=
  { h.swapping with
    slot_landing := (by cases ·)
    rx := fun hm => { h.rx hm with armed := fun k => by simp [hrun] at k }
    task := fun _ => ⟨fun k hk => by simp [ht] at hk⟩
    idle_block := fun hu => { h.idle_block hu with } }

/-- The receive channel is armed on the landing slot (20_memory R70), which has captured nothing yet:
in a running port, or in STARTUP. -/
theorem Sound.arm (h : Sound w m s) {m' : Midway} (hm : s.params.mode = .dma)
    (hused : m'.arming = true ∨ s.port.life = .running)
    (hc : m'.committing = false → m.committing = false) :
    Sound w m' (s.setDrx fun _ => { run := true, slot := s.port.landing, rem1 := 1
                                    rem2 := s.params.slotCap - 1, done := false }) := by
  obtain ⟨-, hcap, -⟩ := dmaParams_regions h.params hm
  exact { h with
    fen_committed := fun k => h.fen_committed (hc k)
    rx := fun _ => ⟨Nat.le_refl 1, Nat.le_refl _, fun _ => rfl, fun _ => Nat.le_add_right 1 _,
      fun _ => rfl⟩
    slot_landing := fun _ _ _ => rfl
    idle_channels := fun hu => by
      obtain ⟨harm, hl⟩ := hu.resolve_left (by simp [hm])
      exact absurd (hused.resolve_left (by simp [harm])) hl
    captured_written := fun _ _ _ i hi => by
      simp only [State.setDrx_drx, State.setDrx_params] at hi
      omega }

/-- The captured bytes are handed to a task (43_receive R180). -/
theorem Sound.hand (h : Sound w {} s) (hl : s.port.life = .running) (hm : s.params.mode = .dma)
    {x : Slot} {n : Nat} (hx : x ≠ s.port.landing) (hpos : 1 ≤ n) (hcap : n ≤ s.params.slotCap)
    (hwritten : w → WrittenAt s.mem (slotAddr s.params x) n) :
    Sound w {} (s.setPort fun q => { q with rxBusy := true, task := some ⟨x, n, .copy⟩ }) := by
  have used : ¬ (s.params.mode = .poll ∨ s.port.life ≠ .running) := by simp [hm, hl]
  exact { h with
    busy_iff := fun _ _ => ⟨fun _ => Option.some_ne_none _, fun _ => rfl⟩
    task := fun _ => ⟨fun k hk => by cases hk; exact ⟨hx, hpos, hcap⟩⟩
    idle_block := fun hu => absurd hu used
    task_written := fun hw k hk => by cases hk; exact hwritten hw }

/-- The remaining counts (20_memory R72). -/
theorem Sound.dmaRemaining (h : Sound w m s) :
    (dmaRemaining1.Runs s fun n t => n = t.drx.rem1 ∧ Sound w m t ∧ Held s t)
      ∧ dmaRemaining2.Runs s fun n t => n = t.drx.rem2 ∧ Sound w m t ∧ Held s t := by
  obtain ⟨_, t, e, hs, hp⟩ := h.gap
  obtain ⟨h1, h2⟩ := dmaRemaining_run e
  exact ⟨⟨_, t, h1, rfl, hs, hp.held⟩, _, t, h2, rfl, hs, hp.held⟩

/-- Arming the landing slot leaves what the channel captured before written. -/
theorem Sound.dmaArmRx (h : Sound w { swapping := true } s) (hl : s.port.life = .running)
    (hm : s.params.mode = .dma) (hrun : s.drx.run = false) :
    (dmaArmRx s.port.landing).Runs s fun _ t => Sound w {} t ∧ t.port = s.port ∧ t.params = s.params
      ∧ (w → WrittenAt t.mem (slotAddr s.params s.drx.slot)
          (s.params.slotCap - s.drx.rem1 - s.drx.rem2)) := by
  obtain ⟨_, t, e, hs, hp⟩ := h.gap
  have hh := hp.held
  have hdrx := hh.drx hrun
  have harm : Sound w {} _ := hs.arm (by rw [hh.params]; exact hm)
    (.inr (by rw [hh.port]; exact hl)) id
  rw [← hh.port]
  refine ⟨(), _, dmaArmRx_run e (by rw [hdrx]; exact hrun), harm, rfl, hh.params, fun hw => ?_⟩
  have hcap := hs.captured_written hw (.inr (by rw [hh.port]; exact hl)) (by rw [hh.params]; exact hm)
  rwa [hdrx, hh.params] at hcap

/-- The receive event of a running port in dma mode (R174): it swaps the slots, arms the new landing slot
and hands over what the old one captured. -/
theorem Sound.rxDmaEvent (h : Sound w {} s) (hl : s.port.life = .running) (hm : s.params.mode = .dma) :
    rxDmaEvent.Runs s fun _ t => Sound w {} t := by
  by_cases hbusy : s.port.rxBusy = true
  · exact ⟨(), s, rxDmaEvent_busy hbusy, h⟩
  have htask : s.port.task = none := by
    by_contra ht
    exact hbusy ((h.busy_iff hm hl).mpr ht)
  refine runs_bind_ok (theState_run s) ?_
  rw [if_neg hbusy]
  refine runs_bind h.dmaStopRx fun _ t ht => ?_
  obtain ⟨h1, u, hu, rfl⟩ := ht
  refine runs_bind_ok (modifyPort_run _ _) ?_
  have h2 := h1.swap rfl (by rw [State.setDrx_port, hu.port]; exact htask) (otherSlot s.port.landing)
  have hslot : u.drx.slot = s.port.landing := hu.slot.trans (h.slot_landing rfl hm hl)
  refine runs_bind h2.dmaRemaining.1 fun r1 t1 ht1 => ?_
  obtain ⟨hr1, h3, hh1⟩ := ht1
  refine runs_bind h3.dmaRemaining.2 fun r2 t2 ht2 => ?_
  obtain ⟨hr2, h4, hh2⟩ := ht2
  have hh := hh1.trans hh2
  have hdrx := hh.drx rfl
  have hparams : t2.params = s.params := hh.params.trans hu.params
  have hport : t2.port = { s.port with landing := otherSlot s.port.landing } := by
    rw [hh.port, State.setPort_port, State.setDrx_port, hu.port]
  have harm := h4.dmaArmRx (by rw [hport]; exact hl) (by rw [hparams]; exact hm) (by rw [hdrx]; rfl)
  simp only [hport] at harm
  refine runs_bind harm fun _ t3 ht3 => ?_
  obtain ⟨h5, hport3, hparams3, hwritten⟩ := ht3
  have hr1' : r1 = t2.drx.rem1 := by rw [hr1, hdrx, hh1.drx rfl]
  rw [hparams, hdrx] at hwritten
  split
  · next hpos =>
    refine ⟨(), _, rfl, h5.hand (by rw [hport3]; exact hl) (by rw [hparams3, hparams]; exact hm)
      (by rw [hport3]; exact otherSlot_ne _) hpos (by rw [hparams3, hparams]; omega) fun hw => ?_⟩
    have := hwritten hw
    rw [hr1', hr2, hparams3, hparams, hdrx, ← hslot]
    exact this
  · exact ⟨(), t3, rfl, h5⟩

/-- The Task's re-check (R181). -/
theorem Sound.recheck (h : Sound w {} s) (ho : s.recheckOwed = true) :
    recheck.Runs s fun _ t => Sound w {} t := by
  obtain ⟨hre, hl⟩ : s.port.recheck = true ∧ s.port.life = .running := by
    simpa [State.recheckOwed] using ho
  have hm : s.params.mode = .dma := by
    cases hm : s.params.mode with
    | dma => rfl
    | poll => simp [(h.idle_block (.inl hm)).rx.2.2] at hre
  refine runs_bind_ok (modifyPort_run _ _) ?_
  have h1 : Sound w {} (s.setPort fun q => { q with recheck := false }) :=
    { h with
      idle_block := fun hu => { h.idle_block hu with
        rx := (h.idle_block hu).rx.imp_right (.imp_right fun _ => rfl) } }
  exact h1.rxDmaEvent hl hm

/-- A task the Task may take is the port's, of a running port in dma mode. -/
theorem Sound.taskIn (h : Sound w m s) {ph : Phase} {k : Task} (hk : s.taskIn ph = some k) :
    s.port.task = some k ∧ s.port.life = .running ∧ s.params.mode = .dma := by
  unfold State.taskIn at hk
  split at hk
  · next k' ht =>
    split at hk
    · next hc =>
      cases hk
      refine ⟨ht, hc.2, ?_⟩
      cases hm : s.params.mode with
      | dma => rfl
      | poll => rw [(h.idle_block (.inl hm)).rx.2.1] at ht; cases ht
    · cases hk
  · cases hk

/-- RX_TASK_COPY (R178). -/
theorem Sound.taskCopy (h : Sound w m s) {ph : Phase} {k : Task} (hk : s.taskIn ph = some k) :
    (taskCopy k).Runs s fun _ t => Sound w m t := by
  obtain ⟨ht, hl, hm⟩ := h.taskIn hk
  obtain ⟨hne, hpos, hcap⟩ := (h.task hm).ready k ht
  have used : ¬ (s.params.mode = .poll ∨ s.port.life ≠ .running) := by simp [hm, hl]
  refine runs_bind_ok (theState_run s) ?_
  rw [if_neg hne]
  refine runs_bind_ok (memRead_run (inRegion_slot (o := 0) hm (by omega))) ?_
  refine runs_bind_ok (deliver_run _ s) ⟨(), _, modifyPort_run _ _, ?_⟩
  have h1 := (soundKept_benign w m).deliver
    ((s.memBytes (slotAddr s.params k.slot) k.count).map fun b => (b, Flag.normal)) s h
  exact { h1 with
    busy_iff := fun hm hl => (h.busy_iff hm hl).trans (by simp [ht])
    task := fun _ => ⟨fun k' hk' => by cases hk'; exact ⟨hne, hpos, hcap⟩⟩
    idle_block := fun hu => absurd hu used
    task_written := fun hw k' hk' => by cases hk'; exact h.task_written hw k ht }

/-- RX_TASK_FINISH (R179). -/
theorem Sound.taskFinish (h : Sound w m s) {ph : Phase} {k : Task} (hk : s.taskIn ph = some k) :
    (taskFinish k).Runs s fun _ t => Sound w m t := by
  obtain ⟨ht, hl, hm⟩ := h.taskIn hk
  have used : ¬ (s.params.mode = .poll ∨ s.port.life ≠ .running) := by simp [hm, hl]
  refine runs_bind_ok (countRx_run _ s) ⟨(), _, modifyPort_run _ _, ?_⟩
  have h1 := (soundKept_benign w m).countRx k.count s h
  exact { h1 with
    busy_iff := fun _ _ => ⟨(by cases ·), fun k => absurd rfl k⟩
    task := fun _ => ⟨fun k' hk' => by cases hk'⟩
    idle_block := fun hu => absurd hu used
    task_written := fun _ k' hk' => by cases hk' }

end sound

/-! ### Dispatch and line control in a sound state (41_baud_line, 44_dispatch) -/

section sound

variable {w : Prop} {m : Midway} {s : State}

theorem soundKept_routePoll (mis : Word) : (routePoll mis).Keeps (SoundKept w m) :=
  (soundKept_benign w m).withState fun _ =>
    keeps_when (soundKept_benign w m).trans (soundKept_benign w m).rxPollEvent fun _ =>
      keeps_ite _ soundKept_txKick ((soundKept_benign w m).pure _)

/-- The channel's answer, acknowledged: a signalled completion is one of an idle channel (R73). -/
theorem Sound.dmaQueryAckTx (h : Sound w m s) : dmaQueryAckTx.Runs s fun d t => Sound w m t
    ∧ (d = true → t.dtx.run = false ∧ t.dtx.done = false) := by
  obtain ⟨_, t, e, hs, -⟩ := h.gap
  exact ⟨_, _, dmaQueryAckTx_run e, hs.ackTx, fun hd => ⟨(hs.tx.done_busy hd).2, rfl⟩⟩

theorem Sound.dmaQueryAckRx (h : Sound w m s) :
    dmaQueryAckRx.Runs s fun _ t => Sound w m t ∧ t.port = s.port ∧ t.params = s.params := by
  obtain ⟨_, t, e, hs, hp⟩ := h.gap
  exact ⟨_, _, dmaQueryAckRx_run e, hs.ackRx, hp.held.port, hp.held.params⟩

/-- The transmit half of the routing: a completion that was signalled is served. -/
theorem Sound.serveTx (h : Sound w m s) :
    (Machine.dmaQueryAckTx >>= fun d => if d = true then Machine.txDmaDone else pure ()).Ends s
      (Sound w m) := by
  refine ends_bind_runs h.dmaQueryAckTx fun d t ht => ?_
  obtain ⟨hs, hd⟩ := ht
  split
  · next hdone => exact hs.txDmaDone (hd hdone)
  · exact .of_ok rfl hs

theorem Sound.routeDma (h : Sound w {} s) (hl : s.port.life = .running) (hm : s.params.mode = .dma)
    (mis : Word) : (routeDma mis).Ends s (Sound w {}) := by
  refine ends_bind_ok (theState_run s) (ends_bind_runs h.dmaQueryAckRx fun d t ht => ?_)
  obtain ⟨hs, hport, hparams⟩ := ht
  exact ends_when (fun _ => ends_bind_runs
    (hs.rxDmaEvent (by rw [hport]; exact hl) (by rw [hparams]; exact hm)) fun _ u hu => hu.serveTx)
    hs.serveTx

/-- IRQ_DISPATCH of a running port (R196). -/
theorem Sound.irqDispatch (h : Sound w {} s) (hl : s.port.life = .running) :
    irqDispatch.Ends s (Sound w {}) := by
  refine ends_bind_ok (theState_run s) (ends_bind_runs (h.rd .mis) fun mis t ht => ?_)
  obtain ⟨-, h1, hh1⟩ := ht
  refine ends_bind_runs (h1.regWrite (r := .icr) (by simp) _) fun _ t' ht' => ?_
  obtain ⟨h2, hh2⟩ := ht'
  have hh := hh1.trans hh2
  cases hm : s.params.mode with
  | poll => exact soundKept_iff.mp (soundKept_routePoll mis) t' h2
  | dma => exact h2.routeDma (by rw [hh.port]; exact hl) (by rw [hh.params]; exact hm) mis

/-- `FEN` is a bit of its own in the word, not `BRK`. -/
theorem fen_apart_brk {r : RegMap} (h : regMapOk r = true) : r.fen < 32 ∧ r.fen ≠ r.brk := by
  obtain ⟨hw, hd⟩ := regMapOk_fields h .lcrh
  simp only [fieldsOf, List.pairwise_cons, List.mem_cons, List.not_mem_nil, or_false, forall_eq_or_imp,
    forall_eq, IsEmpty.forall_iff, implies_true, List.Pairwise.nil, and_true] at hw hd
  omega

/-- SET_BREAK (45_port_control R205): `BRK` and `FEN` are different bits. -/
theorem Sound.setBreak (h : Sound w m s) (on : Bool) : (setBreak on).Ends s (Sound w m) := by
  refine ends_bind (soundKept_iff.mp (soundKept_benign w m).requireRunning s h) (fun _ => id)
    fun _ s h => ends_bind_ok (theState_run s) (.of_runs (runs_bind h.rdLcrh fun l t ht => ?_))
  obtain ⟨rfl, hs, hh⟩ := ht
  refine runs_mono (hs.writeLcrh (.inl ?_)) fun _ u hu => hu.1
  obtain ⟨hlt, hne⟩ := fen_apart_brk (regMapOk_of_paramsOk h.params)
  rw [hh.params, getLsbD_withBit, if_neg hne, hh.lcrh]
  simp [hlt]

/-- The commit protocol (41_baud_line R137) with a line-control word that sets `FEN`, where that is
allowed. -/
theorem Sound.commitLine (h : Sound w m s) {brdi divfrac : Nat} {l : Word}
    (hl : l.getLsbD s.params.regMap.fen = true)
    (hc : m.committing = true ∨ s.port.committed ≠ none) :
    (commitLine brdi divfrac l).Runs s fun _ t => Sound w m t
      ∧ Held { s with uart := { s.uart with lcrh := l &&& definedMask s.params.regMap .lcrh } } t := by
  refine runs_bind_ok (theState_run s) (runs_bind (h.rd .ctl) fun ctl0 t1 ht1 => ?_)
  obtain ⟨-, h1, hh1⟩ := ht1
  refine runs_bind (h1.regWrite (r := .ctl) (by simp) _) fun _ t2 ht2 => ?_
  obtain ⟨h2, hh2⟩ := ht2
  refine runs_bind (h2.regWrite (r := .ibrd) (by simp) _) fun _ t3 ht3 => ?_
  obtain ⟨h3, hh3⟩ := ht3
  refine runs_bind (h3.regWrite (r := .fbrd) (by simp) _) fun _ t4 ht4 => ?_
  obtain ⟨h4, hh4⟩ := ht4
  have hh := ((hh1.trans hh2).trans hh3).trans hh4
  have hset := h4.writeLcrh (v := l) (.inr (by rw [hh.params, hh.port]; exact ⟨hl, hc⟩))
  refine runs_bind hset fun _ t5 ht5 => ?_
  obtain ⟨h5, hh5⟩ := ht5
  refine runs_pure ⟨h5, Held.trans ?_ hh5⟩
  exact { hh with lcrh := by rw [hh.params] }

/-- A commitment whose line-control word sets `FEN` closes LINE_APPLY. -/
theorem Sound.commit (h : Sound w { committing := true } s) {cfg : Option LineConfig} {c : Committed}
    {rm im : Status} (hc : c.lcrh.getLsbD s.params.regMap.fen = true) :
    Sound w {} (s.setPort fun q => { q with
      cfg := cfg, committed := some c, readMask := rm, ignoreMask := im }) :=
  { h with
    fifos := { h.fifos with fits := fun hfit => h.fifos.fits (.inl (hfit.resolve_right (by simp))) }
    committed_fen := fun c' hc' => by cases hc'; exact hc
    fen_committed := fun _ _ => Option.some_ne_none _
    idle_block := fun hu => { h.idle_block hu with } }

/-- LINE_APPLY (R136): a zero baud faults, any other commits. -/
theorem Sound.lineApply (h : Sound w {} s) (line : LineFormat) (policy : Policy) (baud : Nat) :
    (lineApply line policy baud).Ends s (Sound w {}) := by
  refine ends_bind_ok (theState_run s) ?_
  by_cases hb : baud = 0
  · rw [hb]
    exact .of_error (op_bind_error (baudCalc_zero _ s)) (h.fault_set _)
  refine ends_bind_ok (baudCalc_run _ s hb) (.of_runs ?_)
  have hfen := lcrhWord_fen (regMapOk_of_paramsOk h.params) line
  refine runs_bind (h.committing.commitLine hfen (.inl rfl)) fun ctl0 t ht => ?_
  obtain ⟨h1, hh1⟩ := ht
  refine runs_bind (h1.regWrite (r := .ctl) (by simp) _) fun _ u hu => ?_
  obtain ⟨h2, hh2⟩ := hu
  refine runs_bind_ok (modifyPort_run _ u) (runs_pure (h2.commit ?_))
  rw [(hh1.trans hh2).params]
  exact hfen

end sound

/-! ### SHUTDOWN and STARTUP in a sound state (45_port_control R203, R204) -/

/-- An empty ring has nothing pending. -/
theorem pendingOf_empty {p : Params} {q : Port} (hp : 2 ≤ p.ringN) (hh : q.head = 0)
    (ht : q.tail = 0) : pendingOf p q = 0 := by
  rw [pendingOf_eq (by omega) (by omega), hh, ht]
  rfl

/-- The depth in force follows `FEN` (10_state R35). -/
theorem depthOf_of_fen {p : Params} {u : Uart} (h : u.fen p.regMap = true) :
    depthOf p u = p.fifoDepth := if_pos h

theorem depthOf_of_no_fen {p : Params} {u : Uart} (h : u.fen p.regMap = false) : depthOf p u = 1 :=
  if_neg (by simp [h])

section sound

variable {w : Prop} {m : Midway} {s : State}

/-- SHUTDOWN stops both channels: by hand in dma mode, and in poll mode none is in use. -/
theorem Sound.closeMode (h : Sound w m s) : (closeMode s.params).Runs s fun _ t => Sound w m t
    ∧ IdleChannels t.dtx t.drx ∧ t.params = s.params ∧ t.port = s.port ∧ t.writeOwed = s.writeOwed := by
  unfold Machine.closeMode
  cases hm : s.params.mode with
  | poll => exact runs_pure ⟨h, h.idle_channels (.inl hm), rfl, rfl, rfl⟩
  | dma =>
    refine runs_bind h.dmaStopTx fun _ t ht => ?_
    obtain ⟨h1, u, hu, rfl⟩ := ht
    refine runs_bind h1.dmaStopRx fun _ t' ht' => ?_
    obtain ⟨h2, u', hu', rfl⟩ := ht'
    refine runs_mono (h2.regWrite (r := .dmactl) (by simp) 0) fun _ t'' ht'' => ?_
    obtain ⟨h3, hh3⟩ := ht''
    have hdtx : u'.dtx = { u.dtx with run := false, done := false } := hu'.dtx rfl
    have hidle : IdleChannels u'.dtx { u'.drx with run := false, done := false } :=
      ⟨by rw [hdtx]; exact ⟨rfl, rfl⟩, rfl, rfl⟩
    exact ⟨h3, hidle.held hh3, (hh3.params.trans hu'.params).trans hu.params,
      (hh3.port.trans hu'.port).trans hu.port, (hh3.owed.trans hu'.owed).trans hu.owed⟩

/-- With both channels idle the transfers and the task are given up. -/
theorem Sound.idled (h : Sound w {} s) (hi : IdleChannels s.dtx s.drx) :
    Sound w { swapping := true } (s.setPort Port.idled) :=
  { h.swapping with
    slot_landing := (by cases ·)
    tx := .of_idle (Nat.zero_le _) (by cases ·) (fun _ => rfl) hi.tx
    rx := fun hm => { h.rx hm with armed := fun k => absurd k (by simp [hi.rx.1]) }
    busy_iff := fun _ _ => ⟨(by cases ·), fun k => absurd rfl k⟩
    task := fun _ => ⟨fun _ => (by cases ·)⟩
    idle_block := fun _ => ⟨⟨rfl, rfl⟩, rfl, rfl, rfl⟩
    idle_channels := fun _ => hi
    task_written := fun _ _ => (by cases ·) }

/-- The FIFOs after a fall of `FEN`: any sub-list of what they held, and all of it where `FEN` was clear
(20_memory R65). -/
theorem Sound.fifos_fallen (h : Sound w m s) (hc : m.committing = false) {u : Uart} {fit : Prop}
    (hoff : u.fen s.params.regMap = false) (hx : u.txf.Sublist s.uart.txf)
    (hy : u.rxf.Sublist s.uart.rxf) (hfit : fit → s.port.committed = none) :
    FifosOk s.params u fit := by
  refine ⟨hx.length_le.trans h.fifos.txf_le, hy.length_le.trans h.fifos.rxf_le, fun k => ?_⟩
  have hclear : s.uart.fen s.params.regMap = false := by
    by_contra hset
    exact h.fen_committed hc (by simpa [Uart.fen] using hset) (hfit k)
  obtain ⟨htx, hrx⟩ := h.fifos.fits (.inr (hfit k))
  rw [depthOf_of_no_fen hclear] at htx hrx
  rw [depthOf_of_no_fen hoff]
  exact ⟨hx.length_le.trans htx, hy.length_le.trans hrx⟩

/-- `FEN` falls, any sub-list of the FIFOs stays (20_memory R65), and the port stops with its ring
empty. -/
theorem Sound.stopPort (h : Sound w m s) (hc : m.committing = false) (hi : IdleChannels s.dtx s.drx)
    (hb : IdleBlock s.port) (ho : s.writeOwed = none) {v : Word}
    (hv : v.getLsbD s.params.regMap.fen = false) {xs : List Byte} {ys : List (Byte × Status)} {n : Nat}
    (hx : xs.Sublist s.uart.txf) (hy : ys.Sublist s.uart.rxf) :
    Sound w {} (State.setPort { s with
        uart := { s.uart.withLcrh s.params.regMap v with txf := xs, rxf := ys }, draws := n }
      fun q => { q with head := 0, tail := 0, life := .stopped }) := by
  obtain ⟨hn, -, -, -⟩ := paramsOk_bounds h.params
  have hpos : 0 < s.params.ringN := by omega
  have hoff : (s.uart.withLcrh s.params.regMap v).fen s.params.regMap = false :=
    (Uart.withLcrh_fen _ v _).trans hv
  exact { h with
    ring := { h.ring with head_lt := hpos, tail_lt := hpos }
    stopped_empty := fun _ => rfl
    regs := { h.regs with lcrh := and_definedMask_self _ _ }
    fifos := h.fifos_fallen hc hoff hx hy fun k => k.resolve_left fun hne => hne rfl
    fen_committed := fun _ hset => absurd hset (by simpa [Uart.fen] using hoff)
    slot_landing := fun _ _ => (by cases ·)
    busy_iff := fun _ => (by cases ·)
    idle_block := fun _ => { hb with }
    idle_channels := fun _ => hi
    owed_running := fun k => absurd ho k
    ring_written := fun _ i hlt =>
      absurd (Nat.lt_of_lt_of_eq hlt (pendingOf_empty hn rfl rfl)) (Nat.not_lt_zero i)
    captured_written := fun _ ha => absurd ha (by simp) }

/-- The last two primitives of SHUTDOWN: no environment step falls between the fall of `FEN` and the
stop of the port. -/
theorem Sound.fallAndStop (h : Sound w { swapping := true } s) (hi : IdleChannels s.dtx s.drx)
    (hb : IdleBlock s.port) (ho : s.writeOwed = none) {v : Word}
    (hv : v.getLsbD s.params.regMap.fen = false) :
    (Machine.regWrite .lcrh v >>= fun _ =>
      modifyPort fun q => { q with head := 0, tail := 0, life := .stopped }).Runs s
        fun _ t => Sound w {} t := by
  obtain ⟨_, t, e, hs, hp⟩ := h.gap
  have hh := hp.held
  obtain ⟨xs, ys, n, hstore, hx, hy, -⟩ := storeLcrh_run v t
  refine runs_bind_ok (by rw [regWrite_eq, e]; exact hstore) ⟨(), _, modifyPort_run _ _, ?_⟩
  exact hs.stopPort rfl (hi.held hh) (by rw [hh.port]; exact hb) (by rw [hh.owed]; exact ho)
    (by rw [hh.params]; exact hv) hx hy

/-- SHUTDOWN (R204), at a host turn that owes no second step of WRITE. -/
theorem Sound.shutdown (h : Sound w {} s) (ho : s.writeOwed = none) :
    shutdown.Ends s (Sound w {}) := by
  by_cases hl : s.port.life = .running
  swap
  · exact .of_error (shutdown_fault hl) (h.fault_set _)
  rw [shutdown_eq]
  refine ends_bind_ok (requireRunning_of_running hl) (ends_bind_ok (theState_run s) (.of_runs ?_))
  refine runs_bind (h.regWrite (r := .im) (by simp) 0) fun _ t1 ht1 => ?_
  obtain ⟨h1, hh1⟩ := ht1
  refine runs_bind (h1.regWrite (r := .icr) (by simp) _) fun _ t2 ht2 => ?_
  obtain ⟨h2, hh2⟩ := ht2
  have hh := hh1.trans hh2
  rw [← hh.params]
  refine runs_bind h2.closeMode fun _ t3 ht3 => ?_
  obtain ⟨h3, hi3, hparams3, hport3, howed3⟩ := ht3
  refine runs_bind_ok (modifyPort_run _ t3) ?_
  have h4 := h3.idled hi3
  refine runs_bind (h4.regWrite (r := .ctl) (by simp) _) fun _ t5 ht5 => ?_
  obtain ⟨h5, hh5⟩ := ht5
  refine runs_bind (h5.rd .lcrh) fun l t6 ht6 => ?_
  obtain ⟨-, h6, hh6⟩ := ht6
  have hh' := hh5.trans hh6
  have hparams : t6.params = t2.params := hh'.params.trans hparams3
  refine h6.fallAndStop (IdleChannels.held (s := t3.setPort Port.idled) hi3 hh') ?_ ?_ ?_
  · rw [hh'.port]
    exact ⟨⟨rfl, rfl⟩, rfl, rfl, rfl⟩
  · rw [hh'.owed, State.setPort_writeOwed, howed3, hh.owed]
    exact ho
  · rw [hparams, getLsbD_withBit]
    simp

/-- STARTUP clears a port that does not run, and has nothing of DMA in use. -/
theorem Sound.cleared (h : Sound w {} s) (hl : s.port.life ≠ .running) :
    Sound w {} (s.setPort Port.cleared) := by
  obtain ⟨hn, -, -, -⟩ := paramsOk_bounds h.params
  have hpos : 0 < s.params.ringN := by omega
  have hi := h.idle_channels (.inr ⟨rfl, hl⟩)
  exact { h with
    ring := { h.ring with head_lt := hpos, tail_lt := hpos }
    stopped_empty := fun _ => rfl
    tx := .of_idle (Nat.zero_le _) (by cases ·) (fun _ => rfl) hi.tx
    rx := fun hm => { h.rx hm with armed := fun k => absurd k (by simp [hi.rx.1]) }
    slot_landing := fun _ _ k => absurd k hl
    busy_iff := fun _ k => absurd k hl
    task := fun _ => ⟨fun _ => (by cases ·)⟩
    idle_block := fun _ => ⟨⟨rfl, rfl⟩, rfl, rfl, rfl⟩
    ring_written := fun _ i hlt =>
      absurd (Nat.lt_of_lt_of_eq hlt (pendingOf_empty hn rfl rfl)) (Nat.not_lt_zero i)
    task_written := fun _ _ => (by cases ·) }

/-- STARTUP commits the line again, which sets `FEN`; without a commitment `FEN` stays. -/
theorem Sound.recommit (h : Sound w {} s) : (recommit s.port.committed).Runs s fun _ t => Sound w {} t
    ∧ t.params = s.params ∧ t.port = s.port
    ∧ (s.port.committed ≠ none → t.uart.fen t.params.regMap = true) := by
  cases hc : s.port.committed with
  | none => exact runs_pure ⟨h, rfl, rfl, fun k => absurd rfl k⟩
  | some c =>
    have hfen := h.committed_fen c hc
    refine runs_bind (h.commitLine hfen (.inr (by simp [hc]))) fun _ t ht => ?_
    obtain ⟨hs, hh⟩ := ht
    refine runs_pure ⟨hs, hh.params, hh.port, fun _ => ?_⟩
    rw [Uart.fen, hh.lcrh, hh.params]
    exact (getLsbD_and_definedMask (by simp [fieldsOf]) c.lcrh).trans hfen

/-- The last part of STARTUP before RUNNING (R203). -/
theorem Sound.openMode (h : Sound w {} s) (hl : s.port.life ≠ .running) (hx : s.port.landing = .a) :
    (openMode s.params).Runs s fun _ t => Sound w { arming := true } t ∧ t.params = s.params
      ∧ t.port = s.port ∧ t.uart.lcrh = s.uart.lcrh
      ∧ (s.params.mode = .dma → t.drx.slot = t.port.landing) := by
  unfold Machine.openMode
  cases hm : s.params.mode with
  | poll =>
    have h0 : Sound w { arming := true } s :=
      { h with
        idle_channels := fun _ => h.idle_channels (.inl hm)
        captured_written := fun _ _ k => absurd k (by simp [hm]) }
    refine runs_bind (h0.regWrite (r := .dmactl) (by simp) 0) fun _ t ht => ?_
    obtain ⟨h1, hh1⟩ := ht
    refine runs_mono (h1.regWrite (r := .im) (by simp) _) fun _ u hu => ?_
    obtain ⟨h2, hh2⟩ := hu
    have hh := hh1.trans hh2
    exact ⟨h2, hh.params, hh.port, hh.lcrh, (by cases ·)⟩
  | dma =>
    obtain ⟨_, t, e, hs, hp⟩ := h.gap
    have hh := hp.held
    have hrun : t.drx.run = false :=
      (hs.idle_channels (.inr ⟨rfl, by rw [hh.port]; exact hl⟩)).rx.1
    have harm : Sound w { arming := true } _ := hs.arm (by rw [hh.params]; exact hm) (.inl rfl) id
    rw [hh.port, hx] at harm
    refine runs_bind_ok (dmaArmRx_run e hrun) ?_
    refine runs_bind (harm.regWrite (r := .dmactl) (by simp) _) fun _ t1 ht1 => ?_
    obtain ⟨h1, hh1⟩ := ht1
    refine runs_mono (h1.regWrite (r := .im) (by simp) _) fun _ t2 ht2 => ?_
    obtain ⟨h2, hh2⟩ := ht2
    have hh' := hh1.trans hh2
    refine ⟨h2, hh'.params.trans hh.params, hh'.port.trans hh.port, hh'.lcrh.trans hh.lcrh, fun _ => ?_⟩
    rw [hh'.slot, hh'.port, State.setDrx_port, hh.port, hx]
    rfl

/-- The port runs: both FIFOs fit, since `FEN` is set where there is a commitment. -/
theorem Sound.start (h : Sound w { arming := true } s) (hl : s.port.life ≠ .running)
    (hfen : s.port.committed ≠ none → s.uart.fen s.params.regMap = true)
    (hslot : s.params.mode = .dma → s.drx.slot = s.port.landing) :
    Sound w {} (s.setPort fun q => { q with life := .running }) := by
  have hb := h.idle_block (.inr hl)
  have hfit : s.uart.txf.length ≤ depthOf s.params s.uart
      ∧ s.uart.rxf.length ≤ depthOf s.params s.uart := by
    by_cases hc : s.port.committed = none
    · exact h.fifos.fits (.inr hc)
    · rw [depthOf_of_fen (hfen hc)]
      exact ⟨h.fifos.txf_le, h.fifos.rxf_le⟩
  exact { h with
    stopped_empty := fun k => absurd rfl k
    fifos := { h.fifos with fits := fun _ => hfit }
    slot_landing := fun _ hm _ => hslot hm
    busy_iff := fun _ _ => ⟨fun k => absurd k (by simp [hb.rx.1]), fun k => absurd hb.rx.2.1 k⟩
    idle_block := fun _ => { hb with }
    idle_channels := fun hu => h.idle_channels (.inl (hu.resolve_right fun k => k.2 rfl))
    owed_running := fun _ => rfl
    captured_written := fun hw _ => h.captured_written hw (.inl rfl) }

/-- STARTUP (R203). -/
theorem Sound.startup (h : Sound w {} s) : startup.Ends s (Sound w {}) := by
  by_cases hl : s.port.life = .running
  · exact .of_error (startup_fault hl) (h.fault_set _)
  rw [startup_eq]
  refine ends_bind_ok (theState_run s) ?_
  rw [if_neg hl]
  refine ends_bind_ok (modifyPort_run _ s) (.of_runs ?_)
  refine runs_bind ((h.cleared hl).regWrite (r := .im) (by simp) 0) fun _ t1 ht1 => ?_
  obtain ⟨h1, hh1⟩ := ht1
  refine runs_bind (h1.regWrite (r := .icr) (by simp) _) fun _ t2 ht2 => ?_
  obtain ⟨h2, hh2⟩ := ht2
  have hp2 : t2.params = s.params := (hh1.trans hh2).params
  rw [← hp2]
  refine runs_bind h2.writeIfls fun _ t3 ht3 => ?_
  obtain ⟨h3, hh3⟩ := ht3
  have hh := (hh1.trans hh2).trans hh3
  have hcom : s.port.committed = t3.port.committed := by rw [hh.port]; rfl
  rw [hcom]
  refine runs_bind h3.recommit fun _ t4 ht4 => ?_
  obtain ⟨h4, hparams4, hport4, hfen4⟩ := ht4
  refine runs_bind (h4.regWrite (r := .ctl) (by simp) _) fun _ t5 ht5 => ?_
  obtain ⟨h5, hh5⟩ := ht5
  have hport5 : t5.port = s.port.cleared := (hh5.port.trans hport4).trans hh.port
  have hparams5 : t5.params = t2.params := (hh5.params.trans hparams4).trans hh3.params
  have hl5 : t5.port.life ≠ .running := by rw [hport5]; exact hl
  rw [← hparams5]
  refine runs_bind (h5.openMode hl5 (by rw [hport5]; rfl)) fun _ t6 ht6 => ?_
  obtain ⟨h6, hparams6, hport6, hlcrh6, hslot6⟩ := ht6
  refine ⟨(), _, modifyPort_run _ t6, h6.start (by rw [hport6]; exact hl5) (fun hc => ?_) fun hm => ?_⟩
  · rw [Uart.fen, hlcrh6, hparams6, hh5.lcrh, hh5.params]
    rw [hport6, hh5.port, hport4] at hc
    exact hfen4 hc
  · exact hslot6 (by rw [← hparams6]; exact hm)

end sound

/-! ### Every command and every step keep a sound state sound -/

section sound

variable {w : Prop} {s t : State}

theorem sound_perform {body : Op (List Word)} (hb : body.Ends s (Sound w {}))
    (h : perform body s = .next t) : Sound w {} t :=
  perform_ends hb (fun _ r hu => hu.reply r) h

theorem sound_performUnit {body : Op Unit} (hb : body.Ends s (Sound w {}))
    (h : performUnit body s = .next t) : Sound w {} t :=
  performUnit_ends hb (fun _ r hu => hu.reply r) h

/-- A body that keeps sound states, and a command that performs it. -/
theorem kept_perform {body : Op (List Word)} (hs : Sound w {} s) (hb : body.Keeps (SoundKept w {}))
    (h : perform body s = .next t) : Sound w {} t := sound_perform (soundKept_iff.mp hb s hs) h

theorem kept_performUnit {body : Op Unit} (hs : Sound w {} s) (hb : body.Keeps (SoundKept w {}))
    (h : performUnit body s = .next t) : Sound w {} t := sound_performUnit (soundKept_iff.mp hb s hs) h

/-- A command that issues nothing leaves the state as it is. -/
theorem sound_self (hs : Sound w {} s) (h : Host.Outcome.next (φ := Fault) (ρ := Refusal) s = .next t) :
    Sound w {} t := by
  cases h
  exact hs

/-- The first step of WRITE (40_ringbuffer R116): it owes the second only when the port runs. -/
theorem Sound.execWrite (h : Sound w {} s) {data : List Byte} (hrun : execWrite data s = .next t) :
    Sound w {} t := by
  refine performSilent_ends ?_ hrun
  by_cases hl : s.port.life = .running
  · refine ends_bind_ok (requireRunning_of_running hl) (ends_bind
      ((soundKept_iff.mp ((soundKept_benign w {}).writeLoop data) s h).and
        ((onward_benign.writeLoop data).ends s)) (fun _ hu => hu.1) fun acc u hu => ?_)
    obtain ⟨hs, hon⟩ := hu
    exact .of_ok rfl { hs with owed_running := fun _ => hon.life.trans hl }
  · exact .of_error (op_bind_error (requireRunning_of_not_running hl)) (h.fault_set _)

/-- Every command keeps a sound state sound, issued by an agent of 00_scope R6 that may issue it; the
host issues none while it owes the second step of a WRITE. -/
theorem Sound.exec {i : Instr} (h : Sound w {} s) (hmay : mayIssue s.issuer (opcodeFor i) = true)
    (hagent : s.issuer ≠ .internal) (ho : s.issuer = .host → s.writeOwed = none)
    (hrun : exec i s = .next t) : Sound w {} t := by
  have hB := soundKept_benign w {}
  have read (f : State → List Word) : Op.Keeps (SoundKept w {}) (theState >>= fun u => pure (f u)) :=
    hB.withState fun _ => hB.pure _
  cases i with
  | baudCalc c b =>
    refine kept_perform h ?_ hrun
    exact hB.bind (hB.withState fun _ => keeps_ite _ (hB.raise _) (hB.pure _)) fun _ => hB.pure _
  | maskCalc policy => exact kept_perform h (hB.pure _) hrun
  | lineApply line policy baud => exact sound_perform (h.lineApply line policy _) hrun
  | write data => exact h.execWrite hrun
  | setBreak on => exact sound_performUnit (h.setBreak on) hrun
  | queryTxEmpty =>
    exact kept_perform h (hB.withState fun _ => hB.bind (hB.rd _) fun _ => hB.pure _) hrun
  | startup => exact sound_performUnit h.startup hrun
  | shutdown =>
    have hhost : s.issuer = .host := by
      cases hi : s.issuer with
      | host => rfl
      | internal => exact absurd hi hagent
      | irq | task => rw [hi] at hmay; cases hmay
    exact sound_performUnit (h.shutdown (ho hhost)) hrun
  | setTtyStopped on =>
    rw [Machine.exec, execSetTtyStopped] at hrun
    refine sound_performUnit (.of_ok (modifyPort_run _ s) ?_) hrun
    exact h.aside fun _ => ⟨_, _, _, _, _, _, _, _, _, _, _, _, rfl⟩
  | txKick => exact kept_performUnit h soundKept_txKick hrun
  | txStop => exact sound_performUnit h.txStop hrun
  | rbTryEnqueue b => exact kept_perform h (hB.bind (hB.ringEnqueue b) fun _ => hB.pure _) hrun
  | rbDequeueUpTo n => exact kept_perform h (hB.bind (hB.ringDequeue _) fun _ => hB.pure _) hrun
  | rbPendingCount =>
    rw [Machine.exec, execRbPendingCount] at hrun
    exact kept_perform h (read _) hrun
  | rbIsEmpty =>
    rw [Machine.exec, execRbIsEmpty] at hrun
    exact kept_perform h (read _) hrun
  | irqDispatch =>
    simp only [Machine.exec, execIrqDispatch] at hrun
    split at hrun
    · next hl => exact sound_performUnit (h.irqDispatch hl) hrun
    · exact sound_self h hrun
  | txDmaDone =>
    cases hi : s.issuer with
    | internal => exact absurd hi hagent
    | host | irq | task => rw [hi] at hmay; cases hmay
  | rxPollEvent => exact kept_performUnit h hB.rxPollEvent hrun
  | rxDmaEvent =>
    have htask : s.issuer = .task := by
      cases hi : s.issuer with
      | task => rfl
      | internal => exact absurd hi hagent
      | host | irq => rw [hi] at hmay; cases hmay
    simp only [Machine.exec, execRxDmaEvent, if_pos htask] at hrun
    split at hrun
    · next howed => exact sound_performUnit (.of_runs (h.recheck howed)) hrun
    · exact sound_self h hrun
  | rxTaskCopy =>
    simp only [Machine.exec, execRxTaskCopy] at hrun
    split at hrun
    · next k hk => exact sound_performUnit (.of_runs (h.taskCopy hk)) hrun
    · exact sound_self h hrun
  | rxTaskFinish =>
    simp only [Machine.exec, execRxTaskFinish] at hrun
    split at hrun
    · next k hk => exact sound_performUnit (.of_runs (h.taskFinish hk)) hrun
    · exact sound_self h hrun
  | rxClassify st => exact kept_perform h (hB.pure _) hrun
  | rxFlag st =>
    rw [Machine.exec, execRxFlag] at hrun
    exact kept_perform h (read _) hrun

/-- The turn at the head of the schedule leaves it. -/
theorem Sound.actedBy (h : Sound w {} s) (who : Issuer) (ws : List Word) :
    Sound w {} (s.actedBy who ws) :=
  { h with agents := fun u hu => h.agents u (List.mem_of_mem_tail hu) }

theorem Sound.step (h : Sound w {} s) (hstep : step s = .next t) : Sound w {} t := by
  have hnext : Sound w {} { s with turns := s.turns.tail } :=
    { h with agents := fun u hu => h.agents u (List.mem_of_mem_tail hu) }
  cases step_stepped hstep with
  | env e _ _ run =>
    exact performSilent_ends (.of_runs (runs_mono (hnext.envStep e) fun _ _ hu => hu.1)) run
  | command who i ws _ _ host agent may _ _ run =>
    refine (h.actedBy who ws).exec may (fun hint => ?_) host run
    obtain ⟨u, hu, hno⟩ := agent hint
    exact absurd (h.agents u hu) (by simp [hno])
  | owed acc _ _ _ run =>
    have h0 : Sound w {} { s.actedBy .host s.stream with writeOwed := none } :=
      { h.actedBy .host s.stream with owed_running := fun k => absurd rfl k }
    have hB := soundKept_benign w {}
    exact kept_perform h0 (hB.bind soundKept_txKick fun _ => hB.pure _) run
  | refused who why ws _ _ => exact (h.actedBy who ws).reply _
  | nothing _ => exact hnext

end sound

/-- Settles O58: a state of `Inv` is sound, with nothing asked of what has been written. -/
theorem stepKeepsTheInvariant : Obligations.StepKeepsTheInvariant := by
  intro s t hinv hstep
  have hsound : Sound False {} s := Sound.of_inv hinv fun k => k.elim
  exact (hsound.step hstep).inv

/-- Settles O59: a state of `Inv` and `Written` is sound, with every byte to be read written. -/
theorem stepKeepsReadableBytesWritten : Obligations.StepKeepsReadableBytesWritten := by
  intro s t hinv hwritten hstep
  have hsound : Sound True {} s := Sound.of_inv hinv fun _ => hwritten
  exact (hsound.step hstep).written trivial

/-! ### The state after attach (10_state R51 to R53) -/

/-- Settles O1: the attach table of R51 and R53. -/
theorem attachStateOfTheBlock : Obligations.AttachStateOfTheBlock := by
  unfold Obligations.AttachStateOfTheBlock
  and_intros <;> rfl

/-- Settles O2: the registers of R52; `FR`, `MIS` and the line are computed from them. -/
theorem attachStateOfTheUart : Obligations.AttachStateOfTheUart := by
  have hflags : State.reset.flagsValue = 0x090 := by decide
  have hline : State.reset.misValue = 0 ∧ State.reset.irqLine = false := by decide
  exact ⟨rfl, rfl, hflags, rfl, rfl, rfl, rfl, rfl, rfl, rfl, rfl, rfl, hline.1, rfl, rfl, hline.2⟩

/-- Nothing of DMA is in use at attach (R53). -/
theorem idleInv_reset : IdleInv State.reset := by
  constructor <;> decide

/-- The invariant at attach: the default `CTL` and `IFLS` lie within their defined bits, and all the rest
is empty, idle or low. -/
theorem inv_reset : Inv State.reset where
  params := by decide
  agents _ h := by cases h
  ring := ⟨by decide, by decide, rfl, fun _ h => by cases h⟩
  uart := by constructor <;> decide
  mem := ⟨rfl, fun _ h => by cases h⟩
  tx := by constructor <;> decide
  rx h := by cases h
  poll_idle _ := idleInv_reset
  stopped_idle _ := idleInv_reset
  stopped_empty _ := rfl
  owed_running h := absurd rfl h
  committed_fen _ h := by cases h

/-- Nothing is there to be read at attach: the ring is empty, no channel runs, no task is out. -/
theorem written_reset : Written State.reset where
  ring i hi := absurd hi (Nat.not_lt_zero i)
  staged h := by cases h
  captured h := by cases h
  task _ h := by cases h

/-- Settles O3. -/
theorem attachMeetsTheInvariants : Obligations.AttachMeetsTheInvariants := ⟨inv_reset, written_reset⟩

end Sys2Proof.Machine

/-! PROOFS of the family 20_memory: what the environment's steps do to registers, status and channels,
and which bytes of DMA-visible memory a command may write (20_memory R63 to R80). -/

namespace Sys2Proof.Machine

open Sys2Proof.Safety

/-! ### What each environment step keeps of the UART's registers (20_memory R66, R76 to R80) -/

/-- The registers that only the block writes stay, and the parameters. -/
structure RegsKept (s t : State) : Prop where
  params : t.params = s.params
  regs : regsOf t.uart = regsOf s.uart

/-- The registers stay, no status bit is raised, and the TX FIFO loses no byte. -/
structure StatusKept (s t : State) : Prop extends RegsKept s t where
  ris : t.uart.ris = s.uart.ris
  txf : s.uart.txf.length ≤ t.uart.txf.length

theorem RegsKept.refl (s : State) : RegsKept s s := ⟨rfl, rfl⟩

theorem RegsKept.trans (s t u : State) (h : RegsKept s t) (k : RegsKept t u) : RegsKept s u :=
  ⟨k.params.trans h.params, k.regs.trans h.regs⟩

theorem RegsKept.txLevel {s t : State} (h : RegsKept s t) : t.txLevel = s.txLevel := by
  have hifls : t.uart.ifls = s.uart.ifls := congrArg Regs.ifls h.regs
  simp only [State.txLevel, State.txCode, h.params, hifls]

theorem StatusKept.refl (s : State) : StatusKept s s := ⟨RegsKept.refl s, rfl, Nat.le_refl _⟩

theorem StatusKept.trans (s t u : State) (h : StatusKept s t) (k : StatusKept t u) : StatusKept s u :=
  ⟨h.toRegsKept.trans _ _ _ k.toRegsKept, k.ris.trans h.ris, h.txf.trans k.txf⟩

section keeps

variable {R : State → State → Prop}

theorem memRead_keeps (refl : ∀ s, R s s) (trans : ∀ s t u, R s t → R t u → R s u)
    (fault : ∀ (s : State) why, R s (s.setPort fun q => { q with fault := some why })) (a n : Nat) :
    (memRead a n).Keeps R :=
  keeps_bind trans (keeps_theState refl) fun _ =>
    keeps_ite _ (keeps_pure refl _) (keeps_raiseFault _ fun s => fault s _)

/-- What a `DmaTx` step is made of (R77): staged bytes enter the TX FIFO, the channel advances. -/
theorem dmaTxStep_keeps (refl : ∀ s, R s s) (trans : ∀ s t u, R s t → R t u → R s u)
    (fault : ∀ (s : State) why, R s (s.setPort fun q => { q with fault := some why }))
    (push : ∀ (s : State) bs, R s (s.setUart fun u => { u with txf := u.txf ++ bs }))
    (moved : ∀ s : State, R s (s.setDtx TxChannel.afterByte)) : dmaTxStep.Keeps R :=
  keeps_bind trans (keeps_theState refl) fun _ =>
    keeps_ite _ (keeps_bind trans (memRead_keeps refl trans fault _ _) fun bs =>
      keeps_bind trans (keeps_modifyUart fun s => push s bs) fun _ => keeps_modifyDtx moved)
      (keeps_pure refl _)

end keeps

theorem statusKept_dmaTxStep : dmaTxStep.Keeps StatusKept :=
  dmaTxStep_keeps StatusKept.refl StatusKept.trans (fun s _ => { StatusKept.refl s with })
    (fun s bs => { StatusKept.refl s with txf := by simp })
    (fun s => { StatusKept.refl s with })

theorem statusKept_memWrite (a : Nat) (bs : List Byte) : (memWrite a bs).Keeps StatusKept :=
  keeps_bind StatusKept.trans (keeps_theState StatusKept.refl) fun _ =>
    keeps_ite _ (fun s => { StatusKept.refl s with })
      (keeps_raiseFault _ fun s => { StatusKept.refl s with })

theorem statusKept_dmaRxStep : dmaRxStep.Keeps StatusKept := by
  refine keeps_bind StatusKept.trans (keeps_theState StatusKept.refl) fun s => ?_
  cases s.uart.rxf with
  | nil => exact keeps_pure StatusKept.refl _
  | cons e rest =>
    exact keeps_ite _ (keeps_ite _ (keeps_raiseFault _ fun s => { StatusKept.refl s with })
      (keeps_bind StatusKept.trans (keeps_modifyUart fun s => { StatusKept.refl s with }) fun _ =>
        keeps_bind StatusKept.trans (statusKept_memWrite _ _) fun _ =>
          keeps_modifyDrx fun s => { StatusKept.refl s with })) (keeps_pure StatusKept.refl _)

theorem statusKept_uartReceive (b : Byte) (st : Status) : (uartReceive b st).Keeps StatusKept := by
  intro s
  rcases uartReceive_run b st s with e | ⟨-, -, -, e⟩ <;> rw [e]
  · exact StatusKept.refl s
  · exact { StatusKept.refl s with }

theorem regsKept_uartTransmit (told : Bool) : (uartTransmit told).Keeps RegsKept := by
  intro s
  rcases uartTransmit_run told s with e | ⟨b, rest, sent, ris, n, -, -, -, -, -, e⟩ <;> rw [e]
  · exact RegsKept.refl s
  · exact ⟨rfl, rfl⟩

theorem regsKept_setRis (k : Nat) : (setRis k).Keeps RegsKept :=
  keeps_modifyUart fun _ => ⟨rfl, rfl⟩

theorem Op.Keeps.weaken {α : Type} {R Q : State → State → Prop} {x : Op α} (h : x.Keeps R)
    (hRQ : ∀ s t, R s t → Q s t) : x.Keeps Q := by
  intro s
  have hs := h s
  cases e : x s <;> rw [e] at hs <;> exact hRQ _ _ hs

/-- No environment step writes a register that is the block's, whatever the state. -/
theorem regsKept_envStep (e : EnvStep) : (envStep e).Keeps RegsKept := by
  cases e with
  | uartTx told => exact regsKept_uartTransmit told
  | uartRx b st => exact (statusKept_uartReceive b st).weaken fun _ _ h => h.toRegsKept
  | dmaTx => exact statusKept_dmaTxStep.weaken fun _ _ h => h.toRegsKept
  | dmaRx => exact statusKept_dmaRxStep.weaken fun _ _ h => h.toRegsKept
  | raiseRx | raiseRt | raiseTx =>
    exact keeps_bind RegsKept.trans (keeps_theState RegsKept.refl) fun _ =>
      keeps_ite _ (regsKept_setRis _) (keeps_pure RegsKept.refl _)
  | raiseErr k =>
    exact keeps_bind RegsKept.trans (keeps_theState RegsKept.refl) fun _ => regsKept_setRis _

theorem regsKept_gap : gap.Keeps RegsKept :=
  gap_keeps RegsKept.refl RegsKept.trans regsKept_envStep fun _ _ => ⟨rfl, rfl⟩

/-! ### The divisor latch (20_memory R65, R66) -/

/-- A register write that ends normally is a store after environment steps that leave the registers. -/
theorem regWrite_ok {r : Reg} {v : Word} {s t : State} (h : regWrite r v s = .ok () t) :
    ∃ u, RegsKept s u ∧ storeReg r v u = .ok () t := by
  rw [regWrite_eq] at h
  cases hg : gap s with
  | ok a u =>
    rw [hg] at h
    exact ⟨u, regsKept_gap.ok hg, h⟩
  | error e u =>
    rw [hg] at h
    cases h

/-- An `LCRH` store loads the active divisor and stores the defined bits. -/
theorem storeReg_lcrh_latches {v : Word} {s t : State} (h : storeReg .lcrh v s = .ok () t) :
    t.uart.ibrdAct = s.uart.ibrdPend ∧ t.uart.fbrdAct = s.uart.fbrdPend
      ∧ t.uart.lcrh = v &&& definedMask s.params.regMap .lcrh := by
  obtain ⟨xs, ys, n, e, -, -, -⟩ := storeLcrh_run v s
  rw [storeReg_lcrh, e] at h
  cases h
  exact ⟨rfl, rfl, rfl⟩

/-- Any other store leaves the active divisor. -/
theorem storeReg_keeps_divisor {r : Reg} {v : Word} {s t : State} (hr : r ≠ .lcrh)
    (h : storeReg r v s = .ok () t) :
    t.uart.ibrdAct = s.uart.ibrdAct ∧ t.uart.fbrdAct = s.uart.fbrdAct := by
  cases r with
  | lcrh => exact absurd rfl hr
  | dr =>
    by_cases hroom : s.uart.txf.length < s.depth
    · rw [storeReg_dr_room v hroom] at h
      cases h
      exact ⟨rfl, rfl⟩
    · rw [storeReg_dr_full v (Nat.not_lt.mp hroom)] at h
      cases h
  | ibrd | fbrd | ctl | ifls | im | icr | dmactl =>
    cases h
    exact ⟨rfl, rfl⟩
  | fr | ris | mis => cases h

/-- Settles O14: the environment steps before the write leave pending and active divisor, and of the
stores only that of `LCRH` latches. -/
theorem divisorLatchesOnLineControlWritesOnly : Obligations.DivisorLatchesOnLineControlWritesOnly := by
  intro s t r v h
  obtain ⟨u, hkept, hstore⟩ := regWrite_ok h
  have hregs := hkept.regs
  simp only [regsOf, Regs.mk.injEq] at hregs
  obtain ⟨hipend, hfpend, hiact, hfact, -⟩ := hregs
  refine ⟨fun hr => ?_, fun hr => ?_⟩
  · subst hr
    obtain ⟨hi, hf, hl⟩ := storeReg_lcrh_latches hstore
    exact ⟨hi.trans hipend, hf.trans hfpend, by rw [hl, hkept.params]⟩
  · obtain ⟨hi, hf⟩ := storeReg_keeps_divisor hr hstore
    exact ⟨hi.trans hiact, hf.trans hfact⟩

/-! ### The steps of `Uart` and the channels, with their conditions (20_memory R76 to R79) -/

/-- A transmit step under its condition (R76): the first byte of the TX FIFO leaves. -/
theorem uartTransmit_sends {s : State} (told : Bool) {x : Byte} {rest : List Byte}
    (hx : s.uart.txf = x :: rest) (hen : s.uart.ctl.getLsbD s.params.regMap.uarten = true)
    (htx : s.uart.ctl.getLsbD s.params.regMap.txe = true)
    (hbrk : s.uart.lcrh.getLsbD s.params.regMap.brk = false) :
    uartTransmit told s = .ok () { s with
      uart := { s.uart with
        txf := rest
        wire := s.uart.wire ++ [if s.uart.ibrdAct = 0 then Config.wireByte s.draws else x]
        ris := if told = true ∧ s.txLevel < s.uart.txf.length ∧ rest.length ≤ s.txLevel
          then withBit s.uart.ris s.params.regMap.txInt true else s.uart.ris }
      draws := if s.uart.ibrdAct = 0 then s.draws + 1 else s.draws } := by
  simp [uartTransmit, hx, hen, htx, hbrk]

/-- Without its condition a transmit step does nothing. -/
theorem uartTransmit_idle {s : State} (told : Bool)
    (h : s.uart.txf = [] ∨ s.uart.ctl.getLsbD s.params.regMap.uarten = false
      ∨ s.uart.ctl.getLsbD s.params.regMap.txe = false
      ∨ s.uart.lcrh.getLsbD s.params.regMap.brk = true) : uartTransmit told s = .ok () s := by
  unfold uartTransmit
  cases hx : s.uart.txf with
  | nil => rfl
  | cons x rest =>
    rw [hx] at h
    refine if_neg ?_
    rcases h with h | h | h | h
    · cases h
    all_goals simp [h]

/-- The DMA transmit channel does nothing without its condition (R77). -/
theorem dmaTxStep_idle {s : State} (h : ¬ (s.params.mode = .dma ∧ s.dtx.run = true
    ∧ s.uart.dmactl.getLsbD s.params.regMap.txdmae = true ∧ 0 < s.dtx.rem
    ∧ s.uart.txf.length < s.depth)) : dmaTxStep s = .ok () s := by
  rw [dmaTxStep, theState_bind, if_neg h]
  rfl

/-- A receive channel that does not run captures nothing (R78). -/
theorem dmaRxStep_idle {s : State} (h : s.drx.run = false) : dmaRxStep s = .ok () s := by
  rw [dmaRxStep, theState_bind]
  cases s.uart.rxf with
  | nil => rfl
  | cons e rest =>
    dsimp only
    rw [if_neg (by simp [h])]
    rfl

/-- Under its condition the DMA transmit channel moves one staged byte (R77). -/
theorem dmaTxStep_moves {s : State} (hm : s.params.mode = .dma) (hrun : s.dtx.run = true)
    (hen : s.uart.dmactl.getLsbD s.params.regMap.txdmae = true) (hrem : 0 < s.dtx.rem)
    (hroom : s.uart.txf.length < s.depth) (hspan : s.dtx.pos + s.dtx.rem ≤ s.params.stageCap) :
    dmaTxStep s = .ok () ((s.setUart fun u =>
      { u with txf := u.txf ++ [s.memByte (s.params.stageAddr + s.dtx.pos)] }).setDtx
        TxChannel.afterByte) := by
  have hin := inRegion_stage (p := s.params) (o := s.dtx.pos) (n := 1) hm (by omega)
  rw [dmaTxStep, theState_bind, if_pos ⟨hm, hrun, hen, hrem, hroom⟩, op_bind_ok (memRead_run hin)]
  rfl

/-- A running transmit channel after a byte: the last one ends the transfer and signals it (60_exceptions
R216). -/
theorem TxChannel.afterByte_of_run {d : TxChannel} (h : d.run = true) :
    d.afterByte = ⟨decide (d.rem ≠ 1), d.rem - 1, d.pos + 1, d.done || decide (d.rem = 1)⟩ := by
  by_cases hl : d.rem = 1
  · simp [TxChannel.afterByte_last hl, hl]
  · simp [TxChannel.afterByte_more hl, hl, h]

/-- Settles O16: each step by its equation under its condition, and by the one without it. -/
theorem uartMovesBytes : Obligations.UartMovesBytes := by
  intro s told b st
  refine ⟨?sends, uartTransmit_idle told, ?receives, ?loses, ?moves, ?rests⟩
  case sends =>
    intro x rest hx hen htx hbrk
    refine ⟨_, _, _, uartTransmit_sends told hx hen htx hbrk, fun h => ?_, fun h => ?_, rfl⟩
    · exact ⟨if_neg h, if_neg h⟩
    · exact ⟨if_pos h, if_pos h⟩
  case receives =>
    intro hen hrx hroom
    exact if_pos (by simp [hen, hrx, hroom])
  case loses =>
    intro h
    refine if_neg ?_
    rcases h with h | h | h
    · simp [h]
    · simp [h]
    · simp [Nat.not_lt.mpr h]
  case moves =>
    intro hm hrun hen hrem hroom hspan
    have hstep := dmaTxStep_moves hm hrun hen hrem hroom hspan
    rw [State.setDtx, State.setUart_dtx, TxChannel.afterByte_of_run hrun] at hstep
    exact hstep
  case rests =>
    intro h
    refine dmaTxStep_idle fun ⟨hm, hrun, hen, hrem, hroom⟩ => ?_
    rcases h with h | h | h | h | h
    · exact h hm
    · simp [h] at hrun
    · simp [h] at hen
    · omega
    · omega

/-! ### The channel contract (20_memory R69 to R73) -/

/-- `DmaStartTx` after the environment steps before it, misuse included (R69). -/
theorem dmaStartTx_eq {s u : State} (hg : gap s = .ok () u) (len : Nat) : dmaStartTx len s =
    if u.dtx.run = false ∧ 1 ≤ len ∧ len ≤ u.params.stageCap
    then .ok () { u with dtx := ⟨true, len, 0, false⟩ }
    else .error .dmaMisuse (u.setPort fun q => { q with fault := some .dmaMisuse }) := by
  rw [dmaStartTx, op_bind_ok hg, theState_bind, op_ite_run]
  rfl

/-- `DmaArmRx` after the environment steps before it, misuse included (R70). -/
theorem dmaArmRx_eq {s u : State} (hg : gap s = .ok () u) (x : Slot) : dmaArmRx x s =
    if u.drx.run = false
    then .ok () { u with drx := ⟨true, x, 1, u.params.slotCap - 1, false⟩ }
    else .error .dmaMisuse (u.setPort fun q => { q with fault := some .dmaMisuse }) := by
  rw [dmaArmRx, op_bind_ok hg, theState_bind, op_ite_run]
  rfl

/-- Settles O15: each primitive's own equation after the gap. -/
theorem channelContract : Obligations.ChannelContract := by
  intro s u hg
  obtain ⟨hrem1, hrem2⟩ := dmaRemaining_run hg
  exact ⟨dmaStartTx_eq hg, dmaArmRx_eq hg, dmaStopTx_run hg, dmaStopRx_run hg, hrem1, hrem2,
    dmaQueryAckTx_run hg, dmaQueryAckRx_run hg,
    fun h => dmaTxStep_idle fun ⟨_, hrun, _⟩ => by simp [h] at hrun, dmaRxStep_idle⟩

/-! ### Interrupt status (20_memory R80, 70_reset_and_hazards R249) -/

/-- The conditions under which R80 lets a raising step set bit `k`. -/
def RaiseAllowed (s : State) (k : Nat) : Prop :=
  (k = s.params.regMap.rxInt ∧ s.rxLevel ≤ s.uart.rxf.length)
    ∨ (k = s.params.regMap.txInt ∧ s.uart.txf.length ≤ s.txLevel)
    ∨ (k = s.params.regMap.rtInt ∧ (s.uart.rxf ≠ [] ∨ (s.drx.run = true ∧ 1 ≤ s.captured)))
    ∨ ∃ j, k = errInt s.params.regMap j

/-- The state with bit `k` of `RIS` set. -/
def State.raised (s : State) (k : Nat) : State :=
  s.setUart fun u => { u with ris := u.ris ||| BitVec.twoPow 32 k }

/-- What an environment step can do to `RIS` and to the fill of the TX FIFO. -/
inductive StatusStep (s : State) : EnvStep → State → Prop
  /-- It raises nothing and takes no byte from the TX FIFO. -/
  | kept (e : EnvStep) (t : State) (kept : StatusKept s t) : StatusStep s e t
  /-- It sends a byte, and may tell a crossing of the TX level. -/
  | sent (told : Bool) (t : State) (x : Byte) (regs : RegsKept s t) (txf : s.uart.txf = x :: t.uart.txf)
      (ris : t.uart.ris = if told = true ∧ s.txLevel < s.uart.txf.length ∧ t.uart.txf.length ≤ s.txLevel
        then (s.raised s.params.regMap.txInt).uart.ris else s.uart.ris) : StatusStep s (.uartTx told) t
  /-- It raises a bit where that is allowed. -/
  | raised (e : EnvStep) (k : Nat) (allowed : RaiseAllowed s k) : StatusStep s e (s.raised k)

theorem uartTransmit_status {told : Bool} {s t : State} (h : uartTransmit told s = .ok () t) :
    StatusStep s (.uartTx told) t := by
  have hregs := (regsKept_uartTransmit told).ok h
  by_cases hidle : s.uart.txf = [] ∨ s.uart.ctl.getLsbD s.params.regMap.uarten = false
      ∨ s.uart.ctl.getLsbD s.params.regMap.txe = false
      ∨ s.uart.lcrh.getLsbD s.params.regMap.brk = true
  · rw [uartTransmit_idle told hidle] at h
    cases h
    exact .kept _ _ (StatusKept.refl s)
  · obtain ⟨hne, hen, htx, hbrk⟩ : s.uart.txf ≠ []
        ∧ s.uart.ctl.getLsbD s.params.regMap.uarten = true
        ∧ s.uart.ctl.getLsbD s.params.regMap.txe = true
        ∧ s.uart.lcrh.getLsbD s.params.regMap.brk = false := by simpa using hidle
    obtain ⟨x, rest, hx⟩ := List.exists_cons_of_ne_nil hne
    rw [uartTransmit_sends told hx hen htx hbrk] at h
    cases h
    exact .sent told _ x hregs hx rfl

/-- The raising steps set their bit under their condition, and do nothing without it. -/
theorem envStep_raiseRx (s : State) : envStep .raiseRx s
    = .ok () (if s.rxLevel ≤ s.uart.rxf.length then s.raised s.params.regMap.rxInt else s) := by
  rw [envStep, theState_bind]
  split <;> rfl

theorem envStep_raiseTx (s : State) : envStep .raiseTx s
    = .ok () (if s.uart.txf.length ≤ s.txLevel then s.raised s.params.regMap.txInt else s) := by
  rw [envStep, theState_bind]
  split <;> rfl

theorem envStep_raiseRt (s : State) : envStep .raiseRt s
    = .ok () (if s.uart.rxf ≠ [] ∨ (s.drx.run = true ∧ 1 ≤ s.captured)
      then s.raised s.params.regMap.rtInt else s) := by
  rw [envStep, theState_bind]
  split <;> rfl

theorem envStep_raiseErr (s : State) (k : Fin 4) :
    envStep (.raiseErr k) s = .ok () (s.raised (errInt s.params.regMap k)) := rfl

theorem envStep_status {e : EnvStep} {s t : State} (h : envStep e s = .ok () t) : StatusStep s e t := by
  have may {e : EnvStep} {c : Prop} [Decidable c] {k : Nat} (hallowed : c → RaiseAllowed s k)
      (he : envStep e s = .ok () (if c then s.raised k else s)) (h : envStep e s = .ok () t) :
      StatusStep s e t := by
    rw [he] at h
    split at h <;> cases h
    · next hc => exact .raised e k (hallowed hc)
    · exact .kept e s (StatusKept.refl s)
  cases e with
  | uartTx told => exact uartTransmit_status h
  | uartRx b st => exact .kept _ _ ((statusKept_uartReceive b st).ok h)
  | dmaTx => exact .kept _ _ (statusKept_dmaTxStep.ok h)
  | dmaRx => exact .kept _ _ (statusKept_dmaRxStep.ok h)
  | raiseRx => exact may (fun hc => .inl ⟨rfl, hc⟩) (envStep_raiseRx s) h
  | raiseTx => exact may (fun hc => .inr (.inl ⟨rfl, hc⟩)) (envStep_raiseTx s) h
  | raiseRt => exact may (fun hc => .inr (.inr (.inl ⟨rfl, hc⟩))) (envStep_raiseRt s) h
  | raiseErr k =>
    cases h
    exact .raised _ _ (.inr (.inr (.inr ⟨k, rfl⟩)))

/-- Raising a bit sets that one and keeps the others. -/
theorem raised_ris (s : State) (b k : Nat) : (s.raised b).uart.ris.getLsbD k
    = (s.uart.ris.getLsbD k || (decide (k < 32) && decide (b = k))) := by
  rw [State.raised, State.setUart_uart, BitVec.getLsbD_or, BitVec.getLsbD_twoPow]
  by_cases hb : b = k <;> simp [hb]

/-- A bit that raising `b` has set is `b`. -/
theorem eq_of_raised {s : State} {b k : Nat} (hoff : s.uart.ris.getLsbD k = false)
    (hon : (s.raised b).uart.ris.getLsbD k = true) : k = b := by
  rw [raised_ris, hoff] at hon
  simp only [Bool.false_or, Bool.and_eq_true, decide_eq_true_eq] at hon
  exact hon.2.symm

theorem StatusStep.ris_stays {e : EnvStep} {s t : State} (h : StatusStep s e t) {k : Nat}
    (hk : s.uart.ris.getLsbD k = true) : t.uart.ris.getLsbD k = true := by
  cases h with
  | kept _ _ hkept => rw [hkept.ris, hk]
  | sent told _ x _ _ hris =>
    rw [hris]
    split
    · rw [raised_ris, hk, Bool.true_or]
    · exact hk
  | raised _ b _ => rw [raised_ris, hk, Bool.true_or]

/-- A bit a step sets is one it may raise where it stood, or the TX bit of a crossing it made. -/
theorem StatusStep.ris_set {e : EnvStep} {s t : State} (h : StatusStep s e t) {k : Nat}
    (hoff : s.uart.ris.getLsbD k = false) (hon : t.uart.ris.getLsbD k = true) :
    (RaiseAllowed s k ∧ t = s.raised k)
      ∨ (k = s.params.regMap.txInt ∧ t.uart.txf.length ≤ t.txLevel) := by
  cases h with
  | kept _ _ hkept => simp [hkept.ris, hoff] at hon
  | sent told _ x hregs _ hris =>
    rw [hris] at hon
    split at hon
    · next hcross => exact .inr ⟨eq_of_raised hoff hon, by rw [hregs.txLevel]; exact hcross.2.2⟩
    · simp [hoff] at hon
  | raised _ b hallowed =>
    obtain rfl := eq_of_raised hoff hon
    exact .inl ⟨hallowed, rfl⟩

/-- A drain is pending when the TX bit is set or the TX FIFO is above its level. -/
theorem drainPending_iff (s : State) : drainPending s = true
    ↔ s.uart.ris.getLsbD s.params.regMap.txInt = true ∨ s.txLevel < s.uart.txf.length := by
  simp [drainPending]

theorem txInt_lt {m : RegMap} (h : regMapOk m = true) : m.txInt < 32 :=
  (regMapOk_fields h .ris).1 (m.txInt, 1) (by simp [fieldsOf])

/-- A pending drain stays pending: only a transmit step takes bytes from the FIFO, and one that reaches
the level tells it (R249). -/
theorem StatusStep.drain_stays {e : EnvStep} {s t : State} (h : StatusStep s e t)
    (hm : regMapOk s.params.regMap = true) (htells : tells e = true) (hd : drainPending s = true) :
    drainPending t = true := by
  rw [drainPending_iff] at hd ⊢
  rcases hd with hbit | hfill
  · refine .inl ?_
    have hparams : t.params = s.params := by
      cases h with
      | kept _ _ hkept => exact hkept.params
      | sent _ _ _ hregs => exact hregs.params
      | raised => rfl
    rw [hparams]
    exact h.ris_stays hbit
  · cases h with
    | kept _ _ hkept => exact .inr (by rw [hkept.txLevel]; exact hfill.trans_le hkept.txf)
    | sent told _ x hregs hx hris =>
      by_cases hcross : t.uart.txf.length ≤ s.txLevel
      · refine .inl ?_
        rw [hris, if_pos ⟨htells, hfill, hcross⟩, hregs.params, raised_ris]
        simp [txInt_lt hm]
      · exact .inr (by rw [hregs.txLevel]; omega)
    | raised _ b _ => exact .inr hfill

/-- Settles O18: by what a step can do to the status, and the raising steps' equations. -/
theorem statusRaisedOnlyWhenAllowed : Obligations.StatusRaisedOnlyWhenAllowed := by
  refine ⟨fun e s t h => ?_, fun s => ⟨envStep_raiseRx s, envStep_raiseTx s, envStep_raiseRt s,
    envStep_raiseErr s⟩⟩
  have hstatus := envStep_status h
  refine ⟨fun k => hstatus.ris_stays, fun k hoff hon => ?_,
    fun hp => hstatus.drain_stays (regMapOk_of_paramsOk hp)⟩
  rcases hstatus.ris_set hoff hon with ⟨hallowed, rfl⟩ | hcross
  · exact hallowed
  · exact .inr (.inl hcross)

/-! ### Who writes DMA-visible memory (20_memory R61, R75, R78) -/

/-- The receive channel captures inside its slot: what `DmaRx` needs so as to write nowhere else. -/
structure CaptureOk (s : State) : Prop where
  cap : s.params.mode = .dma → 1 ≤ s.params.slotCap
  inside : s.params.mode = .dma → s.drx.run = true →
    s.drx.rem1 ≤ 1 ∧ s.drx.rem2 < s.params.slotCap ∧ 1 ≤ s.drx.rem1 + s.drx.rem2

theorem CaptureOk.of_inv {s : State} (h : Inv s) : CaptureOk s := by
  refine ⟨fun hm => ?_, fun hm hrun => ?_⟩ <;> obtain ⟨-, hcap, -⟩ := dmaParams_regions h.params hm
  · omega
  · have hrx := h.rx hm
    have hle := hrx.rem2_le
    exact ⟨hrx.rem1_le, by omega, hrx.run_rem hrun⟩

theorem CaptureOk.of_eq {s t : State} (h : CaptureOk s) (hp : t.params = s.params)
    (hd : t.drx = s.drx) : CaptureOk t :=
  ⟨by rw [hp]; exact h.cap, by rw [hp, hd]; exact h.inside⟩

/-- A channel that is stopped captures nothing. -/
theorem CaptureOk.stopped {s : State} (h : CaptureOk s) {f : RxChannel → RxChannel}
    (hf : (f s.drx).run = false) : CaptureOk (s.setDrx f) :=
  ⟨h.cap, fun _ hrun => absurd hrun (by rw [State.setDrx_drx, hf]; decide)⟩

/-- A channel that is armed has its whole slot before it (R70). -/
theorem CaptureOk.armed {s : State} {x : Slot} (h : CaptureOk s) : CaptureOk (s.setDrx fun _ =>
    { run := true, slot := x, rem1 := 1, rem2 := s.params.slotCap - 1, done := false }) := by
  refine ⟨h.cap, fun hm _ => ?_⟩
  have hcap := h.cap hm
  simp only [State.setDrx_drx, State.setDrx_params]
  omega

/-- A captured byte leaves the channel inside its slot. -/
theorem CaptureOk.afterByte {s : State} (h : CaptureOk s) (hm : s.params.mode = .dma)
    (hrun : s.drx.run = true) : CaptureOk (s.setDrx RxChannel.afterByte) := by
  obtain ⟨h0, h2, -⟩ := h.inside hm hrun
  obtain ⟨hr1, hr2⟩ := RxChannel.afterByte_counts h0
  obtain ⟨hgo, -⟩ := RxChannel.afterByte_run h0 hrun
  refine ⟨h.cap, fun _ hrun' => ?_⟩
  simp only [State.setDrx_drx, State.setDrx_params, hgo, decide_eq_true_eq] at hrun' ⊢
  have hle : s.drx.afterByte.rem2 ≤ s.drx.rem2 := by
    rw [hr2]
    split <;> omega
  omega

/-- Every byte of memory outside the slots reads as before, but in the staging area where `kicks` are
part of the run; and the receive channel captures inside its slot. -/
structure Confined (kicks : Prop) (s t : State) : Prop where
  params : t.params = s.params
  capture : CaptureOk t
  memory : ∀ a, outsideSlots s.params a → (kicks → outsideStage s.params a) →
    t.mem.read a = s.mem.read a

/-- A run is confined if the receive channel captured inside its slot where it began. -/
def Confines (kicks : Prop) (s t : State) : Prop := CaptureOk s → Confined kicks s t

section confines

variable {kicks : Prop} {α β : Type}

theorem Confines.trans (s t u : State) (h : Confines kicks s t) (k : Confines kicks t u) :
    Confines kicks s u := by
  intro hc
  obtain ⟨hp, hct, hmem⟩ := h hc
  obtain ⟨hp', hcu, hmem'⟩ := k hct
  rw [hp] at hmem'
  exact ⟨hp'.trans hp, hcu, fun a ha hst => (hmem' a ha hst).trans (hmem a ha hst)⟩

/-- What leaves the parameters, the receive channel and memory is confined. -/
theorem Confines.of_eq {s t : State} (hp : t.params = s.params) (hd : t.drx = s.drx)
    (hm : t.mem = s.mem) : Confines kicks s t :=
  fun hc => ⟨hp, hc.of_eq hp hd, fun _ _ _ => by rw [hm]⟩

theorem Confines.refl (s : State) : Confines kicks s s := .of_eq rfl rfl rfl

/-- An update of the receive channel that leaves it sound is confined. -/
theorem Confines.setDrx {s : State} {f : RxChannel → RxChannel}
    (h : CaptureOk s → CaptureOk (s.setDrx f)) : Confines kicks s (s.setDrx f) :=
  fun hc => ⟨rfl, h hc, fun _ _ _ => rfl⟩

/-! The environment's steps. -/

/-- A byte `DmaRx` captures goes into a slot (R78). -/
theorem confines_capture {s : State} {f : Uart → Uart} (b : Byte) (hm : s.params.mode = .dma)
    (hrun : s.drx.run = true) : Confines kicks s (((s.setUart f).setMem
      (s.mem.write (slotAddr s.params s.drx.slot + s.drx.nextOffset s.params) b)).setDrx
        RxChannel.afterByte) := by
  refine fun hc => ⟨rfl, (hc.afterByte hm hrun).of_eq rfl rfl, fun a ha _ => ?_⟩
  obtain ⟨h0, h2, h1⟩ := hc.inside hm hrun
  have hoff := nextOffset_lt h2 h1 h0
  refine Memory.read_write_ne b ?_
  obtain ⟨ha, hb⟩ := ha
  cases hslot : s.drx.slot <;> simp only [slotAddr] <;> omega

/-- The `DmaRx` step: it does nothing, faults at a slot that is not the landing one, or captures. -/
theorem dmaRxStep_ends {s : State} {Q : State → Prop} (hc : CaptureOk s) (idle : Q s)
    (race : Q (s.setPort fun q => { q with fault := some .slotRace }))
    (captures : ∀ b rest, s.params.mode = .dma → s.drx.run = true →
      Q (((s.setUart fun u => { u with rxf := rest }).setMem
        (s.mem.write (slotAddr s.params s.drx.slot + s.drx.nextOffset s.params) b)).setDrx
          RxChannel.afterByte)) : dmaRxStep.Ends s Q := by
  refine ends_bind_ok (theState_run s) ?_
  cases s.uart.rxf with
  | nil => exact .of_ok rfl idle
  | cons e rest =>
    dsimp only
    split
    · next hgo =>
      obtain ⟨hm, hrun, -⟩ := hgo
      obtain ⟨h0, h2, h1⟩ := hc.inside hm hrun
      have hin := inRegion_slot (p := s.params) (x := s.drx.slot)
        (o := s.drx.nextOffset s.params) (n := 1) hm (nextOffset_lt h2 h1 h0)
      split
      · exact .of_error rfl race
      · exact ends_bind_ok (modifyUart_run _ s) (ends_bind_ok (memWrite_run hin)
          (.of_ok (modifyDrx_run _ _) (captures e.1 rest hm hrun)))
    · exact .of_ok rfl idle

theorem confines_iff {x : Op α} :
    x.Keeps (Confines kicks) ↔ ∀ s, CaptureOk s → x.Ends s (Confined kicks s) := by
  refine forall_congr' fun s => ?_
  unfold Op.Ends
  cases x s <;> rfl

theorem confines_dmaRxStep : dmaRxStep.Keeps (Confines kicks) :=
  confines_iff.mpr fun s hc => dmaRxStep_ends hc (Confines.refl s hc) (Confines.of_eq rfl rfl rfl hc)
    fun b _ hm hrun => confines_capture b hm hrun hc

theorem confines_setRis (k : Nat) : (setRis k).Keeps (Confines kicks) :=
  keeps_modifyUart fun _ => .of_eq rfl rfl rfl

/-- Of the environment only `DmaRx` writes memory. -/
theorem confines_envStep (e : EnvStep) : (envStep e).Keeps (Confines kicks) := by
  cases e with
  | uartTx told =>
    intro s
    rcases uartTransmit_run told s with e | ⟨b, rest, sent, ris, n, -, -, -, -, -, e⟩ <;>
      rw [envStep, e] <;> exact .of_eq rfl rfl rfl
  | uartRx b st =>
    intro s
    rcases uartReceive_run b st s with e | ⟨-, -, -, e⟩ <;> rw [envStep, e] <;> exact .of_eq rfl rfl rfl
  | dmaTx =>
    exact dmaTxStep_keeps Confines.refl Confines.trans (fun _ _ => .of_eq rfl rfl rfl)
      (fun _ _ => .of_eq rfl rfl rfl) fun _ => .of_eq rfl rfl rfl
  | dmaRx => exact confines_dmaRxStep
  | raiseRx | raiseRt | raiseTx =>
    exact keeps_bind Confines.trans (keeps_theState Confines.refl) fun _ =>
      keeps_ite _ (confines_setRis _) (keeps_pure Confines.refl _)
  | raiseErr k =>
    exact keeps_bind Confines.trans (keeps_theState Confines.refl) fun _ => confines_setRis _

/-- The primitives of the ring and of the poll-mode engines write no memory. -/
theorem confines_benign : Benign (Confines kicks) where
  refl := Confines.refl
  trans := Confines.trans
  env := confines_envStep
  gaps _ _ := .of_eq rfl rfl rfl
  draws _ := .of_eq rfl rfl rfl
  fault _ _ := .of_eq rfl rfl rfl
  emit _ _ _ := .of_eq rfl rfl rfl
  pop _ _ _ _ := .of_eq rfl rfl rfl
  push _ _ _ := .of_eq rfl rfl rfl
  mask _ _ := .of_eq rfl rfl rfl
  enqueue _ _ _ _ := .of_eq rfl rfl rfl
  dequeue _ _ := .of_eq rfl rfl rfl

/-! Memory, registers and channels. -/

theorem confines_bind {x : Op α} {f : α → Op β} (hx : x.Keeps (Confines kicks))
    (hf : ∀ a, (f a).Keeps (Confines kicks)) : Op.Keeps (Confines kicks) (x >>= f) :=
  confines_benign.bind hx hf

theorem confines_state {f : State → Op β} (hf : ∀ s, (f s).Keeps (Confines kicks)) :
    Op.Keeps (Confines kicks) (theState >>= f) := confines_benign.withState hf

theorem confines_skip : (pure () : Op Unit).Keeps (Confines kicks) := confines_benign.pure _

theorem confines_gap_then {f : Unit → Op β} (hf : ∀ a, (f a).Keeps (Confines kicks)) :
    Op.Keeps (Confines kicks) (gap >>= f) := confines_bind confines_benign.gap hf

theorem confines_port {f : Port → Port} : (modifyPort f).Keeps (Confines kicks) :=
  keeps_modifyPort fun _ => .of_eq rfl rfl rfl

theorem confines_dtx {f : TxChannel → TxChannel} : (modifyDtx f).Keeps (Confines kicks) :=
  keeps_modifyDtx fun _ => .of_eq rfl rfl rfl

/-- `MemWrite` outside the regions faults (R61). -/
theorem memWrite_fault {s : State} {a : Nat} {bs : List Byte}
    (h : ¬ inRegion s.params a bs.length = true) : memWrite a bs s
      = .error .memRange (s.setPort fun q => { q with fault := some .memRange }) := by
  simp [memWrite, h]

/-- `MemWrite` writes inside the staging area or inside a slot (R61). -/
theorem confines_memWrite (a : Nat) (bs : List Byte) : (memWrite a bs).Keeps (Confines True) := by
  intro s
  by_cases hin : inRegion s.params a bs.length = true
  · rw [memWrite_run hin]
    refine fun hc => ⟨rfl, hc.of_eq rfl rfl, fun j ⟨hja, hjb⟩ hst => ?_⟩
    refine Memory.read_writeList_out bs fun hj => ?_
    have hst := hst trivial
    simp only [inRegion, Bool.and_eq_true, Bool.or_eq_true, decide_eq_true_eq] at hin
    unfold outsideStage at hst
    omega
  · rw [memWrite_fault hin]
    exact .of_eq rfl rfl rfl

theorem confines_storeReg (r : Reg) (v : Word) : (storeReg r v).Keeps (Confines kicks) := by
  intro s
  cases r with
  | dr =>
    by_cases hroom : s.uart.txf.length < s.depth
    · rw [storeReg_dr_room v hroom]
      exact .of_eq rfl rfl rfl
    · rw [storeReg_dr_full v (Nat.not_lt.mp hroom)]
      exact .of_eq rfl rfl rfl
  | lcrh =>
    obtain ⟨xs, ys, n, e, -, -, -⟩ := storeLcrh_run v s
    rw [storeReg_lcrh, e]
    exact .of_eq rfl rfl rfl
  | ibrd | fbrd | ctl | ifls | im | icr | dmactl | fr | ris | mis =>
    exact Confines.of_eq rfl rfl rfl

theorem confines_regWrite (r : Reg) (v : Word) : (regWrite r v).Keeps (Confines kicks) :=
  regWrite_keeps Confines.trans confines_benign.gap r v (confines_storeReg r v)

theorem confines_dmaStartTx (n : Nat) : (dmaStartTx n).Keeps (Confines kicks) :=
  confines_gap_then fun _ => confines_state fun _ =>
    keeps_ite _ confines_dtx (confines_benign.raise _)

theorem confines_dmaStopTx : dmaStopTx.Keeps (Confines kicks) :=
  confines_gap_then fun _ => confines_dtx

theorem confines_dmaStopRx : dmaStopRx.Keeps (Confines kicks) :=
  confines_gap_then fun _ => keeps_modifyDrx fun _ => .setDrx fun hc => hc.stopped rfl

/-- The channel is armed in the state whose capacity it takes. -/
theorem confines_dmaArmRx (x : Slot) : (dmaArmRx x).Keeps (Confines kicks) := by
  refine confines_gap_then fun _ => confines_iff.mpr fun s hc => ends_bind_ok (theState_run s) ?_
  split
  · exact .of_ok rfl (Confines.setDrx CaptureOk.armed hc)
  · exact .of_error rfl (Confines.of_eq rfl rfl rfl hc)

theorem confines_dmaRemaining : (dmaRemaining1.Keeps (Confines kicks))
    ∧ dmaRemaining2.Keeps (Confines kicks) :=
  ⟨confines_gap_then fun _ => confines_state fun _ => confines_benign.pure _,
    confines_gap_then fun _ => confines_state fun _ => confines_benign.pure _⟩

theorem confines_dmaQueryAckTx : dmaQueryAckTx.Keeps (Confines kicks) :=
  confines_gap_then fun _ => confines_state fun _ =>
    confines_bind confines_dtx fun _ => confines_benign.pure _

/-- An acknowledgment leaves the counts and the running of the channel. -/
theorem confines_dmaQueryAckRx : dmaQueryAckRx.Keeps (Confines kicks) :=
  confines_gap_then fun _ => confines_state fun _ =>
    confines_bind (keeps_modifyDrx fun _ => .setDrx fun hc => ⟨hc.cap, hc.inside⟩) fun _ =>
      confines_benign.pure _

/-! The engines: the kick stages bytes, every other one writes no memory. -/

theorem confines_txKickDma : txKickDma.Keeps (Confines True) :=
  confines_state fun _ => keeps_ite _ confines_skip (keeps_ite _ confines_skip
    (confines_bind (confines_benign.ringDequeue _) fun _ =>
      confines_bind (confines_memWrite _ _) fun _ => confines_bind (confines_dmaStartTx _) fun _ =>
        confines_bind confines_port fun _ => confines_benign.lowWaterTest))

theorem confines_txKick : txKick.Keeps (Confines True) := by
  refine confines_bind confines_benign.requireRunning fun _ => confines_state fun s => ?_
  cases s.params.mode with
  | poll => exact confines_benign.txKickPoll
  | dma => exact confines_txKickDma

theorem confines_txDmaDone : txDmaDone.Keeps (Confines True) :=
  confines_state fun _ => keeps_ite _ confines_skip (confines_bind (confines_benign.countTx _) fun _ =>
    confines_bind confines_port fun _ => confines_txKick)

theorem confines_txStop : txStop.Keeps (Confines kicks) := by
  refine confines_bind confines_benign.requireRunning fun _ => confines_state fun s => ?_
  cases s.params.mode with
  | poll => exact confines_benign.setTxim _
  | dma => exact confines_bind confines_dmaStopTx fun _ => confines_port

theorem confines_rxDmaEvent : rxDmaEvent.Keeps (Confines kicks) :=
  confines_state fun _ => keeps_ite _ confines_skip (confines_bind confines_dmaStopRx fun _ =>
    confines_bind confines_port fun _ => confines_bind confines_dmaRemaining.1 fun _ =>
      confines_bind confines_dmaRemaining.2 fun _ => confines_bind (confines_dmaArmRx _) fun _ =>
        keeps_ite _ (confines_bind confines_port fun _ => confines_port) confines_skip)

theorem confines_recheck : recheck.Keeps (Confines kicks) :=
  confines_bind confines_port fun _ => confines_rxDmaEvent

theorem confines_taskCopy (k : Task) : (taskCopy k).Keeps (Confines kicks) :=
  confines_state fun _ => keeps_ite _ (confines_benign.raise _)
    (confines_bind (memRead_keeps Confines.refl Confines.trans (fun _ _ => .of_eq rfl rfl rfl) _ _)
      fun _ => confines_bind (confines_benign.deliver _) fun _ => confines_port)

theorem confines_taskFinish (k : Task) : (taskFinish k).Keeps (Confines kicks) :=
  confines_bind (confines_benign.countRx _) fun _ => confines_port

theorem confines_routePoll (mis : Word) : (routePoll mis).Keeps (Confines True) :=
  confines_state fun _ => keeps_when Confines.trans confines_benign.rxPollEvent fun _ =>
    keeps_ite _ confines_txKick confines_skip

theorem confines_routeDma (mis : Word) : (routeDma mis).Keeps (Confines True) :=
  confines_state fun _ => confines_bind confines_dmaQueryAckRx fun _ =>
    keeps_when Confines.trans confines_rxDmaEvent fun _ =>
      confines_bind confines_dmaQueryAckTx fun _ => keeps_ite _ confines_txDmaDone confines_skip

theorem confines_irqDispatch : irqDispatch.Keeps (Confines True) := by
  refine confines_state fun s => confines_bind (confines_benign.rd _) fun _ =>
    confines_bind (confines_regWrite _ _) fun _ => ?_
  cases s.params.mode with
  | poll => exact confines_routePoll _
  | dma => exact confines_routeDma _

/-! Line and port control write registers and channels only. -/

theorem confines_setBreak (on : Bool) : (setBreak on).Keeps (Confines kicks) :=
  confines_bind confines_benign.requireRunning fun _ => confines_state fun _ =>
    confines_bind (confines_benign.rd _) fun _ => confines_regWrite _ _

theorem confines_baudCalc (c b : Nat) : (baudCalc c b).Keeps (Confines kicks) :=
  confines_state fun _ => keeps_ite _ (confines_benign.raise _) (confines_benign.pure _)

theorem confines_commitLine (brdi divfrac : Nat) (l : Word) :
    (commitLine brdi divfrac l).Keeps (Confines kicks) :=
  confines_state fun _ => confines_bind (confines_benign.rd _) fun _ =>
    confines_bind (confines_regWrite _ _) fun _ => confines_bind (confines_regWrite _ _) fun _ =>
      confines_bind (confines_regWrite _ _) fun _ => confines_bind (confines_regWrite _ _) fun _ =>
        confines_benign.pure _

theorem confines_lineApply (line : LineFormat) (policy : Policy) (baud : Nat) :
    (lineApply line policy baud).Keeps (Confines kicks) :=
  confines_state fun _ => confines_bind (confines_baudCalc _ _) fun _ =>
    confines_bind (confines_commitLine _ _ _) fun _ => confines_bind (confines_regWrite _ _) fun _ =>
      confines_bind confines_port fun _ => confines_benign.pure _

theorem confines_recommit (c : Option Committed) : (recommit c).Keeps (Confines kicks) := by
  cases c with
  | none => exact confines_skip
  | some c => exact confines_bind (confines_commitLine _ _ _) fun _ => confines_skip

theorem confines_openMode (p : Params) : (openMode p).Keeps (Confines kicks) := by
  unfold openMode
  cases p.mode with
  | poll => exact confines_bind (confines_regWrite _ _) fun _ => confines_regWrite _ _
  | dma =>
    exact confines_bind (confines_dmaArmRx _) fun _ => confines_bind (confines_regWrite _ _) fun _ =>
      confines_regWrite _ _

theorem confines_closeMode (p : Params) : (closeMode p).Keeps (Confines kicks) := by
  unfold closeMode
  cases p.mode with
  | poll => exact confines_skip
  | dma =>
    exact confines_bind confines_dmaStopTx fun _ => confines_bind confines_dmaStopRx fun _ =>
      confines_regWrite _ _

theorem confines_startup : startup.Keeps (Confines kicks) := by
  rw [startup_eq]
  exact confines_state fun _ => keeps_ite _ (confines_benign.raise _)
    (confines_bind confines_port fun _ => confines_bind (confines_regWrite _ _) fun _ =>
      confines_bind (confines_regWrite _ _) fun _ => confines_bind (confines_regWrite _ _) fun _ =>
        confines_bind (confines_recommit _) fun _ => confines_bind (confines_regWrite _ _) fun _ =>
          confines_bind (confines_openMode _) fun _ => confines_port)

theorem confines_shutdown : shutdown.Keeps (Confines kicks) := by
  rw [shutdown_eq]
  exact confines_bind confines_benign.requireRunning fun _ => confines_state fun _ =>
    confines_bind (confines_regWrite _ _) fun _ => confines_bind (confines_regWrite _ _) fun _ =>
      confines_bind (confines_closeMode _) fun _ => confines_bind confines_port fun _ =>
        confines_bind (confines_regWrite _ _) fun _ => confines_bind (confines_benign.rd _) fun _ =>
          confines_bind (confines_regWrite _ _) fun _ => confines_port

end confines

/-! ### Every command -/

/-- The commands that kick the TransmitEngine (42_transmit R147, R152, 44_dispatch R196). -/
def mayKick (i : Instr) : Prop := i = .txKick ∨ i = .txDmaDone ∨ i = .irqDispatch

section commands

variable {kicks : Prop} {s t : State}

theorem confines_perform {body : Op (List Word)} (hb : body.Keeps (Confines kicks))
    (h : perform body s = .next t) : Confines kicks s t :=
  perform_ends (hb.ends s) (fun _ _ hu => Confines.trans _ _ _ hu (.of_eq rfl rfl rfl)) h

theorem confines_performUnit {body : Op Unit} (hb : body.Keeps (Confines kicks))
    (h : performUnit body s = .next t) : Confines kicks s t :=
  confines_perform (confines_bind hb fun _ => confines_benign.pure _) h

/-- A command that issues nothing leaves the state as it is. -/
theorem confines_self (h : Host.Outcome.next (φ := Fault) (ρ := Refusal) s = .next t) :
    Confines kicks s t := by
  cases h
  exact .refl s

theorem Confines.of_true (hk : kicks) (h : Confines True s t) : Confines kicks s t := fun hc =>
  ⟨(h hc).params, (h hc).capture, fun a ha hst => (h hc).memory a ha fun _ => hst hk⟩

/-- Every command is confined, with kicks for those that kick. -/
theorem exec_confines {i : Instr} (h : exec i s = .next t) : Confines (mayKick i) s t := by
  cases i with
  | baudCalc c b =>
    exact confines_perform (confines_bind (confines_baudCalc _ _) fun _ => confines_benign.pure _) h
  | maskCalc policy => exact confines_perform (confines_benign.pure _) h
  | lineApply line policy baud => exact confines_perform (confines_lineApply line policy _) h
  | write data =>
    rw [exec, execWrite] at h
    refine performSilent_ends (Op.Keeps.ends ?_ s) h
    exact confines_bind confines_benign.requireRunning fun _ =>
      confines_bind (confines_benign.writeLoop data) fun acc =>
        Op.Keeps.of_update (fun u => { u with writeOwed := some acc }) fun _ => .of_eq rfl rfl rfl
  | setBreak on => exact confines_performUnit (confines_setBreak on) h
  | queryTxEmpty =>
    exact confines_perform (confines_state fun _ => confines_bind (confines_benign.rd _) fun _ =>
      confines_benign.pure _) h
  | startup => exact confines_performUnit confines_startup h
  | shutdown => exact confines_performUnit confines_shutdown h
  | setTtyStopped on =>
    rw [exec, execSetTtyStopped] at h
    exact confines_performUnit confines_port h
  | txKick => exact .of_true (.inl rfl) (confines_performUnit confines_txKick h)
  | txStop => exact confines_performUnit confines_txStop h
  | rbTryEnqueue b =>
    exact confines_perform (confines_bind (confines_benign.ringEnqueue b) fun _ =>
      confines_benign.pure _) h
  | rbDequeueUpTo n =>
    exact confines_perform (confines_bind (confines_benign.ringDequeue _) fun _ =>
      confines_benign.pure _) h
  | rbPendingCount =>
    rw [exec, execRbPendingCount] at h
    exact confines_perform (confines_state fun _ => confines_benign.pure _) h
  | rbIsEmpty =>
    rw [exec, execRbIsEmpty] at h
    exact confines_perform (confines_state fun _ => confines_benign.pure _) h
  | irqDispatch =>
    simp only [exec, execIrqDispatch] at h
    split at h
    · exact .of_true (.inr (.inr rfl)) (confines_performUnit confines_irqDispatch h)
    · exact confines_self h
  | txDmaDone => exact .of_true (.inr (.inl rfl)) (confines_performUnit confines_txDmaDone h)
  | rxPollEvent => exact confines_performUnit confines_benign.rxPollEvent h
  | rxDmaEvent =>
    simp only [exec, execRxDmaEvent] at h
    split at h
    · split at h
      · exact confines_performUnit confines_recheck h
      · exact confines_self h
    · exact confines_performUnit confines_rxDmaEvent h
  | rxTaskCopy =>
    simp only [exec, execRxTaskCopy] at h
    split at h
    · exact confines_performUnit (confines_taskCopy _) h
    · exact confines_self h
  | rxTaskFinish =>
    simp only [exec, execRxTaskFinish] at h
    split at h
    · exact confines_performUnit (confines_taskFinish _) h
    · exact confines_self h
  | rxClassify st => exact confines_perform (confines_benign.pure _) h
  | rxFlag st =>
    rw [exec, execRxFlag] at h
    exact confines_perform (confines_state fun _ => confines_benign.pure _) h

/-- The second step of WRITE kicks. -/
theorem finishWrite_confines {acc : Nat} (h : finishWrite acc s = .next t) : Confines True s t := by
  have hrun : Confines True { s with writeOwed := none } t :=
    confines_perform (confines_bind confines_txKick fun _ => confines_benign.pure _) h
  exact Confines.trans s { s with writeOwed := none } t (.of_eq rfl rfl rfl) hrun

end commands

/-- Settles O56: the channel of a state of `Inv` is sound, and every run from there is confined. -/
theorem memoryWrittenByKicksAndDmaOnly : Obligations.MemoryWrittenByKicksAndDmaOnly := by
  refine ⟨fun i s t hinv h a ha hst => ?_, fun acc s t hinv h a ha hst => ?_⟩
  · refine (exec_confines h (.of_inv hinv)).memory a ha fun hk => hst.resolve_right ?_
    rintro ⟨hkick, hdone, hirq⟩
    rcases hk with hk | hk | hk
    · exact hkick hk
    · exact hdone hk
    · exact hirq hk
  · exact (finishWrite_confines h (.of_inv hinv)).memory a ha fun _ => hst

end Sys2Proof.Machine

/-! PROOFS of the family 30_encoding: the fields of a command word and of its operand bytes, the
packing of a WRITE, the two round trips of decoder and encoder, and the assembler lines (30_encoding
R85 to R97). -/

namespace Sys2Proof

open Sys2Proof.Laws.EncodedLength (packBytes_length opcodeOf_commandWord)
open Sys2Proof.Machine (decodeOperands_command)

/-! ### A word and its four bytes (30_encoding R85, R86) -/

@[simp] theorem wordBytes_bytesWord (b0 b1 b2 b3 : Byte) :
    wordBytes (bytesWord b0 b1 b2 b3) = [b0, b1, b2, b3] := by
  have low (k : Nat) (hk : k + 8 ≤ 16) :
      (bytesWord b0 b1 b2 b3).extractLsb' k 8 = (b1 ++ b0).extractLsb' k 8 :=
    BitVec.extractLsb'_append_eq_of_add_le hk
  have high (k : Nat) (hk : 16 ≤ k) :
      (bytesWord b0 b1 b2 b3).extractLsb' k 8 = (b3 ++ b2).extractLsb' (k - 16) 8 :=
    BitVec.extractLsb'_append_eq_of_le hk
  rw [wordBytes, low 0 (by omega), low 8 (by omega), high 16 (by omega), high 24 (by omega)]
  simp only [Nat.sub_self, Nat.reduceSub, BitVec.extractLsb'_append_eq_left,
    BitVec.extractLsb'_append_eq_right]

theorem bytesWord_bytes (w : Word) :
    bytesWord (w.extractLsb' 0 8) (w.extractLsb' 8 8) (w.extractLsb' 16 8) (w.extractLsb' 24 8)
      = w := by
  have hlow : w.extractLsb' 8 8 ++ w.extractLsb' 0 8 = w.extractLsb' 0 16 :=
    BitVec.extractLsb'_append_extractLsb'_eq_extractLsb' rfl
  have hhigh : w.extractLsb' 24 8 ++ w.extractLsb' 16 8 = w.extractLsb' 16 16 :=
    BitVec.extractLsb'_append_extractLsb'_eq_extractLsb' rfl
  rw [bytesWord, hlow, hhigh]
  exact (BitVec.extractLsb'_append_extractLsb'_eq_extractLsb' rfl).trans BitVec.extractLsb'_eq_self

theorem bytesWord_and (a0 a1 a2 a3 b0 b1 b2 b3 : Byte) :
    bytesWord a0 a1 a2 a3 &&& bytesWord b0 b1 b2 b3
      = bytesWord (a0 &&& b0) (a1 &&& b1) (a2 &&& b2) (a3 &&& b3) := by
  have hlow : (a1 ++ a0) &&& (b1 ++ b0) = (a1 &&& b1) ++ (a0 &&& b0) := BitVec.and_append
  have hhigh : (a3 ++ a2) &&& (b3 ++ b2) = (a3 &&& b3) ++ (a2 &&& b2) := BitVec.and_append
  rw [bytesWord, bytesWord, bytesWord, ← hlow, ← hhigh]
  exact BitVec.and_append

/-! ### The fields of a command word (R85) -/

/-- The bits `RSV` of a word. -/
def fieldRsv (w : Word) : Byte := w.extractLsb' 24 8

theorem bytesWord_fields (w : Word) :
    bytesWord (fieldOp w) (fieldA w) (fieldB w) (fieldRsv w) = w := bytesWord_bytes w

theorem fields_bytesWord (b0 b1 b2 b3 : Byte) :
    fieldOp (bytesWord b0 b1 b2 b3) = b0 ∧ fieldA (bytesWord b0 b1 b2 b3) = b1
      ∧ fieldB (bytesWord b0 b1 b2 b3) = b2 ∧ fieldRsv (bytesWord b0 b1 b2 b3) = b3 := by
  have hbytes := wordBytes_bytesWord b0 b1 b2 b3
  simp only [wordBytes, List.cons.injEq, and_true] at hbytes
  exact hbytes

theorem bytesWord_eq_zero_iff (b0 b1 b2 b3 : Byte) :
    bytesWord b0 b1 b2 b3 = 0 ↔ b0 = 0 ∧ b1 = 0 ∧ b2 = 0 ∧ b3 = 0 := by
  constructor
  · intro h
    obtain ⟨hop, ha, hb, hrsv⟩ := fields_bytesWord b0 b1 b2 b3
    rw [h] at hop ha hb hrsv
    exact ⟨hop.symm, ha.symm, hb.symm, hrsv.symm⟩
  · rintro ⟨rfl, rfl, rfl, rfl⟩
    rfl

theorem commandWord_eq_bytesWord (o : Opcode) (a b : Byte) :
    commandWord o a b = bytesWord (opcodeByte o) a b 0 := rfl

@[simp] theorem fieldA_commandWord (o : Opcode) (a b : Byte) : fieldA (commandWord o a b) = a := by
  obtain ⟨-, hA, -⟩ := fields_bytesWord (opcodeByte o) a b 0
  exact hA

@[simp] theorem fieldB_commandWord (o : Opcode) (a b : Byte) : fieldB (commandWord o a b) = b := by
  obtain ⟨-, -, hB, -⟩ := fields_bytesWord (opcodeByte o) a b 0
  exact hB

@[simp] theorem fieldRsv_commandWord (o : Opcode) (a b : Byte) : fieldRsv (commandWord o a b) = 0 := by
  obtain ⟨-, -, -, hrsv⟩ := fields_bytesWord (opcodeByte o) a b 0
  exact hrsv

/-- The byte of an opcode determines it (R94). -/
theorem opcodeByte_of_opcodeOf {b : Byte} {o : Opcode} (h : opcodeOf b = some o) :
    opcodeByte o = b := by
  simpa using List.find?_some h

/-- The bits of `A` that an opcode reserves. -/
def reservedA : Opcode → Byte
  | .lineApply => 0xC0
  | .setBreak | .setTtyStopped => 0xFE
  | .rbTryEnqueue => 0
  | .rxClassify | .rxFlag => 0xF0
  | _ => 0xFF

/-- The bits of `B` that an opcode reserves. -/
def reservedB : Opcode → Byte
  | .maskCalc | .lineApply => 0xF0
  | _ => 0xFF

/-- Every opcode reserves `RSV` and nothing of `OP` (R85). -/
theorem reservedBits_eq_bytesWord (o : Opcode) :
    reservedBits o = bytesWord 0 (reservedA o) (reservedB o) 0xFF := by
  cases o <;> rfl

theorem and_reservedBits_eq_zero_iff (w : Word) (o : Opcode) :
    w &&& reservedBits o = 0 ↔
      fieldA w &&& reservedA o = 0 ∧ fieldB w &&& reservedB o = 0 ∧ fieldRsv w = 0 := by
  have hrsv : fieldRsv w &&& 0xFF = fieldRsv w := BitVec.and_allOnes
  rw [reservedBits_eq_bytesWord, ← bytesWord_fields w, bytesWord_and, bytesWord_eq_zero_iff,
    bytesWord_fields, hrsv]
  simp

/-- A word with an opcode's byte and nothing reserved is the command word of its fields. -/
theorem eq_commandWord {w : Word} {o : Opcode} (hop : opcodeOf (fieldOp w) = some o)
    (hrsv : fieldRsv w = 0) : w = commandWord o (fieldA w) (fieldB w) := by
  rw [commandWord_eq_bytesWord, opcodeByte_of_opcodeOf hop, ← hrsv, bytesWord_fields]

/-! ### Operand bytes (R89 to R91) -/

theorem eq_zero_of_all_reserved {a : Byte} (h : a &&& 0xFF = 0) : a = 0 :=
  BitVec.and_allOnes.symm.trans h

/-- The byte of a switch operand. -/
def byteOfSwitch (on : Bool) : Byte := 0#7 ++ BitVec.ofBool on

/-- The byte of a status operand. -/
def byteOfStatus (st : Status) : Byte := 0#4 ++ st

theorem switch_byteOfSwitch : ∀ on, (byteOfSwitch on).getLsbD 0 = on := by decide

theorem byteOfSwitch_switch : ∀ a : Byte, a &&& 0xFE = 0 → byteOfSwitch (a.getLsbD 0) = a := by
  decide

theorem byteOfSwitch_unreserved : ∀ on, byteOfSwitch on &&& 0xFE = 0 := by decide

theorem status_byteOfStatus (st : Status) : (byteOfStatus st).extractLsb' 0 4 = st :=
  BitVec.extractLsb'_append_eq_right

theorem byteOfStatus_status : ∀ a : Byte, a &&& 0xF0 = 0 →
    byteOfStatus (a.extractLsb' 0 4) = a := by
  decide

theorem byteOfStatus_unreserved : ∀ st, byteOfStatus st &&& 0xF0 = 0 := by decide

theorem policyOfByte_byteOfPolicy (p : Policy) : policyOfByte (byteOfPolicy p) = p := by
  obtain ⟨_ | _, _ | _, _ | _, _ | _⟩ := p <;> rfl

theorem byteOfPolicy_policyOfByte : ∀ b : Byte, b &&& 0xF0 = 0 →
    byteOfPolicy (policyOfByte b) = b := by
  decide

theorem byteOfPolicy_unreserved (p : Policy) : byteOfPolicy p &&& 0xF0 = 0 := by
  obtain ⟨_ | _, _ | _, _ | _, _ | _⟩ := p <;> rfl

theorem parityOfCode_parityCode (p : Parity) : parityOfCode (parityCode p) = some p := by
  cases p <;> rfl

/-- The fields of the line byte of R89, from the lowest: word length, parity code, stop bit. -/
theorem lineByte_fields : ∀ (stop : Bool) (code : BitVec 3) (len : BitVec 2) (a : Byte),
    a = (0#2 ++ BitVec.ofBool stop) ++ (code ++ len) →
      a.extractLsb' 0 2 = len ∧ a.extractLsb' 2 3 = code ∧ a.getLsbD 5 = stop ∧ a &&& 0xC0 = 0 := by
  rintro stop code len _ rfl
  revert stop code len
  decide

theorem byteOfLine_unreserved (l : LineFormat) : byteOfLine l &&& 0xC0 = 0 := by
  obtain ⟨-, -, -, hres⟩ := lineByte_fields _ _ _ (byteOfLine l) rfl
  exact hres

theorem LineFormat.wf_iff (l : LineFormat) :
    l.wf = true ↔ (5 ≤ l.wlen ∧ l.wlen ≤ 8) ∧ (l.stop = 1 ∨ l.stop = 2) := by
  simp [LineFormat.wf]

theorem lineOfByte_byteOfLine {l : LineFormat} (h : l.wf = true) :
    lineOfByte (byteOfLine l) = some l := by
  obtain ⟨hlen, hcode, hstop, -⟩ := lineByte_fields _ _ _ (byteOfLine l) rfl
  obtain ⟨⟨hlow, hhigh⟩, hone⟩ := l.wf_iff.mp h
  have hwlen : (l.wlen - 5) % 2 ^ 2 + 5 = l.wlen := by omega
  have hstops : (if (l.stop == 2) = true then 2 else 1) = l.stop := by
    rcases hone with hone | hone <;> rw [hone] <;> rfl
  simp only [lineOfByte, hlen, hcode, hstop, parityOfCode_parityCode, BitVec.toNat_ofNat, hwlen,
    hstops]

/-- A line byte without reserved bits is the byte of the line format read from it. -/
theorem byteOfLine_of_lineOfByte : ∀ a : Byte, a &&& 0xC0 = 0 →
    ∀ l ∈ lineOfByte a, l.wf = true ∧ byteOfLine l = a := by
  decide

/-! ### The payload of WRITE (R86) -/

theorem flatMap_wordBytes_length (ws : List Word) :
    (ws.flatMap wordBytes).length = 4 * ws.length := by
  simp [List.length_flatMap, wordBytes, Nat.mul_comm]

/-- Packed bytes are read back with the padding of the last data word, which is 0. -/
theorem flatMap_packBytes : ∀ bs : List Byte, ∃ k,
    (packBytes bs).flatMap wordBytes = bs ++ List.replicate k 0
  | [] => ⟨0, rfl⟩
  | [_] => ⟨3, by simp [packBytes]⟩
  | [_, _] => ⟨2, by simp [packBytes]⟩
  | [_, _, _] => ⟨1, by simp [packBytes]⟩
  | a :: b :: c :: d :: more => by
    obtain ⟨k, ih⟩ := flatMap_packBytes more
    exact ⟨k, by simp [packBytes, ih]⟩

theorem dataWords_add_four (n : Nat) : dataWords (n + 4) = dataWords n + 1 := by
  unfold dataWords
  omega

/-- One data word is packed from its first `n` bytes, if the others are 0. -/
theorem packBytes_take_bytesWord {b0 b1 b2 b3 : Byte} {n : Nat} (hpos : 0 < n) (hn : n < 4)
    (hzero : ∀ b ∈ [b0, b1, b2, b3].drop n, b = 0) :
    packBytes ([b0, b1, b2, b3].take n) = [bytesWord b0 b1 b2 b3] := by
  interval_cases n <;> simp_all [packBytes]

/-- Data words with zero padding are what the bytes in them pack to. -/
theorem packBytes_take_flatMap : ∀ (ws : List Word) (n : Nat), dataWords n = ws.length →
    (∀ b ∈ (ws.flatMap wordBytes).drop n, b = 0) → packBytes ((ws.flatMap wordBytes).take n) = ws
  | [], n, _, _ => by rw [List.flatMap_nil, List.take_nil, packBytes]
  | w :: ws, n, hlen, hzero => by
    by_cases hn : n < 4
    · have hdiv : (n + 3) / 4 = ws.length + 1 := hlen
      obtain rfl : ws = [] := List.length_eq_zero_iff.mp (by omega)
      simp only [List.flatMap_cons, List.flatMap_nil, List.append_nil] at hzero ⊢
      rw [← bytesWord_bytes w, wordBytes_bytesWord] at hzero ⊢
      exact packBytes_take_bytesWord (by omega) hn hzero
    · obtain ⟨m, rfl⟩ : ∃ m, n = m + 4 := ⟨n - 4, by omega⟩
      rw [dataWords_add_four, List.length_cons, Nat.add_right_cancel_iff] at hlen
      have ih := packBytes_take_flatMap ws m hlen (by simpa [wordBytes] using hzero)
      simp [wordBytes, packBytes, bytesWord_bytes, ih]

/-! ### A command is its opcode, its operand bytes and its payload words (R85, R86) -/

/-- The byte `A` of a command. -/
def operandA : Instr → Byte
  | .lineApply l _ _ => byteOfLine l
  | .setBreak on | .setTtyStopped on => byteOfSwitch on
  | .rbTryEnqueue b => b
  | .rxClassify st | .rxFlag st => byteOfStatus st
  | _ => 0

/-- The byte `B` of a command. -/
def operandB : Instr → Byte
  | .maskCalc p | .lineApply _ p _ => byteOfPolicy p
  | _ => 0

/-- The words after the command word. -/
def payload : Instr → List Word
  | .baudCalc c b => [c, b]
  | .lineApply _ _ baud => [baud]
  | .write data => BitVec.ofNat 32 data.length :: packBytes data
  | .rbDequeueUpTo n => [n]
  | _ => []

theorem encode_eq (i : Instr) :
    encode i = commandWord (opcodeFor i) (operandA i) (operandB i) :: payload i := by
  cases i <;> rfl

/-- No command sets a bit that its opcode reserves (R95). -/
theorem operands_unreserved (i : Instr) :
    operandA i &&& reservedA (opcodeFor i) = 0 ∧ operandB i &&& reservedB (opcodeFor i) = 0 := by
  cases i with
  | maskCalc p => exact ⟨BitVec.zero_and, byteOfPolicy_unreserved p⟩
  | lineApply l p _ => exact ⟨byteOfLine_unreserved l, byteOfPolicy_unreserved p⟩
  | setBreak on => exact ⟨byteOfSwitch_unreserved on, BitVec.zero_and⟩
  | setTtyStopped on => exact ⟨byteOfSwitch_unreserved on, BitVec.zero_and⟩
  | rbTryEnqueue b => exact ⟨BitVec.and_zero, BitVec.zero_and⟩
  | rxClassify st => exact ⟨byteOfStatus_unreserved st, BitVec.zero_and⟩
  | rxFlag st => exact ⟨byteOfStatus_unreserved st, BitVec.zero_and⟩
  | _ => exact ⟨BitVec.zero_and, BitVec.zero_and⟩

/-- What the payload of a well-formed WRITE decodes to (R86). -/
theorem decodeOperands_write {data : List Byte} (w0 : Word) (rest : List Word)
    (h : data.length < 2 ^ 32) :
    decodeOperands .write w0 (BitVec.ofNat 32 data.length :: packBytes data ++ rest)
      = .command (.write data) rest := by
  obtain ⟨k, hbytes⟩ := flatMap_packBytes data
  have hcount : (BitVec.ofNat 32 data.length).toNat = data.length := by
    rw [BitVec.toNat_ofNat, Nat.mod_eq_of_lt h]
  have hwords := packBytes_length data
  simp [decodeOperands, hcount, ← hwords, hbytes]

/-- The operands of a well-formed command are read back from its bytes and words. -/
theorem decodeOperands_payload {i : Instr} (h : i.wf = true) (rest : List Word) :
    decodeOperands (opcodeFor i) (commandWord (opcodeFor i) (operandA i) (operandB i))
      (payload i ++ rest) = .command i rest := by
  cases i with
  | maskCalc p =>
    simp [decodeOperands, bare, opcodeFor, operandB, payload, policyOfByte_byteOfPolicy]
  | lineApply l p baud =>
    simp [decodeOperands, opcodeFor, operandA, operandB, payload, lineOfByte_byteOfLine h,
      policyOfByte_byteOfPolicy]
  | write data => exact decodeOperands_write _ _ (of_decide_eq_true h)
  | setBreak on =>
    simp only [decodeOperands, bare, opcodeFor, operandA, payload, fieldA_commandWord,
      switch_byteOfSwitch, List.nil_append]
  | setTtyStopped on =>
    simp only [decodeOperands, bare, opcodeFor, operandA, payload, fieldA_commandWord,
      switch_byteOfSwitch, List.nil_append]
  | rbTryEnqueue b => simp [decodeOperands, bare, opcodeFor, operandA, payload]
  | rxClassify st =>
    simp [decodeOperands, bare, opcodeFor, operandA, payload, status_byteOfStatus]
  | rxFlag st =>
    simp [decodeOperands, bare, opcodeFor, operandA, payload, status_byteOfStatus]
  | _ => rfl

theorem decodeBody_encode {i : Instr} (h : i.wf = true) (rest : List Word) :
    decodeBody (opcodeFor i) (commandWord (opcodeFor i) (operandA i) (operandB i))
      (payload i ++ rest) = .command i rest := by
  have hres := (and_reservedBits_eq_zero_iff
    (commandWord (opcodeFor i) (operandA i) (operandB i)) (opcodeFor i)).mpr
      (by simpa using operands_unreserved i)
  rw [decodeBody, if_neg (not_not.mpr hres), decodeOperands_payload h]

/-- Settles O8: the decoder finds the opcode, nothing reserved is set, and the operands are read
back. -/
theorem decodeInvertsEncode : Obligations.DecodeInvertsEncode := by
  intro i rest h
  have hbody := decodeBody_encode h rest
  rw [encode_eq, List.cons_append]
  refine ⟨by rw [decode, opcodeOf_commandWord]; exact hbody, fun who m hmay hdef => ?_⟩
  simp [decodeFor, opcodeOf_commandWord, hmay, hdef, hbody]

/-! ### What decodes -/

/-- A WRITE that decodes is spelled by its count and its data words (R86, R95). -/
theorem write_of_decodeOperands {w0 : Word} {ws rest : List Word} {i : Instr}
    (h : decodeOperands .write w0 ws = .command i rest) :
    ∃ data, i = .write data ∧ data.length < 2 ^ 32
      ∧ ws = BitVec.ofNat 32 data.length :: packBytes data ++ rest := by
  simp only [decodeOperands] at h
  split at h
  · cases h
  · next n more =>
    split at h
    · cases h
    · next hlong =>
      split at h
      · next hpad =>
        cases h
        have htake : (more.take (dataWords n.toNat)).length = dataWords n.toNat := by
          simpa using hlong
        have hcount : (((more.take (dataWords n.toNat)).flatMap wordBytes).take n.toNat).length
            = n.toNat := by
          rw [List.length_take, flatMap_wordBytes_length, htake, dataWords]
          omega
        refine ⟨_, rfl, by rw [hcount]; exact n.isLt, ?_⟩
        rw [hcount, packBytes_take_flatMap _ _ htake.symm (by simpa using hpad)]
        simp
      · cases h

/-- Operands that decode are well-formed and spelled by the bytes and words read, if no reserved bit
is set. -/
theorem operands_of_decodeOperands {o : Opcode} {w0 : Word} {ws rest : List Word} {i : Instr}
    (h : decodeOperands o w0 ws = .command i rest) (ha : fieldA w0 &&& reservedA o = 0)
    (hb : fieldB w0 &&& reservedB o = 0) :
    i.wf = true ∧ operandA i = fieldA w0 ∧ operandB i = fieldB w0 ∧ ws = payload i ++ rest := by
  cases o with
  | baudCalc =>
    simp only [decodeOperands] at h
    split at h <;> cases h
    exact ⟨rfl, (eq_zero_of_all_reserved ha).symm, (eq_zero_of_all_reserved hb).symm, rfl⟩
  | maskCalc =>
    cases h
    exact ⟨rfl, (eq_zero_of_all_reserved ha).symm, byteOfPolicy_policyOfByte _ hb, rfl⟩
  | lineApply =>
    simp only [decodeOperands] at h
    split at h
    · cases h
    · next l hline =>
      obtain ⟨hwf, hbyte⟩ := byteOfLine_of_lineOfByte _ ha l hline
      split at h <;> cases h
      exact ⟨hwf, hbyte, byteOfPolicy_policyOfByte _ hb, rfl⟩
  | write =>
    obtain ⟨data, rfl, hlen, hws⟩ := write_of_decodeOperands h
    exact ⟨decide_eq_true hlen, (eq_zero_of_all_reserved ha).symm,
      (eq_zero_of_all_reserved hb).symm, hws⟩
  | rbDequeueUpTo =>
    simp only [decodeOperands] at h
    split at h <;> cases h
    exact ⟨rfl, (eq_zero_of_all_reserved ha).symm, (eq_zero_of_all_reserved hb).symm, rfl⟩
  | setBreak =>
    cases h
    exact ⟨rfl, byteOfSwitch_switch _ ha, (eq_zero_of_all_reserved hb).symm, rfl⟩
  | setTtyStopped =>
    cases h
    exact ⟨rfl, byteOfSwitch_switch _ ha, (eq_zero_of_all_reserved hb).symm, rfl⟩
  | rbTryEnqueue =>
    cases h
    exact ⟨rfl, rfl, (eq_zero_of_all_reserved hb).symm, rfl⟩
  | rxClassify =>
    cases h
    exact ⟨rfl, byteOfStatus_status _ ha, (eq_zero_of_all_reserved hb).symm, rfl⟩
  | rxFlag =>
    cases h
    exact ⟨rfl, byteOfStatus_status _ ha, (eq_zero_of_all_reserved hb).symm, rfl⟩
  | _ =>
    cases h
    exact ⟨rfl, (eq_zero_of_all_reserved ha).symm, (eq_zero_of_all_reserved hb).symm, rfl⟩

/-- What a stream that decodes begins with: the byte of an opcode, no reserved bit, and operands. -/
theorem decode_command {ws rest : List Word} {i : Instr} (h : decode ws = .command i rest) :
    ∃ w0 more o, ws = w0 :: more ∧ opcodeOf (fieldOp w0) = some o ∧ w0 &&& reservedBits o = 0
      ∧ decodeOperands o w0 more = .command i rest := by
  cases ws with
  | nil => cases h
  | cons w0 more =>
    simp only [decode] at h
    split at h
    · cases h
    · next o hop =>
      unfold decodeBody at h
      split at h
      · cases h
      · next hres => exact ⟨w0, more, o, rfl, hop, not_not.mp hres, h⟩

/-- Settles O9: the first word is the command word of its own fields, and the rest is the payload. -/
theorem encodeInvertsDecode : Obligations.EncodeInvertsDecode := by
  intro ws i rest h
  obtain ⟨w0, more, o, rfl, hop, hres, hoperands⟩ := decode_command h
  obtain ⟨ha, hb, hrsv⟩ := (and_reservedBits_eq_zero_iff w0 o).mp hres
  obtain ⟨hwf, hA, hB, rfl⟩ := operands_of_decodeOperands hoperands ha hb
  obtain ⟨rfl, -⟩ := decodeOperands_command hoperands
  exact ⟨hwf, by rw [encode_eq, hA, hB, ← eq_commandWord hop hrsv, List.cons_append]⟩

/-- Settles O10: the eight words are what `encode` makes of the commands, so O8 reads them back. -/
theorem sampleWordsDecode : Obligations.SampleWordsDecode := by
  have read (i : Instr) (h : i.wf = true) : decode (encode i) = .command i [] := by
    simpa using (decodeInvertsEncode i [] h).1
  exact ⟨read (.baudCalc 16000000 115200) rfl, read (.maskCalc ⟨true, true, true, true⟩) rfl,
    read (.lineApply ⟨8, .space, 1⟩ ⟨true, false, false, false⟩ 9600) rfl,
    read (.write [0x48, 0x45, 0x4C, 0x4C, 0x4F]) rfl, read (.setBreak true) rfl,
    read (.rbTryEnqueue 0x41) rfl, read .irqDispatch rfl, read (.rxClassify 9) rfl⟩

/-! ### Assembler operands and lines (R97) -/

section assembler

open Sys2Proof.Machine

theorem wordOperand_toNat (w : Word) : wordOperand w.toNat = some w := by
  rw [wordOperand, if_pos w.isLt, BitVec.ofNat_toNat, BitVec.setWidth_eq]

theorem byteOperand_toNat (b : Byte) : byteOperand b.toNat = some b := by
  rw [byteOperand, if_pos b.isLt, BitVec.ofNat_toNat, BitVec.setWidth_eq]

theorem statusOperand_toNat (st : Status) : statusOperand st.toNat = some st := by
  rw [statusOperand, if_pos st.isLt, BitVec.ofNat_toNat, BitVec.setWidth_eq]

theorem switchOperand_toNat (on : Bool) : switchOperand on.toNat = some on := by
  cases on <;> rfl

theorem byteList_toNat (bs : List Byte) : byteList 256 (bs.map (·.toNat)) = some bs := by
  have hlimit : (bs.map (·.toNat)).all (· < 256) = true := by
    simpa using fun b _ => b.isLt
  rw [byteList, if_pos hlimit, List.map_map]
  simp [Function.comp_def]

theorem policyOfFlags_flagsOfPolicy (p : Policy) :
    policyOfFlags (flagsOfPolicy p) = p := by
  obtain ⟨_ | _, _ | _, _ | _, _ | _⟩ := p <;> rfl

theorem assembleRaw_asmLine (i : Instr) : assembleRaw (asmLine i) = some i := by
  cases i with
  | baudCalc c b => simp [assembleRaw, asmLine, opcodeFor, wordOperand_toNat]
  | maskCalc p => exact congrArg (some <| Instr.maskCalc ·) (policyOfFlags_flagsOfPolicy p)
  | lineApply l p baud =>
    simp [assembleRaw, asmLine, opcodeFor, assembleLine, wordOperand_toNat,
      policyOfFlags_flagsOfPolicy]
  | write data => exact congrArg (Option.map Instr.write) (byteList_toNat data)
  | setBreak on => exact congrArg (Option.map Instr.setBreak) (switchOperand_toNat on)
  | setTtyStopped on => exact congrArg (Option.map Instr.setTtyStopped) (switchOperand_toNat on)
  | rbTryEnqueue b => exact congrArg (Option.map Instr.rbTryEnqueue) (byteOperand_toNat b)
  | rbDequeueUpTo n => exact congrArg (Option.map Instr.rbDequeueUpTo) (wordOperand_toNat n)
  | rxClassify st => exact congrArg (Option.map Instr.rxClassify) (statusOperand_toNat st)
  | rxFlag st => exact congrArg (Option.map Instr.rxFlag) (statusOperand_toNat st)
  | _ => rfl

/-- Settles O11: the line spells the command, and `assemble` keeps it because it is well-formed. -/
theorem assemblerLinesSpellTheirCommands : Obligations.AssemblerLinesSpellTheirCommands := by
  intro i h
  rw [assemble, assembleRaw_asmLine, Option.filter_some, if_pos h]

end assembler

end Sys2Proof

/-! PROOFS of the family 40_ringbuffer: the ring as a queue, the results of its commands, the two steps
of WRITE, and who moves which index (40_ringbuffer R111 to R118). -/

namespace Sys2Proof.Machine

open Sys2Proof.Safety

/-! ### Answers of the ring's commands (40_ringbuffer R111 to R114) -/

/-- The integer difference of the indices, reduced into `[0, N)` (10_state R25, 00_scope R10). -/
theorem pendingOf_eq_emod {p : Params} (q : Port) (hp : 0 < p.ringN) :
    (pendingOf p q : Int) = ((q.head : Int) - (q.tail : Int)) % (p.ringN : Int) := by
  have hle : q.tail % p.ringN ≤ p.ringN := (Nat.mod_lt _ hp).le
  have hdiv : (q.tail : Int) = q.tail % p.ringN + p.ringN * (q.tail / p.ringN) :=
    (Int.emod_add_mul_ediv _ _).symm
  have hshift : (q.head : Int) + (p.ringN - q.tail % p.ringN)
      = q.head - q.tail + p.ringN * (1 + q.tail / p.ringN) := by
    rw [mul_add, mul_one]
    omega
  rw [pendingOf]
  push_cast [hle]
  rw [hshift, Int.add_mul_emod_self_left]

theorem pending_lt {s : State} (h : 0 < s.params.ringN) : s.pending < s.params.ringN := Nat.mod_lt _ h

section commands

variable {s : State}

theorem ringFull_of_pending (h : s.pending = s.params.ringN - 1) : s.ringFull = true := by
  simp [State.ringFull, h]

theorem ringFull_of_room (h : s.pending ≠ s.params.ringN - 1) : s.ringFull = false := by
  simp [State.ringFull, h]

theorem rbTryEnqueue_fault (b : Byte) (h : s.port.life ≠ .running) : exec (.rbTryEnqueue b) s
    = .next (s.setPort fun q => { q with fault := some .notRunning }) :=
  perform_error (op_bind_error (ringEnqueue_fault b h))

theorem rbTryEnqueue_full (b : Byte) (h : s.port.life = .running) (hf : s.ringFull = true) :
    exec (.rbTryEnqueue b) s = .next (s.reply (.result [0])) :=
  perform_ok (op_bind_ok (ringEnqueue_full b h hf))

theorem rbTryEnqueue_room (b : Byte) (h : s.port.life = .running) (hf : s.ringFull = false) :
    exec (.rbTryEnqueue b) s = .next ((s.setPort fun q => { q with
      ring := q.ring.write q.head b, head := (q.head + 1) % s.params.ringN }).reply (.result [1])) :=
  perform_ok (op_bind_ok (ringEnqueue_room b h hf))

theorem rbDequeueUpTo_run (n : Word) (s : State) : exec (.rbDequeueUpTo n) s
    = .next ((s.setPort fun q =>
        { q with tail := (q.tail + s.sliceLength n.toNat) % s.params.ringN }).reply
      (.result (BitVec.ofNat 32 (s.sliceLength n.toNat) :: (List.range (s.sliceLength n.toNat)).map
        fun i => (s.ringByte (s.port.tail + i)).zeroExtend 32))) := by
  have hrun : exec (.rbDequeueUpTo n) s = .next ((s.setPort fun q =>
        { q with tail := (q.tail + s.sliceLength n.toNat) % s.params.ringN }).reply
      (.result (natWord (s.ringBytes s.port.tail (s.sliceLength n.toNat)).length ::
        (s.ringBytes s.port.tail (s.sliceLength n.toNat)).map fun b => b.zeroExtend 32))) := rfl
  rw [hrun, ringBytes_length, State.ringBytes, List.map_map]
  rfl

theorem rbPendingCount_run (s : State) :
    exec .rbPendingCount s = .next (s.reply (.result [natWord s.pending])) := rfl

theorem rbIsEmpty_run (s : State) : exec .rbIsEmpty s
    = .next (s.reply (.result [if s.port.head = s.port.tail then 1 else 0])) := by
  have hword : boolWord (s.port.head == s.port.tail) = if s.port.head = s.port.tail then 1 else 0 := by
    simp [boolWord]
  rw [← hword]
  rfl

end commands

/-- Settles O20: each command by its own equation. -/
theorem ringCommandResults : Obligations.RingCommandResults := by
  intro s b n
  refine ⟨rbTryEnqueue_fault b, fun hr hp => rbTryEnqueue_full b hr (ringFull_of_pending hp),
    fun hr hp => rbTryEnqueue_room b hr (ringFull_of_room hp), rbDequeueUpTo_run n s,
    fun hpos hle => ?_, rbIsEmpty_run s⟩
  have hcount : (natWord s.pending).toNat = s.pending := by
    have hlt := pending_lt hpos
    exact Nat.mod_eq_of_lt (by omega)
  refine ⟨_, rbPendingCount_run s, ?_, hcount.symm⟩
  rw [hcount]
  exact pendingOf_eq_emod s.port hpos

/-! ### The second step of WRITE (40_ringbuffer R116) -/

/-- A kick that ends normally is answered with the accepted count. -/
theorem finishWrite_ok {s t : State} {acc : Nat} (h : txKick { s with writeOwed := none } = .ok () t) :
    finishWrite acc s = .next (t.reply (.result [BitVec.ofNat 32 acc])) :=
  perform_ok (op_bind_ok h)

/-- Settles O23: the host's turn finishes the WRITE, and its kick is the one of TX_KICK. -/
theorem writeKicksAndAnswersTheCount : Obligations.WriteKicksAndAnswersTheCount := by
  intro s t acc hp hf ht ho hkick
  refine ⟨?_, performUnit_ok hkick⟩
  rw [step_of_host hp hf ht, hostTurn_owed (s := { s with turns := s.turns.tail }) ho]
  exact finishWrite_ok hkick

/-! ### The ring between its indices (40_ringbuffer R111, R112, R115) -/

/-- The ring after an accepted byte (R111). -/
def State.enqueued (s : State) (b : Byte) : State :=
  s.setPort fun q => { q with ring := q.ring.write q.head b, head := (q.head + 1) % s.params.ringN }

/-- The ring after a slice is taken (R112). -/
def State.dequeued (s : State) (n : Nat) : State :=
  s.setPort fun q => { q with tail := (q.tail + s.sliceLength n) % s.params.ringN }

theorem ringEnqueue_enqueued {s : State} (b : Byte) (hr : s.port.life = .running)
    (h : s.ringFull = false) : ringEnqueue b s = .ok true (s.enqueued b) := ringEnqueue_room b hr h

theorem ringDequeue_dequeued (n : Nat) (s : State) :
    ringDequeue n s = .ok (s.ringBytes s.port.tail (s.sliceLength n)) (s.dequeued n) := rfl

@[simp] theorem ringContents_length (s : State) : (ringContents s).length = s.pending := by
  simp [ringContents]

section ring

variable {s : State}

/-- The free slot at the head is none of the unconsumed bytes. -/
theorem unconsumed_ne_head (h : RingInv s) {i : Nat} (hi : i < s.pending) :
    (s.port.tail + i) % s.params.ringN ≠ s.port.head := by
  have hlt := pending_lt (s := s) (Nat.zero_lt_of_lt h.head_lt)
  rw [← tail_add_pending h.head_lt h.tail_lt]
  intro heq
  have hsame : i ≡ s.pending [MOD s.params.ringN] := Nat.ModEq.add_left_cancel' _ heq
  exact hi.ne (hsame.eq_of_lt_of_lt (hi.trans hlt) hlt)

theorem ringInv_enqueued (h : RingInv s) (b : Byte) : RingInv (s.enqueued b) where
  head_lt := Nat.mod_lt _ (Nat.zero_lt_of_lt h.head_lt)
  tail_lt := h.tail_lt
  canonical := Memory.write_wf _ b h.canonical
  inside c hc := by
    rcases Memory.mem_write hc with rfl | hc
    · exact h.head_lt
    · exact h.inside c hc

theorem ringInv_dequeued (h : RingInv s) (n : Nat) : RingInv (s.dequeued n) :=
  { h with tail_lt := Nat.mod_lt _ (Nat.zero_lt_of_lt h.tail_lt) }

theorem pending_enqueued (h : RingInv s) (b : Byte) (hroom : s.ringFull = false) :
    (s.enqueued b).pending = s.pending + 1 := by
  have hfree : pendingOf s.params s.port ≠ s.params.ringN - 1 := by
    simpa [State.ringFull, State.pending] using hroom
  exact pendingOf_enqueue h.head_lt h.tail_lt hfree

theorem pending_dequeued (h : RingInv s) (n : Nat) :
    (s.dequeued n).pending = s.pending - s.sliceLength n :=
  pendingOf_dequeue h.head_lt h.tail_lt (sliceLength_le s n).1 (sliceLength_le s n).2

theorem ringByte_enqueued_head (h : RingInv s) (b : Byte) : (s.enqueued b).ringByte s.port.head = b := by
  have hread : (s.port.ring.write s.port.head b).read s.port.head = some b := by
    rw [Memory.read_write _ _ _ h.canonical, if_pos rfl]
  exact congrArg (Option.getD · _) hread

theorem ringByte_enqueued_of_ne (b : Byte) {j : Nat} (h : j ≠ s.port.head) :
    (s.enqueued b).ringByte j = s.ringByte j :=
  congrArg (Option.getD · _) (Memory.read_write_ne b h)

/-- An accepted byte is the newest unconsumed one (R111). -/
theorem ringContents_enqueued (h : RingInv s) (b : Byte) (hroom : s.ringFull = false) :
    ringContents (s.enqueued b) = ringContents s ++ [b] := by
  have hold : ∀ i ∈ List.range s.pending,
      (s.enqueued b).ringByte ((s.port.tail + i) % s.params.ringN)
        = s.ringByte ((s.port.tail + i) % s.params.ringN) := fun i hi =>
    ringByte_enqueued_of_ne b (unconsumed_ne_head h (List.mem_range.mp hi))
  have hnew : (s.enqueued b).ringByte ((s.port.tail + s.pending) % s.params.ringN) = b := by
    have hhead : (s.port.tail + s.pending) % s.params.ringN = s.port.head :=
      tail_add_pending h.head_lt h.tail_lt
    rw [hhead, ringByte_enqueued_head h b]
  calc ringContents (s.enqueued b)
      = (List.range (s.pending + 1)).map
          fun i => (s.enqueued b).ringByte ((s.port.tail + i) % s.params.ringN) := by
        rw [ringContents, pending_enqueued h b hroom]
        rfl
    _ = ringContents s ++ [b] := by
        rw [List.range_succ, List.map_append, List.map_congr_left hold, List.map_singleton, hnew]
        rfl

/-- A slice is the oldest unconsumed bytes, and leaves the others (R112). -/
theorem ringContents_eq_slice_append (h : RingInv s) (n : Nat) :
    ringContents s = s.ringBytes s.port.tail (s.sliceLength n) ++ ringContents (s.dequeued n) := by
  obtain ⟨hle, hend⟩ := sliceLength_le s n
  have hslice : ∀ i ∈ List.range (s.sliceLength n),
      s.ringByte ((s.port.tail + i) % s.params.ringN) = s.ringByte (s.port.tail + i) := by
    intro i hi
    have hi := List.mem_range.mp hi
    rw [Nat.mod_eq_of_lt (by omega)]
  have hrest : ∀ i ∈ List.range (s.pending - s.sliceLength n),
      s.ringByte ((s.port.tail + (s.sliceLength n + i)) % s.params.ringN)
        = (s.dequeued n).ringByte (((s.dequeued n).port.tail + i) % s.params.ringN) := by
    intro i _
    have htail : ((s.dequeued n).port.tail + i) % s.params.ringN
        = (s.port.tail + (s.sliceLength n + i)) % s.params.ringN := by
      rw [← Nat.add_assoc]
      exact Nat.mod_add_mod _ _ _
    rw [htail]
    rfl
  have hsplit : s.pending = s.sliceLength n + (s.pending - s.sliceLength n) :=
    (Nat.add_sub_cancel' hle).symm
  rw [ringContents, hsplit, List.range_add, List.map_append, List.map_map,
    Function.comp_def, List.map_congr_left hslice, List.map_congr_left hrest, ringContents, pending_dequeued h]
  rfl

end ring

/-! ### The ring as a queue (40_ringbuffer R118) -/

theorem ringRun_enqueue_full {s t : State} {b : Byte} {ops : List RingOp} {r : List Byte × List Byte}
    (hr : s.port.life = .running) (hf : s.ringFull = true) (h : ringRun ops s = .ok r t) :
    ringRun (.enqueue b :: ops) s = .ok r t := by
  rw [ringRun, op_bind_ok (ringEnqueue_full b hr hf), op_bind_ok h]
  rfl

theorem ringRun_enqueue_room {s t : State} {b : Byte} {ops : List RingOp} {acc deq : List Byte}
    (hr : s.port.life = .running) (hf : s.ringFull = false)
    (h : ringRun ops (s.enqueued b) = .ok (acc, deq) t) :
    ringRun (.enqueue b :: ops) s = .ok (b :: acc, deq) t := by
  rw [ringRun, op_bind_ok (ringEnqueue_enqueued b hr hf), op_bind_ok h]
  rfl

theorem ringRun_dequeue {s t : State} {n : Nat} {ops : List RingOp} {acc deq : List Byte}
    (h : ringRun ops (s.dequeued n) = .ok (acc, deq) t) : ringRun (.dequeue n :: ops) s
      = .ok (acc, s.ringBytes s.port.tail (s.sliceLength n) ++ deq) t := by
  rw [ringRun, op_bind_ok (ringDequeue_dequeued n s), op_bind_ok h]
  rfl

/-- A run of ring operations conserves the bytes in their order. -/
theorem ringRun_conserves (ops : List RingOp) {s : State} (h : RingInv s)
    (hr : s.port.life = .running) : ∃ acc deq t, ringRun ops s = .ok (acc, deq) t ∧ RingInv t
      ∧ ringContents s ++ acc = deq ++ ringContents t := by
  induction ops generalizing s with
  | nil => exact ⟨[], [], s, rfl, h, by simp⟩
  | cons op ops ih =>
    cases op with
    | enqueue b =>
      cases hf : s.ringFull with
      | true =>
        obtain ⟨acc, deq, t, hrun, ht, hbytes⟩ := ih h hr
        exact ⟨acc, deq, t, ringRun_enqueue_full hr hf hrun, ht, hbytes⟩
      | false =>
        obtain ⟨acc, deq, t, hrun, ht, hbytes⟩ := ih (ringInv_enqueued h b) hr
        refine ⟨b :: acc, deq, t, ringRun_enqueue_room hr hf hrun, ht, ?_⟩
        rw [← hbytes, ringContents_enqueued h b hf, List.append_assoc, List.singleton_append]
    | dequeue n =>
      obtain ⟨acc, deq, t, hrun, ht, hbytes⟩ := ih (ringInv_dequeued h n) hr
      refine ⟨acc, _, t, ringRun_dequeue hrun, ht, ?_⟩
      rw [ringContents_eq_slice_append h n, List.append_assoc, hbytes, List.append_assoc]

/-- Settles O21: the counts are the lengths of the conserved bytes. -/
theorem ringIsAQueue : Obligations.RingIsAQueue := by
  intro ops s h hr
  obtain ⟨acc, deq, t, hrun, ht, hbytes⟩ := ringRun_conserves ops h hr
  have hlen := congrArg List.length hbytes
  simp only [List.length_append, ringContents_length] at hlen
  exact ⟨acc, deq, t, hrun, ht, hbytes, by omega⟩

/-! ### The first step of WRITE (40_ringbuffer R116) -/

/-- `t` is `s` with these bytes stored behind the unconsumed ones, and nothing else changed. -/
structure Accepts (s t : State) (bs : List Byte) : Prop where
  frame : t = { s with port := { s.port with
    ring := t.port.ring, head := (s.port.head + bs.length) % s.params.ringN } }
  inv : RingInv t
  contents : ringContents t = ringContents s ++ bs
  others : ∀ j, (∀ i < bs.length, j ≠ (s.port.head + i) % s.params.ringN) →
    t.port.ring.read j = s.port.ring.read j

theorem Accepts.nil {s : State} (h : RingInv s) : Accepts s s [] where
  frame := by rw [List.length_nil, Nat.add_zero, Nat.mod_eq_of_lt h.head_lt]
  inv := h
  contents := (List.append_nil _).symm
  others _ _ := rfl

/-- One more byte at the front of those accepted. -/
theorem Accepts.cons {s t : State} {b : Byte} {bs : List Byte} (h : RingInv s)
    (hroom : s.ringFull = false) (k : Accepts (s.enqueued b) t bs) : Accepts s t (b :: bs) where
  frame := by
    have hhead : ((s.enqueued b).port.head + bs.length) % s.params.ringN
        = (s.port.head + (b :: bs).length) % s.params.ringN := by
      rw [List.length_cons, Nat.add_comm bs.length, ← Nat.add_assoc]
      exact Nat.mod_add_mod _ _ _
    rw [← hhead]
    exact k.frame
  inv := k.inv
  contents := by
    rw [k.contents, ringContents_enqueued h b hroom, List.append_assoc, List.singleton_append]
  others j hj := by
    have hhead : j ≠ s.port.head := by
      simpa [Nat.mod_eq_of_lt h.head_lt] using hj 0 (by simp)
    have hbehind : ∀ i < bs.length, j ≠ ((s.enqueued b).port.head + i) % s.params.ringN := by
      intro i hi
      have hnext : ((s.enqueued b).port.head + i) % s.params.ringN
          = (s.port.head + (i + 1)) % s.params.ringN := by
        rw [Nat.add_comm i, ← Nat.add_assoc]
        exact Nat.mod_add_mod _ _ _
      rw [hnext]
      exact hj (i + 1) (by simpa using hi)
    exact (k.others j hbehind).trans (Memory.read_write_ne b hhead)

/-- The loop of WRITE accepts bytes from the front, as many as fit. -/
theorem writeLoop_accepts (data : List Byte) {s : State} (h : RingInv s)
    (hr : s.port.life = .running) : ∃ t, writeLoop data s = .ok (min data.length (room s)) t
      ∧ Accepts s t (data.take (room s)) := by
  induction data generalizing s with
  | nil => exact ⟨s, by rw [List.length_nil, Nat.zero_min]; rfl, by rw [List.take_nil]; exact .nil h⟩
  | cons b more ih =>
    cases hf : s.ringFull with
    | true =>
      have hfull : room s = 0 := by
        simp only [State.ringFull, beq_iff_eq] at hf
        simp [room, hf]
      rw [hfull, Nat.min_zero, List.take_zero]
      exact ⟨s, writeLoop_full hr hf, .nil h⟩
    | false =>
      have hroom : room s = room (s.enqueued b) + 1 := by
        have hlt := pending_lt (s := s) (Nat.zero_lt_of_lt h.head_lt)
        simp only [State.ringFull, beq_eq_false_iff_ne] at hf
        have hmore : room (s.enqueued b) = s.params.ringN - 1 - (s.pending + 1) :=
          congrArg (s.params.ringN - 1 - ·) (pending_enqueued h b (ringFull_of_room hf))
        rw [hmore, room]
        omega
      obtain ⟨t, hrun, hacc⟩ := ih (ringInv_enqueued h b) hr
      rw [hroom, List.length_cons, Nat.add_min_add_right, List.take_succ_cons]
      exact ⟨t, writeLoop_room hr hf hrun, hacc.cons h hf⟩

theorem performSilent_ok {body : Op Unit} {s t : State} (h : body s = .ok () t) :
    performSilent body s = .next t := by
  simp [performSilent, h]

/-- What the first step of WRITE runs to, from its loop. -/
theorem write_run {s t : State} {data : List Byte} {k : Nat} (hr : s.port.life = .running)
    (h : writeLoop data s = .ok k t) :
    exec (.write data) s = .next { t with writeOwed := some k } :=
  performSilent_ok ((op_bind_ok (requireRunning_of_running hr)).trans (op_bind_ok h))

/-- Settles O22: the loop accepts what fits, and the step then owes the kick. -/
theorem writeAcceptsAPrefix : Obligations.WriteAcceptsAPrefix := by
  intro s data h hr
  obtain ⟨t, hrun, hframe, hinv, hcontents, hothers⟩ := writeLoop_accepts data h hr
  have hlen : (data.take (room s)).length = min data.length (room s) := by
    rw [List.length_take, Nat.min_comm]
  have htake : data.take (room s) = data.take (min data.length (room s)) := by
    rw [Nat.min_comm, ← List.take_eq_take_min]
  rw [hlen] at hframe hothers
  refine ⟨_, write_run hr hrun, ?_, { hinv with }, htake ▸ hcontents, hothers⟩
  exact congrArg (fun u : State => { u with writeOwed := some (min data.length (room s)) }) hframe

/-! ### What leaves the block's record but for the fault (20_memory R63 to R80) -/

/-- The `port` record stays, up to a raised fault. -/
def PortKept (s t : State) : Prop := ∃ why, t.port = { s.port with fault := why }

theorem PortKept.of_eq {s t : State} (h : t.port = s.port) : PortKept s t := ⟨s.port.fault, h⟩

theorem PortKept.refl (s : State) : PortKept s s := .of_eq rfl

theorem PortKept.trans (s t u : State) (h : PortKept s t) (k : PortKept t u) : PortKept s u := by
  obtain ⟨why, ht⟩ := h
  obtain ⟨why', hu⟩ := k
  exact ⟨why', by rw [hu, ht]⟩

theorem PortKept.fault_set (s : State) (why : FaultReason) :
    PortKept s (s.setPort fun q => { q with fault := some why }) := ⟨some why, rfl⟩

section portKept

variable {α β : Type}

theorem portKept_bind {x : Op α} {f : α → Op β} (hx : x.Keeps PortKept) (hf : ∀ a, (f a).Keeps PortKept) :
    Op.Keeps PortKept (x >>= f) := keeps_bind PortKept.trans hx hf

theorem portKept_state {f : State → Op β} (hf : ∀ s, (f s).Keeps PortKept) :
    Op.Keeps PortKept (theState >>= f) := portKept_bind (keeps_theState PortKept.refl) hf

theorem portKept_pure (a : α) : Op.Keeps PortKept (pure a) := keeps_pure PortKept.refl a

theorem portKept_raise (why : FaultReason) : Op.Keeps (α := α) PortKept (raiseFault why) :=
  keeps_raiseFault why fun s => .fault_set s why

theorem portKept_uart (f : Uart → Uart) : (modifyUart f).Keeps PortKept :=
  keeps_modifyUart fun _ => .of_eq rfl

theorem portKept_dtx (f : TxChannel → TxChannel) : (modifyDtx f).Keeps PortKept :=
  keeps_modifyDtx fun _ => .of_eq rfl

theorem portKept_drx (f : RxChannel → RxChannel) : (modifyDrx f).Keeps PortKept :=
  keeps_modifyDrx fun _ => .of_eq rfl

theorem portKept_draw : draw.Keeps PortKept := keeps_draw fun _ => .of_eq rfl

theorem portKept_requireRunning : requireRunning.Keeps PortKept :=
  portKept_state fun _ => keeps_ite _ (portKept_pure _) (portKept_raise _)

/-! Memory and the environment's steps. -/

theorem portKept_memRead (a n : Nat) : (memRead a n).Keeps PortKept :=
  memRead_keeps PortKept.refl PortKept.trans PortKept.fault_set a n

theorem portKept_memWrite (a : Nat) (bs : List Byte) : (memWrite a bs).Keeps PortKept :=
  portKept_state fun _ => keeps_ite _ (fun _ => .of_eq rfl) (portKept_raise _)

theorem portKept_dmaRxStep : dmaRxStep.Keeps PortKept := by
  refine portKept_state fun s => ?_
  cases s.uart.rxf with
  | nil => exact portKept_pure _
  | cons e rest =>
    exact keeps_ite _ (keeps_ite _ (portKept_raise _) (portKept_bind (portKept_uart _) fun _ =>
      portKept_bind (portKept_memWrite _ _) fun _ => portKept_drx _)) (portKept_pure _)

theorem portKept_envStep (e : EnvStep) : (envStep e).Keeps PortKept := by
  cases e with
  | uartTx told =>
    intro s
    rcases uartTransmit_run told s with e | ⟨b, rest, sent, ris, n, -, -, -, -, -, e⟩ <;>
      rw [envStep, e] <;> exact .of_eq rfl
  | uartRx b st =>
    intro s
    rcases uartReceive_run b st s with e | ⟨-, -, -, e⟩ <;> rw [envStep, e] <;> exact .of_eq rfl
  | dmaTx =>
    exact dmaTxStep_keeps PortKept.refl PortKept.trans PortKept.fault_set (fun _ _ => .of_eq rfl)
      fun _ => .of_eq rfl
  | dmaRx => exact portKept_dmaRxStep
  | raiseRx | raiseRt | raiseTx =>
    exact portKept_state fun _ => keeps_ite _ (portKept_uart _) (portKept_pure _)
  | raiseErr k => exact portKept_state fun _ => portKept_uart _

theorem portKept_gap : gap.Keeps PortKept :=
  gap_keeps PortKept.refl PortKept.trans portKept_envStep fun _ _ => .of_eq rfl

theorem portKept_gap_then {f : Unit → Op β} (hf : ∀ a, (f a).Keeps PortKept) :
    Op.Keeps PortKept (gap >>= f) := portKept_bind portKept_gap hf

/-! Registers. -/

theorem portKept_rd (r : Reg) : (rd r).Keeps PortKept :=
  rd_keeps PortKept.refl PortKept.trans portKept_gap r

theorem portKept_storeReg (r : Reg) (v : Word) : (storeReg r v).Keeps PortKept := by
  cases r with
  | dr => exact portKept_state fun _ => keeps_ite _ (fun _ => .of_eq rfl) (portKept_raise _)
  | lcrh =>
    intro s
    obtain ⟨xs, ys, n, e, -, -, -⟩ := storeLcrh_run v s
    rw [storeReg_lcrh, e]
    exact .of_eq rfl
  | ibrd | fbrd | ctl | ifls | im | icr | dmactl => exact fun _ => .of_eq rfl
  | fr | ris | mis => exact portKept_raise _

theorem portKept_regWrite (r : Reg) (v : Word) : (regWrite r v).Keeps PortKept :=
  regWrite_keeps PortKept.trans portKept_gap r v (portKept_storeReg r v)

theorem portKept_readDr : readDr.Keeps PortKept := by
  refine portKept_gap_then fun _ s => ?_
  cases hx : s.uart.rxf with
  | nil =>
    simp only [popDr, hx]
    exact .of_eq rfl
  | cons e rest =>
    rw [popDr_cons hx]
    exact .of_eq rfl

theorem portKept_setTxim (v : Bool) : (setTxim v).Keeps PortKept :=
  portKept_state fun _ => portKept_bind (portKept_rd _) fun _ => portKept_regWrite _ _

/-! Channels. -/

theorem portKept_dmaStartTx (n : Nat) : (dmaStartTx n).Keeps PortKept :=
  portKept_gap_then fun _ => portKept_state fun _ => keeps_ite _ (portKept_dtx _) (portKept_raise _)

theorem portKept_dmaArmRx (x : Slot) : (dmaArmRx x).Keeps PortKept :=
  portKept_gap_then fun _ => portKept_state fun _ => keeps_ite _ (portKept_drx _) (portKept_raise _)

theorem portKept_dmaStopTx : dmaStopTx.Keeps PortKept := portKept_gap_then fun _ => portKept_dtx _

theorem portKept_dmaStopRx : dmaStopRx.Keeps PortKept := portKept_gap_then fun _ => portKept_drx _

theorem portKept_dmaRemaining : dmaRemaining1.Keeps PortKept ∧ dmaRemaining2.Keeps PortKept :=
  ⟨portKept_gap_then fun _ => portKept_state fun _ => portKept_pure _,
    portKept_gap_then fun _ => portKept_state fun _ => portKept_pure _⟩

theorem portKept_dmaQueryAckTx : dmaQueryAckTx.Keeps PortKept :=
  portKept_gap_then fun _ => portKept_state fun _ => portKept_bind (portKept_dtx _) fun _ =>
    portKept_pure _

theorem portKept_dmaQueryAckRx : dmaQueryAckRx.Keeps PortKept :=
  portKept_gap_then fun _ => portKept_state fun _ => portKept_bind (portKept_drx _) fun _ =>
    portKept_pure _

/-! Line and port control, up to the updates of the record itself. -/

theorem portKept_baudCalc (c b : Nat) : (baudCalc c b).Keeps PortKept :=
  portKept_state fun _ => keeps_ite _ (portKept_raise _) (portKept_pure _)

theorem portKept_commitLine (brdi divfrac : Nat) (l : Word) :
    (commitLine brdi divfrac l).Keeps PortKept :=
  portKept_state fun _ => portKept_bind (portKept_rd _) fun _ =>
    portKept_bind (portKept_regWrite _ _) fun _ => portKept_bind (portKept_regWrite _ _) fun _ =>
      portKept_bind (portKept_regWrite _ _) fun _ => portKept_bind (portKept_regWrite _ _) fun _ =>
        portKept_pure _

theorem portKept_setBreak (on : Bool) : (setBreak on).Keeps PortKept :=
  portKept_bind portKept_requireRunning fun _ => portKept_state fun _ =>
    portKept_bind (portKept_rd _) fun _ => portKept_regWrite _ _

theorem portKept_recommit (c : Option Committed) : (recommit c).Keeps PortKept := by
  cases c with
  | none => exact portKept_pure _
  | some c => exact portKept_bind (portKept_commitLine _ _ _) fun _ => portKept_pure _

theorem portKept_openMode (p : Params) : (openMode p).Keeps PortKept := by
  unfold openMode
  cases p.mode with
  | poll => exact portKept_bind (portKept_regWrite _ _) fun _ => portKept_regWrite _ _
  | dma =>
    exact portKept_bind (portKept_dmaArmRx _) fun _ => portKept_bind (portKept_regWrite _ _) fun _ =>
      portKept_regWrite _ _

end portKept

/-! ### Who moves the ring's indices (40_ringbuffer R117) -/

/-- `head` and the storage stay unless `heads` are moved, `tail` stays unless `tails` are. -/
structure RingKept (heads tails : Prop) (s t : State) : Prop where
  produced : ¬ heads → t.port.head = s.port.head ∧ t.port.ring = s.port.ring
  consumed : ¬ tails → t.port.tail = s.port.tail

section ringKept

variable {heads tails : Prop} {α β : Type}

theorem RingKept.refl (s : State) : RingKept heads tails s s := ⟨fun _ => ⟨rfl, rfl⟩, fun _ => rfl⟩

theorem RingKept.trans (s t u : State) (h : RingKept heads tails s t) (k : RingKept heads tails t u) :
    RingKept heads tails s u where
  produced hn := ⟨(k.produced hn).1.trans (h.produced hn).1, (k.produced hn).2.trans (h.produced hn).2⟩
  consumed hn := (k.consumed hn).trans (h.consumed hn)

/-- Where both indices may move nothing is asked. -/
theorem RingKept.of_both {s t : State} : RingKept True True s t :=
  ⟨fun h => absurd trivial h, fun h => absurd trivial h⟩

theorem PortKept.ringKept {s t : State} (h : PortKept s t) : RingKept heads tails s t := by
  obtain ⟨why, ht⟩ := h
  exact ⟨fun _ => by rw [ht]; exact ⟨rfl, rfl⟩, fun _ => by rw [ht]⟩

theorem ringKept_of_portKept {x : Op α} (h : x.Keeps PortKept) : x.Keeps (RingKept heads tails) :=
  h.weaken fun _ _ => PortKept.ringKept

theorem ringKept_bind {x : Op α} {f : α → Op β} (hx : x.Keeps (RingKept heads tails))
    (hf : ∀ a, (f a).Keeps (RingKept heads tails)) : Op.Keeps (RingKept heads tails) (x >>= f) :=
  keeps_bind RingKept.trans hx hf

theorem ringKept_pure (a : α) : Op.Keeps (RingKept heads tails) (pure a) := keeps_pure RingKept.refl a

/-- A part that leaves the record, before the rest of the body. -/
theorem ringKept_after {x : Op α} {f : α → Op β} (hx : x.Keeps PortKept)
    (hf : ∀ a, (f a).Keeps (RingKept heads tails)) : Op.Keeps (RingKept heads tails) (x >>= f) :=
  ringKept_bind (ringKept_of_portKept hx) hf

theorem ringKept_state {f : State → Op β} (hf : ∀ s, (f s).Keeps (RingKept heads tails)) :
    Op.Keeps (RingKept heads tails) (theState >>= f) :=
  ringKept_bind (keeps_theState RingKept.refl) hf

/-- An update of the block that writes neither index nor the storage. -/
theorem ringKept_port {f : Port → Port} (h : ∀ q, (f q).head = q.head ∧ (f q).ring = q.ring
    ∧ (f q).tail = q.tail := by exact fun _ => ⟨rfl, rfl, rfl⟩) :
    (modifyPort f).Keeps (RingKept heads tails) := by
  refine keeps_modifyPort fun s => ?_
  obtain ⟨hhead, hring, htail⟩ := h s.port
  exact ⟨fun _ => ⟨hhead, hring⟩, fun _ => htail⟩

theorem ringKept_countClass (c : ErrClass) : (countClass c).Keeps (RingKept heads tails) := by
  refine ringKept_port fun q => ?_
  cases c <;> exact ⟨rfl, rfl, rfl⟩

theorem ringKept_deliver (recs : List (Byte × Flag)) : (deliver recs).Keeps (RingKept heads tails) :=
  ringKept_port

theorem ringKept_countRx (n : Nat) : (countRx n).Keeps (RingKept heads tails) := ringKept_port

theorem ringKept_countTx (n : Nat) : (countTx n).Keeps (RingKept heads tails) := ringKept_port

/-! The producer: an enqueue moves `head` and writes the storage, and leaves `tail`. -/

theorem ringKept_ringEnqueue (b : Byte) : (ringEnqueue b).Keeps (RingKept True tails) :=
  ringKept_after portKept_requireRunning fun _ => ringKept_state fun _ =>
    keeps_ite _ (ringKept_pure _) (ringKept_bind
      (keeps_modifyPort fun _ => ⟨fun h => absurd trivial h, fun _ => rfl⟩) fun _ => ringKept_pure _)

theorem ringKept_writeLoop (data : List Byte) : (writeLoop data).Keeps (RingKept True tails) := by
  induction data with
  | nil => exact ringKept_pure _
  | cons b more ih =>
    exact ringKept_bind (ringKept_ringEnqueue b) fun _ =>
      keeps_ite _ (ringKept_pure _) (ringKept_bind ih fun _ => ringKept_pure _)

/-! The TransmitEngine: a dequeue moves `tail`, and leaves `head` and the storage. -/

theorem ringKept_ringDequeue (n : Nat) : (ringDequeue n).Keeps (RingKept heads True) :=
  fun _ => ⟨fun _ => ⟨rfl, rfl⟩, fun h => absurd trivial h⟩

theorem ringKept_lowWaterTest : lowWaterTest.Keeps (RingKept heads tails) :=
  ringKept_state fun _ => keeps_ite _ ringKept_port (ringKept_pure _)

theorem ringKept_pushLoop (fuel : Nat) : (pushLoop fuel).Keeps (RingKept heads True) := by
  induction fuel with
  | zero => exact ringKept_pure _
  | succ fuel ih =>
    refine ringKept_after (portKept_rd _) fun _ => ringKept_state fun _ => keeps_ite _ (ringKept_pure _)
      (keeps_ite _ (ringKept_pure _) (ringKept_bind (ringKept_ringDequeue 1) fun bs => ?_))
    cases bs with
    | nil => exact ringKept_pure _
    | cons b _ =>
      exact ringKept_after (portKept_regWrite _ _) fun _ => ringKept_bind (ringKept_countTx 1) fun _ => ih

theorem ringKept_txKickPoll : txKickPoll.Keeps (RingKept heads True) :=
  have mask (v : Bool) : (setTxim v).Keeps (RingKept heads True) :=
    ringKept_of_portKept (portKept_setTxim v)
  ringKept_state fun _ => keeps_ite _ (mask _) (ringKept_bind (ringKept_pushLoop _) fun _ =>
    ringKept_bind ringKept_lowWaterTest fun _ => ringKept_state fun _ => keeps_ite _ (mask _) (mask _))

theorem ringKept_txKickDma : txKickDma.Keeps (RingKept heads True) :=
  ringKept_state fun _ => keeps_ite _ (ringKept_pure _) (keeps_ite _ (ringKept_pure _)
    (ringKept_bind (ringKept_ringDequeue _) fun _ => ringKept_after (portKept_memWrite _ _) fun _ =>
      ringKept_after (portKept_dmaStartTx _) fun _ => ringKept_bind ringKept_port fun _ =>
        ringKept_lowWaterTest))

theorem ringKept_txKick : txKick.Keeps (RingKept heads True) := by
  refine ringKept_after portKept_requireRunning fun _ => ringKept_state fun s => ?_
  cases s.params.mode with
  | poll => exact ringKept_txKickPoll
  | dma => exact ringKept_txKickDma

theorem ringKept_txDmaDone : txDmaDone.Keeps (RingKept heads True) :=
  ringKept_state fun _ => keeps_ite _ (ringKept_pure _) (ringKept_bind (ringKept_countTx _) fun _ =>
    ringKept_bind ringKept_port fun _ => ringKept_txKick)

theorem ringKept_txStop : txStop.Keeps (RingKept heads tails) := by
  refine ringKept_after portKept_requireRunning fun _ => ringKept_state fun s => ?_
  cases s.params.mode with
  | poll => exact ringKept_of_portKept (portKept_setTxim _)
  | dma => exact ringKept_after portKept_dmaStopTx fun _ => ringKept_port

/-! The ReceiveEngine leaves the ring. -/

theorem ringKept_receiveChar (ch : Byte) (st : Status) :
    (receiveChar ch st).Keeps (RingKept heads tails) :=
  ringKept_bind (ringKept_countRx 1) fun _ => ringKept_bind (ringKept_countClass _) fun _ =>
    ringKept_state fun _ => keeps_ite _
      (ringKept_after (portKept_bind portKept_draw fun _ => portKept_pure _) fun _ =>
        keeps_ite _ (ringKept_pure _) (ringKept_pure _)) (ringKept_pure _)

theorem ringKept_pollLoop (fuel count : Nat) (batch : List (Byte × Flag)) :
    (pollLoop fuel count batch).Keeps (RingKept heads tails) := by
  induction fuel generalizing count batch with
  | zero => exact ringKept_pure _
  | succ fuel ih =>
    exact ringKept_state fun _ => keeps_ite _ (ringKept_pure _) (ringKept_after (portKept_rd _) fun _ =>
      keeps_ite _ (ringKept_pure _) (ringKept_after portKept_readDr fun _ =>
        ringKept_bind (ringKept_receiveChar _ _) fun _ => ih _ _))

theorem ringKept_rxPollEvent : rxPollEvent.Keeps (RingKept heads tails) :=
  ringKept_state fun _ => ringKept_bind (ringKept_pollLoop _ _ _) fun _ =>
    keeps_ite _ (ringKept_deliver _) (ringKept_pure _)

theorem ringKept_rxDmaEvent : rxDmaEvent.Keeps (RingKept heads tails) :=
  ringKept_state fun _ => keeps_ite _ (ringKept_pure _) (ringKept_after portKept_dmaStopRx fun _ =>
    ringKept_bind ringKept_port fun _ => ringKept_after portKept_dmaRemaining.1 fun _ =>
      ringKept_after portKept_dmaRemaining.2 fun _ => ringKept_after (portKept_dmaArmRx _) fun _ =>
        keeps_ite _ (ringKept_bind ringKept_port fun _ => ringKept_port) (ringKept_pure _))

theorem ringKept_recheck : recheck.Keeps (RingKept heads tails) :=
  ringKept_bind ringKept_port fun _ => ringKept_rxDmaEvent

theorem ringKept_taskCopy (k : Task) : (taskCopy k).Keeps (RingKept heads tails) :=
  ringKept_state fun _ => keeps_ite _ (ringKept_of_portKept (portKept_raise _))
    (ringKept_after (portKept_memRead _ _) fun _ => ringKept_bind (ringKept_deliver _) fun _ =>
      ringKept_port)

theorem ringKept_taskFinish (k : Task) : (taskFinish k).Keeps (RingKept heads tails) :=
  ringKept_bind (ringKept_countRx _) fun _ => ringKept_port

/-! The dispatcher may kick. -/

theorem ringKept_routePoll (mis : Word) : (routePoll mis).Keeps (RingKept heads True) :=
  ringKept_state fun _ => keeps_when RingKept.trans ringKept_rxPollEvent fun _ =>
    keeps_ite _ ringKept_txKick (ringKept_pure _)

theorem ringKept_routeDma (mis : Word) : (routeDma mis).Keeps (RingKept heads True) :=
  ringKept_state fun _ => ringKept_after portKept_dmaQueryAckRx fun _ =>
    keeps_when RingKept.trans ringKept_rxDmaEvent fun _ =>
      ringKept_after portKept_dmaQueryAckTx fun _ => keeps_ite _ ringKept_txDmaDone (ringKept_pure _)

theorem ringKept_irqDispatch : irqDispatch.Keeps (RingKept heads True) := by
  refine ringKept_state fun s => ringKept_after (portKept_rd _) fun _ =>
    ringKept_after (portKept_regWrite _ _) fun _ => ?_
  cases s.params.mode with
  | poll => exact ringKept_routePoll _
  | dma => exact ringKept_routeDma _

theorem ringKept_lineApply (line : LineFormat) (policy : Policy) (baud : Nat) :
    (lineApply line policy baud).Keeps (RingKept heads tails) :=
  ringKept_state fun _ => ringKept_after (portKept_baudCalc _ _) fun _ =>
    ringKept_after (portKept_commitLine _ _ _) fun _ => ringKept_after (portKept_regWrite _ _) fun _ =>
      ringKept_bind ringKept_port fun _ => ringKept_pure _

end ringKept

/-- The commands that may move `head` or write the storage: those of the producer, and the two that
reset the ring. -/
def movesHead : Instr → Prop
  | .write _ | .rbTryEnqueue _ | .startup | .shutdown => True
  | _ => False

/-- The commands that may move `tail`: those of the TransmitEngine, its dequeue, and the two that reset
the ring. -/
def movesTail : Instr → Prop
  | .txKick | .txDmaDone | .irqDispatch | .rbDequeueUpTo _ | .startup | .shutdown => True
  | _ => False

theorem movesHead_cases {i : Instr} (h : movesHead i) :
    (∃ d, i = .write d) ∨ (∃ b, i = .rbTryEnqueue b) ∨ i = .startup ∨ i = .shutdown := by
  cases i with
  | write d => exact .inl ⟨d, rfl⟩
  | rbTryEnqueue b => exact .inr (.inl ⟨b, rfl⟩)
  | startup => exact .inr (.inr (.inl rfl))
  | shutdown => exact .inr (.inr (.inr rfl))
  | _ => exact False.elim h

theorem movesTail_cases {i : Instr} (h : movesTail i) : i = .txKick ∨ i = .txDmaDone
    ∨ i = .irqDispatch ∨ (∃ n, i = .rbDequeueUpTo n) ∨ i = .startup ∨ i = .shutdown := by
  cases i with
  | txKick => exact .inl rfl
  | txDmaDone => exact .inr (.inl rfl)
  | irqDispatch => exact .inr (.inr (.inl rfl))
  | rbDequeueUpTo n => exact .inr (.inr (.inr (.inl ⟨n, rfl⟩)))
  | startup => exact .inr (.inr (.inr (.inr (.inl rfl))))
  | shutdown => exact .inr (.inr (.inr (.inr (.inr rfl))))
  | _ => exact False.elim h

section commands

variable {heads tails : Prop} {s t : State}

theorem ringKept_perform {body : Op (List Word)} (hb : body.Keeps (RingKept heads tails))
    (h : perform body s = .next t) : RingKept heads tails s t :=
  perform_ends (hb.ends s) (fun _ _ hu => { hu with }) h

theorem ringKept_performUnit {body : Op Unit} (hb : body.Keeps (RingKept heads tails))
    (h : performUnit body s = .next t) : RingKept heads tails s t :=
  ringKept_perform (ringKept_bind hb fun _ => ringKept_pure _) h

/-- A command that issues nothing leaves the state as it is. -/
theorem ringKept_self (h : Host.Outcome.next (φ := Fault) (ρ := Refusal) s = .next t) :
    RingKept heads tails s t := by
  cases h
  exact .refl s

/-- Every command leaves the indices it does not move. -/
theorem exec_ringKept {i : Instr} (h : exec i s = .next t) :
    RingKept (movesHead i) (movesTail i) s t := by
  cases i with
  | baudCalc c b =>
    exact ringKept_perform (ringKept_after (portKept_baudCalc _ _) fun _ => ringKept_pure _) h
  | maskCalc policy => exact ringKept_perform (ringKept_pure _) h
  | lineApply line policy baud => exact ringKept_perform (ringKept_lineApply line policy _) h
  | write data =>
    rw [exec, execWrite] at h
    refine performSilent_ends (Op.Keeps.ends ?_ s) h
    exact ringKept_after portKept_requireRunning fun _ => ringKept_bind (ringKept_writeLoop data)
      fun acc => ringKept_of_portKept
        (Op.Keeps.of_update (fun u => { u with writeOwed := some acc }) fun _ => .of_eq rfl)
  | setBreak on => exact ringKept_performUnit (ringKept_of_portKept (portKept_setBreak on)) h
  | queryTxEmpty =>
    exact ringKept_perform (ringKept_state fun _ => ringKept_after (portKept_rd _) fun _ =>
      ringKept_pure _) h
  | startup | shutdown => exact .of_both
  | setTtyStopped on =>
    rw [exec, execSetTtyStopped] at h
    exact ringKept_performUnit ringKept_port h
  | txKick => exact ringKept_performUnit ringKept_txKick h
  | txStop => exact ringKept_performUnit ringKept_txStop h
  | rbTryEnqueue b =>
    exact ringKept_perform (ringKept_bind (ringKept_ringEnqueue b) fun _ => ringKept_pure _) h
  | rbDequeueUpTo n =>
    exact ringKept_perform (ringKept_bind (ringKept_ringDequeue _) fun _ => ringKept_pure _) h
  | rbPendingCount =>
    rw [exec, execRbPendingCount] at h
    exact ringKept_perform (ringKept_state fun _ => ringKept_pure _) h
  | rbIsEmpty =>
    rw [exec, execRbIsEmpty] at h
    exact ringKept_perform (ringKept_state fun _ => ringKept_pure _) h
  | irqDispatch =>
    simp only [exec, execIrqDispatch] at h
    split at h
    · exact ringKept_performUnit ringKept_irqDispatch h
    · exact ringKept_self h
  | txDmaDone => exact ringKept_performUnit ringKept_txDmaDone h
  | rxPollEvent => exact ringKept_performUnit ringKept_rxPollEvent h
  | rxDmaEvent =>
    simp only [exec, execRxDmaEvent] at h
    split at h
    · split at h
      · exact ringKept_performUnit ringKept_recheck h
      · exact ringKept_self h
    · exact ringKept_performUnit ringKept_rxDmaEvent h
  | rxTaskCopy =>
    simp only [exec, execRxTaskCopy] at h
    split at h
    · exact ringKept_performUnit (ringKept_taskCopy _) h
    · exact ringKept_self h
  | rxTaskFinish =>
    simp only [exec, execRxTaskFinish] at h
    split at h
    · exact ringKept_performUnit (ringKept_taskFinish _) h
    · exact ringKept_self h
  | rxClassify st => exact ringKept_perform (ringKept_pure _) h
  | rxFlag st =>
    rw [exec, execRxFlag] at h
    exact ringKept_perform (ringKept_state fun _ => ringKept_pure _) h

/-- The second step of WRITE kicks: it may move `tail` and nothing else of the ring. -/
theorem finishWrite_ringKept {acc : Nat} (h : finishWrite acc s = .next t) : RingKept False True s t := by
  have hrun : RingKept False True { s with writeOwed := none } t :=
    ringKept_perform (ringKept_bind ringKept_txKick fun _ => ringKept_pure _) h
  exact { hrun with }

end commands

/-! ### STARTUP and SHUTDOWN reset both indices (40_ringbuffer R117, 45_port_control R203, R204) -/

/-- Both indices are 0. -/
def RingReset (s : State) : Prop := s.port.head = 0 ∧ s.port.tail = 0

theorem RingKept.reset {s t : State} (h : RingKept False False s t) (hs : RingReset s) : RingReset t :=
  ⟨(h.produced id).1.trans hs.1, (h.consumed id).trans hs.2⟩

theorem Op.Ends.mono {α : Type} {x : Op α} {s : State} {P Q : State → Prop} (h : x.Ends s P)
    (hPQ : ∀ t, P t → Q t) : x.Ends s Q := by
  unfold Op.Ends at h ⊢
  cases e : x s <;> rw [e] at h <;> exact hPQ _ h

/-- STARTUP clears the ring first; all that follows leaves it, a fault of an unsound channel too. -/
theorem startup_resets {s : State} (h : s.port.life ≠ .running) : startup.Ends s RingReset := by
  rw [startup_eq]
  refine ends_bind_ok (theState_run s) ?_
  rw [if_neg h]
  refine ends_bind_ok (modifyPort_run _ s) (Op.Ends.mono (Op.Keeps.ends ?_ _)
    fun t (ht : RingKept False False (s.setPort Port.cleared) t) => ht.reset ⟨rfl, rfl⟩)
  exact ringKept_after (portKept_regWrite _ _) fun _ => ringKept_after (portKept_regWrite _ _) fun _ =>
    ringKept_after (portKept_regWrite _ _) fun _ => ringKept_after (portKept_recommit _) fun _ =>
      ringKept_after (portKept_regWrite _ _) fun _ => ringKept_after (portKept_openMode _) fun _ =>
        ringKept_port

/-- No environment step can raise a fault: in poll mode no channel moves, in dma mode both are sound. -/
def EnvSafe (s : State) : Prop := s.params.mode = .dma → channelsOk s = true

/-- The parameters stay, and a receive channel that does not run is not started. -/
structure Halted (s t : State) : Prop where
  params : t.params = s.params
  stays : s.drx.run = false → t.drx.run = false

theorem Halted.refl (s : State) : Halted s s := ⟨rfl, id⟩

theorem Halted.trans (s t u : State) (h : Halted s t) (k : Halted t u) : Halted s u :=
  ⟨k.params.trans h.params, k.stays ∘ h.stays⟩

theorem Halted.of_eq {s t : State} (hp : t.params = s.params) (hd : t.drx = s.drx) : Halted s t :=
  ⟨hp, fun h => by rw [hd]; exact h⟩

theorem halted_setRis (k : Nat) : (setRis k).Keeps Halted := keeps_modifyUart fun _ => .of_eq rfl rfl

theorem halted_dmaRxStep : dmaRxStep.Keeps Halted := by
  intro s
  cases hrun : s.drx.run with
  | false =>
    rw [dmaRxStep_idle hrun]
    exact .refl s
  | true =>
    exact (onward_dmaRxStep.ends s).mono fun t ht => ⟨ht.params, fun h => by simp [hrun] at h⟩

theorem halted_envStep (e : EnvStep) : (envStep e).Keeps Halted := by
  cases e with
  | uartTx told =>
    intro s
    rcases uartTransmit_run told s with e | ⟨b, rest, sent, ris, n, -, -, -, -, -, e⟩ <;>
      rw [envStep, e] <;> exact .of_eq rfl rfl
  | uartRx b st =>
    intro s
    rcases uartReceive_run b st s with e | ⟨-, -, -, e⟩ <;> rw [envStep, e] <;> exact .of_eq rfl rfl
  | dmaTx =>
    exact dmaTxStep_keeps Halted.refl Halted.trans (fun _ _ => .of_eq rfl rfl)
      (fun _ _ => .of_eq rfl rfl) fun _ => .of_eq rfl rfl
  | dmaRx => exact halted_dmaRxStep
  | raiseRx | raiseRt | raiseTx =>
    exact keeps_bind Halted.trans (keeps_theState Halted.refl) fun _ =>
      keeps_ite _ (halted_setRis _) (keeps_pure Halted.refl _)
  | raiseErr k =>
    exact keeps_bind Halted.trans (keeps_theState Halted.refl) fun _ => halted_setRis _

theorem halted_gap : gap.Keeps Halted :=
  gap_keeps Halted.refl Halted.trans halted_envStep fun _ _ => .of_eq rfl rfl

section envSafe

variable {s : State}

theorem EnvSafe.of_poll (h : s.params.mode = .poll) : EnvSafe s := fun hm => by simp [h] at hm

/-- What leaves the parameters, the landing slot and the channels leaves a state safe. -/
theorem EnvSafe.of_eq {t : State} (h : EnvSafe s) (hp : t.params = s.params) (hq : t.port = s.port)
    (hx : t.dtx = s.dtx) (hr : t.drx = s.drx) : EnvSafe t := by
  intro hm
  rw [channelsOk_congr hp (by rw [hq]) hx hr]
  exact h (by rw [← hp]; exact hm)

theorem EnvSafe.gap (h : EnvSafe s) : gap.Runs s fun _ t => EnvSafe t ∧ Halted s t := by
  cases hm : s.params.mode with
  | poll =>
    obtain ⟨t, e, -, -⟩ := gap_poll hm
    have hh := halted_gap.ok e
    exact ⟨(), t, e, .of_poll (by rw [hh.params]; exact hm), hh⟩
  | dma =>
    obtain ⟨t, e, hleaves⟩ := gap_leaves (h hm)
    exact ⟨(), t, e, fun _ => hleaves.channels, halted_gap.ok e⟩

/-- A control register is stored without a fault, and the block and the channels stay (20_memory R65). -/
theorem storeReg_control {r : Reg} (hr : r ∉ [.dr, .fr, .ris, .mis]) (v : Word) (s : State) :
    ∃ u n, storeReg r v s = .ok () { s with uart := u, draws := n } := by
  cases r with
  | dr | fr | ris | mis => exact absurd hr (by decide)
  | lcrh =>
    obtain ⟨xs, ys, n, e, -, -, -⟩ := storeLcrh_run v s
    exact ⟨_, n, e⟩
  | ibrd | fbrd | ctl | ifls | im | icr | dmactl => exact ⟨_, s.draws, rfl⟩

theorem EnvSafe.regWrite (h : EnvSafe s) {r : Reg} (hr : r ∉ [.dr, .fr, .ris, .mis]) (v : Word) :
    (regWrite r v).Runs s fun _ t => EnvSafe t ∧ Halted s t := by
  obtain ⟨_, t, e, ht, hh⟩ := h.gap
  obtain ⟨u, n, hstore⟩ := storeReg_control hr v t
  exact ⟨(), _, (op_bind_ok e).trans hstore, ht.of_eq rfl rfl rfl rfl,
    hh.trans _ _ _ (.of_eq rfl rfl)⟩

theorem EnvSafe.rd (h : EnvSafe s) (r : Reg) : (rd r).Runs s fun _ t => EnvSafe t := by
  obtain ⟨_, t, e, ht, -⟩ := h.gap
  exact ⟨_, t, op_bind_ok e, ht⟩

theorem EnvSafe.dmaStopTx (h : EnvSafe s) :
    dmaStopTx.Runs s fun _ t => EnvSafe t ∧ Halted s t := by
  obtain ⟨_, t, e, ht, hh⟩ := h.gap
  refine ⟨(), _, dmaStopTx_run e, fun hm => ?_, hh.trans _ _ _ (.of_eq rfl rfl)⟩
  exact (channelsOk_iff _).mpr ⟨(by cases ·), ((channelsOk_iff t).mp (ht hm)).2⟩

theorem EnvSafe.dmaStopRx (h : EnvSafe s) :
    dmaStopRx.Runs s fun _ t => EnvSafe t ∧ t.drx.run = false := by
  obtain ⟨_, t, e, ht, -⟩ := h.gap
  refine ⟨(), _, dmaStopRx_run e, fun hm => ?_, rfl⟩
  exact (channelsOk_iff _).mpr ⟨((channelsOk_iff t).mp (ht hm)).1, (by cases ·)⟩

/-- With the receive channel stopped the landing slot is free to change. -/
theorem EnvSafe.idled (h : EnvSafe s) (hrun : s.drx.run = false) : EnvSafe (s.setPort Port.idled) :=
  fun hm => (channelsOk_iff _).mpr
    ⟨((channelsOk_iff s).mp (h hm)).1, fun hgo => absurd hgo (by simp [hrun])⟩

/-- SHUTDOWN stops the channels of dma mode before it gives up the transfers. -/
theorem EnvSafe.closeMode (h : EnvSafe s) :
    (closeMode s.params).Runs s fun _ t => EnvSafe (t.setPort Port.idled) := by
  unfold Machine.closeMode
  cases hm : s.params.mode with
  | poll => exact runs_pure (.of_poll hm)
  | dma =>
    refine runs_bind h.dmaStopTx fun _ t1 h1 => runs_bind h1.1.dmaStopRx fun _ t2 h2 => ?_
    obtain ⟨hsafe, hrun⟩ := h2
    exact runs_mono (hsafe.regWrite (r := .dmactl) (by decide) 0) fun _ t3 h3 =>
      h3.1.idled (h3.2.stays hrun)

/-- With no fault in between SHUTDOWN reaches its last write, which resets the indices. -/
theorem shutdown_resets (hl : s.port.life = .running) (h : EnvSafe s) :
    shutdown.Runs s fun _ t => RingReset t := by
  rw [shutdown_eq]
  refine runs_bind_ok (requireRunning_of_running hl) (runs_bind_ok (theState_run s) ?_)
  refine runs_bind (h.regWrite (r := .im) (by decide) _) fun _ t1 h1 => ?_
  refine runs_bind (h1.1.regWrite (r := .icr) (by decide) _) fun _ t2 h2 => ?_
  have hparams : t2.params = s.params := h2.2.params.trans h1.2.params
  rw [← hparams]
  refine runs_bind h2.1.closeMode fun _ t3 h3 => runs_bind_ok (modifyPort_run _ t3) ?_
  refine runs_bind (h3.regWrite (r := .ctl) (by decide) _) fun _ t4 h4 => ?_
  refine runs_bind (h4.1.rd .lcrh) fun l t5 h5 => ?_
  refine runs_bind (h5.regWrite (r := .lcrh) (by decide) _) fun _ t6 _ => ?_
  exact ⟨(), _, modifyPort_run _ t6, rfl, rfl⟩

end envSafe

/-- Settles O54: `RingKept` for each command and for the second step of WRITE; STARTUP clears the
indices before anything can fail, SHUTDOWN after everything that could. -/
theorem ringIndexOwnership : Obligations.RingIndexOwnership := by
  refine ⟨fun i s t h => ⟨fun hwrite henq hstart hstop => ?_, fun hkick hdone hirq hdeq hstart hstop => ?_⟩,
    fun acc s t h => (finishWrite_ringKept h).produced id, fun s t hl h => ?_, fun s t hl hc h => ?_⟩
  · refine (exec_ringKept h).produced fun hm => ?_
    rcases movesHead_cases hm with ⟨d, hi⟩ | ⟨b, hi⟩ | hi | hi
    · exact hwrite d hi
    · exact henq b hi
    · exact hstart hi
    · exact hstop hi
  · refine (exec_ringKept h).consumed fun hm => ?_
    rcases movesTail_cases hm with hi | hi | hi | ⟨n, hi⟩ | hi | hi
    · exact hkick hi
    · exact hdone hi
    · exact hirq hi
    · exact hdeq n hi
    · exact hstart hi
    · exact hstop hi
  · exact performUnit_ends (startup_resets hl) (fun _ _ hu => hu) h
  · exact performUnit_ends (.of_runs (shutdown_resets hl fun _ => hc)) (fun _ _ hu => hu) h

end Sys2Proof.Machine

/-! PROOFS of the family 41_baud_line: the divisor BAUD_CALC answers and how close it is to the clock, the
masks and the line-control word, and what LINE_APPLY leaves (41_baud_line R126 to R136). -/

namespace Sys2Proof.Machine

open Sys2Proof.Safety

/-! ### LINE_APPLY (41_baud_line R130, R136) -/

theorem lineApply_zero (line : LineFormat) (policy : Policy) (s : State) : lineApply line policy 0 s
    = .error .baudZero (s.setPort fun q => { q with fault := some .baudZero }) := rfl

/-- What LINE_APPLY makes of the UART: the divisor stored and latched, the line-control word derived, `CTL`
as it was read (R136). -/
def Uart.lineApplied (m : RegMap) (line : LineFormat) (d : Nat × Nat) (u : Uart) : Uart :=
  { u with
    ibrdPend := BitVec.ofNat 16 d.1, fbrdPend := BitVec.ofNat 6 d.2
    ibrdAct := BitVec.ofNat 16 d.1, fbrdAct := BitVec.ofNat 6 d.2
    lcrh := lcrhWord m line, ctl := u.ctl &&& definedMask m .ctl }

/-- What LINE_APPLY records in the block: the configuration, the commitment and the masks (R136). -/
def Port.lineApplied (m : RegMap) (line : LineFormat) (policy : Policy) (baud : Nat) (d : Nat × Nat)
    (q : Port) : Port :=
  { q with
    cfg := some ⟨line, baud, policy⟩
    committed := some ⟨baud, d.1, d.2, lcrhWord m line⟩
    readMask := (policyMasks policy).1, ignoreMask := (policyMasks policy).2 }

/-- The commit protocol and the write that restores `CTL`, under any environment (R137). -/
theorem commitLine_restore_leaves {s : State} (hp : paramsOk s.params = true) (hc : channelsOk s = true)
    (line : LineFormat) (d : Nat × Nat) :
    ∃ t, (commitLine d.1 d.2 (lcrhWord s.params.regMap line) >>= regWrite .ctl) s = .ok () t
      ∧ Leaves s t (s.setUart (Uart.lineApplied s.params.regMap line d)) := by
  have hm := regMapOk_of_paramsOk hp
  obtain ⟨u, hcommit, hu⟩ := commitLine_leaves (.start hc) rfl hm d.1 d.2 (lcrhWord_fen hm line)
  obtain ⟨t, hrestore, ht⟩ := regWrite_leaves hu rfl (r := .ctl)
    (v := s.uart.ctl &&& definedMask s.params.regMap .ctl)
    (fun w => { w with ctl := s.uart.ctl &&& definedMask s.params.regMap .ctl })
    (fun x hx => by
      have hx' : x.params = s.params := hx
      rw [storeReg_ctl, hx', and_definedMask_self])
    (regs_congr (fun r => { r with ctl := _ }) fun _ => rfl)
  rw [lcrhWord_defined] at ht
  exact ⟨t, (op_bind_ok hcommit).trans hrestore, ht⟩

/-- LINE_APPLY with a baud that is not 0, under any environment (R136). -/
theorem lineApply_leaves {s : State} (hp : paramsOk s.params = true) (hc : channelsOk s = true)
    (line : LineFormat) (policy : Policy) {b : Nat} (hb : b ≠ 0) :
    let m := s.params.regMap
    let d := baudDivisor s.params s.params.clk b
    ∃ t, lineApply line policy b s
        = .ok [natWord (clampBaud s.params b), natWord d.1, natWord d.2, lcrhWord m line] t
      ∧ Leaves s t ((s.setUart (Uart.lineApplied m line d)).setPort
          (Port.lineApplied m line policy (clampBaud s.params b) d)) := by
  intro m d
  obtain ⟨t, hrun, ht⟩ := commitLine_restore_leaves hp hc line d
  refine ⟨t.setPort (Port.lineApplied m line policy (clampBaud s.params b) d), ?_,
    ht.setPort _ ((channelsOk_congr (s := t) rfl rfl rfl rfl).trans ht.channels)⟩
  rw [lineApply, theState_bind, op_bind_ok (baudCalc_run _ s hb)]
  dsimp only
  rw [← op_bind_assoc, op_bind_ok hrun, modifyPort_bind]
  rfl

/-- Settles O27: the zero baud faults before any effect; any other follows from `lineApply_leaves`. -/
theorem lineApplyCommits : Obligations.LineApplyCommits := by
  refine fun s line policy b => ⟨fun hb => ?_, fun hb hp hc => ?_⟩
  · subst hb
    exact perform_error (lineApply_zero line policy s)
  · obtain ⟨t, hrun, ht⟩ := lineApply_leaves hp hc line policy (BitVec.toNat_ne_iff_ne.mpr hb)
    exact ⟨_, perform_ok hrun, ht.reply _⟩

/-! ### BAUD_CALC (41_baud_line R126 to R129) -/

theorem baudCalc_fault (c : Word) (s : State) : exec (.baudCalc c 0) s
    = .next (s.setPort fun q => { q with fault := some .baudZero }) := rfl

theorem baudCalc_answer {b : Word} (c : Word) (s : State) (hb : b ≠ 0) : exec (.baudCalc c b) s
    = .next (s.reply (.result [natWord (baudDivisor s.params c.toNat b.toNat).1,
        natWord (baudDivisor s.params c.toNat b.toNat).2])) :=
  perform_ok (op_bind_ok (baudCalc_run _ s (BitVec.toNat_ne_iff_ne.mpr hb)))

/-- The value 64 of the fraction is carried in `carry` mode only (R128). -/
theorem frac64_eq (mode : Frac64) (brdi frac : Nat) : frac64 mode brdi frac
    = if mode = .carry ∧ frac = 64 then (brdi + 1, 0) else (brdi, frac) := by
  cases mode <;> simp [frac64]

/-- Settles O24: BAUD_CALC answers the pair of `baudDivisor`, which `frac64_eq` takes apart. -/
theorem baudCalcResult : Obligations.BaudCalcResult := by
  refine fun s c b => ⟨fun hb => hb ▸ baudCalc_fault c s, fun hb => ?_⟩
  rw [baudCalc_answer c s hb, baudDivisor, clampBaud, frac64_eq]
  dsimp only
  split <;> rfl

/-- The pair counts the same 64ths in both modes (R128). -/
theorem frac64_sixtyFourths (mode : Frac64) (brdi frac : Nat) :
    64 * (frac64 mode brdi frac).1 + (frac64 mode brdi frac).2 = 64 * brdi + frac := by
  rw [frac64_eq]
  split
  next h => simp only [h.2]; omega
  next => rfl

theorem frac64_snd_le (mode : Frac64) (brdi frac : Nat) : (frac64 mode brdi frac).2 ≤ frac := by
  rw [frac64_eq]
  split <;> simp

theorem frac64_fst_le (mode : Frac64) (brdi frac : Nat) : (frac64 mode brdi frac).1 ≤ brdi + 1 := by
  rw [frac64_eq]
  split <;> simp

/-- A quotient rounded half up is within half the divisor of what was divided. -/
theorem roundHalfUp_error {den : Nat} (hden : 0 < den) (x : Nat) :
    2 * |(x : Int) - ((x + den / 2) / den : Nat) * den| ≤ den := by
  have hsplit := Nat.div_add_mod' (x + den / 2) den
  have hmod := Nat.mod_lt (x + den / 2) hden
  rw [← Nat.cast_mul, abs_eq_max_neg]
  omega

/-- The remainder in 64ths, rounded, is at most 64 (R127). -/
theorem roundHalfUp_sixtyFourths_le {den rem : Nat} (h : rem < den) :
    (rem * 64 + den / 2) / den ≤ 64 := by
  rw [← Nat.lt_succ_iff, Nat.div_lt_iff_lt_mul (by omega)]
  omega

section divisor

variable {p : Params} {b : Nat}

theorem clampBaud_pos (hb : b ≠ 0) (hp : 1 ≤ p.maxBaud) : 0 < clampBaud p b := by
  unfold clampBaud
  omega

/-- The error of the divisor is that of the rounding: the integer quotient is exact (R129). -/
theorem baudDivisor_error (c : Nat) (h : 0 < clampBaud p b) :
    2 * |64 * (c : Int) - (64 * ((baudDivisor p c b).1 : Int) + ((baudDivisor p c b).2 : Int))
      * ((clampBaud p b * 16 : Nat) : Int)| ≤ ((clampBaud p b * 16 : Nat) : Int) := by
  unfold baudDivisor
  generalize hd : clampBaud p b * 16 = den
  have hround := roundHalfUp_error (den := den) (by omega) ((c - den * (c / den)) * 64)
  have hcount := frac64_sixtyFourths p.frac64 (c / den) (((c - den * (c / den)) * 64 + den / 2) / den)
  have hle : den * (c / den) ≤ c := Nat.mul_div_le c den
  dsimp only
  zify [hle] at hcount hround ⊢
  rw [hcount]
  calc _ = _ := by congr 2; ring
    _ ≤ _ := hround

theorem baudDivisor_snd_le (c : Nat) (h : 0 < clampBaud p b) : (baudDivisor p c b).2 ≤ 64 := by
  refine (frac64_snd_le ..).trans (roundHalfUp_sixtyFourths_le ?_)
  rw [← Nat.mod_eq_sub]
  exact Nat.mod_lt c (by omega)

/-- A divisor of a clock that fits a word fits a word, since the denominator is at least 16 (R127). -/
theorem baudDivisor_fst_lt {c : Nat} (hc : c < 2 ^ 32) (h : 0 < clampBaud p b) :
    (baudDivisor p c b).1 < 2 ^ 32 := by
  have hfst : (baudDivisor p c b).1 ≤ c / (clampBaud p b * 16) + 1 := frac64_fst_le ..
  have hquot : c / (clampBaud p b * 16) ≤ c / 16 := Nat.div_le_div_left (by omega) (by decide)
  omega

end divisor

theorem natWord_toNat {n : Nat} (h : n < 2 ^ 32) : (natWord n).toNat = n := Nat.mod_eq_of_lt h

/-- Settles O25: both parts of the divisor fit their words, and its error is that of the rounding. -/
theorem baudCalcIsAccurate : Obligations.BaudCalcIsAccurate := by
  intro s c b hb hmax
  have hclamp := clampBaud_pos (BitVec.toNat_ne_iff_ne.mpr hb) hmax
  have hsnd := baudDivisor_snd_le c.toNat hclamp
  refine ⟨_, _, baudCalc_answer c s hb, ?_⟩
  rw [natWord_toNat (baudDivisor_fst_lt c.isLt hclamp), natWord_toNat (by omega)]
  exact ⟨hsnd, by simpa [clampBaud] using baudDivisor_error c.toNat hclamp⟩

/-! ### MASK_CALC (41_baud_line R135) -/

theorem maskCalc_answer (p : Policy) (s : State) : exec (.maskCalc p) s
    = .next (s.reply (.result [(policyMasks p).1.zeroExtend 32, (policyMasks p).2.zeroExtend 32])) := rfl

/-- The read mask class by class (R135). -/
theorem readMask_bits (p : Policy) : (policyMasks p).1.getLsbD 3 = true
    ∧ (policyMasks p).1.getLsbD 2 = p.rptBrk
    ∧ (policyMasks p).1.getLsbD 1 = p.chkPar ∧ (policyMasks p).1.getLsbD 0 = p.chkPar := by
  obtain ⟨ignPar, ignBrk, chkPar, rptBrk⟩ := p
  revert ignPar ignBrk chkPar rptBrk
  decide

/-- The ignore mask class by class (R135). -/
theorem ignoreMask_bits (p : Policy) : (policyMasks p).2.getLsbD 3 = (p.ignPar && p.ignBrk)
    ∧ (policyMasks p).2.getLsbD 2 = p.ignBrk
    ∧ (policyMasks p).2.getLsbD 1 = p.ignPar ∧ (policyMasks p).2.getLsbD 0 = p.ignPar := by
  obtain ⟨ignPar, ignBrk, chkPar, rptBrk⟩ := p
  revert ignPar ignBrk chkPar rptBrk
  decide

/-! ### The line-control word (41_baud_line R131 to R134) -/

theorem parityBits_eq (q : Parity) :
    parityBits q = (q != .none, q == .even || q == .space, q == .mark || q == .space) := by
  cases q <;> rfl

/-- Two fields of a register in a sound layout share no bit (10_state R33). -/
theorem fields_apart {m : RegMap} (h : regMapOk m = true) {r : Reg} {f g : Nat × Nat}
    (hf : f ∈ fieldsOf m r) (hg : g ∈ fieldsOf m r) (hne : f ≠ g) :
    f.1 + f.2 ≤ g.1 ∨ g.1 + g.2 ≤ f.1 :=
  have : Std.Symm fun f g : Nat × Nat => f.1 + f.2 ≤ g.1 ∨ g.1 + g.2 ≤ f.1 := ⟨fun _ _ => Or.symm⟩
  (regMapOk_fields h r).2.forall hf hg hne

theorem fields_nodup {m : RegMap} (h : regMapOk m = true) (r : Reg) :
    ((fieldsOf m r).map Prod.fst).Nodup := by
  have hwide : ∀ f ∈ fieldsOf m r, 0 < f.2 := by cases r <;> simp [fieldsOf]
  rw [List.Nodup, List.pairwise_map]
  refine (regMapOk_fields h r).2.imp_of_mem fun hf hg hfg => ?_
  have hf' := hwide _ hf
  have hg' := hwide _ hg
  omega

section lcrh

variable {m : RegMap}

/-- No other field of `LCRH` reaches into `WLEN`. -/
theorem wlen_apart (h : regMapOk m = true) {b : Nat} (hb : (b, 1) ∈ fieldsOf m .lcrh) :
    b < m.wlen ∨ m.wlen + 2 ≤ b :=
  fields_apart h hb (g := (m.wlen, 2)) (by simp [fieldsOf]) (by simp)

/-- A one-bit field of `LCRH` in the line-control word (R134). -/
theorem getLsbD_lcrhWord (h : regMapOk m = true) (l : LineFormat) {k : Nat}
    (hk : (k, 1) ∈ fieldsOf m .lcrh) : (lcrhWord m l).getLsbD k
      = (decide (k = m.sps) && (l.parity == .mark || l.parity == .space)
        || (decide (k = m.fen) || (decide (k = m.stp2) && (l.stop == 2)
        || (decide (k = m.eps) && (l.parity == .even || l.parity == .space)
        || decide (k = m.pen) && (l.parity != .none))))) := by
  have hin : k < 32 := (regMapOk_fields h .lcrh).1 _ hk
  have hlen : (putField m.wlen (BitVec.ofNat 2 (l.wlen - 5))).getLsbD k = false := by
    rw [getLsbD_putField]
    rcases wlen_apart h hk with hlow | hhigh
    · simp [Nat.not_le.mpr hlow]
    · rw [BitVec.getLsbD_of_ge _ _ (by omega), Bool.and_false]
  rw [lcrhWord, parityBits_eq]
  simp only [BitVec.getLsbD_or, hlen, getLsbD_putBit, hin, decide_true, Bool.true_and, Bool.false_or,
    Bool.and_true]

/-- The one-bit fields of the line-control word (R131 to R134). -/
theorem lcrhWord_bits (h : regMapOk m = true) (l : LineFormat) :
    (lcrhWord m l).getLsbD m.brk = false
      ∧ (lcrhWord m l).getLsbD m.pen = (l.parity != .none)
      ∧ (lcrhWord m l).getLsbD m.eps = (l.parity == .even || l.parity == .space)
      ∧ (lcrhWord m l).getLsbD m.stp2 = (l.stop == 2)
      ∧ (lcrhWord m l).getLsbD m.sps = (l.parity == .mark || l.parity == .space) := by
  have hne := fields_nodup h .lcrh
  simp only [fieldsOf, List.map_cons, List.map_nil, List.nodup_cons, List.mem_cons, List.not_mem_nil,
    or_false, not_or] at hne
  refine ⟨?_, ?_, ?_, ?_, ?_⟩ <;> rw [getLsbD_lcrhWord h l (by simp [fieldsOf])] <;> grind

/-- `WLEN` of the line-control word (R131). -/
theorem extract_wlen_lcrhWord (h : regMapOk m = true) (l : LineFormat) :
    (lcrhWord m l).extractLsb' m.wlen 2 = BitVec.ofNat 2 (l.wlen - 5) := by
  have hin : m.wlen + 2 ≤ 32 := (regMapOk_fields h .lcrh).1 (m.wlen, 2) (by simp [fieldsOf])
  apply BitVec.eq_of_getLsbD_eq
  intro k hk
  have hout : ∀ b ∈ [m.sps, m.fen, m.stp2, m.eps, m.pen], m.wlen + k ≠ b := by
    intro b hb
    have := wlen_apart h (b := b) (by grind [fieldsOf])
    omega
  simp only [List.forall_mem_cons] at hout
  rw [lcrhWord, parityBits_eq]
  simp only [BitVec.getLsbD_extractLsb', BitVec.getLsbD_or, getLsbD_putField, getLsbD_putBit]
  simp [hk, hout, show m.wlen + k < 32 by omega]

end lcrh

/-- In the default layout the fields are the digits of a byte (R134). -/
theorem lm3s_lcrh_byte : ∀ (sps stp2 eps pen : Bool) (wlen : BitVec 2),
    (putBit RegMap.lm3s.sps sps ||| (putField RegMap.lm3s.wlen wlen
      ||| (putBit RegMap.lm3s.fen true ||| (putBit RegMap.lm3s.stp2 stp2
      ||| (putBit RegMap.lm3s.eps eps ||| putBit RegMap.lm3s.pen pen))))).toNat
      = 128 * sps.toNat + 32 * wlen.toNat + 16 + 8 * stp2.toNat + 4 * eps.toNat + 2 * pen.toNat := by
  decide

theorem parity_weights (q : Parity) :
    128 * (q == .mark || q == .space).toNat = (if q = .mark ∨ q = .space then 128 else 0)
      ∧ 4 * (q == .even || q == .space).toNat = (if q = .even ∨ q = .space then 4 else 0)
      ∧ 2 * (q != .none).toNat = (if q = .none then 0 else 2) := by
  cases q <;> decide

theorem stop_weight (n : Nat) : 8 * (n == 2).toNat = if n = 2 then 8 else 0 := by
  by_cases h : n = 2 <;> simp [h]

theorem wlen_toNat {l : LineFormat} (h : l.wf = true) : (BitVec.ofNat 2 (l.wlen - 5)).toNat = l.wlen - 5 := by
  obtain ⟨⟨hlow, hhigh⟩, -⟩ := l.wf_iff.mp h
  exact Nat.mod_eq_of_lt (by omega)

/-- Settles O26: the masks class by class, the line-control word field by field, and its byte in the
default layout. -/
theorem masksAndLineControlByte : Obligations.MasksAndLineControlByte := by
  refine ⟨fun s p => ?_, fun m l hm hl => ?_, fun l hl => ?_⟩
  · obtain ⟨hoe, hbe, hpe, hfe⟩ := readMask_bits p
    exact ⟨_, _, maskCalc_answer p s, rfl, hoe, hbe, hpe, hfe, ignoreMask_bits p⟩
  · obtain ⟨hbrk, hpen, heps, hstp2, hsps⟩ := lcrhWord_bits hm l
    refine ⟨lcrhWord_defined m l, hbrk, hpen, heps, hstp2, lcrhWord_fen hm l, ?_, hsps⟩
    rw [extract_wlen_lcrhWord hm, wlen_toNat hl]
  · obtain ⟨hsps, heps, hpen⟩ := parity_weights l.parity
    rw [lcrhWord, parityBits_eq, lm3s_lcrh_byte, wlen_toNat hl, hsps, stop_weight, heps, hpen]

end Sys2Proof.Machine

/-! PROOFS of the family 42_transmit: the kick in both modes, TX_STOP and TX_DMA_DONE, where `Wakeup`
events come from, and the order of the transmit line (42_transmit R147 to R155). -/

namespace Sys2Proof.Machine

open Sys2Proof.Safety

/-! ### TX_DMA_DONE (42_transmit R152) -/

/-- The block once its outstanding transfer is counted and given up (R152). -/
def Port.txCounted (q : Port) : Port :=
  { q with cntTx := q.cntTx + BitVec.ofNat 32 q.txLen, txBusy := false, txLen := 0 }

theorem txDmaDone_idle {s : State} (h : s.port.txBusy = false) : txDmaDone s = .ok () s := by
  rw [txDmaDone, theState_bind, if_pos h]
  rfl

theorem txDmaDone_busy {s : State} (h : s.port.txBusy = true) :
    txDmaDone s = txKick (s.setPort Port.txCounted) := by
  rw [txDmaDone, theState_bind, if_neg (by simp [h])]
  rfl

/-- A DMA kick that starts nothing leaves the state as it is (R149). -/
theorem txKick_dma_none {s : State} (hl : s.port.life = .running) (hm : s.params.mode = .dma)
    (h : s.pending = 0 ∨ s.port.ttyStopped = true ∨ s.port.txBusy = true) : txKick s = .ok () s := by
  rw [txKick_dma hl hm, txKickDma_none h]

/-- Settles O32: a completion that is owed is the kick of the counted state. -/
theorem dmaDoneCountsAndKicks : Obligations.DmaDoneCountsAndKicks := by
  refine fun s => ⟨fun hidle => performUnit_ok (txDmaDone_idle hidle), fun hbusy => ⟨?_, ?_⟩⟩
  · show performUnit txDmaDone s = performUnit txKick (s.setPort Port.txCounted)
    simp only [performUnit, perform, op_bind, txDmaDone_busy hbusy]
  · intro hm hl hnone
    refine performUnit_ok ((txDmaDone_busy hbusy).trans (txKick_dma_none hl hm ?_))
    exact hnone.imp_right .inl

/-! ### TX_STOP (42_transmit R153) -/

theorem txStop_dma {s : State} (hl : s.port.life = .running) (hm : s.params.mode = .dma) :
    txStop s = (dmaStopTx >>= fun _ => modifyPort fun q => { q with txBusy := false, txLen := 0 }) s := by
  rw [txStop, op_bind_ok (requireRunning_of_running hl), theState_bind]
  simp only [hm]

theorem txStop_poll {s : State} (hl : s.port.life = .running) (hm : s.params.mode = .poll) :
    txStop s = setTxim false s := by
  rw [txStop, op_bind_ok (requireRunning_of_running hl), theState_bind]
  simp only [hm]

/-- Stopping the transmit channel leaves the rest undisturbed, whatever the environment does (20_memory
R71). -/
theorem dmaStopTx_leaves {s : State} (hc : channelsOk s = true) : ∃ t, dmaStopTx s = .ok () t
    ∧ Leaves s t (s.setDtx fun d => { d with run := false, done := false })
    ∧ t.dtx.run = false ∧ t.dtx.done = false := by
  obtain ⟨u, hgap, hu⟩ := gap_leaves hc
  refine ⟨_, dmaStopTx_run hgap, hu.setDtx _ ?_, rfl, rfl⟩
  exact (channelsOk_iff _).mpr ⟨(by cases ·), ((channelsOk_iff u).mp hu.channels).2⟩

/-- Settles O33: outside RUNNING the check faults; in each mode the one primitive of the stop leaves the
rest. -/
theorem stopResult : Obligations.StopResult := by
  refine fun s => ⟨fun hl => ?_, fun hl hc => ⟨fun hm => ?_, fun hm => ?_⟩⟩
  · exact performUnit_error (op_bind_error (requireRunning_of_not_running hl))
  · obtain ⟨t, hrun, ht, hstop, hdone⟩ := dmaStopTx_leaves hc
    have hbody := (txStop_dma hl hm).trans (op_bind_ok hrun)
    exact ⟨_, performUnit_ok hbody,
      (ht.setPort (fun q => { q with txBusy := false, txLen := 0 }) ht.channels).reply _, hstop, hdone⟩
  · obtain ⟨t, hrun, ht⟩ := setTxim_leaves (.start hc) rfl false
    exact ⟨_, performUnit_ok ((txStop_poll hl hm).trans hrun), ht.reply _⟩

/-! ### The kick in DMA mode (42_transmit R149, R150) -/

/-- Environment steps that start no transmit channel. -/
def TxHalted (s t : State) : Prop := s.dtx.run = false → t.dtx = s.dtx

theorem TxHalted.refl (s : State) : TxHalted s s := fun _ => rfl

theorem TxHalted.trans (s t u : State) (h : TxHalted s t) (k : TxHalted t u) : TxHalted s u :=
  fun hrun => (k (by rw [h hrun, hrun])).trans (h hrun)

theorem TxHalted.of_eq {s t : State} (h : t.dtx = s.dtx) : TxHalted s t := fun _ => h

theorem txHalted_dmaTxStep : dmaTxStep.Keeps TxHalted := by
  intro s
  by_cases hrun : s.dtx.run = true
  · cases dmaTxStep s <;> exact fun hno => absurd hrun (by simp [hno])
  · rw [dmaTxStep_idle fun h => hrun h.2.1]
    exact .refl s

theorem txHalted_dmaRxStep : dmaRxStep.Keeps TxHalted := by
  refine keeps_bind TxHalted.trans (keeps_theState TxHalted.refl) fun s => ?_
  cases s.uart.rxf with
  | nil => exact keeps_pure TxHalted.refl _
  | cons e rest =>
    exact keeps_ite _ (keeps_ite _ (keeps_raiseFault _ fun _ => .of_eq rfl)
      (keeps_bind TxHalted.trans (keeps_modifyUart fun _ => .of_eq rfl) fun _ =>
        keeps_bind TxHalted.trans (keeps_bind TxHalted.trans (keeps_theState TxHalted.refl) fun _ =>
          keeps_ite _ (fun _ => .of_eq rfl) (keeps_raiseFault _ fun _ => .of_eq rfl)) fun _ =>
          keeps_modifyDrx fun _ => .of_eq rfl)) (keeps_pure TxHalted.refl _)

theorem txHalted_envStep (e : EnvStep) : (envStep e).Keeps TxHalted := by
  have raises (k : Nat) : (setRis k).Keeps TxHalted := keeps_modifyUart fun _ => .of_eq rfl
  cases e with
  | uartTx told =>
    intro s
    rcases uartTransmit_run told s with e | ⟨b, rest, sent, ris, n, -, -, -, -, -, e⟩ <;>
      rw [envStep, e] <;> exact .of_eq rfl
  | uartRx b st =>
    intro s
    rcases uartReceive_run b st s with e | ⟨-, -, -, e⟩ <;> rw [envStep, e] <;> exact .of_eq rfl
  | dmaTx => exact txHalted_dmaTxStep
  | dmaRx => exact txHalted_dmaRxStep
  | raiseRx | raiseRt | raiseTx =>
    exact keeps_bind TxHalted.trans (keeps_theState TxHalted.refl) fun _ =>
      keeps_ite _ (raises _) (keeps_pure TxHalted.refl _)
  | raiseErr k =>
    exact keeps_bind TxHalted.trans (keeps_theState TxHalted.refl) fun _ => raises _

theorem txHalted_gap : gap.Keeps TxHalted :=
  gap_keeps TxHalted.refl TxHalted.trans txHalted_envStep fun _ _ => .of_eq rfl

/-- A slice of `k` bytes taken from the ring (R149). -/
def Port.taken (p : Params) (k : Nat) (q : Port) : Port := { q with tail := (q.tail + k) % p.ringN }

/-- The bytes left after a slice, wherever `head` is read from: only its residue counts (10_state R25). -/
theorem pendingOf_taken {p : Params} {q : Port} {k : Nat} (ht : q.tail < p.ringN)
    (hk : k ≤ pendingOf p q) (hend : k ≤ p.ringN - q.tail) :
    pendingOf p (q.taken p k) = pendingOf p q - k := by
  have hmod (r : Port) : pendingOf p r = pendingOf p { r with head := r.head % p.ringN } :=
    (Nat.mod_add_mod _ _ _).symm
  rw [hmod q] at hk ⊢
  rw [hmod (q.taken p k)]
  exact pendingOf_dequeue (q := { q with head := q.head % p.ringN }) (Nat.mod_lt _ (by omega)) ht hk hend

/-- The next run of the ring, copied to the staging area (R149). -/
def State.staged (s : State) : State :=
  (s.setPort (Port.taken s.params s.dmaRun)).setMem
    (s.mem.writeList s.params.stageAddr (s.ringBytes s.port.tail s.dmaRun))

/-- A transfer of `k` staged bytes, started and recorded as outstanding (R149). -/
def State.started (s : State) (k : Nat) : State :=
  (s.setDtx fun _ => ⟨true, k, 0, false⟩).setPort fun q => { q with txBusy := true, txLen := k }

/-- The wakeup test with `n` bytes pending (R151). -/
def State.wokenBelow (s : State) (n : Nat) : State :=
  s.setPort fun q => { q with out := if n < s.params.lowWater then q.out ++ [.wakeup] else q.out }

theorem lowWaterTest_woken (s : State) : lowWaterTest s = .ok () (s.wokenBelow s.pending) := by
  rw [lowWaterTest_run, State.wokenBelow]
  split <;> rfl

/-- What a DMA kick needs so as to start a transfer (R149). -/
structure Starts (s : State) : Prop where
  params : paramsOk s.params = true
  dma : s.params.mode = .dma
  pending : s.pending ≠ 0
  open_ : s.port.ttyStopped = false
  free : s.port.txBusy = false
  idle : s.dtx.run = false
  tail : s.port.tail < s.params.ringN

theorem memBytes_congr {s t : State} {a n : Nat} (h : ∀ i < n, t.mem.read (a + i) = s.mem.read (a + i)) :
    t.memBytes a n = s.memBytes a n := by
  refine List.map_congr_left fun i hi => ?_
  rw [State.memByte, State.memByte, h i (List.mem_range.mp hi)]

/-- Bytes that were written read back (20_memory R61). -/
theorem memBytes_writeList {s : State} (a : Nat) (bs : List Byte) (h : s.mem.wf = true) :
    (s.setMem (s.mem.writeList a bs)).memBytes a bs.length = bs := by
  refine List.ext_getElem (memBytes_length _ _ _) fun i _ hi => ?_
  have hread : (s.mem.writeList a bs).read (a + i) = some bs[i] := by
    rw [Memory.read_writeList bs a _ h, if_pos (by omega), Nat.add_sub_cancel_left,
      List.getElem?_eq_getElem hi]
  simp only [State.memBytes, List.getElem_map, List.getElem_range, State.memByte, State.setMem_mem, hread,
    Option.getD_some]

/-- The staging area lies outside the slots (00_scope R8). -/
theorem stage_outsideSlots {p : Params} (hp : paramsOk p = true) (hm : p.mode = .dma) {i : Nat}
    (hi : i < p.stageCap) : outsideSlots p (p.stageAddr + i) := by
  obtain ⟨-, -, -, ha, hb⟩ := dmaParams_regions hp hm
  exact ⟨by omega, by omega⟩

section starts

variable {s u : State}

/-- The run is not empty, fits the staging area, and ends inside the ring storage (R150). -/
theorem Starts.run_bounds (h : Starts s) : 1 ≤ s.dmaRun ∧ s.dmaRun ≤ s.params.stageCap
    ∧ s.dmaRun ≤ s.pending ∧ s.dmaRun ≤ s.params.ringN - s.port.tail := by
  obtain ⟨hcap, -⟩ := dmaParams_regions h.params h.dma
  have := h.pending
  have := h.tail
  simp only [State.dmaRun]
  omega

theorem Starts.sliceLength (h : Starts s) : s.sliceLength s.dmaRun = s.dmaRun := by
  obtain ⟨-, -, hle, hend⟩ := h.run_bounds
  rw [State.sliceLength, Nat.min_eq_left (by omega)]

theorem Starts.pending_staged (h : Starts s) : s.staged.pending = s.pending - s.dmaRun := by
  obtain ⟨-, -, hle, hend⟩ := h.run_bounds
  exact pendingOf_taken h.tail hle hend

/-- The kick stages the run; what the environment then leaves is started, and the mark is tested once. -/
theorem Starts.txKickDma_run (h : Starts s) (hgap : gap s.staged = .ok () u)
    (hview : viewOf u = viewOf s.staged) (hidle : u.dtx.run = false) : txKickDma s
      = .ok () ((u.started s.dmaRun).wokenBelow (s.pending - s.dmaRun)) := by
  obtain ⟨hpos, hcap, -, -⟩ := h.run_bounds
  have hparams : u.params = s.staged.params := viewOf_params hview
  have hlen : (s.ringBytes s.port.tail s.dmaRun).length = s.dmaRun := ringBytes_length s _ _
  have hslice : ringDequeue s.dmaRun s = .ok (s.ringBytes s.port.tail s.dmaRun)
      (s.setPort (Port.taken s.params s.dmaRun)) := by
    rw [ringDequeue_run, h.sliceLength]
    rfl
  have hstage : memWrite s.params.stageAddr (s.ringBytes s.port.tail s.dmaRun)
      (s.setPort (Port.taken s.params s.dmaRun)) = .ok () s.staged :=
    memWrite_run (inRegion_stage (o := 0) h.dma (by rw [hlen, Nat.zero_add]; exact hcap))
  have hleft : (u.started s.dmaRun).pending = s.pending - s.dmaRun :=
    (pending_of_view hview).trans h.pending_staged
  rw [txKickDma, theState_bind, if_neg (by simp [h.pending, h.open_]), if_neg (by simp [h.free]),
    op_bind_ok hslice, op_bind_ok hstage, hlen,
    op_bind_ok (dmaStartTx_run hgap hidle hpos (by rw [hparams]; exact hcap)), modifyPort_bind,
    ← hleft]
  exact lowWaterTest_woken _

/-- The run stands in the staging area, also after environment steps, which write to the slots only. -/
theorem Starts.memBytes_staged (h : Starts s) (hwf : s.mem.wf = true) (hmem : sameOutsideSlots s.staged u) :
    u.memBytes s.params.stageAddr s.dmaRun = s.ringBytes s.port.tail s.dmaRun := by
  obtain ⟨-, hcap, -, -⟩ := h.run_bounds
  have hback := memBytes_writeList (s := s.setPort (Port.taken s.params s.dmaRun)) s.params.stageAddr
    (s.ringBytes s.port.tail s.dmaRun) hwf
  rw [ringBytes_length] at hback
  rw [memBytes_congr fun i hi => hmem _ (stage_outsideSlots h.params h.dma (by omega))]
  exact hback

/-- Under any environment the kick leaves the started run (R149, R150). -/
theorem Starts.txKickDma_leaves (h : Starts s) (hc : channelsOk s = true) (hwf : s.mem.wf = true) :
    ∃ t, txKickDma s = .ok () t
      ∧ Leaves s t ((s.staged.started s.dmaRun).wokenBelow (s.pending - s.dmaRun))
      ∧ t.dtx = ⟨true, s.dmaRun, 0, false⟩
      ∧ t.memBytes s.params.stageAddr s.dmaRun = s.ringBytes s.port.tail s.dmaRun := by
  obtain ⟨hpos, hcap, hle, hend⟩ := h.run_bounds
  have hstaged : Leaves s s.staged s.staged := ⟨rfl, hc, fun _ _ => rfl, fun _ => rfl⟩
  obtain ⟨u, hgap, hu⟩ := hstaged.gap rfl
  have hparams : u.params = s.staged.params := viewOf_params hu.view
  have hstart : channelsOk (u.started s.dmaRun) = true :=
    (channelsOk_iff _).mpr ⟨fun _ =>
      (Nat.zero_add _).trans_le (hcap.trans_eq (congrArg Params.stageCap hparams).symm),
      ((channelsOk_iff u).mp hu.channels).2⟩
  have hwoken := ((hu.setDtx (fun _ => ⟨true, s.dmaRun, 0, false⟩) hstart).setPort
    (fun q => { q with txBusy := true, txLen := s.dmaRun }) hstart).setPort
      (fun q => { q with out :=
        if s.pending - s.dmaRun < s.params.lowWater then q.out ++ [.wakeup] else q.out }) hstart
  have hidle : u.dtx.run = false := (congrArg TxChannel.run (txHalted_gap.ok hgap h.idle)).trans h.idle
  refine ⟨_, h.txKickDma_run hgap hu.view hidle, ?_, rfl, ?_⟩
  · rw [State.wokenBelow, State.started, State.setPort_params, State.setDtx_params, hparams]
    exact hwoken
  · exact h.memBytes_staged hwf hu.memory

end starts

/-- Settles O31: nothing to start leaves the state, and a start is the kick under any environment. -/
theorem kickInDmaMode : Obligations.KickInDmaMode := by
  refine fun s hm hl => ⟨fun hnone => performUnit_ok (txKick_dma_none hl hm hnone), ?_⟩
  intro hpend htty hbusy hidle htail hp hwf hc k
  have h : Starts s := ⟨hp, hm, hpend, htty, hbusy, hidle, htail⟩
  obtain ⟨t, hrun, ht, hdtx, hbytes⟩ := h.txKickDma_leaves hc hwf
  exact ⟨_, performUnit_ok ((txKick_dma hl hm).trans hrun), ht.reply _, h.run_bounds.1, hdtx, hbytes⟩

/-! ### The push loop of the poll-mode kick (42_transmit R148) -/

/-- The block after `k` bytes went to the TX FIFO (R148). -/
def Port.pushed (p : Params) (k : Nat) (q : Port) : Port :=
  { q with tail := (q.tail + k) % p.ringN, cntTx := q.cntTx + BitVec.ofNat 32 k }

theorem Port.pushed_zero {p : Params} {q : Port} (h : q.tail < p.ringN) : q.pushed p 0 = q := by
  simp [Port.pushed, Nat.mod_eq_of_lt h]

theorem Port.pushed_pushed (p : Params) (q : Port) (j k : Nat) :
    (q.pushed p j).pushed p k = q.pushed p (j + k) := by
  simp [Port.pushed, BitVec.ofNat_add, BitVec.add_assoc, Nat.add_assoc]

/-- The state after its first `k` ring bytes went to the TX FIFO, with no environment step between. -/
def State.pushed (s : State) (k : Nat) : State :=
  (s.setUart fun u => { u with txf := u.txf ++ (ringContents s).take k }).setPort (Port.pushed s.params k)

theorem viewOf_setPort {s t : State} (h : viewOf t = viewOf s) (f : Port → Port) :
    viewOf (t.setPort f) = viewOf (s.setPort f) := by
  simp only [viewOf, View.mk.injEq] at h ⊢
  obtain ⟨hparams, hport, hrest⟩ := h
  exact ⟨hparams, congrArg f hport, hrest⟩

/-- What the push loop starts from and comes back to at each pass. -/
structure Pushable (s : State) : Prop where
  poll : s.params.mode = .poll
  layout : regMapOk s.params.regMap = true
  ring : RingInv s
  fits : s.uart.txf.length ≤ s.depth

/-- The first `k` ring bytes of `s` went to the TX FIFO, whatever the environment sent and received
meanwhile. -/
structure Moved (s t : State) (k : Nat) : Prop where
  view : viewOf t = viewOf (s.setPort (Port.pushed s.params k))
  mem : t.mem = s.mem
  dtx : t.dtx = s.dtx
  count : k ≤ s.pending
  rest : ringContents t = (ringContents s).drop k
  fits : t.uart.txf.length ≤ t.depth
  fill : t.uart.txf.length ≤ s.uart.txf.length + k
  line : s.uart.ibrdAct ≠ 0 →
    t.uart.wire ++ t.uart.txf = s.uart.wire ++ s.uart.txf ++ (ringContents s).take k
  gaps : t.gaps <:+ s.gaps
  quiet : s.gaps = [] → t = s.pushed k

theorem ringContents_congr {s t : State} (hp : t.params = s.params) (hr : t.port.ring = s.port.ring)
    (hh : t.port.head = s.port.head) (ht : t.port.tail = s.port.tail) :
    ringContents t = ringContents s := by
  have hring (i : Nat) : t.ringByte i = s.ringByte i := by rw [State.ringByte, State.ringByte, hr]
  simp only [ringContents, State.pending, pendingOf, hp, hh, ht, hring]

theorem ringContents_of_view {s t : State} (h : viewOf t = viewOf s) :
    ringContents t = ringContents s := by
  have hport := viewOf_port h
  exact ringContents_congr (viewOf_params h) (by rw [hport]) (by rw [hport]) (by rw [hport])

/-- In poll mode the environment only takes bytes from the TX FIFO. -/
theorem PollUnseen.txf_le {s t : State} (h : PollUnseen s t) : t.uart.txf.length ≤ s.uart.txf.length := by
  obtain ⟨n, hn⟩ := h.sent
  rw [hn, List.length_drop]
  exact Nat.sub_le _ _

section moved

variable {s t u : State} {j k : Nat}

theorem Moved.params (h : Moved s t k) : t.params = s.params := viewOf_params (s := s.setPort _) h.view

theorem Moved.port (h : Moved s t k) : t.port = s.port.pushed s.params k :=
  viewOf_port (s := s.setPort _) h.view

theorem Moved.ibrdAct (h : Moved s t k) : t.uart.ibrdAct = s.uart.ibrdAct :=
  congrArg Regs.ibrdAct (viewOf_regs (s := s.setPort _) h.view)

theorem Pushable.pushed (h : Pushable s) (hmoved : Moved s t k) : Pushable t := by
  obtain ⟨hhead, htail, hwf, hin⟩ := h.ring
  refine ⟨by rw [hmoved.params]; exact h.poll, by rw [hmoved.params]; exact h.layout, ?_, hmoved.fits⟩
  constructor <;> simp only [hmoved.port, hmoved.params]
  · exact hhead
  · exact Nat.mod_lt _ (Nat.zero_lt_of_lt htail)
  · exact hwf
  · exact hin

theorem Moved.pending (h : Moved s t k) : t.pending = s.pending - k := by
  rw [← ringContents_length t, h.rest, List.length_drop, ringContents_length]

theorem Moved.depth (h : Moved s t k) : t.depth = s.depth := depth_of_view (t0 := s.setPort _) h.view

theorem State.pushed_pushed (s : State) (j k : Nat)
    (hrest : ringContents (s.pushed j) = (ringContents s).drop j) :
    (s.pushed j).pushed k = s.pushed (j + k) := by
  have htake : (ringContents s).take j ++ ((ringContents s).drop j).take k
      = (ringContents s).take (j + k) := List.take_add.symm
  rw [State.pushed, hrest]
  simp only [State.pushed, State.setUart, State.setPort, List.append_assoc, htake, Port.pushed_pushed]

theorem Moved.trans (h : Moved s t j) (hk : Moved t u k) : Moved s u (j + k) where
  view := by
    rw [hk.view, viewOf_setPort h.view, h.params]
    exact congrArg (fun q => viewOf (s.setPort fun _ => q)) (Port.pushed_pushed _ _ j k)
  mem := hk.mem.trans h.mem
  dtx := hk.dtx.trans h.dtx
  count := by
    have hcount := hk.count
    have hle := h.count
    rw [h.pending] at hcount
    omega
  rest := by rw [hk.rest, h.rest, List.drop_drop]
  fits := hk.fits
  fill := by
    have := hk.fill
    have := h.fill
    omega
  line hz := by
    rw [hk.line (by rwa [h.ibrdAct]), h.line hz, h.rest, List.append_assoc, List.take_add]
  gaps := hk.gaps.trans h.gaps
  quiet hq := by
    obtain rfl := h.quiet hq
    rw [hk.quiet hq, State.pushed_pushed s j k h.rest]

/-- Environment steps move no byte of the ring. -/
theorem moved_of_pollUnseen (h : Pushable s) (hu : PollUnseen s t) (hgaps : t.gaps <:+ s.gaps)
    (hquiet : s.gaps = [] → t = s) : Moved s t 0 where
  view := by rw [hu.view, State.setPort, Port.pushed_zero h.ring.tail_lt]
  mem := hu.mem
  dtx := hu.dtx
  count := Nat.zero_le _
  rest := ringContents_of_view hu.view
  fits := by
    rw [depth_of_view hu.view]
    exact hu.txf_le.trans h.fits
  fill := hu.txf_le
  line hz := by rw [hu.line hz, List.take_zero, List.append_nil]
  gaps := hgaps
  quiet hq := by
    rw [hquiet hq, State.pushed, List.take_zero]
    simp only [List.append_nil]
    exact (congrArg (fun q => s.setPort fun _ => q) (Port.pushed_zero h.ring.tail_lt)).symm

theorem gap_poll_suffix (h : s.params.mode = .poll) : ∃ t, gap s = .ok () t ∧ PollUnseen s t
    ∧ t.gaps <:+ s.gaps ∧ (s.gaps = [] → t = s) := by
  obtain ⟨t, hgap, hu, hgaps⟩ := gap_poll h
  refine ⟨t, hgap, hu, by rw [hgaps]; exact List.tail_suffix _, fun hq => ?_⟩
  rw [gap_quiet hq] at hgap
  cases hgap
  rfl

/-- The status read of a pass says whether the FIFO is full at its moment (10_state R35). -/
theorem rdFr_moved (h : Pushable s) : ∃ t fr, rd .fr s = .ok fr t ∧ Moved s t 0
    ∧ (fr.getLsbD t.params.regMap.txff = (t.uart.txf.length == t.depth)) := by
  obtain ⟨t, hgap, hu, hgaps, hquiet⟩ := gap_poll_suffix h.poll
  have hmoved := moved_of_pollUnseen h hu hgaps hquiet
  refine ⟨t, _, by rw [rd_eq, hgap], hmoved, ?_⟩
  rw [getLsbD_and_definedMask (by simp [fieldsOf])]
  exact (flagsValue_bits (h.pushed hmoved).layout).2.1

theorem drData_putField {m : RegMap} (h : regMapOk m = true) (b : Byte) :
    drData m (putField m.data b) = b :=
  extract_putField ((regMapOk_fields h .dr).1 (m.data, 8) (by simp [fieldsOf])) b

/-- The byte `b` in the TX FIFO, and counted (R148). -/
def State.fed (s : State) (b : Byte) : State :=
  (s.setUart fun u => { u with txf := u.txf ++ [b] }).setPort fun q =>
    { q with cntTx := q.cntTx + BitVec.ofNat 32 1 }

/-- One pass with no environment step inside it. -/
theorem fed_dequeued {b : Byte} (hslice : s.sliceLength 1 = 1) (htake : (ringContents s).take 1 = [b]) :
    (s.dequeued 1).fed b = s.pushed 1 := by
  rw [State.fed, State.dequeued, hslice, State.pushed, htake]
  rfl

theorem viewOf_fed {t : State} (b : Byte) (h : viewOf t = viewOf s) : viewOf (t.fed b) = viewOf (s.fed b) :=
  viewOf_setPort (((unseen_setUart t rfl).view.trans h).trans (unseen_setUart s rfl).view.symm) _

/-- One pass takes the oldest byte and writes it to `DR`, which has room for it; `x` is what the
environment leaves between the two. -/
theorem moved_one {b : Byte} {x : State} (hslice : s.sliceLength 1 = 1)
    (hfirst : ringContents s = [b] ++ ringContents (s.dequeued 1)) (hroom : s.uart.txf.length < s.depth)
    (hx : PollUnseen (s.dequeued 1) x) (hgaps : x.gaps <:+ s.gaps)
    (hquiet : s.gaps = [] → x = s.dequeued 1) : Moved s (x.fed b) 1 := by
  have hle : x.uart.txf.length ≤ s.uart.txf.length := hx.txf_le
  have hdepth : x.depth = s.depth := depth_of_view (t0 := s.dequeued 1) hx.view
  have htake : (ringContents s).take 1 = [b] := by rw [hfirst]; rfl
  exact {
    view := by
      rw [viewOf_fed b hx.view, fed_dequeued hslice htake]
      exact viewOf_setPort (unseen_setUart s rfl).view _
    mem := hx.mem
    dtx := hx.dtx
    count := by
      rw [← ringContents_length, hfirst, List.length_append, List.length_singleton]
      exact Nat.le_add_right 1 _
    rest := by
      rw [hfirst, ← ringContents_of_view hx.view]
      exact ringContents_congr rfl rfl rfl rfl
    fits := by
      show (x.uart.txf ++ [b]).length ≤ x.depth
      rw [List.length_append, List.length_singleton, hdepth]
      omega
    fill := by
      show (x.uart.txf ++ [b]).length ≤ _
      rw [List.length_append, List.length_singleton]
      omega
    line := fun hz => by
      show x.uart.wire ++ (x.uart.txf ++ [b]) = _
      rw [← List.append_assoc, hx.line hz, htake]
      rfl
    gaps := hgaps
    quiet := fun hq => by rw [hquiet hq, fed_dequeued hslice htake] }

theorem pushByte_moved (h : Pushable s) (hpend : s.pending ≠ 0) (hroom : s.uart.txf.length < s.depth) :
    ∃ b t u, ringDequeue 1 s = .ok [b] t
      ∧ (regWrite .dr (putField s.params.regMap.data b) >>= fun _ => countTx 1) t = .ok () u
      ∧ Moved s u 1 := by
  have htail := h.ring.tail_lt
  have hslice : s.sliceLength 1 = 1 := by
    rw [State.sliceLength]
    omega
  have hfirst := ringContents_eq_slice_append h.ring 1
  rw [hslice] at hfirst
  obtain ⟨x, hgap, hx, hgaps, hquiet⟩ := gap_poll_suffix (s := s.dequeued 1) h.poll
  have hparams : x.params = s.params := viewOf_params (s := s.dequeued 1) hx.view
  have hroom' : x.uart.txf.length < x.depth := by
    rw [depth_of_view (t0 := s.dequeued 1) hx.view]
    exact hx.txf_le.trans_lt hroom
  have hstore := storeReg_dr_room (putField s.params.regMap.data (s.ringByte (s.port.tail + 0))) hroom'
  rw [hparams, drData_putField h.layout] at hstore
  exact ⟨_, _, _, by rw [ringDequeue_dequeued, hslice]; rfl,
    (op_bind_ok ((op_bind_ok hgap).trans hstore)).trans (countTx_run 1 _),
    moved_one hslice hfirst hroom hx hgaps hquiet⟩

/-- A pass that writes a byte (R148). -/
theorem pushLoop_push {fuel : Nat} {x y : State} {fr : Word} {b : Byte} (hread : rd .fr s = .ok fr u)
    (hflag : fr.getLsbD u.params.regMap.txff = false) (hpend : u.pending ≠ 0)
    (hdeq : ringDequeue 1 u = .ok [b] x)
    (hwrite : (regWrite .dr (putField u.params.regMap.data b) >>= fun _ => countTx 1) x = .ok () y) :
    pushLoop (fuel + 1) s = pushLoop fuel y := by
  rw [pushLoop, op_bind_ok hread, theState_bind, if_neg (by simp [hflag]), if_neg hpend, op_bind_ok hdeq]
  dsimp only
  rw [← op_bind_assoc, op_bind_ok hwrite]

/-- The push loop moves ring bytes until none is left or the FIFO is full (R148). -/
theorem pushLoop_moved {fuel : Nat} (h : Pushable s) (hfuel : s.pending < fuel) : ∃ t k,
    pushLoop fuel s = .ok () t ∧ Moved s t k
      ∧ (k = s.pending ∨ t.uart.txf.length = t.depth) := by
  induction fuel generalizing s with
  | zero => exact absurd hfuel (Nat.not_lt_zero _)
  | succ fuel ih =>
    obtain ⟨u, fr, hread, hu, hflag⟩ := rdFr_moved h
    have hpush := h.pushed hu
    by_cases hfull : u.uart.txf.length = u.depth
    · exact ⟨u, 0, pushLoop_full hread (by simp [hflag, hfull]), hu, .inr hfull⟩
    by_cases hempty : u.pending = 0
    · exact ⟨u, 0, pushLoop_empty hread hempty, hu, .inl (by rw [← hempty, hu.pending]; rfl)⟩
    obtain ⟨b, x, y, hdeq, hwrite, hy⟩ :=
      pushByte_moved hpush hempty (Nat.lt_of_le_of_ne hpush.fits hfull)
    have hleft := hy.pending
    rw [hu.pending] at hleft hempty
    obtain ⟨t, k, hloop, ht, hend⟩ := ih (hpush.pushed hy) (by omega)
    refine ⟨t, 0 + 1 + k, ?_, (hu.trans hy).trans ht, hend.imp_left (by omega)⟩
    rw [pushLoop_push hread (by simp [hflag, hfull]) (by rw [hu.pending]; exact hempty) hdeq hwrite, hloop]

end moved

/-! ### A pending drain across environment steps (20_memory R80, 70_reset_and_hazards R249) -/

/-- Every environment step scheduled meets the crossing condition of R80. -/
def Telling (s : State) : Prop := ∀ es ∈ s.gaps, ∀ e ∈ es, tells e = true

section drain

variable {s t u : State}

theorem envSteps_drain {es : List EnvStep} (hrun : envSteps es s = .ok () t)
    (hm : regMapOk s.params.regMap = true) (htell : ∀ e ∈ es, tells e = true)
    (hd : drainPending s = true) : drainPending t = true := by
  induction es generalizing s with
  | nil =>
    cases hrun
    exact hd
  | cons e es ih =>
    rw [envSteps, op_bind] at hrun
    cases he : envStep e s with
    | error r u => rw [he] at hrun; cases hrun
    | ok a u =>
      rw [he] at hrun
      have hparams : u.params = s.params := ((regsKept_envStep e).ok he).params
      exact ih hrun (by rw [hparams]; exact hm) (fun e' he' => htell e' (List.mem_cons_of_mem _ he'))
        ((envStep_status he).drain_stays hm (htell e List.mem_cons_self) hd)

theorem gap_drain (hgap : gap s = .ok () t) (hm : regMapOk s.params.regMap = true) (htell : Telling s)
    (hd : drainPending s = true) : drainPending t = true := by
  cases hg : s.gaps with
  | nil =>
    rw [gap_quiet hg] at hgap
    cases hgap
    exact hd
  | cons es more =>
    simp only [gap, hg] at hgap
    exact envSteps_drain hgap hm (htell es (by simp [hg])) hd

theorem Telling.of_suffix (h : Telling s) (hgaps : t.gaps <:+ s.gaps) : Telling t :=
  fun es hes => h es (hgaps.subset hes)

/-- A legal level code stands below the whole FIFO (10_state R40). -/
theorem fifoLevel_lt {p : Params} {c : Nat} (hc : c ≤ 4) (hp : 1 ≤ p.fifoDepth) :
    fifoLevel p c < p.fifoDepth := by
  match c, hc with
  | 0, _ | 1, _ | 2, _ | 3, _ | 4, _ =>
    simp only [fifoLevel]
    omega

/-- A FIFO that is full with `FEN` set is above its TX level. -/
theorem drainPending_of_full (hp : paramsOk s.params = true) (hcode : s.txCode ≤ 4)
    (hfen : s.uart.fen s.params.regMap = true) (hfull : s.uart.txf.length = s.depth) :
    drainPending s = true := by
  obtain ⟨-, hdepth, -⟩ := paramsOk_bounds hp
  refine (drainPending_iff s).mpr (.inr ?_)
  rw [hfull, State.depth, depthOf_of_fen hfen]
  exact fifoLevel_lt hcode hdepth

/-- `IM` with `TXIM` set to `v`, as `setIM` leaves it (42_transmit R145). -/
def State.withTxim (s : State) (v : Bool) : State :=
  s.setUart fun u => { u with
    im := withBit (u.im &&& definedMask s.params.regMap .im) s.params.regMap.txInt v }

/-- `setIM(TXIM, v)` in poll mode, after the environment steps before its read and before its write
(42_transmit R145). -/
theorem setTxim_poll (h : s.params.mode = .poll) (v : Bool) : ∃ u, setTxim v s = .ok () (u.withTxim v)
    ∧ PollUnseen s u ∧ (s.gaps = [] → u = s)
    ∧ (Telling s → regMapOk s.params.regMap = true → drainPending s = true →
      drainPending u = true) := by
  obtain ⟨t, hgap, ht, htgaps, htquiet⟩ := gap_poll_suffix h
  have htparams := viewOf_params ht.view
  obtain ⟨u, hgap', hu, hugaps, huquiet⟩ := gap_poll_suffix (s := t) (by rw [htparams]; exact h)
  have huparams := viewOf_params hu.view
  refine ⟨u, ?_, ht.trans hu, fun hq => ?_, fun htell hm hd => ?_⟩
  · have him : u.uart.im = t.uart.im := congrArg Regs.im (viewOf_regs hu.view)
    rw [setTxim, theState_bind, op_bind_ok (by rw [rd_eq, hgap]), regWrite_eq, hgap']
    simp only [storeReg_im, State.regValue, htparams, huparams, ← him, txim_stored, State.withTxim]
    rfl
  · obtain rfl := htquiet hq
    exact huquiet hq
  · exact gap_drain hgap' (by rw [htparams]; exact hm) (htell.of_suffix htgaps)
      (gap_drain hgap hm htell hd)

end drain

/-! ### The poll-mode kick (42_transmit R148) -/

section kick

variable {s : State}

/-- With an empty ring or a stopped port the kick only clears `TXIM` (R148). -/
theorem txKickPoll_none (h : s.pending = 0 ∨ s.port.ttyStopped = true) :
    txKickPoll s = setTxim false s := by
  rw [txKickPoll, theState_bind, if_pos h]

/-- Otherwise it pushes, tests the mark, and leaves `TXIM` saying whether bytes remain, `m` being the
state after the push loop (R148, R151). -/
theorem txKickPoll_run {m : State} {k : Nat} (hpend : s.pending ≠ 0) (htty : s.port.ttyStopped = false)
    (hloop : pushLoop (s.pending + 1) s = .ok () m) (hm : Moved s m k) :
    txKickPoll s = setTxim (decide (k < s.pending)) (m.wokenBelow (s.pending - k)) := by
  have hleft : (m.wokenBelow m.pending).pending = s.pending - k := hm.pending
  rw [txKickPoll, theState_bind, if_neg (by simp [hpend, htty]), op_bind_ok hloop,
    op_bind_ok (lowWaterTest_woken m), theState_bind, hleft, hm.pending]
  have := hm.count
  by_cases hk : k < s.pending
  · rw [if_neg (by omega), decide_eq_true hk]
  · rw [if_pos (by omega), decide_eq_false hk]

/-- What a poll-mode kick leaves: `m` after the push loop, `u` after the wakeup test and the environment
steps before `TXIM` is written. -/
structure Kicked (s m u : State) (k : Nat) : Prop where
  moved : Moved s m k
  ends : k = s.pending ∨ m.uart.txf.length = m.depth
  unseen : PollUnseen (m.wokenBelow (s.pending - k)) u
  quiet : s.gaps = [] → u = (s.pushed k).wokenBelow (s.pending - k)
  drain : Telling s → drainPending m = true → drainPending u = true

theorem txKickPoll_kicked (h : Pushable s) (hpend : s.pending ≠ 0) (htty : s.port.ttyStopped = false) :
    ∃ m u k, txKickPoll s = .ok () (u.withTxim (decide (k < s.pending))) ∧ Kicked s m u k := by
  obtain ⟨m, k, hloop, hm, hends⟩ := pushLoop_moved h (Nat.lt_succ_self s.pending)
  have hpush := h.pushed hm
  obtain ⟨u, hset, hu, hquiet, hdrain⟩ :=
    setTxim_poll (s := m.wokenBelow (s.pending - k)) hpush.poll (decide (k < s.pending))
  refine ⟨m, u, k, (txKickPoll_run hpend htty hloop hm).trans hset, hm, hends, hu, fun hq => ?_,
    fun htell => hdrain (htell.of_suffix hm.gaps) hpush.layout⟩
  obtain rfl := hm.quiet hq
  exact hquiet hq

/-- At least what the FIFO had room for is moved (R148). -/
theorem Kicked.least {m u : State} {k : Nat} (h : Kicked s m u k) :
    min s.pending (s.depth - s.uart.txf.length) ≤ k := by
  have hfill := h.moved.fill
  have hdepth := h.moved.depth
  rcases h.ends with hall | hfull <;> omega

/-- With no environment step inside the kick just as much is moved as the FIFO had room for. -/
theorem Kicked.count_quiet {m u : State} {k : Nat} (h : Kicked s m u k) (hq : s.gaps = []) :
    k = min s.pending (s.depth - s.uart.txf.length) := by
  have hleast := h.least
  have hcount := h.moved.count
  have hfits := h.moved.fits
  rw [h.moved.depth, h.moved.quiet hq] at hfits
  change (s.uart.txf ++ (ringContents s).take k).length ≤ s.depth at hfits
  rw [List.length_append, List.length_take, ringContents_length] at hfits
  omega

theorem viewOf_withTxim {t : State} (h : viewOf t = viewOf s) (v : Bool) :
    viewOf (t.withTxim v) = viewOf (s.withTxim v) := by
  have hregs := viewOf_regs h
  simp only [viewOf, View.mk.injEq, regsOf, Regs.mk.injEq] at h hregs ⊢
  simp_all [State.withTxim]

theorem viewOf_reply {t : State} (h : viewOf t = viewOf s) (r : Reply) :
    viewOf (t.reply r) = viewOf (s.reply r) := by
  simp only [viewOf, View.mk.injEq] at h ⊢
  simp_all [State.reply]

/-- What the environment cannot change of a kick's outcome. -/
theorem Kicked.view {m u : State} {k : Nat} (h : Kicked s m u k) :
    viewOf u = viewOf ((s.setPort (Port.pushed s.params k)).wokenBelow (s.pending - k)) := by
  rw [h.unseen.view, State.wokenBelow, viewOf_setPort h.moved.view, h.moved.params]
  rfl

/-- Wire and FIFO grow by the bytes moved, where the divisor is not 0 (20_memory R76). -/
theorem Kicked.line {m u : State} {k : Nat} (h : Kicked s m u k) (hz : s.uart.ibrdAct ≠ 0) :
    u.uart.wire ++ u.uart.txf = s.uart.wire ++ s.uart.txf ++ (ringContents s).take k :=
  (h.unseen.line (by rwa [← h.moved.ibrdAct] at hz)).trans (h.moved.line hz)

theorem Kicked.fits {m u : State} {k : Nat} (h : Kicked s m u k) : u.uart.txf.length ≤ u.depth := by
  rw [depth_of_view h.unseen.view]
  exact h.unseen.txf_le.trans h.moved.fits

/-- Bytes that remain have a full FIFO behind them, whose drain is pending (70_reset_and_hazards R249). -/
theorem Kicked.drainPending {m u : State} {k : Nat} (h : Kicked s m u k) (hp : paramsOk s.params = true)
    (hleft : k < s.pending) (hfen : s.uart.fen s.params.regMap = true) (hcode : s.txCode ≤ 4)
    (htell : Telling s) : drainPending u = true := by
  have hregs := viewOf_regs (s := s.setPort _) h.moved.view
  simp only [regsOf, Regs.mk.injEq] at hregs
  obtain ⟨-, -, -, -, hlcrh, -, hifls, -⟩ := hregs
  refine h.drain htell (drainPending_of_full (by rw [h.moved.params]; exact hp) ?_ ?_
    (h.ends.resolve_left hleft.ne))
  · rw [State.txCode, hifls, h.moved.params]
    exact hcode
  · rw [Uart.fen, hlcrh, h.moved.params]
    exact hfen

theorem txim_withTxim (hm : regMapOk s.params.regMap = true) :
    (s.withTxim true).uart.im.getLsbD s.params.regMap.txInt = true := by
  rw [State.withTxim, State.setUart_uart, getLsbD_withBit]
  simp [txInt_lt hm]

/-- With `TXIM` set a pending TX interrupt asserts the line (60_exceptions R215). -/
theorem irqLine_of_tx (him : s.uart.im.getLsbD s.params.regMap.txInt = true)
    (hris : s.uart.ris.getLsbD s.params.regMap.txInt = true) : s.irqLine = true := by
  have hbit : s.misValue.getLsbD s.params.regMap.txInt = true := by
    rw [State.misValue, BitVec.getLsbD_and, hris, him]
    rfl
  have hne : s.misValue ≠ 0 := fun hzero => by simp [hzero] at hbit
  have hline : (s.misValue != 0) = true := bne_iff_ne.mpr hne
  rw [State.irqLine, hline]
  rfl

end kick

/-- Settles O29: the closed form is the kick whose environment does nothing. -/
theorem kickInPollMode : Obligations.KickInPollMode := by
  intro s hp hq hm hl hring hfits m
  have h : Pushable s := ⟨hm, regMapOk_of_paramsOk hp, hring, hfits⟩
  refine ⟨fun hnone => ?_, fun hpend htty => ?_⟩
  · exact performUnit_ok ((txKick_poll hl hm).trans ((txKickPoll_none hnone).trans (setTxim_quiet false hq)))
  · obtain ⟨x, u, k, hrun, hk⟩ := txKickPoll_kicked h hpend htty
    rw [← hk.count_quiet hq]
    rw [hk.quiet hq] at hrun
    exact performUnit_ok ((txKick_poll hl hm).trans hrun)

/-- Settles O30: by what the kick leaves; with bytes left over `TXIM` is set and the drain pending. -/
theorem kickInPollModeUnderAnyEnvironment : Obligations.KickInPollModeUnderAnyEnvironment := by
  intro s hp hm hl hring hfits hpend htty r
  have hr : regMapOk r = true := regMapOk_of_paramsOk hp
  obtain ⟨x, u, k, hrun, hk⟩ := txKickPoll_kicked ⟨hm, hr, hring, hfits⟩ hpend htty
  have hparams : u.params = s.params := viewOf_params (s := (s.setPort _).wokenBelow _) hk.view
  refine ⟨_, k, performUnit_ok ((txKick_poll hl hm).trans hrun), hk.least, hk.moved.count,
    viewOf_reply (viewOf_withTxim hk.view _) _, hk.unseen.mem.trans hk.moved.mem, hk.fits, hk.line, ?_⟩
  intro hleft hfen hcode htell
  have him : (u.withTxim true).uart.im.getLsbD r.txInt = true := by
    have := txim_withTxim (s := u) (by rw [hparams]; exact hr)
    rwa [hparams] at this
  rw [decide_eq_true hleft]
  refine ⟨him, hk.drainPending hp hleft hfen hcode htell, fun hris => ?_⟩
  have hline : (u.withTxim true).params.regMap = r := congrArg Params.regMap hparams
  exact irqLine_of_tx (s := u.withTxim true) (by rw [hline]; exact him) (by rw [hline]; exact hris)

/-! ### What the bodies that do not transmit keep

The ReceiveEngine, the register reads and the acknowledgments leave the ring, the TX FIFO and the count of
`Wakeup` events. `Calm` names the relations kept by all of them, and the bodies are walked through once. -/

/-- An update of the block that leaves the ring and adds no `Wakeup`. -/
def Quiescent (f : Port → Port) : Prop :=
  ∀ q, (f q).head = q.head ∧ (f q).tail = q.tail ∧ (f q).ring = q.ring
    ∧ wakeups (f q).out = wakeups q.out

/-- A relation that the environment, the receive side and quiescent updates of the block keep. -/
structure Calm (R : State → State → Prop) : Prop where
  refl : ∀ s, R s s
  trans : ∀ s t u, R s t → R t u → R s u
  gap : gap.Keeps R
  draws : ∀ s : State, R s { s with draws := s.draws + 1 }
  port : ∀ (s : State) f, Quiescent f → R s (s.setPort f)
  pop : ∀ (s : State) rest, R s (s.setUart fun u => { u with rxf := rest })
  stopRx : ∀ s : State, R s (s.setDrx fun d => { d with run := false, done := false })
  ackRx : ∀ s : State, R s (s.setDrx fun d => { d with done := false })
  armRx : ∀ (s : State) x, R s (s.setDrx fun _ =>
    { run := true, slot := x, rem1 := 1, rem2 := s.params.slotCap - 1, done := false })
  ackTx : ∀ s : State, R s (s.setDtx fun d => { d with done := false })

theorem wakeups_append (out out' : List OutEvent) : wakeups (out ++ out') = wakeups out + wakeups out' :=
  List.countP_append

namespace Calm

variable {R : State → State → Prop} {α β : Type}

theorem pure (hR : Calm R) (a : α) : Op.Keeps R (Pure.pure a) := keeps_pure hR.refl a

theorem bind (hR : Calm R) {x : Op α} {f : α → Op β} (hx : x.Keeps R) (hf : ∀ a, (f a).Keeps R) :
    Op.Keeps R (x >>= f) := keeps_bind hR.trans hx hf

theorem withState (hR : Calm R) {f : State → Op β} (hf : ∀ s, (f s).Keeps R) :
    Op.Keeps R (theState >>= f) := hR.bind (keeps_theState hR.refl) hf

theorem afterGap (hR : Calm R) {f : Unit → Op β} (hf : ∀ a, (f a).Keeps R) :
    Op.Keeps R (Machine.gap >>= f) := hR.bind hR.gap hf

/-- An update of fields that are neither the ring's nor the events is quiescent. -/
theorem modifies (hR : Calm R) {f : Port → Port}
    (hf : Quiescent f := by exact fun _ => ⟨rfl, rfl, rfl, rfl⟩) : (modifyPort f).Keeps R :=
  keeps_modifyPort fun s => hR.port s f hf

theorem raise (hR : Calm R) (why : FaultReason) : Op.Keeps (α := α) R (raiseFault why) :=
  keeps_raiseFault why fun s => hR.port s _ fun _ => ⟨rfl, rfl, rfl, rfl⟩

theorem requireRunning (hR : Calm R) : requireRunning.Keeps R :=
  hR.withState fun _ => keeps_ite _ (hR.pure _) (hR.raise _)

theorem rd (hR : Calm R) (r : Reg) : (rd r).Keeps R := rd_keeps hR.refl hR.trans hR.gap r

theorem readDr (hR : Calm R) : readDr.Keeps R := by
  refine hR.afterGap fun _ s => ?_
  cases hx : s.uart.rxf with
  | nil =>
    simp only [popDr, hx]
    exact hR.draws s
  | cons e rest =>
    rw [popDr_cons hx]
    exact hR.pop s rest

theorem memRead (hR : Calm R) (a n : Nat) : (memRead a n).Keeps R :=
  hR.withState fun _ => keeps_ite _ (hR.pure _) (hR.raise _)

/-! Events and counters. -/

theorem deliver (hR : Calm R) (recs : List (Byte × Flag)) : (deliver recs).Keeps R :=
  hR.modifies fun _ => ⟨rfl, rfl, rfl, wakeups_append _ _⟩

theorem countRx (hR : Calm R) (n : Nat) : (countRx n).Keeps R := hR.modifies

theorem countTx (hR : Calm R) (n : Nat) : (countTx n).Keeps R := hR.modifies

theorem countClass (hR : Calm R) (c : ErrClass) : (countClass c).Keeps R := by
  refine hR.modifies fun q => ?_
  cases c <;> exact ⟨rfl, rfl, rfl, rfl⟩

/-! The ReceiveEngine (43_receive R172 to R181). -/

theorem receiveChar (hR : Calm R) (ch : Byte) (st : Status) : (receiveChar ch st).Keeps R :=
  hR.bind (hR.countRx 1) fun _ => hR.bind (hR.countClass _) fun _ => hR.withState fun _ =>
    keeps_ite _ (hR.bind (hR.bind (keeps_draw hR.draws) fun _ => hR.pure _) fun _ =>
      keeps_ite _ (hR.pure _) (hR.pure _)) (hR.pure _)

theorem pollLoop (hR : Calm R) (fuel count : Nat) (batch : List (Byte × Flag)) :
    (pollLoop fuel count batch).Keeps R := by
  induction fuel generalizing count batch with
  | zero => exact hR.pure _
  | succ fuel ih =>
    exact hR.withState fun _ => keeps_ite _ (hR.pure _) (hR.bind (hR.rd .fr) fun _ =>
      keeps_ite _ (hR.pure _) (hR.bind hR.readDr fun _ =>
        hR.bind (hR.receiveChar _ _) fun _ => ih _ _))

theorem rxPollEvent (hR : Calm R) : rxPollEvent.Keeps R :=
  hR.withState fun _ => hR.bind (hR.pollLoop _ _ _) fun _ => keeps_ite _ (hR.deliver _) (hR.pure _)

theorem dmaStopRx (hR : Calm R) : dmaStopRx.Keeps R :=
  hR.afterGap fun _ => keeps_modifyDrx hR.stopRx

theorem dmaArmRx (hR : Calm R) (x : Slot) : (dmaArmRx x).Keeps R := by
  refine hR.afterGap fun _ s => ?_
  rw [theState_bind]
  by_cases hrun : s.drx.run = false
  · rw [if_pos hrun]
    exact hR.armRx s x
  · rw [if_neg hrun]
    exact hR.raise (α := Unit) .dmaMisuse s

theorem dmaRemaining (hR : Calm R) : dmaRemaining1.Keeps R ∧ dmaRemaining2.Keeps R :=
  ⟨hR.afterGap fun _ => hR.withState fun _ => hR.pure _,
    hR.afterGap fun _ => hR.withState fun _ => hR.pure _⟩

theorem rxDmaEvent (hR : Calm R) : rxDmaEvent.Keeps R :=
  hR.withState fun _ => keeps_ite _ (hR.pure _) (hR.bind hR.dmaStopRx fun _ =>
    hR.bind hR.modifies fun _ => hR.bind hR.dmaRemaining.1 fun _ =>
      hR.bind hR.dmaRemaining.2 fun _ => hR.bind (hR.dmaArmRx _) fun _ =>
        keeps_ite _ (hR.bind hR.modifies fun _ => hR.modifies) (hR.pure _))

theorem recheck (hR : Calm R) : recheck.Keeps R := hR.bind hR.modifies fun _ => hR.rxDmaEvent

theorem taskCopy (hR : Calm R) (k : Task) : (taskCopy k).Keeps R :=
  hR.withState fun _ => keeps_ite _ (hR.raise _) (hR.bind (hR.memRead _ _) fun _ =>
    hR.bind (hR.deliver _) fun _ => hR.modifies)

theorem taskFinish (hR : Calm R) (k : Task) : (taskFinish k).Keeps R :=
  hR.bind (hR.countRx _) fun _ => hR.modifies

/-! The acknowledgments (20_memory R73). -/

theorem dmaQueryAckTx (hR : Calm R) : dmaQueryAckTx.Keeps R :=
  hR.afterGap fun _ => hR.withState fun _ => hR.bind (keeps_modifyDtx hR.ackTx) fun _ => hR.pure _

theorem dmaQueryAckRx (hR : Calm R) : dmaQueryAckRx.Keeps R :=
  hR.afterGap fun _ => hR.withState fun _ => hR.bind (keeps_modifyDrx hR.ackRx) fun _ => hR.pure _

end Calm

/-! ### Where `Wakeup` events come from (42_transmit R151) -/

/-- At most `n` `Wakeup` events are added, and none is lost. -/
def Wakes (n : Nat) (s t : State) : Prop :=
  wakeups s.port.out ≤ wakeups t.port.out ∧ wakeups t.port.out ≤ wakeups s.port.out + n

section wakes

variable {α β : Type} {m n : Nat} {s t u : State}

theorem Wakes.of_eq (h : wakeups t.port.out = wakeups s.port.out) : Wakes n s t := by
  unfold Wakes
  omega

theorem Wakes.trans (h : Wakes m s t) (k : Wakes n t u) : Wakes (m + n) s u := by
  unfold Wakes at h k ⊢
  omega

theorem Wakes.mono (h : Wakes m s t) (hmn : m ≤ n) : Wakes n s t := by
  unfold Wakes at h ⊢
  omega

theorem wakes_of_portKept {x : Op α} (h : x.Keeps PortKept) : x.Keeps (Wakes 0) :=
  h.weaken fun _ _ ⟨_, ht⟩ => .of_eq (by rw [ht])

theorem wakes_calm : Calm (Wakes 0) where
  refl _ := .of_eq rfl
  trans _ _ _ := Wakes.trans
  gap := wakes_of_portKept portKept_gap
  draws _ := .of_eq rfl
  port s _ hf := .of_eq (hf s.port).2.2.2
  pop _ _ := .of_eq rfl
  stopRx _ := .of_eq rfl
  ackRx _ := .of_eq rfl
  armRx _ _ := .of_eq rfl
  ackTx _ := .of_eq rfl

/-- The events of the parts of a body add up. -/
theorem wakes_bind {x : Op α} {f : α → Op β} (hx : x.Keeps (Wakes m))
    (hf : ∀ a, (f a).Keeps (Wakes n)) :
    Op.Keeps (Wakes (m + n)) (x >>= f) := fun s =>
  ends_bind (hx.ends s) (fun _ h => h.mono (Nat.le_add_right m n)) fun a t h =>
    ((hf a).ends t).mono fun _ k => h.trans k

/-- A part without events, before the rest of the body. -/
theorem wakes_then {x : Op α} {f : α → Op β} (hx : x.Keeps (Wakes 0))
    (hf : ∀ a, (f a).Keeps (Wakes n)) :
    Op.Keeps (Wakes n) (x >>= f) := by
  have h := wakes_bind hx hf
  rwa [Nat.zero_add] at h

theorem wakes_after {x : Op α} {f : α → Op β} (hx : x.Keeps PortKept)
    (hf : ∀ a, (f a).Keeps (Wakes n)) :
    Op.Keeps (Wakes n) (x >>= f) := wakes_then (wakes_of_portKept hx) hf

theorem wakes_state {f : State → Op β} (hf : ∀ s, (f s).Keeps (Wakes n)) :
    Op.Keeps (Wakes n) (theState >>= f) := wakes_after (keeps_theState PortKept.refl) hf

theorem wakes_pure (a : α) : Op.Keeps (Wakes n) (pure a) := fun _ => .of_eq rfl

theorem wakes_port {f : Port → Port} (hf : ∀ q, (f q).out = q.out := by exact fun _ => rfl) :
    (modifyPort f).Keeps (Wakes n) := keeps_modifyPort fun s => .of_eq (congrArg wakeups (hf s.port))

/-! The kick: its one `Wakeup` is that of the test at its end. -/

theorem wakes_lowWaterTest : lowWaterTest.Keeps (Wakes 1) :=
  wakes_state fun _ => keeps_ite _ (keeps_modifyPort fun s => by
    have hone : wakeups (s.port.out ++ [.wakeup]) = wakeups s.port.out + 1 := wakeups_append _ _
    exact ⟨by rw [State.setPort_port, hone]; omega, hone.le⟩) (wakes_pure _)

theorem wakes_ringDequeue (k : Nat) : (ringDequeue k).Keeps (Wakes 0) := fun _ => .of_eq rfl

theorem wakes_pushLoop (fuel : Nat) : (pushLoop fuel).Keeps (Wakes 0) := by
  induction fuel with
  | zero => exact wakes_pure _
  | succ fuel ih =>
    refine wakes_after (portKept_rd _) fun _ => wakes_state fun _ => keeps_ite _ (wakes_pure _)
      (keeps_ite _ (wakes_pure _) (wakes_then (wakes_ringDequeue 1) fun bs => ?_))
    cases bs with
    | nil => exact wakes_pure _
    | cons b _ =>
      exact wakes_after (portKept_regWrite _ _) fun _ => wakes_then (wakes_calm.countTx 1) fun _ => ih

theorem wakes_txKickPoll : txKickPoll.Keeps (Wakes 1) :=
  have mask {k : Nat} (v : Bool) : (setTxim v).Keeps (Wakes k) :=
    (wakes_of_portKept (portKept_setTxim v)).weaken fun _ _ h => h.mono (Nat.zero_le k)
  wakes_state fun _ => keeps_ite _ (mask _) (wakes_then (wakes_pushLoop _) fun _ =>
    wakes_bind (n := 0) wakes_lowWaterTest fun _ => wakes_state fun _ => keeps_ite _ (mask _) (mask _))

theorem wakes_txKickDma : txKickDma.Keeps (Wakes 1) :=
  wakes_state fun _ => keeps_ite _ (wakes_pure _) (keeps_ite _ (wakes_pure _)
    (wakes_then (wakes_ringDequeue _) fun _ => wakes_after (portKept_memWrite _ _) fun _ =>
      wakes_after (portKept_dmaStartTx _) fun _ => wakes_then wakes_port fun _ =>
        wakes_lowWaterTest))

theorem wakes_txKick : txKick.Keeps (Wakes 1) := by
  refine wakes_after portKept_requireRunning fun _ => wakes_state fun s => ?_
  cases s.params.mode with
  | poll => exact wakes_txKickPoll
  | dma => exact wakes_txKickDma

theorem wakes_txDmaDone : txDmaDone.Keeps (Wakes 1) :=
  wakes_state fun _ => keeps_ite _ (wakes_pure _) (wakes_then (wakes_calm.countTx _) fun _ =>
    wakes_then wakes_port fun _ => wakes_txKick)

theorem wakes_txStop : txStop.Keeps (Wakes 0) := by
  refine wakes_after portKept_requireRunning fun _ => wakes_state fun s => ?_
  cases s.params.mode with
  | poll => exact wakes_of_portKept (portKept_setTxim _)
  | dma => exact wakes_after portKept_dmaStopTx fun _ => wakes_port

/-! The dispatcher kicks at most once (44_dispatch R197, R198). -/

theorem wakes_routePoll (mis : Word) : (routePoll mis).Keeps (Wakes 1) :=
  have kick (c : Prop) [Decidable c] : Op.Keeps (Wakes 1) (if c then txKick else pure ()) :=
    keeps_ite _ wakes_txKick (wakes_pure _)
  wakes_state fun _ => keeps_ite _ (wakes_then wakes_calm.rxPollEvent fun _ => kick _) (kick _)

theorem wakes_routeDma (mis : Word) : (routeDma mis).Keeps (Wakes 1) :=
  have serve : Op.Keeps (Wakes 1) (dmaQueryAckTx >>= fun d => if d = true then txDmaDone else pure ()) :=
    wakes_after portKept_dmaQueryAckTx fun _ => keeps_ite _ wakes_txDmaDone (wakes_pure _)
  wakes_state fun _ => wakes_after portKept_dmaQueryAckRx fun _ =>
    keeps_ite _ (wakes_then wakes_calm.rxDmaEvent fun _ => serve) serve

theorem wakes_irqDispatch : irqDispatch.Keeps (Wakes 1) := by
  refine wakes_state fun s => wakes_after (portKept_rd _) fun _ =>
    wakes_after (portKept_regWrite _ _) fun _ => ?_
  cases s.params.mode with
  | poll => exact wakes_routePoll _
  | dma => exact wakes_routeDma _

/-! The producer, and line and port control. -/

theorem wakes_ringEnqueue (b : Byte) : (ringEnqueue b).Keeps (Wakes 0) :=
  wakes_after portKept_requireRunning fun _ => wakes_state fun _ =>
    keeps_ite _ (wakes_pure _) (wakes_then wakes_port fun _ => wakes_pure _)

theorem wakes_writeLoop (data : List Byte) : (writeLoop data).Keeps (Wakes 0) := by
  induction data with
  | nil => exact wakes_pure _
  | cons b more ih =>
    exact wakes_then (wakes_ringEnqueue b) fun _ =>
      keeps_ite _ (wakes_pure _) (wakes_then ih fun _ => wakes_pure _)

theorem wakes_lineApply (line : LineFormat) (policy : Policy) (baud : Nat) :
    (lineApply line policy baud).Keeps (Wakes 0) :=
  wakes_state fun _ => wakes_after (portKept_baudCalc _ _) fun _ =>
    wakes_after (portKept_commitLine _ _ _) fun _ => wakes_after (portKept_regWrite _ _) fun _ =>
      wakes_then wakes_port fun _ => wakes_pure _

theorem wakes_startup : startup.Keeps (Wakes 0) := by
  rw [startup_eq]
  exact wakes_state fun _ => keeps_ite _ (wakes_calm.raise _) (wakes_then wakes_port fun _ =>
    wakes_after (portKept_regWrite _ _) fun _ => wakes_after (portKept_regWrite _ _) fun _ =>
      wakes_after (portKept_regWrite _ _) fun _ => wakes_after (portKept_recommit _) fun _ =>
        wakes_after (portKept_regWrite _ _) fun _ => wakes_after (portKept_openMode _) fun _ =>
          wakes_port)

theorem portKept_closeMode (p : Params) : (closeMode p).Keeps PortKept := by
  unfold closeMode
  cases p.mode with
  | poll => exact portKept_pure _
  | dma =>
    exact portKept_bind portKept_dmaStopTx fun _ => portKept_bind portKept_dmaStopRx fun _ =>
      portKept_regWrite _ _

theorem wakes_shutdown : shutdown.Keeps (Wakes 0) := by
  rw [shutdown_eq]
  exact wakes_after portKept_requireRunning fun _ => wakes_state fun _ =>
    wakes_after (portKept_regWrite _ _) fun _ => wakes_after (portKept_regWrite _ _) fun _ =>
      wakes_after (portKept_closeMode _) fun _ => wakes_then wakes_port fun _ =>
        wakes_after (portKept_regWrite _ _) fun _ => wakes_after (portKept_rd _) fun _ =>
          wakes_after (portKept_regWrite _ _) fun _ => wakes_port

/-! Every command. -/

theorem wakes_perform {body : Op (List Word)} (hb : body.Keeps (Wakes n))
    (h : perform body s = .next t) : Wakes n s t :=
  perform_ends (hb.ends s) (fun _ _ hu => hu) h

theorem wakes_performUnit {body : Op Unit} (hb : body.Keeps (Wakes n))
    (h : performUnit body s = .next t) : Wakes n s t :=
  performUnit_ends (hb.ends s) (fun _ _ hu => hu) h

/-- A command that issues nothing emits nothing. -/
theorem wakes_self (h : Host.Outcome.next (φ := Fault) (ρ := Refusal) s = .next t) : Wakes n s t := by
  cases h
  exact .of_eq rfl

/-- How many kicks a command makes at most. -/
def kicksIn : Instr → Nat
  | .txKick | .txDmaDone | .irqDispatch => 1
  | _ => 0

theorem kicksIn_le (i : Instr) : kicksIn i ≤ 1 := by
  unfold kicksIn
  split <;> omega

theorem exec_wakes {i : Instr} (h : exec i s = .next t) : Wakes (kicksIn i) s t := by
  cases i with
  | baudCalc c b =>
    exact wakes_perform (wakes_after (portKept_baudCalc _ _) fun _ => wakes_pure _) h
  | maskCalc policy => exact wakes_perform (wakes_pure _) h
  | lineApply line policy baud => exact wakes_perform (wakes_lineApply line policy _) h
  | write data =>
    rw [exec, execWrite] at h
    refine performSilent_ends (Op.Keeps.ends ?_ s) h
    exact wakes_after portKept_requireRunning fun _ => wakes_then (wakes_writeLoop data)
      fun acc => Op.Keeps.of_update (fun u => { u with writeOwed := some acc }) fun _ => .of_eq rfl
  | setBreak on => exact wakes_performUnit (wakes_of_portKept (portKept_setBreak on)) h
  | queryTxEmpty =>
    exact wakes_perform (wakes_state fun _ => wakes_after (portKept_rd _) fun _ => wakes_pure _) h
  | startup => exact wakes_performUnit wakes_startup h
  | shutdown => exact wakes_performUnit wakes_shutdown h
  | setTtyStopped on =>
    rw [exec, execSetTtyStopped] at h
    exact wakes_performUnit wakes_port h
  | txKick => exact wakes_performUnit wakes_txKick h
  | txStop => exact wakes_performUnit wakes_txStop h
  | rbTryEnqueue b =>
    exact wakes_perform (wakes_then (wakes_ringEnqueue b) fun _ => wakes_pure _) h
  | rbDequeueUpTo k =>
    exact wakes_perform (wakes_then (wakes_ringDequeue _) fun _ => wakes_pure _) h
  | rbPendingCount =>
    rw [exec, execRbPendingCount] at h
    exact wakes_perform (wakes_state fun _ => wakes_pure _) h
  | rbIsEmpty =>
    rw [exec, execRbIsEmpty] at h
    exact wakes_perform (wakes_state fun _ => wakes_pure _) h
  | irqDispatch =>
    simp only [exec, execIrqDispatch] at h
    split at h
    · exact wakes_performUnit wakes_irqDispatch h
    · exact wakes_self h
  | txDmaDone => exact wakes_performUnit wakes_txDmaDone h
  | rxPollEvent => exact wakes_performUnit wakes_calm.rxPollEvent h
  | rxDmaEvent =>
    simp only [exec, execRxDmaEvent] at h
    split at h
    · split at h
      · exact wakes_performUnit wakes_calm.recheck h
      · exact wakes_self h
    · exact wakes_performUnit wakes_calm.rxDmaEvent h
  | rxTaskCopy =>
    simp only [exec, execRxTaskCopy] at h
    split at h
    · exact wakes_performUnit (wakes_calm.taskCopy _) h
    · exact wakes_self h
  | rxTaskFinish =>
    simp only [exec, execRxTaskFinish] at h
    split at h
    · exact wakes_performUnit (wakes_calm.taskFinish _) h
    · exact wakes_self h
  | rxClassify st => exact wakes_perform (wakes_pure _) h
  | rxFlag st =>
    rw [exec, execRxFlag] at h
    exact wakes_perform (wakes_state fun _ => wakes_pure _) h

end wakes

/-- Settles O34: a command emits at most as many `Wakeup` events as it makes kicks. -/
theorem wakeupsComeFromKicksOnly : Obligations.WakeupsComeFromKicksOnly := by
  refine ⟨fun i s t h => ?_, fun acc s t h => ?_⟩
  · have hmany := kicksIn_le i
    obtain ⟨hge, hle⟩ := exec_wakes h
    refine ⟨hge, by omega, fun hkick hdone hirq => ?_⟩
    have hnone : kicksIn i = 0 := by
      cases i with
      | txKick => exact absurd rfl hkick
      | txDmaDone => exact absurd rfl hdone
      | irqDispatch => exact absurd rfl hirq
      | _ => rfl
    omega
  · exact (wakes_perform (s := { s with writeOwed := none })
      (wakes_bind (n := 0) wakes_txKick fun _ => wakes_pure _) h).2

/-! ### The transmit line inside an operation (42_transmit R155)

`OnLine C L` is what holds of the transmit line at every point of an operation: it reads `L`, the channels
stay inside their regions, and the control registers are as `C` says. -/

/-- What is known of the control registers, in the layout of the part. -/
abbrev RegsClause := RegMap → Regs → Prop

/-- An enabled UART has a divisor: no free byte goes on the wire (20_memory R76). -/
def Honest (C : RegsClause) : Prop :=
  ∀ m x, C m x → x.ctl.getLsbD m.uarten = true → x.ibrdAct ≠ 0

/-- Both divisors are nonzero, in the layout `m`. -/
def Divided (m : RegMap) : RegsClause := fun m' x => m' = m ∧ x.ibrdAct ≠ 0 ∧ x.ibrdPend ≠ 0

theorem honest_divided (m : RegMap) : Honest (Divided m) := fun _ _ h _ => h.2.1

structure OnLine (C : RegsClause) (L : List Byte) (s : State) : Prop where
  params : paramsOk s.params = true
  span : s.dtx.run = true → s.dtx.pos + s.dtx.rem ≤ s.params.stageCap
  capture : CaptureOk s
  regs : C s.params.regMap (regsOf s.uart)
  line : transmitLine s = L

/-- The body keeps the line, where the registers are as `C` says. -/
def LineKept (C : RegsClause) (s t : State) : Prop := ∀ L, OnLine C L s → OnLine C L t

section onLine

variable {C D : RegsClause} {L : List Byte} {s t : State} {α β : Type}

theorem LineKept.refl (s : State) : LineKept C s s := fun _ h => h

theorem LineKept.trans (s t u : State) (h : LineKept C s t) (k : LineKept C t u) : LineKept C s u :=
  fun L hs => k L (h L hs)

theorem lineKept_iff {x : Op α} :
    x.Keeps (LineKept C) ↔ ∀ s L, OnLine C L s → x.Ends s (OnLine C L) := by
  refine forall_congr' fun s => ?_
  unfold Op.Ends
  cases x s <;> rfl

theorem OnLine.ends {x : Op α} (h : OnLine C L s) (hx : x.Keeps (LineKept C)) : x.Ends s (OnLine C L) :=
  lineKept_iff.mp hx s L h

theorem OnLine.regs_mono (h : OnLine C L s) (hCD : ∀ x, C s.params.regMap x → D s.params.regMap x) :
    OnLine D L s := { h with regs := hCD _ h.regs }

/-- The line is read off the wire, the TX FIFO, the staged bytes and the ring. -/
theorem transmitLine_congr (hout : t.uart.wire ++ t.uart.txf = s.uart.wire ++ s.uart.txf)
    (hst : stagedBytes t = stagedBytes s) (hring : ringContents t = ringContents s) :
    transmitLine t = transmitLine s := by
  rw [transmitLine, transmitLine, hout, hst, hring]

/-! Updates. -/

theorem OnLine.setPort (h : OnLine C L s) {f : Port → Port}
    (hring : ringContents (s.setPort f) = ringContents s) :
    OnLine C L (s.setPort f) :=
  { h with
    capture := h.capture.of_eq rfl rfl
    line := (transmitLine_congr (s := s) (t := s.setPort f) rfl rfl hring).trans h.line }

theorem OnLine.setUart (h : OnLine C L s) {f : Uart → Uart}
    (hout : (f s.uart).wire ++ (f s.uart).txf = s.uart.wire ++ s.uart.txf)
    (hregs : D s.params.regMap (regsOf (f s.uart))) : OnLine D L (s.setUart f) :=
  { h with
    capture := h.capture.of_eq rfl rfl
    regs := hregs
    line := (transmitLine_congr (s := s) (t := s.setUart f) hout rfl rfl).trans h.line }

theorem OnLine.setDrx (h : OnLine C L s) {f : RxChannel → RxChannel} (hcap : CaptureOk (s.setDrx f)) :
    OnLine C L (s.setDrx f) := { h with capture := hcap }

theorem OnLine.ackTx (h : OnLine C L s) : OnLine C L (s.setDtx fun d => { d with done := false }) :=
  { h with capture := h.capture.of_eq rfl rfl }

theorem OnLine.draws (h : OnLine C L s) (n : Nat) : OnLine C L { s with draws := n } :=
  { h with capture := h.capture.of_eq rfl rfl }

/-! Environment steps (20_memory R76 to R80). -/

theorem lineKept_uartTransmit (hC : Honest C) (told : Bool) : (uartTransmit told).Keeps (LineKept C) := by
  intro s
  rcases uartTransmit_run told s with e | ⟨b, rest, sent, ris, n, hx, hen, -, -, hsent, e⟩ <;> rw [e]
  · exact .refl s
  · intro L h
    obtain rfl := hsent (hC _ _ h.regs hen)
    exact (h.setUart (f := fun u => { u with txf := rest, wire := u.wire ++ [sent], ris := ris })
      (by simp [hx]) h.regs).draws n

theorem lineKept_uartReceive (b : Byte) (st : Status) : (uartReceive b st).Keeps (LineKept C) := by
  intro s
  rcases uartReceive_run b st s with e | ⟨-, -, -, e⟩ <;> rw [e]
  · exact .refl s
  · exact fun L h => h.setUart rfl h.regs

theorem memBytes_succ (s : State) (a n : Nat) :
    s.memBytes a (n + 1) = s.memByte a :: s.memBytes (a + 1) n := by
  rw [State.memBytes, List.range_succ_eq_map, List.map_cons, List.map_map]
  refine congrArg (s.memByte a :: ·) (List.map_congr_left fun i _ => congrArg s.memByte ?_)
  omega

/-- The first staged byte leaves the others behind (R77). -/
theorem stagedBytes_afterByte (hrun : s.dtx.run = true) (hrem : 0 < s.dtx.rem) :
    stagedBytes s = s.memByte (s.params.stageAddr + s.dtx.pos)
      :: stagedBytes (s.setDtx TxChannel.afterByte) := by
  obtain ⟨n, hn⟩ := Nat.exists_eq_add_of_le' hrem
  rw [stagedBytes, if_pos hrun, hn, memBytes_succ, stagedBytes, State.setDtx_dtx]
  by_cases hlast : s.dtx.rem = 1
  · obtain rfl : n = 0 := by omega
    rw [TxChannel.afterByte_last hlast]
    rfl
  · rw [TxChannel.afterByte_more hlast, if_pos hrun, hn]
    rfl

theorem OnLine.moveStaged (h : OnLine C L s) (hrun : s.dtx.run = true) (hrem : 0 < s.dtx.rem) :
    OnLine C L ((s.setUart fun u =>
      { u with txf := u.txf ++ [s.memByte (s.params.stageAddr + s.dtx.pos)] }).setDtx
        TxChannel.afterByte) where
  params := h.params
  span hrun' := by
    have hspan := h.span hrun
    simp only [State.setDtx_dtx, State.setUart_dtx, State.setDtx_params, State.setUart_params] at hrun' ⊢
    rw [TxChannel.afterByte_of_run hrun]
    simp only
    omega
  capture := h.capture.of_eq rfl rfl
  regs := h.regs
  line := by
    have hstaged := stagedBytes_afterByte hrun hrem
    rw [← h.line, transmitLine, transmitLine, hstaged]
    simp only [State.setDtx_uart, State.setUart_uart, List.append_assoc, List.cons_append, List.nil_append]
    rfl

theorem lineKept_dmaTxStep : dmaTxStep.Keeps (LineKept C) := by
  refine lineKept_iff.mpr fun s L h => ?_
  by_cases hgo : s.params.mode = .dma ∧ s.dtx.run = true
      ∧ s.uart.dmactl.getLsbD s.params.regMap.txdmae = true ∧ 0 < s.dtx.rem
      ∧ s.uart.txf.length < s.depth
  · obtain ⟨hm, hrun, hen, hrem, hroom⟩ := hgo
    exact .of_ok (dmaTxStep_moves hm hrun hen hrem hroom (h.span hrun)) (h.moveStaged hrun hrem)
  · exact .of_ok (dmaTxStep_idle hgo) h

theorem stagedBytes_congr (hparams : t.params = s.params) (hdtx : t.dtx = s.dtx)
    (hmem : s.dtx.run = true → ∀ i < s.dtx.rem,
      t.mem.read (s.params.stageAddr + s.dtx.pos + i) = s.mem.read (s.params.stageAddr + s.dtx.pos + i)) :
    stagedBytes t = stagedBytes s := by
  rw [stagedBytes, stagedBytes, hparams, hdtx]
  split
  · next hrun => exact memBytes_congr (hmem hrun)
  · rfl

/-- A byte captured into a slot leaves the staged bytes (00_scope R8). -/
theorem OnLine.capture_byte (h : OnLine C L s) (hm : s.params.mode = .dma) (hrun : s.drx.run = true)
    (b : Byte) (rest : List (Byte × Status)) :
    OnLine C L (((s.setUart fun u => { u with rxf := rest }).setMem
      (s.mem.write (slotAddr s.params s.drx.slot + s.drx.nextOffset s.params) b)).setDrx
        RxChannel.afterByte) where
  params := h.params
  span := h.span
  capture := (h.capture.afterByte hm hrun).of_eq rfl rfl
  regs := h.regs
  line := by
    rw [← h.line]
    refine transmitLine_congr rfl (stagedBytes_congr rfl rfl fun htx i hi => ?_) rfl
    have hspan := h.span htx
    have hout := stage_outsideSlots h.params hm (i := s.dtx.pos + i) (by omega)
    rw [← Nat.add_assoc] at hout
    exact (confines_capture (kicks := False) b hm hrun h.capture).memory _ hout False.elim

theorem lineKept_dmaRxStep : dmaRxStep.Keeps (LineKept C) := by
  exact lineKept_iff.mpr fun s L h => dmaRxStep_ends h.capture h (h.setPort rfl)
    fun b rest hm hrun => h.capture_byte hm hrun b rest

theorem lineKept_envStep (hC : Honest C) (e : EnvStep) : (envStep e).Keeps (LineKept C) := by
  have raises (k : Nat) : (setRis k).Keeps (LineKept C) :=
    keeps_modifyUart fun _ _ h => h.setUart rfl h.regs
  cases e with
  | uartTx told => exact lineKept_uartTransmit hC told
  | uartRx b st => exact lineKept_uartReceive b st
  | dmaTx => exact lineKept_dmaTxStep
  | dmaRx => exact lineKept_dmaRxStep
  | raiseRx | raiseRt | raiseTx =>
    exact keeps_bind LineKept.trans (keeps_theState LineKept.refl) fun _ =>
      keeps_ite _ (raises _) (keeps_pure LineKept.refl _)
  | raiseErr k =>
    exact keeps_bind LineKept.trans (keeps_theState LineKept.refl) fun _ => raises _

/-- No body of the receive side touches the line. -/
theorem lineKept_calm (hC : Honest C) : Calm (LineKept C) where
  refl := LineKept.refl
  trans := LineKept.trans
  gap := gap_keeps LineKept.refl LineKept.trans (lineKept_envStep hC)
    fun _ _ _ h => { h with capture := h.capture.of_eq rfl rfl }
  draws _ _ h := h.draws _
  port s f hf L h := by
    obtain ⟨hhead, htail, hring, -⟩ := hf s.port
    exact h.setPort (ringContents_congr rfl hring hhead htail)
  pop _ _ _ h := h.setUart rfl h.regs
  stopRx _ _ h := h.setDrx (h.capture.stopped rfl)
  ackRx _ _ h := h.setDrx ⟨h.capture.cap, h.capture.inside⟩
  armRx _ _ _ h := h.setDrx h.capture.armed
  ackTx _ _ h := h.ackTx

/-! Composing bodies along the line. -/

/-- A part that keeps the line, before the rest of the body. -/
theorem OnLine.after {x : Op α} {f : α → Op β} (h : OnLine C L s) (hx : x.Keeps (LineKept C))
    (hf : ∀ a t, OnLine C L t → (f a).Ends t fun u => transmitLine u = L) :
    Op.Ends (x >>= f) s fun u => transmitLine u = L :=
  ends_bind (h.ends hx) (fun _ ht => ht.line) hf

/-- A register write whose store leaves the registers as `D` says. -/
theorem OnLine.write {f : Unit → Op β} {r : Reg} {v : Word} (h : OnLine C L s) (hC : Honest C)
    (hstore : ∀ t, OnLine C L t → ∃ u, storeReg r v t = .ok () u ∧ OnLine D L u)
    (hf : ∀ u, OnLine D L u → (f ()).Ends u fun t => transmitLine t = L) :
    Op.Ends (regWrite r v >>= f) s fun t => transmitLine t = L := by
  rw [regWrite, op_bind_assoc]
  refine h.after (lineKept_calm hC).gap fun _ t ht => ?_
  obtain ⟨u, hrun, hu⟩ := hstore t ht
  exact ends_bind_ok hrun (hf u hu)

/-- The writes that leave both divisors. -/
theorem lineKept_regWrite {m : RegMap} {r : Reg} (hr : r ∈ [Reg.fbrd, .ctl, .ifls, .im, .icr, .dmactl])
    (v : Word) : (regWrite r v).Keeps (LineKept (Divided m)) := by
  refine regWrite_keeps LineKept.trans (lineKept_calm (honest_divided m)).gap r v fun s => ?_
  cases r with
  | fbrd | ctl | ifls | im | icr | dmactl => exact fun _ h => h.setUart rfl h.regs
  | dr | fr | ibrd | lcrh | ris | mis => simp at hr

theorem lineKept_setTxim {m : RegMap} (v : Bool) : (setTxim v).Keeps (LineKept (Divided m)) :=
  have hcalm := lineKept_calm (honest_divided m)
  hcalm.withState fun _ => hcalm.bind (hcalm.rd _) fun _ => lineKept_regWrite (by simp) _

/-! ### The commit protocol along the line (41_baud_line R137) -/

/-- The UART is disabled, in the layout `m`, and the registers are as `P` says. -/
def Silent (m : RegMap) (P : Regs → Prop) : RegsClause :=
  fun m' x => m' = m ∧ x.ctl.getLsbD m.uarten = false ∧ P x

theorem honest_silent (m : RegMap) (P : Regs → Prop) : Honest (Silent m P) := by
  rintro m' x ⟨rfl, hoff, -⟩ hon
  rw [hoff] at hon
  cases hon

/-- A line-control word that sets `FEN` loses nothing of the FIFOs, and latches the divisor (20_memory
R65, R66). -/
theorem OnLine.storeLcrh (h : OnLine C L s) {v : Word}
    (hv : s.uart.fen s.params.regMap = false ∨ v.getLsbD s.params.regMap.fen = true)
    (hregs : D s.params.regMap (regsOf (s.uart.withLcrh s.params.regMap v))) :
    ∃ u, storeReg .lcrh v s = .ok () u ∧ OnLine D L u :=
  ⟨_, storeLcrh_latch hv, h.setUart rfl hregs⟩

/-- While the protocol runs the UART is disabled; at its end it has the divisor `brdi`, whatever that is. -/
theorem OnLine.commitLine {m : RegMap} {brdi divfrac : Nat} {l : Word} {f : Word → Op β}
    (h : OnLine (Divided m) L s) (hl : l.getLsbD m.fen = true)
    (hf : ∀ c t, OnLine (Silent m fun x => x.ibrdPend = BitVec.ofNat 16 brdi
        ∧ x.ibrdAct = BitVec.ofNat 16 brdi) L t → (f c).Ends t fun u => transmitLine u = L) :
    Op.Ends (Machine.commitLine brdi divfrac l >>= f) s fun u => transmitLine u = L := by
  obtain ⟨hm, -⟩ := h.regs
  have hlayout : regMapOk m = true := hm ▸ regMapOk_of_paramsOk h.params
  rw [Machine.commitLine, op_bind_assoc]
  refine ends_bind_ok (theState_run s) ?_
  simp only [op_bind_assoc, hm]
  refine h.after ((lineKept_calm (honest_divided m)).rd .ctl) fun ctl0 t ht => ?_
  refine ht.write (D := Silent m fun _ => True) (honest_divided m) (fun t ht => ?_) fun t ht => ?_
  · obtain ⟨htm, -⟩ := ht.regs
    refine ⟨_, storeReg_ctl _ t, ht.setUart rfl ⟨htm, ?_, trivial⟩⟩
    show (_ &&& definedMask t.params.regMap .ctl).getLsbD m.uarten = false
    rw [htm, getLsbD_and_definedMask (by simp [fieldsOf]), getLsbD_withBit, if_pos rfl, Bool.and_false]
  refine ht.write (D := Silent m fun x => x.ibrdPend = BitVec.ofNat 16 brdi) (honest_silent m _)
    (fun t ht => ?_) fun t ht => ?_
  · obtain ⟨htm, hoff, -⟩ := ht.regs
    refine ⟨_, storeReg_ibrd _ t, ht.setUart rfl ⟨htm, hoff, ?_⟩⟩
    show BitVec.extractLsb' t.params.regMap.divint 16 _ = _
    rw [htm]
    exact extract_putField ((regMapOk_fields hlayout .ibrd).1 (m.divint, 16) (by simp [fieldsOf])) _
  refine ht.write (D := Silent m fun x => x.ibrdPend = BitVec.ofNat 16 brdi) (honest_silent m _)
    (fun t ht => ⟨_, storeReg_fbrd _ t, ht.setUart rfl ht.regs⟩) fun t ht => ?_
  refine ht.write (honest_silent m _) (fun t ht => ?_) (hf ctl0)
  obtain ⟨htm, hoff, hpend⟩ := ht.regs
  exact ht.storeLcrh (.inr (by rw [htm]; exact hl)) ⟨htm, hoff, hpend, hpend⟩

/-- LINE_APPLY may commit a zero divisor, but enables the UART only with its last primitive (R136). -/
theorem OnLine.lineApply {m : RegMap} (h : OnLine (Divided m) L s) (line : LineFormat) (policy : Policy)
    (baud : Nat) : (Machine.lineApply line policy baud).Ends s fun u => transmitLine u = L := by
  obtain ⟨hm, -⟩ := h.regs
  have hfen : (lcrhWord s.params.regMap line).getLsbD m.fen = true := by
    rw [hm]
    exact lcrhWord_fen (hm ▸ regMapOk_of_paramsOk h.params) line
  refine ends_bind_ok (theState_run s) ?_
  by_cases hb : baud = 0
  · rw [hb]
    exact .of_error (op_bind_error (baudCalc_zero _ s)) ((transmitLine_congr rfl rfl rfl).trans h.line)
  refine ends_bind_ok (baudCalc_run _ s hb) (h.commitLine hfen fun ctl0 t ht => ?_)
  refine ht.write (D := fun _ _ => True) (honest_silent m _)
    (fun t ht => ⟨_, storeReg_ctl _ t, ht.setUart rfl trivial⟩) fun t ht => ?_
  exact ends_bind_ok (modifyPort_run _ t) (.of_ok rfl ((transmitLine_congr rfl rfl rfl).trans ht.line))

/-- `BRK` may change without `FEN` (10_state R38). -/
theorem fen_withBrk {m : RegMap} (hm : regMapOk m = true) (l : Word) (on : Bool) :
    (withBit (l &&& definedMask m .lcrh) m.brk on).getLsbD m.fen = l.getLsbD m.fen := by
  obtain ⟨hlt, hne⟩ := fen_apart_brk hm
  rw [getLsbD_withBit, if_neg hne, getLsbD_and_definedMask (by simp [fieldsOf])]
  simp [hlt]

/-- SET_BREAK writes back the line-control word with `BRK` alone changed (45_port_control R205). -/
theorem OnLine.setBreak {m : RegMap} (h : OnLine (Divided m) L s) (on : Bool) :
    (Machine.setBreak on).Ends s fun u => transmitLine u = L := by
  have hcalm := lineKept_calm (honest_divided m)
  refine h.after hcalm.requireRunning fun _ s h => ends_bind_ok (theState_run s) ?_
  obtain ⟨hm, -⟩ := h.regs
  have hlayout : regMapOk m = true := hm ▸ regMapOk_of_paramsOk h.params
  rw [Machine.rd, op_bind_assoc, hm]
  refine h.after hcalm.gap fun _ t ht => ?_
  have hread : OnLine (fun m' x => Divided m m' x ∧ x.lcrh = t.uart.lcrh) L t :=
    { ht with regs := ⟨ht.regs, rfl⟩ }
  obtain ⟨htm, -⟩ := ht.regs
  refine ends_bind_ok (a := t.regValue .lcrh &&& definedMask t.params.regMap .lcrh) (t := t) rfl ?_
  rw [regWrite]
  refine ends_bind (hread.ends (lineKept_calm fun _ _ hx => honest_divided m _ _ hx.1).gap)
    (fun _ hu => hu.line) fun _ u hu => ?_
  obtain ⟨⟨hum, hact, hpend⟩, hlcrh⟩ := hu.regs
  have hword : (withBit (t.regValue .lcrh &&& definedMask t.params.regMap .lcrh) m.brk on).getLsbD
      u.params.regMap.fen = u.uart.fen u.params.regMap := by
    rw [htm, hum, State.regValue, ← hlcrh]
    exact fen_withBrk hlayout _ on
  obtain ⟨v, hrun, hv⟩ := hu.storeLcrh (D := Divided m)
    (by rw [hword]; exact (Bool.eq_false_or_eq_true _).symm)
    ⟨hum, hpend, hpend⟩
  exact .of_ok hrun hv.line

/-! ### STARTUP along the line (45_port_control R203) -/

theorem ringContents_empty (h : s.pending = 0) : ringContents s = [] := by
  rw [ringContents, h]
  rfl

/-- An empty ring is empty wherever its indices stand. -/
theorem OnLine.cleared (h : OnLine C L s) (hp : s.pending = 0) : OnLine C L (s.setPort Port.cleared) := by
  refine h.setPort ?_
  obtain ⟨hn, -⟩ := paramsOk_bounds h.params
  rw [ringContents_empty hp, ringContents_empty (s := s.setPort Port.cleared) (pendingOf_empty hn rfl rfl)]

theorem OnLine.recommit {m : RegMap} {c : Option Committed} {f : Unit → Op β}
    (h : OnLine (Divided m) L s)
    (hfen : ∀ d, c = some d → d.lcrh.getLsbD m.fen = true)
    (hdiv : ∀ d, c = some d → BitVec.ofNat 16 d.brdi ≠ 0)
    (hf : ∀ t, OnLine (Divided m) L t → (f ()).Ends t fun u => transmitLine u = L) :
    Op.Ends (Machine.recommit c >>= f) s fun u => transmitLine u = L := by
  cases c with
  | none => exact hf s h
  | some d =>
    rw [Machine.recommit, op_bind_assoc]
    refine h.commitLine (hfen d rfl) fun _ t ht => hf t (ht.regs_mono ?_)
    rintro x ⟨hm, -, hpend, hact⟩
    exact ⟨hm, by rw [hact]; exact hdiv d rfl, by rw [hpend]; exact hdiv d rfl⟩

theorem lineKept_openMode {m : RegMap} (p : Params) : (openMode p).Keeps (LineKept (Divided m)) := by
  have hcalm := lineKept_calm (honest_divided m)
  unfold openMode
  cases p.mode with
  | poll => exact hcalm.bind (lineKept_regWrite (by simp) _) fun _ => lineKept_regWrite (by simp) _
  | dma =>
    exact hcalm.bind (hcalm.dmaArmRx _) fun _ => hcalm.bind (lineKept_regWrite (by simp) _) fun _ =>
      lineKept_regWrite (by simp) _

theorem OnLine.startup {m : RegMap} (h : OnLine (Divided m) L s)
    (hempty : s.port.life ≠ .running → s.pending = 0)
    (hfen : ∀ d, s.port.committed = some d → d.lcrh.getLsbD m.fen = true)
    (hdiv : ∀ d, s.port.committed = some d → BitVec.ofNat 16 d.brdi ≠ 0) :
    Machine.startup.Ends s fun u => transmitLine u = L := by
  by_cases hl : s.port.life = .running
  · exact .of_error (startup_fault hl) ((transmitLine_congr rfl rfl rfl).trans h.line)
  rw [startup_eq]
  refine ends_bind_ok (theState_run s) ?_
  rw [if_neg hl]
  refine ends_bind_ok (modifyPort_run _ s) ?_
  refine (h.cleared (hempty hl)).after (lineKept_regWrite (by simp) _) fun _ t ht => ?_
  refine ht.after (lineKept_regWrite (by simp) _) fun _ t ht => ?_
  refine ht.after (lineKept_regWrite (by simp) _) fun _ t ht => ?_
  refine ht.recommit hfen hdiv fun t ht => ?_
  refine ht.after (lineKept_regWrite (by simp) _) fun _ t ht => ?_
  refine ht.after (lineKept_openMode _) fun _ t ht => ?_
  exact .of_ok (modifyPort_run _ t) ((transmitLine_congr rfl rfl rfl).trans ht.line)

end onLine

/-! ### The kick along the line (42_transmit R148, R149) -/

section kickLine

variable {C : RegsClause} {L : List Byte} {r : RegMap} {w : Prop} {m : Midway} {s : State} {α β : Type}

theorem stagedBytes_idle (h : s.dtx.run = false) : stagedBytes s = [] := by
  rw [stagedBytes, if_neg (by simp [h])]

/-- With an idle transmit channel nothing stands between the FIFO and the ring. -/
theorem transmitLine_idle (h : s.dtx.run = false) :
    transmitLine s = s.uart.wire ++ s.uart.txf ++ ringContents s := by
  rw [transmitLine, stagedBytes_idle h, List.append_nil]

/-- The bytes pushed leave the ring at its tail and follow the FIFO in the same order (R148). -/
theorem OnLine.txKickPoll (h : OnLine (Divided r) L s) (hp : Pushable s) (hidle : s.dtx.run = false) :
    Machine.txKickPoll.Ends s fun t => transmitLine t = L := by
  by_cases hnone : s.pending = 0 ∨ s.port.ttyStopped = true
  · exact .of_eq (txKickPoll_none hnone) ((h.ends (lineKept_setTxim false)).mono fun _ ht => ht.line)
  obtain ⟨hpend, htty⟩ := not_or.mp hnone
  obtain ⟨x, u, k, hrun, hk⟩ := txKickPoll_kicked hp hpend (by simpa using htty)
  obtain ⟨-, hact, -⟩ := h.regs
  have hdtx : u.dtx = s.dtx := hk.unseen.dtx.trans hk.moved.dtx
  have hring : ringContents u = (ringContents s).drop k :=
    (ringContents_of_view hk.unseen.view).trans hk.moved.rest
  refine .of_ok hrun ?_
  calc transmitLine u
      = u.uart.wire ++ u.uart.txf ++ ringContents u := transmitLine_idle (hdtx ▸ hidle)
    _ = s.uart.wire ++ s.uart.txf ++ ((ringContents s).take k ++ (ringContents s).drop k) := by
        rw [hk.line hact, hring, List.append_assoc]
    _ = L := by rw [List.take_append_drop, ← transmitLine_idle hidle, h.line]

/-- The run that is staged stands before the rest of the ring, as it did inside it (R149). -/
theorem OnLine.txKickDma (h : OnLine C L s) (hC : Honest C) (hs : Starts s) (hring : RingInv s)
    (hc : channelsOk s = true) (hwf : s.mem.wf = true) :
    Machine.txKickDma.Ends s fun t => transmitLine t = L := by
  have hstaged : Leaves s s.staged s.staged := ⟨rfl, hc, fun _ _ => rfl, fun _ => rfl⟩
  obtain ⟨u, hgap, hu⟩ := hstaged.gap rfl
  have hrun : u.dtx.run = false := (congrArg TxChannel.run (txHalted_gap.ok hgap hs.idle)).trans hs.idle
  have hfrom : OnLine C (transmitLine s.staged) s.staged :=
    { h with capture := h.capture.of_eq rfl rfl, line := rfl }
  have hkept := ((lineKept_calm hC).gap.ok hgap _ hfrom).line
  have hrest : ringContents u = ringContents s.staged := ringContents_of_view hu.view
  rw [transmitLine_idle hrun, transmitLine_idle (s := s.staged) hs.idle, hrest] at hkept
  have hout : u.uart.wire ++ u.uart.txf = s.uart.wire ++ s.uart.txf := List.append_cancel_right hkept
  have hslice := ringContents_eq_slice_append hring s.dmaRun
  have hleft : ringContents u = ringContents (s.dequeued s.dmaRun) := by
    rw [hrest]
    refine ringContents_congr rfl rfl rfl ?_
    show (s.port.tail + s.dmaRun) % _ = (s.port.tail + s.sliceLength s.dmaRun) % _
    rw [hs.sliceLength]
  rw [hs.sliceLength] at hslice
  have hbytes := hs.memBytes_staged hwf hu.memory
  rw [← show u.params = s.params from viewOf_params (s := s.staged) hu.view] at hbytes
  refine .of_ok (hs.txKickDma_run hgap hu.view hrun) ?_
  calc transmitLine ((u.started s.dmaRun).wokenBelow (s.pending - s.dmaRun))
      = u.uart.wire ++ u.uart.txf ++ u.memBytes u.params.stageAddr s.dmaRun ++ ringContents u := rfl
    _ = s.uart.wire ++ s.uart.txf ++ ringContents s := by
        rw [hout, hbytes, hleft, hslice, List.append_assoc]
    _ = L := by rw [← transmitLine_idle hs.idle, h.line]

theorem Sound.ringInv (h : Sound w m s) : RingInv s :=
  ⟨h.ring.head_lt, h.ring.tail_lt, h.ring.canonical, h.ring.inside⟩

theorem Sound.pushable (h : Sound w m s) (hm : s.params.mode = .poll) (hl : s.port.life = .running) :
    Pushable s :=
  ⟨hm, regMapOk_of_paramsOk h.params, h.ringInv, (h.fifos.fits (.inl (by simp [hl]))).1⟩

/-- A channel without an outstanding transfer does not run (42_transmit R149). -/
theorem Sound.starts (h : Sound w m s) (hm : s.params.mode = .dma)
    (hgo : ¬ (s.pending = 0 ∨ s.port.ttyStopped = true ∨ s.port.txBusy = true)) : Starts s := by
  simp only [not_or, Bool.not_eq_true] at hgo
  obtain ⟨hpend, htty, hfree⟩ := hgo
  refine ⟨h.params, hm, hpend, htty, hfree, ?_, h.ring.tail_lt⟩
  by_contra hrun
  rw [h.tx.run_busy (by simpa using hrun)] at hfree
  cases hfree

theorem OnLine.txKick (h : OnLine (Divided r) L s) (hs : Sound w m s) :
    Machine.txKick.Ends s fun t => transmitLine t = L := by
  by_cases hl : s.port.life = .running
  case neg => exact .of_error (txKick_fault hl) ((transmitLine_congr rfl rfl rfl).trans h.line)
  cases hm : s.params.mode with
  | poll =>
    exact .of_eq (txKick_poll hl hm)
      (h.txKickPoll (hs.pushable hm hl) (hs.idle_channels (.inl hm)).tx.1)
  | dma =>
    by_cases hnone : s.pending = 0 ∨ s.port.ttyStopped = true ∨ s.port.txBusy = true
    · exact .of_ok (txKick_dma_none hl hm hnone) h.line
    · exact .of_eq (txKick_dma hl hm) (h.txKickDma (honest_divided r) (hs.starts hm hnone) hs.ringInv
        hs.channelsOk hs.mem.canonical)

/-- A signalled completion is counted, which moves no byte, and the ring is kicked (R152). -/
theorem OnLine.txDmaDone (h : OnLine (Divided r) L s) (hs : Sound w m s)
    (hd : s.dtx.run = false ∧ s.dtx.done = false) :
    Machine.txDmaDone.Ends s fun t => transmitLine t = L := by
  cases hbusy : s.port.txBusy with
  | false => exact .of_ok (txDmaDone_idle hbusy) h.line
  | true =>
    have hcount : Sound w m (s.setPort Port.txCounted) :=
      Sound.endTx ((soundKept_benign w m).countTx s.port.txLen s hs) hd
    rw [Op.Ends, txDmaDone_busy hbusy]
    exact (h.setPort (ringContents_congr rfl rfl rfl rfl)).txKick hcount

/-! ### IRQ_DISPATCH along the line (44_dispatch R196) -/

/-- A part whose outcome is known and that keeps the line, before the rest of the body. -/
theorem OnLine.afterRuns {x : Op α} {f : α → Op β} {P : α → State → Prop} {Q : State → Prop}
    (h : OnLine C L s) (hx : x.Keeps (LineKept C)) (hr : x.Runs s P)
    (hf : ∀ a t, P a t → OnLine C L t → (f a).Ends t Q) : Op.Ends (x >>= f) s Q := by
  obtain ⟨a, t, e, hP⟩ := hr
  exact ends_bind_ok e (hf a t hP (hx.ok e L h))

theorem OnLine.serveTx (h : OnLine (Divided r) L s) (hs : Sound w m s) :
    (Machine.dmaQueryAckTx >>= fun d => if d = true then Machine.txDmaDone else pure ()).Ends s
      fun t => transmitLine t = L := by
  refine h.afterRuns (lineKept_calm (honest_divided r)).dmaQueryAckTx hs.dmaQueryAckTx
    fun d t ht hline => ?_
  obtain ⟨hs, hd⟩ := ht
  split
  · next hdone => exact hline.txDmaDone hs (hd hdone)
  · exact .of_ok rfl hline.line

theorem OnLine.routeDma (h : OnLine (Divided r) L s) (hs : Sound w {} s) (hl : s.port.life = .running)
    (hm : s.params.mode = .dma) (mis : Word) :
    (Machine.routeDma mis).Ends s fun t => transmitLine t = L := by
  have hcalm := lineKept_calm (honest_divided r)
  refine ends_bind_ok (theState_run s) (h.afterRuns hcalm.dmaQueryAckRx hs.dmaQueryAckRx
    fun d t ht hline => ?_)
  obtain ⟨hs, hport, hparams⟩ := ht
  refine ends_when (fun _ => ?_) (hline.serveTx hs)
  exact hline.afterRuns hcalm.rxDmaEvent
    (hs.rxDmaEvent (by rw [hport]; exact hl) (by rw [hparams]; exact hm))
    fun _ u hu hline => hline.serveTx hu

theorem OnLine.routePoll (h : OnLine (Divided r) L s) (hs : Sound w m s) (mis : Word) :
    (Machine.routePoll mis).Ends s fun t => transmitLine t = L := by
  have kick {c : Prop} [Decidable c] {t : State} (ht : Sound w m t ∧ OnLine (Divided r) L t) :
      (if c then Machine.txKick else pure ()).Ends t fun t => transmitLine t = L := by
    split
    · exact ht.2.txKick ht.1
    · exact .of_ok rfl ht.2.line
  refine ends_bind_ok (theState_run s) (ends_when (fun _ => ?_) (kick ⟨hs, h⟩))
  have hrx := (soundKept_iff.mp (soundKept_benign w m).rxPollEvent s hs).and
    (h.ends (lineKept_calm (honest_divided r)).rxPollEvent)
  exact ends_bind hrx (fun _ hu => hu.2.line) fun _ _ hu => kick hu

theorem OnLine.irqDispatch (h : OnLine (Divided r) L s) (hs : Sound w {} s)
    (hl : s.port.life = .running) : Machine.irqDispatch.Ends s fun t => transmitLine t = L := by
  refine ends_bind_ok (theState_run s) (h.afterRuns ((lineKept_calm (honest_divided r)).rd .mis)
    (hs.rd .mis) fun mis t ht hline => ?_)
  obtain ⟨-, hs₁, hheld₁⟩ := ht
  refine hline.afterRuns (lineKept_regWrite (by simp) _) (hs₁.regWrite (r := .icr) (by simp) _)
    fun _ u hu hline => ?_
  obtain ⟨hs₂, hheld₂⟩ := hu
  have hheld := hheld₁.trans hheld₂
  cases hm : s.params.mode with
  | poll => exact hline.routePoll hs₂ mis
  | dma => exact hline.routeDma hs₂ (by rw [hheld.port]; exact hl) (by rw [hheld.params]; exact hm) mis

end kickLine

/-! ### What a producer accepts (40_ringbuffer R111, R116) -/

section accept

variable {s t : State}

theorem room_of_full (h : s.ringFull = true) : room s = 0 := by
  simp only [State.ringFull, beq_iff_eq] at h
  simp [room, h]

theorem room_of_not_full (hring : RingInv s) (h : s.ringFull = false) : 1 ≤ room s := by
  have hlt := pending_lt (s := s) (Nat.zero_lt_of_lt hring.head_lt)
  simp only [State.ringFull, beq_eq_false_iff_ne] at h
  simp only [room]
  omega

/-- What is appended to the ring is appended to the line. -/
theorem transmitLine_append {bs : List Byte} (huart : t.uart = s.uart) (hst : stagedBytes t = stagedBytes s)
    (hring : ringContents t = ringContents s ++ bs) : transmitLine t = transmitLine s ++ bs := by
  rw [transmitLine, transmitLine, huart, hst, hring, List.append_assoc _ _ bs]

theorem acceptedBy_stopped (hl : s.port.life ≠ .running) (i : Option Instr) : acceptedBy s i = [] :=
  if_neg hl

theorem acceptedBy_none (s : State) : acceptedBy s none = [] := ite_self _

theorem transmitLine_exec_write {data : List Byte} (hring : RingInv s)
    (h : exec (.write data) s = .next t) :
    transmitLine t = transmitLine s ++ acceptedBy s (some (.write data)) := by
  by_cases hl : s.port.life = .running
  · obtain ⟨u, hrun, hu⟩ := writeLoop_accepts data hring hl
    rw [write_run hl hrun] at h
    cases h
    rw [acceptedBy, if_pos hl]
    exact transmitLine_append (t := { u with writeOwed := _ }) (by rw [hu.frame])
      (by rw [hu.frame]; rfl) hu.contents
  · rw [acceptedBy_stopped hl, List.append_nil]
    refine performSilent_ends (Q := fun t => transmitLine t = transmitLine s) ?_ h
    exact .of_error (op_bind_error (requireRunning_of_not_running hl)) rfl

theorem ringEnqueue_line (hring : RingInv s) (b : Byte) : (ringEnqueue b).Ends s fun t =>
    transmitLine t = transmitLine s ++ acceptedBy s (some (.rbTryEnqueue b)) := by
  by_cases hl : s.port.life = .running
  case neg =>
    exact .of_error (ringEnqueue_fault b hl) (by rw [acceptedBy_stopped hl, List.append_nil]; rfl)
  cases hf : s.ringFull with
  | true =>
    refine .of_ok (ringEnqueue_full b hl hf) ?_
    rw [acceptedBy, if_pos hl, room_of_full hf]
    exact (List.append_nil _).symm
  | false =>
    refine .of_ok (ringEnqueue_enqueued b hl hf) ?_
    rw [acceptedBy, if_pos hl]
    refine transmitLine_append rfl rfl ((ringContents_enqueued hring b hf).trans ?_)
    rw [List.take_of_length_le (room_of_not_full hring hf)]

end accept

/-! ### Every command and every step along the line (42_transmit R155) -/

section line

variable {r : RegMap} {w : Prop} {L : List Byte} {s t : State}

/-- The commands that, issued by an agent, neither add to the line nor take from it. RB_DEQUEUE_UP_TO is
among them as a part of a kick, which no agent issues alone. -/
def conveys : Instr → Bool
  | .write _ | .rbTryEnqueue _ | .txStop | .shutdown => false
  | _ => true

theorem acceptedBy_conveys {i : Instr} (h : conveys i = true) : acceptedBy s (some i) = [] := by
  cases i with
  | write | rbTryEnqueue => cases h
  | _ => exact ite_self _

theorem line_perform {body : Op (List Word)} (hb : body.Ends s fun u => transmitLine u = L)
    (h : perform body s = .next t) : transmitLine t = L := perform_ends hb (fun _ _ hu => hu) h

theorem line_performUnit {body : Op Unit} (hb : body.Ends s fun u => transmitLine u = L)
    (h : performUnit body s = .next t) : transmitLine t = L := performUnit_ends hb (fun _ _ hu => hu) h

/-- A body that keeps the line, under any command that performs it. -/
theorem OnLine.kept {α : Type} {C : RegsClause} (h : OnLine C L s) {x : Op α}
    (hx : x.Keeps (LineKept C)) :
    x.Ends s fun u => transmitLine u = L := (h.ends hx).mono fun _ hu => hu.line

/-- A command that issues nothing. -/
theorem OnLine.unissued {C : RegsClause} (h : OnLine C L s)
    (hrun : Host.Outcome.next (φ := Fault) (ρ := Refusal) s = .next t) : transmitLine t = L := by
  cases hrun
  exact h.line

/-- The divisors that a STARTUP commits again are nonzero. -/
def CommitDivided (s : State) : Prop :=
  ∀ c, s.port.committed = some c → BitVec.ofNat 16 c.brdi ≠ 0

/-- A port that does not run has an empty ring (10_state R24). -/
theorem Sound.stopped_pending {m : Midway} (h : Sound w m s) (hl : s.port.life ≠ .running) :
    s.pending = 0 := by
  have hempty := h.stopped_empty hl
  rw [State.pending, pendingOf_eq h.ring.head_lt h.ring.tail_lt, if_pos (by omega)]
  omega

theorem OnLine.exec {i : Instr} (h : OnLine (Divided s.params.regMap) L s) (hs : Sound w {} s)
    (hdiv : CommitDivided s) (hmay : mayIssue s.issuer (opcodeFor i) = true)
    (hagent : s.issuer ≠ .internal) (hconveys : conveys i = true) (hrun : exec i s = .next t) :
    transmitLine t = L := by
  have hB := lineKept_calm (honest_divided s.params.regMap)
  have read (f : State → List Word) :
      Op.Keeps (LineKept (Divided s.params.regMap)) (theState >>= fun u => pure (f u)) :=
    hB.withState fun _ => hB.pure _
  have partOnly (hno : ∀ who, who ≠ .internal → mayIssue who (opcodeFor i) = false) : False := by
    rw [hno _ hagent] at hmay
    cases hmay
  cases i with
  | write | rbTryEnqueue | txStop | shutdown => cases hconveys
  | baudCalc c b =>
    refine line_perform (h.kept (hB.bind (hB.withState fun _ => ?_) fun _ => hB.pure _)) hrun
    exact keeps_ite _ (hB.raise _) (hB.pure _)
  | maskCalc policy => exact line_perform (h.kept (hB.pure _)) hrun
  | lineApply line policy baud => exact line_perform (h.lineApply line policy _) hrun
  | setBreak on => exact line_performUnit (h.setBreak on) hrun
  | queryTxEmpty =>
    exact line_perform (h.kept (hB.withState fun _ => hB.bind (hB.rd _) fun _ => hB.pure _)) hrun
  | startup =>
    exact line_performUnit (h.startup (fun hl => hs.stopped_pending hl) hs.committed_fen hdiv) hrun
  | setTtyStopped on =>
    rw [Machine.exec, execSetTtyStopped] at hrun
    exact line_performUnit (h.kept hB.modifies) hrun
  | txKick => exact line_performUnit (h.txKick hs) hrun
  | rbDequeueUpTo | txDmaDone =>
    refine (partOnly fun who hwho => ?_).elim
    cases who with
    | internal => exact absurd rfl hwho
    | host | irq | task => rfl
  | rbPendingCount =>
    rw [Machine.exec, execRbPendingCount] at hrun
    exact line_perform (h.kept (read _)) hrun
  | rbIsEmpty =>
    rw [Machine.exec, execRbIsEmpty] at hrun
    exact line_perform (h.kept (read _)) hrun
  | irqDispatch =>
    simp only [Machine.exec, execIrqDispatch] at hrun
    split at hrun
    · next hl => exact line_performUnit (h.irqDispatch hs hl) hrun
    · exact h.unissued hrun
  | rxPollEvent => exact line_performUnit (h.kept hB.rxPollEvent) hrun
  | rxDmaEvent =>
    simp only [Machine.exec, execRxDmaEvent] at hrun
    split at hrun
    · split at hrun
      · exact line_performUnit (h.kept hB.recheck) hrun
      · exact h.unissued hrun
    · exact line_performUnit (h.kept hB.rxDmaEvent) hrun
  | rxTaskCopy =>
    simp only [Machine.exec, execRxTaskCopy] at hrun
    split at hrun
    · exact line_performUnit (h.kept (hB.taskCopy _)) hrun
    · exact h.unissued hrun
  | rxTaskFinish =>
    simp only [Machine.exec, execRxTaskFinish] at hrun
    split at hrun
    · exact line_performUnit (h.kept (hB.taskFinish _)) hrun
    · exact h.unissued hrun
  | rxClassify st => exact line_perform (h.kept (hB.pure _)) hrun
  | rxFlag st =>
    rw [Machine.exec, execRxFlag] at hrun
    exact line_perform (h.kept (read _)) hrun

/-- A command extends the line by the bytes it accepts. -/
theorem transmitLine_exec {i : Instr} (h : OnLine (Divided s.params.regMap) (transmitLine s) s)
    (hs : Sound w {} s) (hdiv : CommitDivided s) (hmay : mayIssue s.issuer (opcodeFor i) = true)
    (hagent : s.issuer ≠ .internal) (hstop : i ≠ .txStop) (hshut : i ≠ .shutdown)
    (hrun : exec i s = .next t) : transmitLine t = transmitLine s ++ acceptedBy s (some i) := by
  cases hc : conveys i with
  | true =>
    rw [acceptedBy_conveys hc, List.append_nil]
    exact h.exec hs hdiv hmay hagent hc hrun
  | false =>
    cases i with
    | write data => exact transmitLine_exec_write hs.ringInv hrun
    | rbTryEnqueue b =>
      refine perform_ends (ends_bind (ringEnqueue_line hs.ringInv b) (fun _ hu => hu) fun _ u hu => ?_)
        (fun _ _ hu => hu) hrun
      exact .of_ok rfl hu
    | txStop => exact absurd rfl hstop
    | shutdown => exact absurd rfl hshut
    | _ => cases hc

/-- Between operations the line of a state of the invariant is what it reads. -/
theorem OnLine.of_inv (h : Inv s) (hact : s.uart.ibrdAct ≠ 0) (hpend : s.uart.ibrdPend ≠ 0) :
    OnLine (Divided s.params.regMap) (transmitLine s) s where
  params := h.params
  span hrun := by
    obtain ⟨hspan, -⟩ := h.tx.run_span hrun
    exact hspan.trans_le h.tx.len_le
  capture := .of_inv h
  regs := ⟨rfl, hact, hpend⟩
  line := rfl

/-- The turn at the head of the schedule takes nothing from the line. -/
theorem OnLine.actedBy {C : RegsClause} (h : OnLine C L s) (who : Issuer) (ws : List Word) :
    OnLine C L (s.actedBy who ws) :=
  { h with capture := h.capture.of_eq rfl rfl }

theorem transmitLine_finishWrite {acc : Nat} (h : OnLine (Divided r) L s)
    (hs : Sound w {} s) (hrun : finishWrite acc s = .next t) : transmitLine t = L := by
  have hsound : Sound w {} { s with writeOwed := none } :=
    { hs with owed_running := fun k => absurd rfl k }
  have howed : OnLine (Divided r) L { s with writeOwed := none } :=
    { h with capture := h.capture.of_eq rfl rfl }
  exact line_perform (ends_bind (howed.txKick hsound) (fun _ hu => hu) fun _ _ hu => .of_ok rfl hu) hrun

end line

/-- Settles O35: `OnLine` is kept by every environment step and every engine, a kick moves bytes from one
part of the line to the one before it, and only a producer's command extends the line. -/
theorem transmitLineKeepsItsOrder : Obligations.TransmitLineKeepsItsOrder := by
  intro s t hinv hact hpend hdiv hstop hshut hstep
  have hs : Sound False {} s := .of_inv hinv fun k => k.elim
  have h := OnLine.of_inv hinv hact hpend
  have quiet (hnone : commandAt s = none) (hline : transmitLine t = transmitLine s) :
      transmitLine t = transmitLine s ++ acceptedBy s (commandAt s) := by
    rw [hnone, hline, acceptedBy_none, List.append_nil]
  cases step_stepped hstep with
  | env e _ head run =>
    refine quiet ?_ ?_
    · obtain ⟨ts, hts⟩ := List.head?_eq_some_iff.mp head
      rw [commandAt, hts]
    · have hnext : OnLine (Divided s.params.regMap) (transmitLine s) { s with turns := s.turns.tail } :=
        { h with capture := h.capture.of_eq rfl rfl }
      exact performSilent_ends (hnext.kept (lineKept_envStep (honest_divided _) e)) run
  | command who i ws _ at_head _ agent may _ _ run =>
    rw [at_head] at hstop hshut ⊢
    refine transmitLine_exec (s := s.actedBy who ws) (h.actedBy who ws) (hs.actedBy who ws) hdiv may
      (fun hint => ?_) (fun hi => hstop (congrArg some hi)) (fun hi => hshut (congrArg some hi)) run
    obtain ⟨u, hu, hno⟩ := agent hint
    exact absurd (hs.agents u hu) (by simp [hno])
  | owed acc _ at_head _ run =>
    exact quiet at_head (transmitLine_finishWrite (h.actedBy .host s.stream)
      (hs.actedBy .host s.stream) run)
  | refused _ _ _ at_head _ => exact quiet at_head rfl
  | nothing at_head => exact quiet at_head rfl

end Sys2Proof.Machine

/-! PROOFS of the family 43_receive: the status decode, the polled receive event, the capture into a slot,
the receive event of dma mode and its task, and the order of the received bytes (43_receive R166 to
R184). -/

namespace Sys2Proof.Machine

open Sys2Proof.Safety

/-! ### The status decode (43_receive R166, R168) -/

/-- A class of one element is a member as its bit says (30_encoding R94). -/
theorem has_bits (st : Status) : has st setFE = st.getLsbD 0 ∧ has st setPE = st.getLsbD 1
    ∧ has st setBE = st.getLsbD 2 ∧ has st setOE = st.getLsbD 3 := by
  revert st
  decide

/-- The classes that discard a character are all but the overrun (R169). -/
theorem discard_bits (st : Status) : (st &&& (setBE ||| setPE ||| setFE) != 0)
    = (st.getLsbD 2 || st.getLsbD 1 || st.getLsbD 0) := by
  revert st
  decide

theorem classCode_classify (st : Status) : classCode (classify st)
    = if st.getLsbD 2 then 1 else if st.getLsbD 1 then 2 else if st.getLsbD 3 then 3
      else if st.getLsbD 0 then 4 else 0 := by
  obtain ⟨hfe, hpe, hbe, hoe⟩ := has_bits st
  rw [classify, hfe, hpe, hbe, hoe]
  split_ifs <;> rfl

/-- The words RX_FLAG answers, by the bits of the masked status and of the ignore mask (R168). -/
theorem flagOf_words (rm im st : Status) :
    let ms := st &&& rm
    let d := flagOf rm im st
    flagCode d.flag = (if ms.getLsbD 2 then 1 else if ms.getLsbD 1 then 2 else if ms.getLsbD 0 then 3
        else 0)
      ∧ d.discard = ((ms.getLsbD 2 && im.getLsbD 2) || (ms.getLsbD 1 && im.getLsbD 1)
        || (ms.getLsbD 0 && im.getLsbD 0))
      ∧ d.om = (ms.getLsbD 3 && !im.getLsbD 3) := by
  intro ms d
  obtain ⟨hfe, hpe, hbe, hoe⟩ := has_bits ms
  obtain ⟨-, -, -, hign⟩ := has_bits im
  refine ⟨?_, ?_, ?_⟩
  · show flagCode (if has ms setBE then _ else if has ms setPE then _ else if has ms setFE then _ else _)
      = _
    rw [hfe, hpe, hbe]
    split_ifs <;> rfl
  · refine (discard_bits (ms &&& im)).trans ?_
    simp only [BitVec.getLsbD_and]
  · show (has ms setOE && !has im setOE) = _
    rw [hoe, hign]

/-- Settles O36: each decision by the bits of the status it is made on. -/
theorem statusDecodeResults : Obligations.StatusDecodeResults := by
  refine fun s st => ⟨?_, ?_⟩
  · have hrun : exec (.rxClassify st) s = .next (s.reply (.result [classCode (classify st)])) := rfl
    rw [hrun, classCode_classify]
  · obtain ⟨hflag, hdiscard, hom⟩ := flagOf_words s.port.readMask s.port.ignoreMask st
    have hrun : exec (.rxFlag st) s = .next (s.reply (.result
        [flagCode (flagOf s.port.readMask s.port.ignoreMask st).flag,
          boolWord (flagOf s.port.readMask s.port.ignoreMask st).discard,
          boolWord (flagOf s.port.readMask s.port.ignoreMask st).om])) := rfl
    rw [hrun, hflag, hdiscard, hom]
    rfl

/-! ### The Task's steps (43_receive R178, R179, R181) -/

theorem taskIn_eq {s : State} {k : Task} (hl : s.port.life = .running) (ht : s.port.task = some k) :
    s.taskIn k.phase = some k := by
  simp [State.taskIn, ht, hl]

theorem execRxTaskCopy_run {s : State} {k : Task} (h : s.taskIn .copy = some k) :
    exec .rxTaskCopy s = performUnit (taskCopy k) s := by
  rw [exec, execRxTaskCopy, h]

theorem execRxTaskFinish_run {s : State} {k : Task} (h : s.taskIn .finish = some k) :
    exec .rxTaskFinish s = performUnit (taskFinish k) s := by
  rw [exec, execRxTaskFinish, h]

/-- A task on the landing slot is refused before its bytes are read (R178). -/
theorem taskCopy_race {s : State} {k : Task} (h : k.slot = s.port.landing) : taskCopy k s
    = .error .slotRace (s.setPort fun q => { q with fault := some .slotRace }) := by
  rw [taskCopy, theState_bind, if_pos h, raiseFault_run]

/-- The ready slot's bytes are delivered, and the task moves on (R178). -/
theorem taskCopy_ready {s : State} {k : Task} (h : k.slot ≠ s.port.landing) (hm : s.params.mode = .dma)
    (hcap : k.count ≤ s.params.slotCap) : taskCopy k s = .ok () (s.setPort fun q => { q with
      out := q.out ++ [.deliver ((s.memBytes (slotAddr s.params k.slot) k.count).map
        fun b => (b, .normal))]
      task := some { k with phase := .finish } }) := by
  have hin : inRegion s.params (slotAddr s.params k.slot) k.count = true :=
    inRegion_slot (o := 0) hm (by omega)
  rw [taskCopy, theState_bind, if_neg h, op_bind_ok (memRead_run hin)]
  rfl

theorem taskFinish_run (k : Task) (s : State) : taskFinish k s = .ok () (s.setPort fun q => { q with
    cntRx := q.cntRx + BitVec.ofNat 32 k.count, rxBusy := false, task := none, recheck := true }) := rfl

/-- Settles O41: the Task's step is the task's body, and each body by its own equation. -/
theorem deliveryTaskSteps : Obligations.DeliveryTaskSteps := by
  refine fun s x n hl => ⟨fun ht hx => ?_, fun ht hx hm hn => ?_, fun ht => ?_⟩
  · exact (execRxTaskCopy_run (taskIn_eq hl ht)).trans (performUnit_error (taskCopy_race hx))
  · exact (execRxTaskCopy_run (taskIn_eq hl ht)).trans (performUnit_ok (taskCopy_ready hx hm hn))
  · exact (execRxTaskFinish_run (taskIn_eq hl ht)).trans (performUnit_ok (taskFinish_run _ s))

/-- An owed re-check is the receive event with the flag cleared (R181). -/
theorem rxDmaEvent_owed {s t : State} (hi : s.issuer = .task) (ho : s.recheckOwed = true)
    (h : rxDmaEvent (s.setPort fun q => { q with recheck := false }) = .ok () t) :
    exec .rxDmaEvent s = .next (t.reply (.result [])) := by
  rw [exec, execRxDmaEvent, if_pos hi, if_pos ho]
  exact performUnit_ok ((modifyPort_bind _ _ s).trans h)

theorem recheckOwed_iff (s : State) :
    s.recheckOwed = true ↔ s.port.recheck = true ∧ s.port.life = .running := by
  simp [State.recheckOwed]

/-- Settles O40: an owed re-check by what its receive event answers, any other is not issued. -/
theorem recheckRunsTheEventAgain : Obligations.RecheckRunsTheEventAgain := by
  refine fun s hi => ⟨fun hr hl hbusy => ?_, fun hr hl t ht => ?_, fun hnot => ?_⟩
  · exact rxDmaEvent_owed hi ((recheckOwed_iff s).mpr ⟨hr, hl⟩) (rxDmaEvent_busy hbusy)
  · exact rxDmaEvent_owed hi ((recheckOwed_iff s).mpr ⟨hr, hl⟩) ht
  · have howed : s.recheckOwed ≠ true := fun ho => by
      obtain ⟨hr, hl⟩ := (recheckOwed_iff s).mp ho
      exact hnot.elim (by simp [hr]) fun k => k hl
    rw [exec, execRxDmaEvent, if_pos hi, if_neg howed]

/-! ### One character (43_receive R166 to R172) -/

/-- The block's record after these characters were counted (R166, R172). -/
def Port.received (q : Port) (es : List (Byte × Status)) : Port :=
  { q with
    cntRx := q.cntRx + BitVec.ofNat 32 es.length
    cntBrk := q.cntBrk + classCount .brk es
    cntParity := q.cntParity + classCount .parity es
    cntOverrun := q.cntOverrun + classCount .overrun es
    cntFrame := q.cntFrame + classCount .frame es }

/-- The state after these characters were counted, and their breaks asked about (R171). -/
def State.received (s : State) (es : List (Byte × Status)) : State :=
  { s with port := s.port.received es, draws := s.draws + es.countP fun e => has e.2 setBE }

theorem classCount_nil (c : ErrClass) : classCount c [] = 0 := rfl

theorem classCount_append (c : ErrClass) (es fs : List (Byte × Status)) :
    classCount c (es ++ fs) = classCount c es + classCount c fs := by
  rw [classCount, List.countP_append, BitVec.ofNat_add]
  rfl

theorem State.received_nil (s : State) : s.received [] = s := by
  simp [State.received, Port.received, classCount_nil]

theorem State.received_append (s : State) (es fs : List (Byte × Status)) :
    (s.received es).received fs = s.received (es ++ fs) := by
  simp only [State.received, Port.received, classCount_append, List.length_append, BitVec.ofNat_add,
    List.countP_append, BitVec.add_assoc, Nat.add_assoc]

/-- Counting one character is counting it and its class (R166). -/
theorem countClass_received (s : State) (e : Byte × Status) :
    (countRx 1 >>= fun _ => countClass (classify e.2)) s
      = .ok () (s.setPort fun q => q.received [e]) := by
  rw [op_bind_ok (countRx_run 1 s), countClass, modifyPort_run]
  cases hc : classify e.2 <;> simp [State.setPort, Port.received, classCount, hc]

/-- What is recorded of a character depends on the masks and the parameters only (R168 to R170). -/
theorem characterRecords_congr {s t : State} (hp : t.params = s.params)
    (hr : t.port.readMask = s.port.readMask) (hi : t.port.ignoreMask = s.port.ignoreMask) (n : Nat)
    (e : Byte × Status) : characterRecords t n e = characterRecords s n e := by
  simp only [characterRecords, recordsOf, hp, hr, hi]

theorem receiveChar_run (ch : Byte) (st : Status) (s : State) : receiveChar ch st s
    = .ok (characterRecords s s.draws (ch, st)) (s.received [(ch, st)]) := by
  rw [receiveChar, ← op_bind_assoc, op_bind_ok (countClass_received s (ch, st)), theState_bind]
  cases hb : has st setBE with
  | false =>
    simp [characterRecords, hb, State.received, State.setPort]
    rfl
  | true =>
    rw [if_pos rfl, handleBreak, op_bind_assoc, op_bind_ok (draw_run _), pure_bind_run, op_ite_run]
    cases ha : Config.handleBreak s.draws <;>
      simp [characterRecords, hb, ha, State.received, State.setPort]
    rfl

/-! ### Passes of the receive loop (43_receive R172) -/

/-- The state with the receive FIFO read down to `rest`. -/
def State.popped (s : State) (rest : List (Byte × Status)) : State :=
  s.setUart fun u => { u with rxf := rest }

/-- The status read says whether the FIFO is empty at its moment (10_state R35). -/
theorem rdFr_rxfe {s t : State} (hm : regMapOk t.params.regMap = true) (hg : gap s = .ok () t) :
    ∃ fr, rd .fr s = .ok fr t ∧ fr.getLsbD t.params.regMap.rxfe = (t.uart.rxf.length == 0) := by
  refine ⟨_, by rw [rd_eq, hg], ?_⟩
  rw [getLsbD_and_definedMask (by simp [fieldsOf])]
  exact (flagsValue_bits hm).1

section passes

variable {s t u : State} {fuel count : Nat} {batch : List (Byte × Flag)}

/-- A pass that finds the FIFO empty ends the loop. -/
theorem pollLoop_drained (hm : regMapOk s.params.regMap = true) (hp : t.params = s.params)
    (hb : s.params.pollMax ≠ some count) (hg : gap s = .ok () t) (hx : t.uart.rxf = []) :
    pollLoop (fuel + 1) count batch s = .ok batch t := by
  obtain ⟨fr, hread, hflag⟩ := rdFr_rxfe (by rw [hp]; exact hm) hg
  rw [hx, hp] at hflag
  exact pollLoop_empty hb hread hflag

/-- A pass that reads a character; environment steps may fall before the status read and before the
read of `DR`. -/
theorem pollLoop_reads {e : Byte × Status} {rest : List (Byte × Status)}
    (hm : regMapOk s.params.regMap = true) (hb : s.params.pollMax ≠ some count)
    (hg : gap s = .ok () t) (hp : t.params = s.params) (hne : t.uart.rxf ≠ [])
    (hg' : gap t = .ok () u) (hp' : u.params = t.params) (hx : u.uart.rxf = e :: rest) :
    pollLoop (fuel + 1) count batch s
      = pollLoop fuel (count + 1) (batch ++ characterRecords u u.draws e)
          ((u.popped rest).received [e]) := by
  obtain ⟨fr, hread, hflag⟩ := rdFr_rxfe (by rw [hp]; exact hm) hg
  have hdr : readDr t = .ok (drWord s.params.regMap e) (u.popped rest) := by
    rw [readDr, op_bind_ok hg', popDr_cons hx, hp', hp]
    rfl
  obtain ⟨hdata, hstatus⟩ := drWord_read hm e
  have hchar := receiveChar_run e.1 e.2 (u.popped rest)
  rw [pollLoop, theState_bind, if_neg hb, op_bind_ok hread, ← hp, hflag,
    if_neg (by simpa using hne), hp, op_bind_ok hdr, hdata, hstatus, op_bind_ok hchar]
  rfl

end passes

/-! ### The polled receive event without environment steps (R172, R173) -/

/-- How many characters the loop still reads after `count`. -/
def State.readable (s : State) (count : Nat) : Nat :=
  match s.params.pollMax with
  | none => s.uart.rxf.length
  | some bound => min (bound - count) s.uart.rxf.length

theorem readable_bound {s : State} {count : Nat} (h : s.params.pollMax = some count) :
    s.readable count = 0 := by
  simp [State.readable, h]

theorem readable_le (s : State) (count : Nat) : s.readable count ≤ s.uart.rxf.length := by
  unfold State.readable
  split <;> omega

theorem readable_next {s t : State} {count : Nat} (hp : t.params = s.params)
    (hb : s.params.pollMax ≠ some count) (hle : ∀ b, s.params.pollMax = some b → count ≤ b)
    (hx : s.uart.rxf.length = t.uart.rxf.length + 1) : s.readable count = t.readable (count + 1) + 1 := by
  cases hmax : s.params.pollMax with
  | none => simp [State.readable, hp, hmax, hx]
  | some b =>
    have := hle b hmax
    have hne : count ≠ b := fun k => hb (by rw [hmax, k])
    simp only [State.readable, hp, hmax, hx]
    omega

theorem batchOf_congr {s t : State} (hp : t.params = s.params)
    (hr : t.port.readMask = s.port.readMask) (hi : t.port.ignoreMask = s.port.ignoreMask)
    (es : List (Byte × Status)) (n : Nat) : batchOf t n es = batchOf s n es := by
  induction es generalizing n with
  | nil => rfl
  | cons e es ih => simp only [batchOf, characterRecords_congr hp hr hi, ih]

/-- The state after the first `n` characters of the receive FIFO were read. -/
def State.readUpTo (s : State) (n : Nat) : State :=
  (s.popped (s.uart.rxf.drop n)).received (s.uart.rxf.take n)

theorem readUpTo_zero (s : State) : s.readUpTo 0 = s := State.received_nil s

theorem readUpTo_succ {s : State} {e : Byte × Status} {rest : List (Byte × Status)}
    (h : s.uart.rxf = e :: rest) (n : Nat) :
    ((s.popped rest).received [e]).readUpTo n = s.readUpTo (n + 1) := by
  have hsplit : s.uart.rxf.take (n + 1) = [e] ++ rest.take n := by rw [h]; rfl
  rw [State.readUpTo, State.readUpTo, hsplit, ← State.received_append, h]
  rfl

/-- The first character's records, then those of the others from the draws it left. -/
theorem batchOf_cons (s : State) (e : Byte × Status) (rest es : List (Byte × Status)) :
    batchOf s s.draws (e :: es) = characterRecords s s.draws e
      ++ batchOf ((s.popped rest).received [e]) ((s.popped rest).received [e]).draws es := by
  have hdraws : ((s.popped rest).received [e]).draws
      = if has e.2 setBE then s.draws + 1 else s.draws := by
    cases hb : has e.2 setBE <;> simp [State.received, State.popped, hb]
  rw [batchOf, hdraws, batchOf_congr (s := s) (t := (s.popped rest).received [e]) rfl rfl rfl]

/-- The loop reads what it may, in order. -/
theorem pollLoop_quiet {fuel count : Nat} {batch : List (Byte × Flag)} {s : State}
    (hm : regMapOk s.params.regMap = true) (hq : s.gaps = []) (hfuel : s.uart.rxf.length < fuel)
    (hle : ∀ b, s.params.pollMax = some b → count ≤ b) :
    pollLoop fuel count batch s
      = .ok (batch ++ batchOf s s.draws (s.uart.rxf.take (s.readable count)))
        (s.readUpTo (s.readable count)) := by
  induction fuel generalizing s count batch with
  | zero => exact absurd hfuel (Nat.not_lt_zero _)
  | succ fuel ih =>
    by_cases hb : s.params.pollMax = some count
    · rw [pollLoop_bound hb, readable_bound hb, readUpTo_zero, List.take_zero, batchOf, List.append_nil]
    cases hx : s.uart.rxf with
    | nil =>
      have hnone : s.readable count = 0 := by simpa [hx] using readable_le s count
      rw [pollLoop_drained hm rfl hb (gap_quiet hq) hx, hnone, readUpTo_zero, List.take_nil, batchOf,
        List.append_nil]
    | cons e rest =>
      let t := (s.popped rest).received [e]
      have hnext : s.readable count = t.readable (count + 1) + 1 :=
        readable_next rfl hb hle (by rw [hx]; rfl)
      have hfuel' : t.uart.rxf.length < fuel := by
        rw [hx] at hfuel
        exact Nat.lt_of_succ_lt_succ hfuel
      have hle' : ∀ b, t.params.pollMax = some b → count + 1 ≤ b := fun b hmax =>
        Nat.lt_of_le_of_ne (hle b hmax) fun k => hb (by rw [k]; exact hmax)
      rw [pollLoop_reads hm hb (gap_quiet hq) rfl (by simp [hx]) (gap_quiet hq) rfl hx,
        ih (s := t) hm hq hfuel' hle', hnext, List.take_succ_cons, batchOf_cons s e rest,
        List.append_assoc, ← readUpTo_succ hx]
      rfl

/-- A delivered batch is the last event; an empty one is none (R173). -/
theorem rxPollEvent_quiet {s : State} (hp : paramsOk s.params = true) (hq : s.gaps = []) :
    let es := s.uart.rxf.take (s.readable 0)
    rxPollEvent s = .ok () ((s.readUpTo (s.readable 0)).setPort fun q => { q with
      out := if batchOf s s.draws es = [] then q.out else q.out ++ [.deliver (batchOf s s.draws es)] }) := by
  intro es
  have hloop := pollLoop_quiet (fuel := s.receivePasses) (count := 0) (batch := [])
    (regMapOk_of_paramsOk hp) hq (by rw [State.receivePasses]; omega) (fun b _ => Nat.zero_le b)
  rw [rxPollEvent_of_loop hloop, List.nil_append]
  by_cases hb : batchOf s s.draws es = []
  · rw [if_pos hb]
    simp only [if_pos hb]
    rfl
  · rw [if_neg hb]
    simp only [if_neg hb]
    rfl

/-- Settles O37: the loop in closed form, then the delivery of its batch. -/
theorem pollEventReadsTheFifo : Obligations.PollEventReadsTheFifo := by
  intro s hp hq n es batch drawn
  have hn : s.readable 0 = n := by
    simp only [n, State.readable]
    cases s.params.pollMax <;> rfl
  have hlen : (s.uart.rxf.take n).length = n := List.length_take_of_le (hn ▸ readable_le s 0)
  have hrun := rxPollEvent_quiet hp hq
  rw [hn, State.readUpTo, State.received, Port.received, hlen] at hrun
  exact performUnit_ok hrun

/-! ### What the environment does to the receive side (20_memory R76 to R80) -/

/-- A receive step with nothing to capture, or a channel that may not, does nothing (R78). -/
theorem dmaRxStep_without {s : State} (h : ¬ (s.uart.rxf ≠ [] ∧ s.params.mode = .dma ∧ s.drx.run = true
    ∧ s.uart.dmactl.getLsbD s.params.regMap.rxdmae = true)) : dmaRxStep s = .ok () s := by
  rw [dmaRxStep, theState_bind]
  cases hx : s.uart.rxf with
  | nil => rfl
  | cons e rest =>
    dsimp only
    rw [if_neg fun hgo => h ⟨by simp [hx], hgo⟩]
    rfl

/-- The state after the first entry of the receive FIFO was captured (R78). -/
def State.captureByte (s : State) (b : Byte) (rest : List (Byte × Status)) : State :=
  ((s.popped rest).setMem
    (s.mem.write (slotAddr s.params s.drx.slot + s.drx.nextOffset s.params) b)).setDrx
      RxChannel.afterByte

/-- A channel armed at the landing slot captures the first entry (R78). -/
theorem dmaRxStep_captures {s : State} {e : Byte × Status} {rest : List (Byte × Status)}
    (hx : s.uart.rxf = e :: rest) (hm : s.params.mode = .dma) (hrun : s.drx.run = true)
    (hen : s.uart.dmactl.getLsbD s.params.regMap.rxdmae = true) (hslot : s.drx.slot = s.port.landing)
    (hoff : s.drx.nextOffset s.params < s.params.slotCap) :
    dmaRxStep s = .ok () (s.captureByte e.1 rest) := by
  have hin := inRegion_slot (x := s.drx.slot) (n := 1) hm hoff
  rw [dmaRxStep, theState_bind, hx]
  dsimp only
  rw [if_pos ⟨hm, hrun, hen⟩, if_neg (by simp [hslot]), modifyUart_bind, op_bind_ok (memWrite_run hin)]
  rfl

/-! ### Capturing into an armed slot (43_receive R175) -/

/-- The receive channel of slot `x` after `k` captured bytes. -/
def RxChannel.filled (cap : Nat) (x : Slot) (k : Nat) : RxChannel :=
  ⟨decide (k ≠ cap), x, if k = 0 then 1 else 0, cap - 1 - (k - 1), decide (k = cap)⟩

theorem filled_zero {cap : Nat} (x : Slot) (h : 2 ≤ cap) :
    RxChannel.filled cap x 0 = ⟨true, x, 1, cap - 1, false⟩ := by
  have hne : (0 : Nat) ≠ cap := by omega
  simp [RxChannel.filled, hne]

theorem filled_afterByte {cap k : Nat} (x : Slot) (hcap : 2 ≤ cap) (h : k < cap) :
    (RxChannel.filled cap x k).afterByte = RxChannel.filled cap x (k + 1) := by
  have hle : (RxChannel.filled cap x k).rem1 ≤ 1 := by
    simp only [RxChannel.filled]
    split <;> omega
  have hrun : (RxChannel.filled cap x k).run = true := decide_eq_true h.ne
  obtain ⟨hone, htwo⟩ := RxChannel.afterByte_counts hle
  obtain ⟨hgo, hdone⟩ := RxChannel.afterByte_run hle hrun
  have hrest : (RxChannel.filled cap x k).afterByte.rem2 = cap - 1 - k := by
    rw [htwo]
    by_cases hk : k = 0
    · simp [RxChannel.filled, hk]
    · simp only [RxChannel.filled, if_neg hk, if_neg Nat.zero_ne_one]
      omega
  have hend : cap - 1 - k = 0 ↔ k + 1 = cap := by omega
  calc (RxChannel.filled cap x k).afterByte
      = ⟨(RxChannel.filled cap x k).afterByte.run, (RxChannel.filled cap x k).afterByte.slot,
          (RxChannel.filled cap x k).afterByte.rem1, (RxChannel.filled cap x k).afterByte.rem2,
          (RxChannel.filled cap x k).afterByte.done⟩ := rfl
    _ = RxChannel.filled cap x (k + 1) := by
      rw [hgo, hdone, hone, hrest, RxChannel.afterByte_slot]
      simp [RxChannel.filled, hend, h.ne]

theorem filled_nextOffset {p : Params} {k : Nat} (x : Slot) (hcap : 2 ≤ p.slotCap) (h : k < p.slotCap) :
    (RxChannel.filled p.slotCap x k).nextOffset p = k := by
  by_cases hk : k = 0
  · simp [RxChannel.filled, RxChannel.nextOffset, hk]
  · simp only [RxChannel.filled, RxChannel.nextOffset, if_neg hk, if_neg Nat.zero_ne_one]
    omega

/-- The state after the first `k` entries of the receive FIFO were captured into the slot `x`. -/
def State.capturedTo (s : State) (x : Slot) (k : Nat) : State :=
  ((s.popped (s.uart.rxf.drop k)).setMem
    (s.mem.writeList (slotAddr s.params x) ((s.uart.rxf.take k).map Prod.fst))).setDrx
      fun _ => RxChannel.filled s.params.slotCap x k

theorem Memory.writeList_snoc (bs : List Byte) (b : Byte) (m : Memory) (a : Nat) :
    m.writeList a (bs ++ [b]) = (m.writeList a bs).write (a + bs.length) b := by
  induction bs generalizing m a with
  | nil => rfl
  | cons c bs ih =>
    rw [List.cons_append, Memory.writeList, ih, Memory.writeList, List.length_cons]
    congr 1
    omega

/-- One more entry. -/
theorem capturedTo_step {s : State} {x : Slot} {k : Nat} (hm : s.params.mode = .dma)
    (hcap : 2 ≤ s.params.slotCap) (hen : s.uart.dmactl.getLsbD s.params.regMap.rxdmae = true)
    (hx : s.port.landing = x) (hk : k < s.params.slotCap) (hlen : k < s.uart.rxf.length) :
    dmaRxStep (s.capturedTo x k) = .ok () (s.capturedTo x (k + 1)) := by
  have hoff := filled_nextOffset x hcap hk
  have hfirst : s.uart.rxf.drop k = s.uart.rxf[k] :: s.uart.rxf.drop (k + 1) :=
    List.drop_eq_getElem_cons hlen
  have hrun : (s.capturedTo x k).drx.run = true := decide_eq_true hk.ne
  have hin : (s.capturedTo x k).drx.nextOffset s.params < s.params.slotCap := hoff.trans_lt hk
  have hstep := dmaRxStep_captures (s := s.capturedTo x k) hfirst hm hrun hen hx.symm hin
  have htake : s.uart.rxf.take (k + 1) = s.uart.rxf.take k ++ [s.uart.rxf[k]] :=
    List.take_succ_eq_append_getElem hlen
  have hbehind : ((s.uart.rxf.take k).map Prod.fst).length = k := by
    rw [List.length_map, List.length_take_of_le hlen.le]
  have hmem : s.mem.writeList (slotAddr s.params x) ((s.uart.rxf.take (k + 1)).map Prod.fst)
      = (s.mem.writeList (slotAddr s.params x) ((s.uart.rxf.take k).map Prod.fst)).write
        (slotAddr s.params x + k) s.uart.rxf[k].1 := by
    rw [htake, List.map_append, List.map_singleton, Memory.writeList_snoc, hbehind]
  have hcaptured : (s.capturedTo x k).captureByte s.uart.rxf[k].1 (s.uart.rxf.drop (k + 1))
      = ((s.popped (s.uart.rxf.drop (k + 1))).setMem
          ((s.mem.writeList (slotAddr s.params x) ((s.uart.rxf.take k).map Prod.fst)).write
            (slotAddr s.params x + (RxChannel.filled s.params.slotCap x k).nextOffset s.params)
            s.uart.rxf[k].1)).setDrx
          fun _ => (RxChannel.filled s.params.slotCap x k).afterByte := rfl
  rw [hstep, hcaptured, hoff, ← hmem, filled_afterByte x hcap hk]
  rfl

theorem envSteps_captures {s : State} {x : Slot} {j k : Nat} (hm : s.params.mode = .dma)
    (hcap : 2 ≤ s.params.slotCap) (hen : s.uart.dmactl.getLsbD s.params.regMap.rxdmae = true)
    (hx : s.port.landing = x) (hk : k + j ≤ s.params.slotCap) (hlen : k + j ≤ s.uart.rxf.length) :
    envSteps (List.replicate j .dmaRx) (s.capturedTo x k) = .ok () (s.capturedTo x (k + j)) := by
  induction j generalizing k with
  | zero => rfl
  | succ j ih =>
    have hstep := capturedTo_step hm hcap hen hx (k := k) (by omega) (by omega)
    rw [List.replicate_succ, envSteps, envStep, op_bind_ok hstep, ih (by omega) (by omega),
      Nat.add_assoc k, Nat.add_comm 1]

theorem capturedTo_zero {s : State} {x : Slot} (hcap : 2 ≤ s.params.slotCap)
    (hdrx : s.drx = ⟨true, x, 1, s.params.slotCap - 1, false⟩) : s.capturedTo x 0 = s := by
  rw [State.capturedTo, filled_zero x hcap, ← hdrx]
  rfl

/-- Settles O17: the steps in closed form, and the bytes read back as they were written. -/
theorem capturedBytesAreCounted : Obligations.CapturedBytesAreCounted := by
  intro s x k hm hcap hwf hen hx hdrx hk hlen
  have hrun := envSteps_captures (k := 0) (j := k) hm hcap hen hx (by omega) (by omega)
  rw [capturedTo_zero hcap hdrx, Nat.zero_add] at hrun
  have hbytes : ((s.uart.rxf.take k).map Prod.fst).length = k := by
    rw [List.length_map, List.length_take_of_le hlen]
  have hback := memBytes_writeList (s := (s.popped (s.uart.rxf.drop k)).setDrx
    fun _ => RxChannel.filled s.params.slotCap x k) (slotAddr s.params x)
    ((s.uart.rxf.take k).map Prod.fst) hwf
  rw [hbytes] at hback
  refine ⟨_, hrun, ?_, rfl, rfl, hback, rfl, rfl, fun a ha => ?_⟩
  · show s.params.slotCap - (if k = 0 then 1 else 0) - (s.params.slotCap - 1 - (k - 1)) = k
    split <;> omega
  · exact Memory.read_writeList_out _ (by rwa [hbytes])

/-! ### Environment steps that leave the receive side (20_memory R76, R77, R80) -/

/-- The receive channel, the receive FIFO, memory and the schedule stay, and the block's record up to a
raised fault. -/
structure Apart (s t : State) : Prop where
  params : t.params = s.params
  port : PortKept s t
  drx : t.drx = s.drx
  rxf : t.uart.rxf = s.uart.rxf
  mem : t.mem = s.mem
  gaps : t.gaps = s.gaps

theorem Apart.refl (s : State) : Apart s s := ⟨rfl, .refl s, rfl, rfl, rfl, rfl⟩

theorem Apart.trans (s t u : State) (h : Apart s t) (k : Apart t u) : Apart s u :=
  ⟨k.params.trans h.params, h.port.trans _ _ _ k.port, k.drx.trans h.drx, k.rxf.trans h.rxf,
    k.mem.trans h.mem, k.gaps.trans h.gaps⟩

/-- The steps that bring nothing to the receive FIFO and take nothing from it. -/
def sparesFifo : EnvStep → Bool
  | .uartRx _ _ | .dmaRx => false
  | _ => true

theorem apart_envStep {e : EnvStep} (h : sparesFifo e = true) : (envStep e).Keeps Apart := by
  have raises (k : Nat) : (setRis k).Keeps Apart :=
    keeps_modifyUart fun s => { Apart.refl s with }
  cases e with
  | uartRx | dmaRx => cases h
  | uartTx told =>
    intro s
    rcases uartTransmit_run told s with e | ⟨b, rest, sent, ris, n, -, -, -, -, -, e⟩ <;> rw [envStep, e]
    · exact .refl s
    · exact { Apart.refl s with }
  | dmaTx =>
    exact dmaTxStep_keeps Apart.refl Apart.trans
      (fun s why => { Apart.refl s with port := .fault_set s why })
      (fun s _ => { Apart.refl s with }) fun s => { Apart.refl s with }
  | raiseRx | raiseRt | raiseTx =>
    exact keeps_bind Apart.trans (keeps_theState Apart.refl) fun _ =>
      keeps_ite _ (raises _) (keeps_pure Apart.refl _)
  | raiseErr k =>
    exact keeps_bind Apart.trans (keeps_theState Apart.refl) fun _ => raises _

/-! ### The polled receive event under any environment (43_receive R172, 70_reset_and_hazards R246) -/

/-- In poll mode each environment step brings at most one character. -/
theorem envStep_fill {e : EnvStep} {s t : State} (hm : s.params.mode = .poll)
    (h : envStep e s = .ok () t) : t.uart.rxf.length ≤ s.uart.rxf.length + 1 := by
  cases hs : sparesFifo e with
  | true => exact ((apart_envStep hs).ok h).rxf ▸ Nat.le_succ _
  | false =>
    cases e with
    | uartRx b st =>
      rcases uartReceive_run b st s with e | ⟨-, -, -, e⟩ <;> rw [envStep, e] at h <;> cases h <;> simp
    | dmaRx =>
      rw [envStep, dmaRxStep_without (by simp [hm])] at h
      cases h
      exact Nat.le_succ _
    | _ => cases hs

theorem envSteps_fill {es : List EnvStep} {s t : State} (hm : s.params.mode = .poll)
    (h : envSteps es s = .ok () t) : t.uart.rxf.length ≤ s.uart.rxf.length + es.length := by
  induction es generalizing s with
  | nil =>
    cases h
    exact Nat.le_refl _
  | cons e es ih =>
    obtain ⟨u, he, hu, -⟩ := envStep_poll e hm
    rw [envSteps, op_bind_ok he] at h
    have hfirst := envStep_fill hm he
    have hrest := ih (by rw [viewOf_params hu.view]; exact hm) h
    rw [List.length_cons]
    omega

/-- The characters that may still be read: those in the FIFO, and one for each environment step
scheduled. -/
def State.inbound (s : State) : Nat := s.uart.rxf.length + s.gaps.flatten.length

theorem gap_inbound {s : State} (hm : s.params.mode = .poll) :
    ∃ t, gap s = .ok () t ∧ PollUnseen s t ∧ t.inbound ≤ s.inbound := by
  obtain ⟨t, hgap, hu, hgaps⟩ := gap_poll hm
  refine ⟨t, hgap, hu, ?_⟩
  rw [State.inbound, State.inbound, hgaps]
  cases hg : s.gaps with
  | nil =>
    rw [gap_quiet hg] at hgap
    cases hgap
    simp
  | cons es more =>
    have hfill : t.uart.rxf.length ≤ s.uart.rxf.length + es.length :=
      envSteps_fill (s := { s with gaps := more }) hm (by simpa only [gap, hg] using hgap)
    simp only [List.tail_cons, List.flatten_cons, List.length_append]
    omega

/-- What a polled receive event leaves (R172). -/
structure PollKept (s t : State) : Prop where
  params : t.params = s.params
  fault : t.port.fault = s.port.fault
  ring : t.port.ring = s.port.ring
  head : t.port.head = s.port.head
  tail : t.port.tail = s.port.tail
  regs : regsOf t.uart = regsOf s.uart
  mem : t.mem = s.mem
  dtx : t.dtx = s.dtx
  drx : t.drx = s.drx

theorem PollKept.refl (s : State) : PollKept s s := ⟨rfl, rfl, rfl, rfl, rfl, rfl, rfl, rfl, rfl⟩

theorem PollKept.trans {s t u : State} (h : PollKept s t) (k : PollKept t u) : PollKept s u :=
  ⟨k.params.trans h.params, k.fault.trans h.fault, k.ring.trans h.ring, k.head.trans h.head,
    k.tail.trans h.tail, k.regs.trans h.regs, k.mem.trans h.mem, k.dtx.trans h.dtx, k.drx.trans h.drx⟩

theorem PollUnseen.kept {s t : State} (h : PollUnseen s t) : PollKept s t := by
  have hport := viewOf_port h.view
  exact ⟨viewOf_params h.view, by rw [hport], by rw [hport], by rw [hport], by rw [hport],
    viewOf_regs h.view, h.mem, h.dtx, h.drx⟩

theorem pollKept_read (s : State) (e : Byte × Status) (rest : List (Byte × Status)) :
    PollKept s ((s.popped rest).received [e]) := ⟨rfl, rfl, rfl, rfl, rfl, rfl, rfl, rfl, rfl⟩

/-- A loop without a bound ends at an empty FIFO: each pass takes one of the characters that may still
be read. -/
theorem pollLoop_empties {fuel count : Nat} {batch : List (Byte × Flag)} {s : State}
    (hm : s.params.mode = .poll) (hr : regMapOk s.params.regMap = true) (hmax : s.params.pollMax = none)
    (hfuel : s.inbound < fuel) :
    (pollLoop fuel count batch).Runs s fun _ t => PollKept s t ∧ t.uart.rxf = [] := by
  induction fuel generalizing s count batch with
  | zero => exact absurd hfuel (Nat.not_lt_zero _)
  | succ fuel ih =>
    have hb : s.params.pollMax ≠ some count := by simp [hmax]
    obtain ⟨t, hgap, ht, hin⟩ := gap_inbound hm
    have hp : t.params = s.params := viewOf_params ht.view
    by_cases hx : t.uart.rxf = []
    · exact ⟨batch, t, pollLoop_drained hr hp hb hgap hx, ht.kept, hx⟩
    obtain ⟨u, hgap', hu, hin'⟩ := gap_inbound (s := t) (by rw [hp]; exact hm)
    have hp' : u.params = t.params := viewOf_params hu.view
    have hne : u.uart.rxf ≠ [] := fun k => hx (List.prefix_nil.mp (k ▸ hu.received))
    obtain ⟨e, rest, hcons⟩ := List.exists_cons_of_ne_nil hne
    have hless : ((u.popped rest).received [e]).inbound + 1 = u.inbound := by
      rw [State.inbound, State.inbound, hcons, List.length_cons]
      simp only [State.received, State.popped, State.setUart_uart, State.setUart_gaps]
      omega
    have hread := (ht.kept.trans hu.kept).trans (pollKept_read u e rest)
    obtain ⟨b, v, hloop, hv, hempty⟩ := ih (s := (u.popped rest).received [e]) (count := count + 1)
      (batch := batch ++ characterRecords u u.draws e) (by rw [hread.params]; exact hm)
      (by rw [hread.params]; exact hr) (by rw [hread.params]; exact hmax) (by omega)
    exact ⟨b, v, (pollLoop_reads hr hb hgap hp hx hgap' hp' hcons).trans hloop, hread.trans hv, hempty⟩

/-- Settles O38: the loop empties the FIFO, and the delivery leaves it so. -/
theorem unboundedPollEventEmptiesTheFifo : Obligations.UnboundedPollEventEmptiesTheFifo := by
  intro s hp hm hmax
  obtain ⟨batch, t, hloop, ht, hempty⟩ := pollLoop_empties (fuel := s.receivePasses) (count := 0)
    (batch := []) hm (regMapOk_of_paramsOk hp) hmax (Nat.lt_succ_self _)
  refine ⟨_, performUnit_ok (rxPollEvent_of_loop hloop), ?_⟩
  split <;> exact ⟨hempty, ht.fault, ht.ring, ht.head, ht.tail, ht.regs, ht.mem, ht.dtx, ht.drx⟩

/-! ### What the receive channel does between primitives (20_memory R78) -/

/-- Captured bytes only grow, and the channel stays at its slot. -/
structure Fills (s t : State) : Prop where
  params : t.params = s.params
  slot : t.drx.slot = s.drx.slot
  rem1 : t.drx.rem1 ≤ s.drx.rem1
  rem2 : t.drx.rem2 ≤ s.drx.rem2

/-- And a channel that does not run stays as it is. -/
structure Captures (s t : State) : Prop extends Fills s t where
  halted : s.drx.run = false → t.drx = s.drx

theorem Fills.of_eq {s t : State} (hp : t.params = s.params) (hd : t.drx = s.drx) : Fills s t :=
  ⟨hp, by rw [hd], by rw [hd], by rw [hd]⟩

theorem Fills.refl (s : State) : Fills s s := .of_eq rfl rfl

theorem Fills.trans (s t u : State) (h : Fills s t) (k : Fills t u) : Fills s u :=
  ⟨k.params.trans h.params, k.slot.trans h.slot, k.rem1.trans h.rem1, k.rem2.trans h.rem2⟩

theorem Captures.of_eq {s t : State} (hp : t.params = s.params) (hd : t.drx = s.drx) : Captures s t :=
  ⟨.of_eq hp hd, fun _ => hd⟩

theorem Captures.refl (s : State) : Captures s s := .of_eq rfl rfl

theorem Captures.trans (s t u : State) (h : Captures s t) (k : Captures t u) : Captures s u :=
  ⟨h.toFills.trans _ _ _ k.toFills,
    fun hrun => (k.halted (by rw [h.halted hrun]; exact hrun)).trans (h.halted hrun)⟩

theorem fills_afterByte (s : State) : Fills s (s.setDrx RxChannel.afterByte) := by
  refine ⟨rfl, RxChannel.afterByte_slot _, ?_, ?_⟩ <;>
    simp only [State.setDrx_drx, RxChannel.afterByte] <;> split <;> split <;> simp

theorem fills_dmaRxStep : dmaRxStep.Keeps Fills := by
  have race {α : Type} (why : FaultReason) : Op.Keeps (α := α) Fills (raiseFault why) :=
    keeps_raiseFault _ fun _ => .of_eq rfl rfl
  refine keeps_bind Fills.trans (keeps_theState Fills.refl) fun s => ?_
  cases s.uart.rxf with
  | nil => exact keeps_pure Fills.refl _
  | cons e rest =>
    refine keeps_ite _ (keeps_ite _ (race _) ?_) (keeps_pure Fills.refl _)
    refine keeps_bind Fills.trans (keeps_modifyUart fun _ => .of_eq rfl rfl) fun _ =>
      keeps_bind Fills.trans ?_ fun _ => keeps_modifyDrx fills_afterByte
    exact keeps_bind Fills.trans (keeps_theState Fills.refl) fun _ =>
      keeps_ite _ (fun _ => .of_eq rfl rfl) (race _)

theorem captures_envStep (e : EnvStep) : (envStep e).Keeps Captures := by
  cases hs : sparesFifo e with
  | true => exact (apart_envStep hs).weaken fun _ _ h => .of_eq h.params h.drx
  | false =>
    cases e with
    | uartRx b st =>
      intro s
      rcases uartReceive_run b st s with e | ⟨-, -, -, e⟩ <;> rw [envStep, e] <;> exact .of_eq rfl rfl
    | dmaRx =>
      intro s
      cases hrun : s.drx.run with
      | false =>
        rw [envStep, dmaRxStep_idle hrun]
        exact .refl s
      | true => exact (fills_dmaRxStep.ends s).mono fun t ht => ⟨ht, fun h => by simp [hrun] at h⟩
    | _ => cases hs

theorem captures_gap : gap.Keeps Captures :=
  gap_keeps Captures.refl Captures.trans captures_envStep fun _ _ => .of_eq rfl rfl

theorem Captures.captured_le {s t : State} (h : Captures s t) : s.captured ≤ t.captured := by
  have h1 := h.rem1
  have h2 := h.rem2
  simp only [State.captured, h.params]
  omega

/-! ### The receive event of dma mode, primitive by primitive (43_receive R174) -/

/-- The receive channel stopped, and the landing slot swapped. -/
def State.swapped (s : State) (x : Slot) : State :=
  (s.setDrx fun d => { d with run := false, done := false }).setPort fun q =>
    { q with landing := otherSlot x }

/-- The receive channel armed at `x` (20_memory R70). -/
def State.armedAt (s : State) (x : Slot) : State :=
  s.setDrx fun _ => { run := true, slot := x, rem1 := 1, rem2 := s.params.slotCap - 1, done := false }

/-- The slot `x` with `n` captured bytes handed to a task, if there are any (R174, R180). -/
def State.handedOver (s : State) (x : Slot) (n : Nat) : State :=
  if 0 < n then s.setPort fun q => { q with rxBusy := true, task := some ⟨x, n, .copy⟩ } else s

theorem channelsOk_swapped {s : State} (h : channelsOk s = true) (x : Slot) :
    channelsOk (s.swapped x) = true :=
  (channelsOk_iff _).mpr ⟨((channelsOk_iff s).mp h).1, (by cases ·)⟩

theorem channelsOk_armedAt {s : State} {x : Slot} (h : channelsOk s = true)
    (hland : s.port.landing = x) (hcap : 1 ≤ s.params.slotCap) : channelsOk (s.armedAt x) = true :=
  (channelsOk_iff _).mpr ⟨((channelsOk_iff s).mp h).1, fun _ =>
    ⟨hland.symm, Nat.le_refl 1, Nat.sub_lt hcap Nat.one_pos, Nat.le_add_right 1 _⟩⟩

theorem handedOver_drx (s : State) (x : Slot) (n : Nat) : (s.handedOver x n).drx = s.drx := by
  rw [State.handedOver]
  split <;> rfl

theorem Leaves.handedOver {s t t0 : State} {x : Slot} {n : Nat} (h : Leaves s t t0)
    (hc : channelsOk t = true) : Leaves s (t.handedOver x n) (t0.handedOver x n) := by
  simp only [State.handedOver]
  split
  · exact h.setPort _ hc
  · exact h

/-- The swap, the arming and the hand-over as one update of the channel and one of the record. -/
theorem handedOver_eq {s : State} {n : Nat} (hbusy : s.port.rxBusy = false) :
    ((s.swapped s.port.landing).armedAt (otherSlot s.port.landing)).handedOver s.port.landing n
      = (s.setDrx fun _ => ⟨true, otherSlot s.port.landing, 1, s.params.slotCap - 1, false⟩).setPort
          fun q => { q with
            landing := otherSlot q.landing
            rxBusy := decide (0 < n)
            task := if 0 < n then some ⟨q.landing, n, .copy⟩ else q.task } := by
  by_cases hn : 0 < n <;>
    simp [State.handedOver, State.swapped, State.armedAt, State.setPort, State.setDrx, hn, hbusy]

/-- The event from the environment steps before each of its four primitives. -/
theorem rxDmaEvent_run {s t₁ t₂ t₃ t₄ : State} (hbusy : s.port.rxBusy = false)
    (h₁ : gap s = .ok () t₁) (h₂ : gap (t₁.swapped s.port.landing) = .ok () t₂)
    (h₃ : gap t₂ = .ok () t₃) (h₄ : gap t₃ = .ok () t₄) (hrun : t₄.drx.run = false) :
    rxDmaEvent s = .ok () ((t₄.armedAt (otherSlot s.port.landing)).handedOver s.port.landing
      (s.params.slotCap - t₂.drx.rem1 - t₃.drx.rem2)) := by
  rw [rxDmaEvent, theState_bind, if_neg (by simp [hbusy]), op_bind_ok (dmaStopRx_run h₁)]
  dsimp only
  rw [modifyPort_bind]
  refine (op_bind_ok (dmaRemaining_run h₂).1).trans ?_
  rw [op_bind_ok (dmaRemaining_run h₃).2, op_bind_ok (dmaArmRx_run h₄ hrun), State.handedOver, op_ite_run]
  split <;> rfl

/-- The event leaves the swapped slots, the armed channel and the task, whatever the environment does
between its primitives. -/
theorem rxDmaEvent_leaves {s : State} (hbusy : s.port.rxBusy = false) (hcap : 2 ≤ s.params.slotCap)
    (hc : channelsOk s = true) :
    ∃ t n, rxDmaEvent s = .ok () t ∧ s.captured ≤ n ∧ n ≤ s.params.slotCap ∧ (s.gaps = [] → n = s.captured)
      ∧ t.drx = ⟨true, otherSlot s.port.landing, 1, s.params.slotCap - 1, false⟩
      ∧ Leaves s t (((s.swapped s.port.landing).armedAt (otherSlot s.port.landing)).handedOver
        s.port.landing n) := by
  obtain ⟨t₁, h₁, k₁⟩ := gap_leaves hc
  have hgrow := captures_gap.ok h₁
  have hstopped := channelsOk_swapped k₁.channels s.port.landing
  have k : Leaves s (t₁.swapped s.port.landing) (s.swapped s.port.landing) :=
    (k₁.setDrx (fun d => { d with run := false, done := false }) (fun _ _ h => h) hstopped).setPort _
      hstopped
  obtain ⟨t₂, h₂, k₂⟩ := k.gap rfl
  obtain ⟨t₃, h₃, k₃⟩ := k₂.gap rfl
  obtain ⟨t₄, h₄, k₄⟩ := k₃.gap rfl
  have d₂ : t₂.drx = (t₁.swapped s.port.landing).drx := (captures_gap.ok h₂).halted rfl
  have d₃ : t₃.drx = t₂.drx := (captures_gap.ok h₃).halted (by rw [d₂]; rfl)
  have d₄ : t₄.drx = t₃.drx := (captures_gap.ok h₄).halted (by rw [d₃, d₂]; rfl)
  have hn : s.params.slotCap - t₂.drx.rem1 - t₃.drx.rem2 = t₁.captured := by
    rw [d₃, d₂, State.captured, hgrow.params]
    rfl
  have hp : t₄.params = s.params := by
    rw [viewOf_params k₄.view]
    rfl
  have hland : t₄.port.landing = otherSlot s.port.landing := by
    rw [viewOf_port k₄.view]
    rfl
  have harmed := channelsOk_armedAt k₄.channels hland (by rw [hp]; omega)
  have hevent := rxDmaEvent_run hbusy h₁ h₂ h₃ h₄ (by rw [d₄, d₃, d₂]; rfl)
  rw [hn] at hevent
  refine ⟨_, t₁.captured, hevent, hgrow.captured_le, ?_, fun hq => by rw [k₁.quiet hq], ?_, ?_⟩
  · rw [← hn]
    omega
  · rw [handedOver_drx, State.armedAt, State.setDrx_drx, hp]
  · refine Leaves.handedOver ?_ harmed
    rw [State.armedAt, hp]
    exact k₄.setDrx _ (fun _ _ _ => rfl) (by rw [State.armedAt, hp] at harmed; exact harmed)

/-- Settles O39: the event runs through its four primitives, between which only the environment moves. -/
theorem dmaEventSwapsTheSlots : Obligations.DmaEventSwapsTheSlots := by
  intro s hi
  have hexec : exec .rxDmaEvent s = performUnit rxDmaEvent s := if_neg hi
  refine ⟨fun hbusy => ?_, fun hbusy _ hcap hc => ?_⟩
  · rw [hexec, performUnit_ok (rxDmaEvent_busy hbusy)]
  · obtain ⟨t, n, hrun, hle, hcap, hquiet, hdrx, hk⟩ := rxDmaEvent_leaves hbusy hcap hc
    refine ⟨t.reply (.result []), n, by rw [hexec, performUnit_ok hrun], hle, hcap, hquiet, hdrx, ?_⟩
    rw [handedOver_eq hbusy] at hk
    exact hk.reply _

/-! ### What dma mode keeps outside the receive event (43_receive R182, R183)

Register accesses other than the line-control word, the ring, the transmit side and the acknowledgments
leave the landing slot, the task, the error counters and the delivered records. `Aloof` names the relations
kept by all of them, and the bodies are walked through once. -/

/-- The block's receive fields stay; at most `Wakeup` events are added. -/
structure SameReceive (q q' : Port) : Prop where
  landing : q'.landing = q.landing
  rxBusy : q'.rxBusy = q.rxBusy
  task : q'.task = q.task
  overrun : q'.cntOverrun = q.cntOverrun
  parity : q'.cntParity = q.cntParity
  frame : q'.cntFrame = q.cntFrame
  brk : q'.cntBrk = q.cntBrk
  out : ∃ n, q'.out = q.out ++ List.replicate n .wakeup

/-- An update of fields that are neither the receive side's nor the events. -/
theorem SameReceive.of_rfl {q q' : Port} (hout : q'.out = q.out := by rfl)
    (landing : q'.landing = q.landing := by rfl) (rxBusy : q'.rxBusy = q.rxBusy := by rfl)
    (task : q'.task = q.task := by rfl) (overrun : q'.cntOverrun = q.cntOverrun := by rfl)
    (parity : q'.cntParity = q.cntParity := by rfl) (frame : q'.cntFrame = q.cntFrame := by rfl)
    (brk : q'.cntBrk = q.cntBrk := by rfl) : SameReceive q q' :=
  { landing, rxBusy, task, overrun, parity, frame, brk, out := ⟨0, by rw [hout]; simp⟩ }

/-- A running transmit transfer stays inside the staging buffer. -/
def Spans (p : Params) (d : TxChannel) : Prop := d.run = true → d.pos + d.rem ≤ p.stageCap

/-- A relation that dma mode keeps wherever the receive side stays. -/
structure Aloof (R : State → State → Prop) : Prop where
  refl : ∀ s, R s s
  trans : ∀ s t u, R s t → R t u → R s u
  poll : ∀ s t, s.params.mode = .poll → R s t
  gap : gap.Keeps R
  port : ∀ (s : State) f, SameReceive s.port (f s.port) → R s (s.setPort f)
  uart : ∀ (s : State) f, (f s.uart).rxf = s.uart.rxf → R s (s.setUart f)
  dtx : ∀ (s : State) f, (Spans s.params s.dtx → Spans s.params (f s.dtx)) → R s (s.setDtx f)
  ackRx : ∀ s : State, R s (s.setDrx fun d => { d with done := false })
  stage : ∀ (s : State) bs, bs.length ≤ s.params.stageCap →
    R s (s.setMem (s.mem.writeList s.params.stageAddr bs))
  owed : ∀ (s : State) o, R s { s with writeOwed := o }
  reply : ∀ (s : State) r, R s (s.reply r)

namespace Aloof

variable {R : State → State → Prop} {α β : Type} {s t : State}

theorem pure (hR : Aloof R) (a : α) : Op.Keeps R (Pure.pure a) := keeps_pure hR.refl a

theorem bind (hR : Aloof R) {x : Op α} {f : α → Op β} (hx : x.Keeps R) (hf : ∀ a, (f a).Keeps R) :
    Op.Keeps R (x >>= f) := keeps_bind hR.trans hx hf

theorem withState (hR : Aloof R) {f : State → Op β} (hf : ∀ s, (f s).Keeps R) :
    Op.Keeps R (theState >>= f) := hR.bind (keeps_theState hR.refl) hf

theorem modifies (hR : Aloof R) {f : Port → Port}
    (hf : ∀ q, SameReceive q (f q) := by exact fun _ => .of_rfl) : (modifyPort f).Keeps R :=
  keeps_modifyPort fun s => hR.port s f (hf s.port)

theorem raise (hR : Aloof R) (why : FaultReason) : Op.Keeps (α := α) R (raiseFault why) :=
  keeps_raiseFault why fun s => hR.port s _ .of_rfl

theorem requireRunning (hR : Aloof R) : requireRunning.Keeps R :=
  hR.withState fun _ => keeps_ite _ (hR.pure _) (hR.raise _)

/-! Registers and channels. -/

theorem rd (hR : Aloof R) (r : Reg) : (rd r).Keeps R := rd_keeps hR.refl hR.trans hR.gap r

theorem storeReg (hR : Aloof R) {r : Reg} (hr : r ≠ .lcrh) (v : Word) : (storeReg r v).Keeps R := by
  cases r with
  | lcrh => exact absurd rfl hr
  | dr => exact hR.withState fun _ => keeps_ite _ (fun s => hR.uart s _ rfl) (hR.raise _)
  | ibrd | fbrd | ctl | ifls | im | icr | dmactl => exact fun s => hR.uart s _ rfl
  | fr | ris | mis => exact hR.raise _

theorem regWrite (hR : Aloof R) {r : Reg} (hr : r ≠ .lcrh) (v : Word) : (regWrite r v).Keeps R :=
  regWrite_keeps hR.trans hR.gap r v (hR.storeReg hr v)

theorem dmaStartTx (hR : Aloof R) (n : Nat) : (dmaStartTx n).Keeps R := by
  refine hR.bind hR.gap fun _ s => ?_
  rw [theState_bind]
  by_cases hgo : s.dtx.run = false ∧ 1 ≤ n ∧ n ≤ s.params.stageCap
  · rw [if_pos hgo]
    obtain ⟨-, -, hle⟩ := hgo
    exact hR.dtx s _ fun _ _ => by simpa using hle
  · rw [if_neg hgo]
    exact hR.raise (α := Unit) _ s

theorem dmaStopTx (hR : Aloof R) : dmaStopTx.Keeps R :=
  hR.bind hR.gap fun _ => keeps_modifyDtx fun s => hR.dtx s _ fun _ => (by cases ·)

theorem dmaQueryAckTx (hR : Aloof R) : dmaQueryAckTx.Keeps R :=
  hR.bind hR.gap fun _ => hR.withState fun _ =>
    hR.bind (keeps_modifyDtx fun s => hR.dtx s _ id) fun _ => hR.pure _

theorem dmaQueryAckRx (hR : Aloof R) : dmaQueryAckRx.Keeps R :=
  hR.bind hR.gap fun _ => hR.withState fun _ => hR.bind (keeps_modifyDrx hR.ackRx) fun _ => hR.pure _

/-! The ring and the transmit side (40_ringbuffer, 42_transmit). -/

theorem ringEnqueue (hR : Aloof R) (b : Byte) : (ringEnqueue b).Keeps R :=
  hR.bind hR.requireRunning fun _ => hR.withState fun _ =>
    keeps_ite _ (hR.pure _) (hR.bind hR.modifies fun _ => hR.pure _)

theorem ringDequeue (hR : Aloof R) (n : Nat) : (ringDequeue n).Keeps R :=
  fun s => hR.port s _ .of_rfl

theorem writeLoop (hR : Aloof R) (data : List Byte) : (writeLoop data).Keeps R := by
  induction data with
  | nil => exact hR.pure _
  | cons b more ih =>
    exact hR.bind (hR.ringEnqueue b) fun _ => keeps_ite _ (hR.pure _) (hR.bind ih fun _ => hR.pure _)

theorem lowWaterTest (hR : Aloof R) : lowWaterTest.Keeps R :=
  hR.withState fun _ => keeps_ite _
    (hR.modifies fun _ => ⟨rfl, rfl, rfl, rfl, rfl, rfl, rfl, 1, rfl⟩) (hR.pure _)

/-- The dequeued bytes fit the staging buffer (R149). -/
theorem txKickDma (hR : Aloof R) : txKickDma.Keeps R := by
  intro s
  change Machine.txKickDma.Ends s (R s)
  refine ends_bind_ok (theState_run s) ?_
  split
  · exact .of_ok rfl (hR.refl s)
  split
  · exact .of_ok rfl (hR.refl s)
  have hfits : (s.ringBytes s.port.tail (s.sliceLength s.dmaRun)).length ≤ s.params.stageCap := by
    simp only [ringBytes_length, State.sliceLength, State.dmaRun]
    omega
  have hdeq : R s (s.dequeued s.dmaRun) := hR.port s _ .of_rfl
  refine ends_bind_ok (ringDequeue_run _ s) ?_
  by_cases hin : inRegion s.params s.params.stageAddr
      (s.ringBytes s.port.tail (s.sliceLength s.dmaRun)).length = true
  · have hmem := hR.trans _ _ _ hdeq (hR.stage _ _ hfits)
    refine ends_bind_ok (memWrite_run hin) ((Op.Keeps.ends ?_ _).mono fun u hu => hR.trans _ _ _ hmem hu)
    exact hR.bind (hR.dmaStartTx _) fun _ => hR.bind hR.modifies fun _ => hR.lowWaterTest
  · exact .of_error (op_bind_error (memWrite_fault hin)) (hR.trans _ _ _ hdeq (hR.port _ _ .of_rfl))

/-- Poll mode is no concern of the relation, so a body may be walked through in dma mode alone. -/
theorem inDma (hR : Aloof R) {x : Op α} (h : ∀ s, s.params.mode = .dma → x.Ends s (R s)) :
    x.Keeps R := by
  intro s
  cases hm : s.params.mode with
  | dma => exact h s hm
  | poll => cases x s <;> exact hR.poll _ _ hm

theorem txKick (hR : Aloof R) : txKick.Keeps R := by
  refine hR.inDma fun s hm => ?_
  by_cases hl : s.port.life = .running
  · exact .of_eq (txKick_dma hl hm) (hR.txKickDma.ends s)
  · exact .of_error (txKick_fault hl) (hR.port _ _ .of_rfl)

theorem txDmaDone (hR : Aloof R) : txDmaDone.Keeps R :=
  hR.withState fun _ => keeps_ite _ (hR.pure _) (hR.bind hR.modifies fun _ =>
    hR.bind hR.modifies fun _ => hR.txKick)

theorem txStop (hR : Aloof R) : txStop.Keeps R := by
  refine hR.bind hR.requireRunning fun _ => hR.withState fun s => ?_
  cases s.params.mode with
  | poll =>
    exact hR.withState fun _ => hR.bind (hR.rd _) fun _ => hR.regWrite (by decide) _
  | dma => exact hR.bind hR.dmaStopTx fun _ => hR.modifies

theorem routeDma (hR : Aloof R) (hrx : rxDmaEvent.Keeps R) (mis : Word) : (routeDma mis).Keeps R :=
  have serve : Op.Keeps R (Machine.dmaQueryAckTx >>= fun d => if d = true then Machine.txDmaDone
      else Pure.pure ()) :=
    hR.bind hR.dmaQueryAckTx fun _ => keeps_ite _ hR.txDmaDone (hR.pure _)
  hR.withState fun _ => hR.bind hR.dmaQueryAckRx fun _ =>
    keeps_ite _ (hR.bind hrx fun _ => serve) serve

theorem irqDispatch (hR : Aloof R) (hrx : rxDmaEvent.Keeps R) : irqDispatch.Keeps R := by
  refine hR.inDma fun s hm => ends_bind_ok (theState_run s) ?_
  simp only [hm]
  exact (hR.bind (hR.rd _) fun mis => hR.bind (hR.regWrite (by decide) _) fun _ =>
    hR.routeDma hrx mis).ends s

/-! Commands. -/

theorem ofPerform (hR : Aloof R) {body : Op (List Word)} (hb : body.Keeps R)
    (h : perform body s = .next t) : R s t :=
  perform_ends (hb.ends s) (fun _ _ hu => hR.trans _ _ _ hu (hR.reply _ _)) h

theorem ofPerformUnit (hR : Aloof R) {body : Op Unit} (hb : body.Keeps R)
    (h : performUnit body s = .next t) : R s t :=
  performUnit_ends (hb.ends s) (fun _ _ hu => hR.trans _ _ _ hu (hR.reply _ _)) h

theorem unissued (hR : Aloof R) (h : Host.Outcome.next (φ := Fault) (ρ := Refusal) s = .next t) :
    R s t := by
  cases h
  exact hR.refl s

theorem finishWrite (hR : Aloof R) {acc : Nat} (h : finishWrite acc s = .next t) : R s t :=
  hR.trans _ _ _ (hR.owed s none) (hR.ofPerform (hR.bind hR.txKick fun _ => hR.pure _) h)

end Aloof

/-- The commands that may touch the receive side or the line-control word. -/
def touchesReceive : Instr → Bool
  | .lineApply _ _ _ | .setBreak _ | .startup | .shutdown | .irqDispatch | .rxPollEvent | .rxDmaEvent
  | .rxTaskCopy | .rxTaskFinish => true
  | _ => false

theorem Aloof.exec {R : State → State → Prop} {s t : State} (hR : Aloof R) {i : Instr}
    (hi : touchesReceive i = false) (h : exec i s = .next t) : R s t := by
  have read (f : State → List Word) : Op.Keeps R (theState >>= fun u => Pure.pure (f u)) :=
    hR.withState fun _ => hR.pure _
  cases i with
  | baudCalc c b =>
    refine hR.ofPerform (hR.bind (hR.withState fun _ => ?_) fun _ => hR.pure _) h
    exact keeps_ite _ (hR.raise _) (hR.pure _)
  | maskCalc policy => exact hR.ofPerform (hR.pure _) h
  | write data =>
    rw [Machine.exec, execWrite] at h
    refine performSilent_ends (Op.Keeps.ends ?_ s) h
    exact hR.bind hR.requireRunning fun _ => hR.bind (hR.writeLoop data) fun acc =>
      Op.Keeps.of_update (fun u => { u with writeOwed := some acc }) fun u => hR.owed u _
  | queryTxEmpty =>
    exact hR.ofPerform (hR.withState fun _ => hR.bind (hR.rd _) fun _ => hR.pure _) h
  | setTtyStopped on =>
    rw [Machine.exec, execSetTtyStopped] at h
    exact hR.ofPerformUnit hR.modifies h
  | txKick => exact hR.ofPerformUnit hR.txKick h
  | txStop => exact hR.ofPerformUnit hR.txStop h
  | rbTryEnqueue b => exact hR.ofPerform (hR.bind (hR.ringEnqueue b) fun _ => hR.pure _) h
  | rbDequeueUpTo k => exact hR.ofPerform (hR.bind (hR.ringDequeue _) fun _ => hR.pure _) h
  | rbPendingCount =>
    rw [Machine.exec, execRbPendingCount] at h
    exact hR.ofPerform (read _) h
  | rbIsEmpty =>
    rw [Machine.exec, execRbIsEmpty] at h
    exact hR.ofPerform (read _) h
  | txDmaDone => exact hR.ofPerformUnit hR.txDmaDone h
  | rxClassify st => exact hR.ofPerform (hR.pure _) h
  | rxFlag st =>
    rw [Machine.exec, execRxFlag] at h
    exact hR.ofPerform (read _) h
  | _ => cases hi

/-! ### No errors are reported in dma mode (43_receive R182) -/

/-- The error counters stay, and every delivered record is flagged normal. -/
structure NoReport (s t : State) : Prop where
  overrun : t.port.cntOverrun = s.port.cntOverrun
  parity : t.port.cntParity = s.port.cntParity
  frame : t.port.cntFrame = s.port.cntFrame
  brk : t.port.cntBrk = s.port.cntBrk
  out : ∃ more, t.port.out = s.port.out ++ more
    ∧ ∀ recs, OutEvent.deliver recs ∈ more → ∀ r ∈ recs, r.2 = Flag.normal

section noReport

variable {s t : State} {α β : Type}

theorem NoReport.of_rfl (hout : t.port.out = s.port.out := by rfl)
    (overrun : t.port.cntOverrun = s.port.cntOverrun := by rfl)
    (parity : t.port.cntParity = s.port.cntParity := by rfl)
    (frame : t.port.cntFrame = s.port.cntFrame := by rfl)
    (brk : t.port.cntBrk = s.port.cntBrk := by rfl) : NoReport s t :=
  { overrun, parity, frame, brk, out := ⟨[], by simpa using hout, by simp⟩ }

theorem NoReport.of_portKept (h : PortKept s t) : NoReport s t := by
  obtain ⟨why, ht⟩ := h
  refine .of_rfl ?_ ?_ ?_ ?_ ?_ <;> rw [ht]

theorem NoReport.of_sameReceive (h : SameReceive s.port t.port) : NoReport s t where
  overrun := h.overrun
  parity := h.parity
  frame := h.frame
  brk := h.brk
  out := by
    obtain ⟨n, hn⟩ := h.out
    exact ⟨_, hn, fun recs hrecs => by cases List.eq_of_mem_replicate hrecs⟩

theorem NoReport.refl (s : State) : NoReport s s := .of_rfl

theorem NoReport.trans (s t u : State) (h : NoReport s t) (k : NoReport t u) : NoReport s u where
  overrun := k.overrun.trans h.overrun
  parity := k.parity.trans h.parity
  frame := k.frame.trans h.frame
  brk := k.brk.trans h.brk
  out := by
    obtain ⟨more, ht, hnormal⟩ := h.out
    obtain ⟨more', hu, hnormal'⟩ := k.out
    refine ⟨more ++ more', by rw [hu, ht, List.append_assoc], fun recs hrecs => ?_⟩
    rcases List.mem_append.mp hrecs with hm | hm
    · exact hnormal recs hm
    · exact hnormal' recs hm

theorem noReport_of_portKept {x : Op α} (h : x.Keeps PortKept) : x.Keeps NoReport :=
  h.weaken fun _ _ => .of_portKept

theorem noReport_then {x : Op α} {f : α → Op β} (hx : x.Keeps NoReport)
    (hf : ∀ a, (f a).Keeps NoReport) : Op.Keeps NoReport (x >>= f) := keeps_bind NoReport.trans hx hf

theorem noReport_after {x : Op α} {f : α → Op β} (hx : x.Keeps PortKept)
    (hf : ∀ a, (f a).Keeps NoReport) : Op.Keeps NoReport (x >>= f) :=
  noReport_then (noReport_of_portKept hx) hf

theorem noReport_state {f : State → Op β} (hf : ∀ s, (f s).Keeps NoReport) :
    Op.Keeps NoReport (theState >>= f) := noReport_then (keeps_theState NoReport.refl) hf

theorem noReport_pure (a : α) : Op.Keeps NoReport (pure a) := keeps_pure NoReport.refl a

theorem noReport_port {f : Port → Port}
    (hf : ∀ s : State, NoReport s (s.setPort f) := by exact fun _ => .of_rfl) :
    (modifyPort f).Keeps NoReport := keeps_modifyPort hf

/-! The bodies outside `Aloof`. -/

theorem noReport_lineApply (line : LineFormat) (policy : Policy) (baud : Nat) :
    (lineApply line policy baud).Keeps NoReport :=
  noReport_state fun _ => noReport_after (portKept_baudCalc _ _) fun _ =>
    noReport_after (portKept_commitLine _ _ _) fun _ => noReport_after (portKept_regWrite _ _) fun _ =>
      noReport_then noReport_port fun _ => noReport_pure _

theorem noReport_startup : startup.Keeps NoReport := by
  rw [startup_eq]
  exact noReport_state fun _ => keeps_ite _ (noReport_of_portKept (portKept_raise _)) <|
    noReport_then noReport_port fun _ => noReport_after (portKept_regWrite _ _) fun _ =>
      noReport_after (portKept_regWrite _ _) fun _ => noReport_after (portKept_regWrite _ _) fun _ =>
        noReport_after (portKept_recommit _) fun _ => noReport_after (portKept_regWrite _ _) fun _ =>
          noReport_after (portKept_openMode _) fun _ => noReport_port

theorem noReport_shutdown : shutdown.Keeps NoReport := by
  rw [shutdown_eq]
  exact noReport_after portKept_requireRunning fun _ => noReport_state fun _ =>
    noReport_after (portKept_regWrite _ _) fun _ => noReport_after (portKept_regWrite _ _) fun _ =>
      noReport_after (portKept_closeMode _) fun _ => noReport_then noReport_port fun _ =>
        noReport_after (portKept_regWrite _ _) fun _ => noReport_after (portKept_rd _) fun _ =>
          noReport_after (portKept_regWrite _ _) fun _ => noReport_port

theorem noReport_rxDmaEvent : rxDmaEvent.Keeps NoReport :=
  noReport_state fun _ => keeps_ite _ (noReport_pure _) <|
    noReport_after portKept_dmaStopRx fun _ => noReport_then noReport_port fun _ =>
      noReport_after portKept_dmaRemaining.1 fun _ => noReport_after portKept_dmaRemaining.2 fun _ =>
        noReport_after (portKept_dmaArmRx _) fun _ =>
          keeps_ite _ (noReport_then noReport_port fun _ => noReport_port) (noReport_pure _)

theorem noReport_recheck : recheck.Keeps NoReport :=
  noReport_then noReport_port fun _ => noReport_rxDmaEvent

/-- The task delivers the bytes of its slot as normal (R178). -/
theorem noReport_taskCopy (k : Task) : (taskCopy k).Keeps NoReport := by
  refine noReport_state fun _ => keeps_ite _ (noReport_of_portKept (portKept_raise _)) <|
    noReport_after (portKept_memRead _ _) fun bs => noReport_then ?_ fun _ => noReport_port
  refine noReport_port fun s => ⟨rfl, rfl, rfl, rfl, _, rfl, fun recs hrecs r hr => ?_⟩
  obtain rfl : recs = _ := OutEvent.deliver.inj (List.mem_singleton.mp hrecs)
  obtain ⟨b, -, rfl⟩ := List.mem_map.mp hr
  rfl

theorem noReport_taskFinish (k : Task) : (taskFinish k).Keeps NoReport :=
  noReport_then noReport_port fun _ => noReport_port

/-! Every command of dma mode. -/

/-- In dma mode nothing is reported, and the parameters stay. -/
def Unreported (s t : State) : Prop := s.params.mode = .dma → t.params = s.params ∧ NoReport s t

theorem unreported_of {x : Op α} (h : x.Keeps NoReport) (hon : x.Keeps Onward) : x.Keeps Unreported :=
  fun s => ((hon.ends s).and (h.ends s)).mono fun _ ⟨k, h⟩ _ => ⟨k.params, h⟩

theorem aloof_unreported : Aloof Unreported where
  refl s _ := ⟨rfl, .refl s⟩
  trans s t u h k hm := by
    obtain ⟨hp, h⟩ := h hm
    obtain ⟨hp', k⟩ := k (by rw [hp]; exact hm)
    exact ⟨hp'.trans hp, h.trans _ _ _ k⟩
  poll s t hpoll hm := by
    rw [hpoll] at hm
    cases hm
  gap := unreported_of (noReport_of_portKept portKept_gap) onward_benign.gap
  port s f hf _ := ⟨rfl, .of_sameReceive hf⟩
  uart _ _ _ _ := ⟨rfl, .of_rfl⟩
  dtx _ _ _ _ := ⟨rfl, .of_rfl⟩
  ackRx _ _ := ⟨rfl, .of_rfl⟩
  stage _ _ _ _ := ⟨rfl, .of_rfl⟩
  owed _ _ _ := ⟨rfl, .of_rfl⟩
  reply _ _ _ := ⟨rfl, .of_rfl⟩

theorem noReport_performUnit {body : Op Unit} (hb : body.Keeps NoReport)
    (h : performUnit body s = .next t) : NoReport s t :=
  performUnit_ends (hb.ends s) (fun _ _ hu => hu.trans _ _ _ .of_rfl) h

theorem noReport_unissued (h : Host.Outcome.next (φ := Fault) (ρ := Refusal) s = .next t) :
    NoReport s t := by
  cases h
  exact .refl s

theorem noReport_exec {i : Instr} (hm : s.params.mode = .dma)
    (hdef : definedIn s.params.mode (opcodeFor i) = true) (h : exec i s = .next t) : NoReport s t := by
  cases hi : touchesReceive i with
  | false => exact (aloof_unreported.exec hi h hm).2
  | true =>
    cases i with
    | lineApply line policy baud =>
      exact perform_ends ((noReport_lineApply line policy _).ends s)
        (fun _ _ hu => hu.trans _ _ _ .of_rfl) h
    | setBreak on => exact noReport_performUnit (noReport_of_portKept (portKept_setBreak on)) h
    | startup => exact noReport_performUnit noReport_startup h
    | shutdown => exact noReport_performUnit noReport_shutdown h
    | irqDispatch =>
      simp only [exec, execIrqDispatch] at h
      split at h
      · exact (aloof_unreported.ofPerformUnit (aloof_unreported.irqDispatch
          (unreported_of noReport_rxDmaEvent onward_rxDmaEvent)) h hm).2
      · exact noReport_unissued h
    | rxPollEvent =>
      rw [hm] at hdef
      cases hdef
    | rxDmaEvent =>
      simp only [exec, execRxDmaEvent] at h
      split at h
      · split at h
        · exact noReport_performUnit noReport_recheck h
        · exact noReport_unissued h
      · exact noReport_performUnit noReport_rxDmaEvent h
    | rxTaskCopy =>
      simp only [exec, execRxTaskCopy] at h
      split at h
      · exact noReport_performUnit (noReport_taskCopy _) h
      · exact noReport_unissued h
    | rxTaskFinish =>
      simp only [exec, execRxTaskFinish] at h
      split at h
      · exact noReport_performUnit (noReport_taskFinish _) h
      · exact noReport_unissued h
    | _ => cases hi

theorem noReport_step (hm : s.params.mode = .dma) (h : step s = .next t) : NoReport s t := by
  have acted {who : Issuer} {ws : List Word} (k : NoReport (s.actedBy who ws) t) : NoReport s t :=
    { k with }
  cases step_stepped h with
  | env e _ _ run =>
    have k : NoReport { s with turns := s.turns.tail } t :=
      performSilent_ends ((noReport_of_portKept (portKept_envStep e)).ends _) run
    exact { k with }
  | command who i ws _ _ _ _ _ defined _ run => exact acted (noReport_exec hm defined run)
  | owed acc _ _ _ run => exact acted (aloof_unreported.finishWrite run hm).2
  | refused | nothing => exact .of_rfl

end noReport

/-- Settles O43: outside the receive event and the delivery task the receive side stays, and the task
delivers normal records alone. -/
theorem dmaModeReportsNoErrors : Obligations.DmaModeReportsNoErrors := by
  intro s t hm h
  obtain ⟨hover, hparity, hframe, hbrk, hout⟩ := noReport_step hm h
  exact ⟨hover, hparity, hframe, hbrk, hout⟩

/-! ### The receive line inside an operation (43_receive R183)

`Receiving c w ahead` is what holds of the receive line at every point of a step of dma mode: it reads the
line of the course's start and then bytes that have arrived, while the bytes `ahead` may still arrive.
`w` is set between the swap of the slots and the arming of the channel, where the channel is stopped on the
slot that was the landing slot (R174). -/

/-- What a step starts from, and the bytes that may arrive in it. -/
structure Course where
  params : Params
  line : List Byte
  may : List Byte

structure Receiving (c : Course) (w : Bool) (ahead : List Byte) (s : State) : Prop where
  params : s.params = c.params
  sound : paramsOk s.params = true
  dma : s.params.mode = .dma
  channels : channelsOk s = true
  wf : s.mem.wf = true
  rx : RxOk s.params s.port.landing s.drx
  task : TaskOk s.params s.port.landing s.port.task
  busy : s.port.rxBusy = true ↔ s.port.task ≠ none
  landed : w = false → s.drx.slot = s.port.landing
  line : ∃ arrived, receiveLine s = c.line ++ arrived ∧ (arrived ++ ahead).Sublist c.may

section receiving

variable {c : Course} {w : Bool} {ahead : List Byte} {s t : State}

theorem deliveredBytes_append (out out' : List OutEvent) :
    deliveredBytes (out ++ out') = deliveredBytes out ++ deliveredBytes out' := List.flatMap_append

theorem deliveredBytes_wakeups (n : Nat) : deliveredBytes (List.replicate n .wakeup) = [] :=
  List.flatMap_eq_nil_iff.mpr fun e he => by rw [List.eq_of_mem_replicate he]

theorem memBytes_snoc (s : State) (a n : Nat) :
    s.memBytes a (n + 1) = s.memBytes a n ++ [s.memByte (a + n)] := by
  rw [State.memBytes, List.range_succ, List.map_append]
  rfl

/-! Updates that leave the receive line. -/

/-- The receive line and the rules of the receive side are read off the same values. -/
structure Beside (s t : State) : Prop where
  params : t.params = s.params
  channels : channelsOk s = true → channelsOk t = true
  wf : s.mem.wf = true → t.mem.wf = true
  landing : t.port.landing = s.port.landing
  rxBusy : t.port.rxBusy = s.port.rxBusy
  task : t.port.task = s.port.task
  delivered : deliveredBytes t.port.out = deliveredBytes s.port.out
  run : t.drx.run = s.drx.run
  slot : t.drx.slot = s.drx.slot
  rem1 : t.drx.rem1 = s.drx.rem1
  rem2 : t.drx.rem2 = s.drx.rem2
  rxf : t.uart.rxf = s.uart.rxf
  slots : ∀ x, ∀ i < s.params.slotCap,
    t.mem.read (slotAddr s.params x + i) = s.mem.read (slotAddr s.params x + i)

theorem Beside.refl (s : State) : Beside s s :=
  ⟨rfl, id, id, rfl, rfl, rfl, rfl, rfl, rfl, rfl, rfl, rfl, fun _ _ _ => rfl⟩

theorem Beside.slotBytes (h : Beside s t) (x : Slot) {n : Nat} (hn : n ≤ s.params.slotCap) :
    t.memBytes (slotAddr t.params x) n = s.memBytes (slotAddr s.params x) n := by
  rw [h.params]
  exact memBytes_congr fun i hi => h.slots x i (by omega)

theorem captured_le (s : State) : s.captured ≤ s.params.slotCap := by
  rw [State.captured]
  omega

theorem Beside.receiveLine (h : Beside s t) (htask : TaskOk s.params s.port.landing s.port.task) :
    receiveLine t = receiveLine s := by
  have hcaptured : t.captured = s.captured := by
    rw [State.captured, State.captured, h.params, h.rem1, h.rem2]
  have htaken : taskBytes t = taskBytes s := by
    rw [taskBytes, taskBytes, h.task]
    cases hk : s.port.task with
    | none => rfl
    | some k =>
      obtain ⟨-, -, hcount⟩ := htask.ready k hk
      dsimp only
      rw [h.slotBytes k.slot hcount]
  rw [Safety.receiveLine, Safety.receiveLine, h.delivered, htaken, hcaptured, h.slot, h.rxf,
    h.slotBytes _ (captured_le s)]

theorem Receiving.beside (h : Receiving c w ahead s) (k : Beside s t) : Receiving c w ahead t where
  params := k.params.trans h.params
  sound := k.params ▸ h.sound
  dma := k.params ▸ h.dma
  channels := k.channels h.channels
  wf := k.wf h.wf
  rx := by
    rw [k.params, k.landing]
    exact ⟨k.rem1 ▸ h.rx.rem1_le, k.rem2 ▸ h.rx.rem2_le, k.rem1 ▸ k.rem2 ▸ h.rx.in_order,
      k.run ▸ k.rem1 ▸ k.rem2 ▸ h.rx.run_rem, k.run ▸ k.slot ▸ h.rx.armed⟩
  task := by
    rw [k.params, k.landing, k.task]
    exact h.task
  busy := by
    rw [k.rxBusy, k.task]
    exact h.busy
  landed hw := by
    rw [k.slot, k.landing]
    exact h.landed hw
  line := by
    rw [k.receiveLine h.task]
    exact h.line

theorem beside_setPort {f : Port → Port} (hf : SameReceive s.port (f s.port)) :
    Beside s (s.setPort f) :=
  { Beside.refl s with
    channels := fun hc => by
      rw [channelsOk_iff, State.setPort_port, hf.landing]
      exact (channelsOk_iff s).mp hc
    landing := hf.landing
    rxBusy := hf.rxBusy
    task := hf.task
    delivered := by
      obtain ⟨n, hn⟩ := hf.out
      rw [State.setPort_port, hn, deliveredBytes_append, deliveredBytes_wakeups, List.append_nil] }

theorem beside_setUart {f : Uart → Uart} (hf : (f s.uart).rxf = s.uart.rxf) : Beside s (s.setUart f) :=
  { Beside.refl s with rxf := hf }

theorem beside_setDtx {f : TxChannel → TxChannel}
    (hf : Spans s.params s.dtx → Spans s.params (f s.dtx)) : Beside s (s.setDtx f) :=
  { Beside.refl s with
    channels := fun hc => by
      obtain ⟨htx, hrx⟩ := (channelsOk_iff s).mp hc
      exact (channelsOk_iff _).mpr ⟨hf htx, hrx⟩ }

/-- The staging buffer is apart from both slots (00_scope R8). -/
theorem beside_stage (hp : paramsOk s.params = true) (hm : s.params.mode = .dma) (hwf : s.mem.wf = true)
    {bs : List Byte} (hfits : bs.length ≤ s.params.stageCap) :
    Beside s (s.setMem (s.mem.writeList s.params.stageAddr bs)) :=
  { Beside.refl s with
    wf := fun h => Memory.writeList_wf _ _ h
    slots := fun x i hi => by
      obtain ⟨-, -, -, ha, hb⟩ := dmaParams_regions hp hm
      rw [State.setMem_mem, Memory.read_writeList _ _ _ hwf, if_neg]
      cases x <;> simp only [slotAddr] <;> omega }

/-! Environment steps (20_memory R76 to R80). -/

theorem slotBytes_apart (hp : paramsOk s.params = true) (hm : s.params.mode = .dma) {x y : Slot}
    (hxy : x ≠ y) {i j : Nat} (hi : i < s.params.slotCap) (hj : j < s.params.slotCap) :
    slotAddr s.params x + i ≠ slotAddr s.params y + j := by
  obtain ⟨-, -, hab, -, -⟩ := dmaParams_regions hp hm
  cases x with
  | a => cases y with
    | a => exact absurd rfl hxy
    | b => simp only [slotAddr]; omega
  | b => cases y with
    | a => simp only [slotAddr]; omega
    | b => exact absurd rfl hxy

/-- The captured byte is appended to the captured bytes (R78, R175). -/
theorem capturedBytes_captureByte (h : Receiving c w ahead s) (hrun : s.drx.run = true) (b : Byte)
    (rest : List (Byte × Status)) :
    (s.captureByte b rest).memBytes (slotAddr s.params s.drx.slot) (s.captureByte b rest).captured
      = s.memBytes (slotAddr s.params s.drx.slot) s.captured ++ [b] := by
  obtain ⟨-, hcap, -⟩ := dmaParams_regions h.sound h.dma
  obtain ⟨hmore, hoff⟩ := captured_afterByte h.rx hrun hcap
  have hcaptured : (s.captureByte b rest).captured = s.captured + 1 := hmore
  have hread (a : Nat) : (s.captureByte b rest).mem.read a
      = if a = slotAddr s.params s.drx.slot + s.captured then some b else s.mem.read a := by
    rw [State.captured, ← hoff]
    exact Memory.read_write _ _ _ h.wf
  rw [hcaptured, memBytes_snoc, State.memByte, hread, if_pos rfl]
  refine congrArg (· ++ [b]) (memBytes_congr fun i hi => ?_)
  rw [hread, if_neg (by omega)]

/-- The bytes of the ready slot are apart from those captured (R174). -/
theorem taskBytes_captureByte (h : Receiving c w ahead s) (hrun : s.drx.run = true) (b : Byte)
    (rest : List (Byte × Status)) : taskBytes (s.captureByte b rest) = taskBytes s := by
  have htask : (s.captureByte b rest).port.task = s.port.task := rfl
  rw [taskBytes, taskBytes, htask]
  cases hk : s.port.task with
  | none => rfl
  | some k =>
    obtain ⟨hready, -, hcount⟩ := h.task.ready k hk
    have hne : k.slot ≠ s.drx.slot := by
      rw [h.rx.armed hrun]
      exact hready
    obtain ⟨-, hle, hlt, hpos⟩ := ((channelsOk_iff s).mp h.channels).2 hrun
    have hbytes : (s.captureByte b rest).memBytes (slotAddr s.params k.slot) k.count
        = s.memBytes (slotAddr s.params k.slot) k.count := memBytes_congr fun i hi =>
      Memory.read_write_ne b (slotBytes_apart h.sound h.dma hne (by omega) (nextOffset_lt hlt hpos hle))
    exact congrArg (fun bs => if k.phase = .copy then bs else []) hbytes

theorem receiveLine_captureByte (h : Receiving c w ahead s) (hrun : s.drx.run = true) {b : Byte}
    {st : Status} {rest : List (Byte × Status)} (hx : s.uart.rxf = (b, st) :: rest) :
    receiveLine (s.captureByte b rest) = receiveLine s := by
  have hslot : (s.captureByte b rest).drx.slot = s.drx.slot := RxChannel.afterByte_slot _
  have hcaptured := capturedBytes_captureByte h hrun b rest
  rw [Safety.receiveLine, Safety.receiveLine, taskBytes_captureByte h hrun, hslot]
  rw [show (s.captureByte b rest).params = s.params from rfl, hcaptured, hx]
  simp only [List.map_cons, List.append_assoc, List.cons_append, List.nil_append]
  rfl

theorem Receiving.captureByte (h : Receiving c w ahead s) (hrun : s.drx.run = true) {b : Byte}
    {st : Status} {rest : List (Byte × Status)} (hx : s.uart.rxf = (b, st) :: rest)
    (hc : channelsOk (s.captureByte b rest) = true) : Receiving c w ahead (s.captureByte b rest) where
  params := h.params
  sound := h.sound
  dma := h.dma
  channels := hc
  wf := Memory.write_wf _ _ h.wf
  rx := h.rx.afterByte hrun
  task := h.task
  busy := h.busy
  landed _ := (RxChannel.afterByte_slot _).trans (h.rx.armed hrun)
  line := by
    rw [receiveLine_captureByte h hrun hx]
    exact h.line

/-- The character that arrives may be taken into the FIFO (R79). -/
theorem Receiving.arrive {b : Byte} (h : Receiving c w (b :: ahead) s) (st : Status) :
    Receiving c w ahead (s.setUart fun u => { u with rxf := u.rxf ++ [(b, st)] }) :=
  { h with
    rx := h.rx
    line := by
      obtain ⟨arrived, hline, hmay⟩ := h.line
      refine ⟨arrived ++ [b], ?_, by simpa using hmay⟩
      rw [← List.append_assoc, ← hline]
      simp only [Safety.receiveLine, State.setUart_uart, List.map_append, List.append_assoc]
      rfl }

/-- A byte that could still arrive does not have to. -/
theorem Receiving.drop {b : Byte} (h : Receiving c w (b :: ahead) s) : Receiving c w ahead s :=
  { h with
    line := by
      obtain ⟨arrived, hline, hmay⟩ := h.line
      exact ⟨arrived, hline, ((List.sublist_cons_self b ahead).append_left arrived).trans hmay⟩ }

theorem arrivals_spares {e : EnvStep} (h : sparesFifo e = true) : arrivals [e] = [] := by
  cases e with
  | uartRx | dmaRx => cases h
  | _ => rfl

theorem Apart.beside (h : Apart s t) (hc : channelsOk t = true) : Beside s t := by
  obtain ⟨why, hport⟩ := h.port
  refine ⟨h.params, fun _ => hc, fun hwf => h.mem ▸ hwf, ?_, ?_, ?_, ?_, ?_, ?_, ?_, ?_, h.rxf,
    fun _ _ _ => by rw [h.mem]⟩ <;> simp only [hport, h.drx]

theorem Receiving.envStep {e : EnvStep} (h : Receiving c w (arrivals [e] ++ ahead) s) :
    ∃ t, Machine.envStep e s = .ok () t ∧ t.gaps = s.gaps ∧ Receiving c w ahead t := by
  obtain ⟨t, hrun, hunseen, hc⟩ := envStep_unseen e h.channels
  refine ⟨t, hrun, hunseen.gaps, ?_⟩
  cases hs : sparesFifo e with
  | true =>
    rw [arrivals_spares hs] at h
    exact h.beside (((apart_envStep hs).ok hrun).beside hc)
  | false =>
    cases e with
    | uartRx b st =>
      rcases uartReceive_run b st s with e | ⟨-, -, -, e⟩ <;> rw [Machine.envStep, e] at hrun <;>
        cases hrun
      · exact h.drop
      · exact Receiving.arrive h st
    | dmaRx =>
      rcases dmaRxStep_run h.channels with e | ⟨b, st, rest, hx, -, hgo, -, e⟩ <;>
        rw [Machine.envStep, e] at hrun <;> cases hrun
      · exact h
      · exact Receiving.captureByte h hgo hx hc
    | _ => cases hs

theorem Receiving.envSteps (es : List EnvStep) (h : Receiving c w (arrivals es ++ ahead) s) :
    ∃ t, Machine.envSteps es s = .ok () t ∧ t.gaps = s.gaps ∧ Receiving c w ahead t := by
  induction es generalizing s with
  | nil => exact ⟨s, rfl, rfl, h⟩
  | cons e es ih =>
    have hsplit : arrivals (e :: es) = arrivals [e] ++ arrivals es :=
      List.filterMap_append (l := [e]) (l' := es)
    rw [hsplit, List.append_assoc] at h
    obtain ⟨t, hrun, hgaps, ht⟩ := h.envStep
    obtain ⟨u, hrest, hgaps', hu⟩ := ih ht
    exact ⟨u, (op_bind_ok hrun).trans hrest, hgaps'.trans hgaps, hu⟩

/-- What the gaps of the state may still bring. -/
abbrev OnCourse (c : Course) (w : Bool) (s : State) : Prop :=
  Receiving c w (arrivals s.gaps.flatten) s

theorem OnCourse.gap (h : OnCourse c w s) :
    ∃ t, Machine.gap s = .ok () t ∧ viewOf t = viewOf s ∧ OnCourse c w t := by
  obtain ⟨t, hrun, hleft⟩ := gap_leaves h.channels
  refine ⟨t, hrun, hleft.view, ?_⟩
  cases hg : s.gaps with
  | nil =>
    cases (gap_quiet hg).symm.trans hrun
    exact h
  | cons es more =>
    have hsplit : arrivals s.gaps.flatten = arrivals es ++ arrivals more.flatten := by
      rw [hg, List.flatten_cons]
      exact List.filterMap_append
    have hnext : Receiving c w (arrivals es ++ arrivals more.flatten) { s with gaps := more } := by
      rw [← hsplit]
      exact { h with }
    obtain ⟨u, hsteps, hgaps, hu⟩ := hnext.envSteps
    have hsame : Machine.gap s = .ok () u := by
      rw [Machine.gap, hg]
      exact hsteps
    cases hsame.symm.trans hrun
    rw [OnCourse, hgaps]
    exact hu

end receiving

/-! ### The bodies along the receive line (43_receive R183) -/

/-- The body keeps the receive line. -/
def ReceiveKept (c : Course) (w : Bool) (s t : State) : Prop := OnCourse c w s → OnCourse c w t

section receiveKept

variable {c : Course} {w : Bool} {s t : State} {α β : Type}

theorem receiveKept_iff {x : Op α} :
    x.Keeps (ReceiveKept c w) ↔ ∀ s, OnCourse c w s → x.Ends s (OnCourse c w) := by
  refine forall_congr' fun s => ?_
  unfold Op.Ends
  cases x s <;> rfl

theorem OnCourse.ends {x : Op α} (h : OnCourse c w s) (hx : x.Keeps (ReceiveKept c w)) :
    x.Ends s (OnCourse c w) := receiveKept_iff.mp hx s h

theorem OnCourse.beside (h : OnCourse c w s) (k : Beside s t) (hgaps : t.gaps = s.gaps) :
    OnCourse c w t := by
  rw [OnCourse, hgaps]
  exact Receiving.beside h k

theorem aloof_receiveKept : Aloof (ReceiveKept c w) where
  refl _ := id
  trans _ _ _ h k := k ∘ h
  poll s t hpoll h := by
    have hm := h.dma
    rw [hpoll] at hm
    cases hm
  gap := receiveKept_iff.mpr fun s h => by
    obtain ⟨t, hrun, -, ht⟩ := h.gap
    exact .of_ok hrun ht
  port _ _ hf h := h.beside (beside_setPort hf) rfl
  uart _ _ hf h := h.beside (beside_setUart hf) rfl
  dtx _ _ hf h := h.beside (beside_setDtx hf) rfl
  ackRx s h := h.beside { Beside.refl s with } rfl
  stage _ _ hfits h := h.beside (beside_stage h.sound h.dma h.wf hfits) rfl
  owed s _ h := h.beside { Beside.refl s with } rfl
  reply s _ h := h.beside { Beside.refl s with } rfl

/-! The receive event (R174). -/

/-- A stopped channel leaves the landing slot (R174). -/
theorem OnCourse.swapped (h : OnCourse c false s) (hnone : s.port.task = none) :
    OnCourse c true (s.swapped s.port.landing) :=
  { h with
    channels := channelsOk_swapped h.channels _
    rx := ⟨h.rx.rem1_le, h.rx.rem2_le, h.rx.in_order, (by cases ·), (by cases ·)⟩
    task := ⟨fun k hk => by cases hnone.symm.trans hk⟩
    landed := (by cases ·) }

/-- What was captured is with the task, and nothing is captured yet into the other slot (R174). -/
theorem receiveLine_rearmed {x y : Slot} (hslot : s.drx.slot = x) (hnone : s.port.task = none) :
    receiveLine ((s.armedAt y).handedOver x s.captured) = receiveLine s := by
  have hempty : (s.armedAt y).captured = 0 := Nat.sub_self _
  by_cases hn : 0 < s.captured
  · rw [State.handedOver, if_pos hn, Safety.receiveLine, Safety.receiveLine, taskBytes, taskBytes, hnone,
      ← hslot]
    change _ ++ s.memBytes _ s.captured ++ State.memBytes _ _ (s.armedAt y).captured ++ _ = _
    rw [hempty]
    simp [State.memBytes, State.armedAt]
  · obtain hzero : s.captured = 0 := by omega
    rw [State.handedOver, if_neg hn, Safety.receiveLine, Safety.receiveLine, hempty, hzero]
    rfl

theorem OnCourse.rearmed {x : Slot} (h : OnCourse c true s) (hslot : s.drx.slot = x)
    (hland : s.port.landing = otherSlot x) (hnone : s.port.task = none) :
    OnCourse c false ((s.armedAt (otherSlot x)).handedOver x s.captured) := by
  obtain ⟨-, hcap, -⟩ := dmaParams_regions h.sound h.dma
  have hline := receiveLine_rearmed (y := otherSlot x) hslot hnone
  have hchannels := channelsOk_armedAt h.channels hland (by omega)
  have hrx : RxOk s.params s.port.landing (s.armedAt (otherSlot x)).drx :=
    ⟨Nat.le_refl 1, Nat.le_refl _, fun _ => rfl, fun _ => Nat.le_add_right 1 _, fun _ => hland.symm⟩
  by_cases hn : 0 < s.captured
  · rw [State.handedOver, if_pos hn] at hline ⊢
    have htask : TaskOk s.params s.port.landing (some ⟨x, s.captured, .copy⟩) :=
      ⟨fun k hk => by
        cases hk
        exact ⟨hland ▸ otherSlot_ne x, hn, captured_le s⟩⟩
    exact { h with
      channels := hchannels, rx := hrx, task := htask, landed := fun _ => hland.symm
      busy := iff_of_true rfl (Option.some_ne_none _)
      line := hline ▸ h.line }
  · rw [State.handedOver, if_neg hn] at hline ⊢
    exact { h with
      channels := hchannels, rx := hrx, task := h.task, landed := fun _ => hland.symm
      line := hline ▸ h.line }

/-- The stopped channel and the record pass a gap unchanged. -/
theorem OnCourse.gap_halted (h : OnCourse c w s) (hrun : s.drx.run = false) :
    ∃ t, Machine.gap s = .ok () t ∧ t.port = s.port ∧ t.drx = s.drx ∧ OnCourse c w t := by
  obtain ⟨t, hgap, hview, ht⟩ := h.gap
  exact ⟨t, hgap, viewOf_port hview, (captures_gap.ok hgap).halted hrun, ht⟩

theorem receiveKept_rxDmaEvent : rxDmaEvent.Keeps (ReceiveKept c false) := by
  refine receiveKept_iff.mpr fun s h => ?_
  cases hbusy : s.port.rxBusy with
  | true => exact .of_ok (rxDmaEvent_busy hbusy) h
  | false =>
    obtain ⟨t₁, h₁, hview, k₁⟩ := h.gap
    have hport : t₁.port = s.port := viewOf_port hview
    have hnone : t₁.port.task = none := by
      by_contra hsome
      have := k₁.busy.mpr hsome
      simp [hport, hbusy] at this
    have hslot := k₁.landed rfl
    obtain ⟨t₂, h₂, p₂, d₂, k₂⟩ := (k₁.swapped hnone).gap_halted rfl
    obtain ⟨t₃, h₃, p₃, d₃, k₃⟩ := k₂.gap_halted (by rw [d₂]; rfl)
    obtain ⟨t₄, h₄, p₄, d₄, k₄⟩ := k₃.gap_halted (by rw [d₃, d₂]; rfl)
    rw [hport] at h₂ p₂ d₂ hslot
    have hparams : t₄.params = s.params := k₄.params.trans h.params.symm
    have hcaptured : s.params.slotCap - t₂.drx.rem1 - t₃.drx.rem2 = t₄.captured := by
      rw [State.captured, hparams, d₄, d₃]
    have hevent := rxDmaEvent_run hbusy h₁ h₂ h₃ h₄ (by rw [d₄, d₃, d₂]; rfl)
    rw [hcaptured] at hevent
    refine .of_ok hevent (k₄.rearmed ?_ ?_ ?_)
    · rw [d₄, d₃, d₂]
      exact hslot
    · rw [p₄, p₃, p₂]
      rfl
    · rw [p₄, p₃, p₂]
      exact hnone

/-! The delivery task (R178, R179). -/

theorem taskIn_some {ph : Phase} {k : Task} (h : s.taskIn ph = some k) :
    s.port.task = some k ∧ k.phase = ph := by
  unfold State.taskIn at h
  split at h
  · next k' hk =>
    split at h
    · next hph =>
      cases h
      exact ⟨hk, hph.1⟩
    · cases h
  · cases h

theorem OnCourse.taskCopy (h : OnCourse c w s) {k : Task} (hk : s.port.task = some k)
    (hcopy : k.phase = .copy) : (Machine.taskCopy k).Ends s (OnCourse c w) := by
  obtain ⟨hready, hpos, hcount⟩ := h.task.ready k hk
  refine .of_ok (taskCopy_ready hready h.dma hcount) ?_
  have hline : receiveLine (s.setPort fun q => { q with
      out := q.out ++ [.deliver ((s.memBytes (slotAddr s.params k.slot) k.count).map
        fun b => (b, .normal))]
      task := some { k with phase := .finish } }) = receiveLine s := by
    have htaken : taskBytes s = s.memBytes (slotAddr s.params k.slot) k.count := by
      rw [taskBytes, hk]
      exact if_pos hcopy
    rw [Safety.receiveLine, Safety.receiveLine, htaken, State.setPort_port, deliveredBytes_append]
    simp [deliveredBytes, taskBytes, Function.comp_def]
    rfl
  exact { h with
    channels := h.channels, rx := h.rx
    task := ⟨fun k' hk' => by cases hk'; exact ⟨hready, hpos, hcount⟩⟩
    busy := h.busy.trans (by simp [hk])
    landed := h.landed
    line := hline ▸ h.line }

theorem OnCourse.taskFinish (h : OnCourse c w s) {k : Task} (hk : s.port.task = some k)
    (hfinish : k.phase = .finish) : (Machine.taskFinish k).Ends s (OnCourse c w) := by
  refine .of_ok (taskFinish_run k s) ?_
  have hline : receiveLine (s.setPort fun q => { q with
      cntRx := q.cntRx + BitVec.ofNat 32 k.count, rxBusy := false, task := none, recheck := true })
      = receiveLine s := by
    have hdone : taskBytes s = [] := by
      rw [taskBytes, hk]
      exact if_neg (by rw [hfinish]; decide)
    rw [Safety.receiveLine, Safety.receiveLine, hdone]
    rfl
  exact { h with
    channels := h.channels, rx := h.rx
    task := ⟨fun k' hk' => by cases hk'⟩
    busy := by simp
    landed := h.landed
    line := hline ▸ h.line }

/-! Line and port control (41_baud_line, 45_port_control). -/

/-- A line-control word that keeps `FEN` set loses nothing of the FIFO (20_memory R65). -/
theorem OnCourse.storeLcrh (h : OnCourse c w s) {v : Word}
    (hv : s.uart.fen s.params.regMap = false ∨ v.getLsbD s.params.regMap.fen = true) :
    (storeReg .lcrh v).Ends s (OnCourse c w) :=
  .of_ok (storeLcrh_latch hv) (h.beside (beside_setUart rfl) rfl)

theorem receiveKept_writeLcrh {v : Word} (hv : v.getLsbD c.params.regMap.fen = true) :
    (regWrite .lcrh v).Keeps (ReceiveKept c w) :=
  regWrite_keeps aloof_receiveKept.trans aloof_receiveKept.gap .lcrh v <| receiveKept_iff.mpr
    fun _ h => h.storeLcrh (.inr (by rw [h.params]; exact hv))

theorem receiveKept_commitLine (brdi divfrac : Nat) {l : Word}
    (hl : l.getLsbD c.params.regMap.fen = true) :
    (commitLine brdi divfrac l).Keeps (ReceiveKept c w) :=
  have hR := aloof_receiveKept (c := c) (w := w)
  hR.withState fun _ => hR.bind (hR.rd _) fun _ => hR.bind (hR.regWrite (by decide) _) fun _ =>
    hR.bind (hR.regWrite (by decide) _) fun _ => hR.bind (hR.regWrite (by decide) _) fun _ =>
      hR.bind (receiveKept_writeLcrh hl) fun _ => hR.pure _

/-- LINE_APPLY writes a word with `FEN` set (R137). -/
theorem receiveKept_lineApply (line : LineFormat) (policy : Policy) (baud : Nat) :
    (lineApply line policy baud).Keeps (ReceiveKept c w) := by
  have hR := aloof_receiveKept (c := c) (w := w)
  refine receiveKept_iff.mpr fun s h => ends_bind_ok (theState_run s) (h.ends ?_)
  have hfen : (lcrhWord s.params.regMap line).getLsbD c.params.regMap.fen = true := by
    rw [h.params]
    exact lcrhWord_fen (regMapOk_of_paramsOk (h.params ▸ h.sound)) line
  refine hR.bind (hR.withState fun _ => keeps_ite _ (hR.raise _) (hR.pure _)) fun _ => ?_
  exact hR.bind (receiveKept_commitLine _ _ hfen) fun _ => hR.bind (hR.regWrite (by decide) _) fun _ =>
    hR.bind hR.modifies fun _ => hR.pure _

/-- SET_BREAK leaves `FEN` as it reads it (45_port_control R205). -/
theorem receiveKept_setBreak (on : Bool) : (setBreak on).Keeps (ReceiveKept c w) := by
  have hR := aloof_receiveKept (c := c) (w := w)
  refine hR.bind hR.requireRunning fun _ => receiveKept_iff.mpr fun s h =>
    ends_bind_ok (theState_run s) ?_
  obtain ⟨t, hread, hview, ht⟩ := h.gap
  obtain ⟨u, hwrite, hview', hu⟩ := ht.gap
  have hrd : rd .lcrh s = .ok (t.regValue .lcrh &&& definedMask t.params.regMap .lcrh) t := by
    rw [rd_eq, hread]
  have hlcrh : u.uart.lcrh = t.uart.lcrh := congrArg Regs.lcrh (viewOf_regs hview')
  have hkeep : (withBit (t.regValue .lcrh &&& definedMask t.params.regMap .lcrh) s.params.regMap.brk
      on).getLsbD u.params.regMap.fen = u.uart.fen u.params.regMap := by
    rw [viewOf_params hview', viewOf_params hview, Uart.fen, hlcrh]
    exact fen_withBrk (regMapOk_of_paramsOk h.sound) _ on
  refine ends_bind_ok hrd (ends_bind_ok hwrite (hu.storeLcrh ?_))
  rw [hkeep]
  exact (Bool.eq_false_or_eq_true _).symm

/-! ### Every command and every step along the receive line -/

/-- Each command of a running port in dma mode, but SHUTDOWN. -/
theorem OnCourse.exec {i : Instr} (h : OnCourse c false s) (hl : s.port.life = .running)
    (hshut : i ≠ .shutdown) (hdef : definedIn s.params.mode (opcodeFor i) = true)
    (hrun : exec i s = .next t) : OnCourse c false t := by
  have hR := aloof_receiveKept (c := c) (w := false)
  have performed {body : Op Unit} (hb : body.Keeps (ReceiveKept c false))
      (hp : performUnit body s = .next t) : OnCourse c false t := hR.ofPerformUnit hb hp h
  cases hi : touchesReceive i with
  | false => exact hR.exec hi hrun h
  | true =>
    cases i with
    | shutdown => exact absurd rfl hshut
    | lineApply line policy baud => exact hR.ofPerform (receiveKept_lineApply line policy _) hrun h
    | setBreak on => exact performed (receiveKept_setBreak on) hrun
    | startup =>
      cases (performUnit_error (startup_fault hl)).symm.trans hrun
      exact hR.port s _ .of_rfl h
    | irqDispatch =>
      rw [Machine.exec, execIrqDispatch, if_pos hl] at hrun
      exact performed (hR.irqDispatch receiveKept_rxDmaEvent) hrun
    | rxPollEvent =>
      rw [h.dma] at hdef
      cases hdef
    | rxDmaEvent =>
      simp only [Machine.exec, execRxDmaEvent] at hrun
      split at hrun
      · split at hrun
        · exact performed (hR.bind hR.modifies fun _ => receiveKept_rxDmaEvent) hrun
        · exact hR.unissued hrun h
      · exact performed receiveKept_rxDmaEvent hrun
    | rxTaskCopy =>
      simp only [Machine.exec, execRxTaskCopy] at hrun
      split at hrun
      · next k hk =>
        obtain ⟨hsome, hphase⟩ := taskIn_some hk
        exact performUnit_ends (h.taskCopy hsome hphase) (fun u r => hR.reply u r) hrun
      · exact hR.unissued hrun h
    | rxTaskFinish =>
      simp only [Machine.exec, execRxTaskFinish] at hrun
      split at hrun
      · next k hk =>
        obtain ⟨hsome, hphase⟩ := taskIn_some hk
        exact performUnit_ends (h.taskFinish hsome hphase) (fun u r => hR.reply u r) hrun
      · exact hR.unissued hrun h
    | _ => cases hi

/-- The step's course, from a state of the invariant. -/
theorem Receiving.of_inv (h : Inv s) (hm : s.params.mode = .dma) (hl : s.port.life = .running)
    (may : List Byte) : Receiving ⟨s.params, receiveLine s, may⟩ false may s where
  params := rfl
  sound := h.params
  dma := hm
  channels := (Sound.of_inv (w := False) h False.elim).channelsOk
  wf := h.mem.canonical
  rx := (Sound.of_inv (w := False) h False.elim).rx hm
  task := (Sound.of_inv (w := False) h False.elim).task hm
  busy := (h.rx hm).busy_iff hl
  landed _ := (h.rx hm).slot_landing hl
  line := ⟨[], (List.append_nil _).symm, .refl _⟩

theorem Receiving.arrived {ahead : List Byte} (h : Receiving c w ahead t) :
    ∃ arrived, receiveLine t = c.line ++ arrived ∧ arrived.Sublist c.may := by
  obtain ⟨arrived, hline, hmay⟩ := h.line
  exact ⟨arrived, hline, (List.sublist_append_left _ _).trans hmay⟩

/-- Where no environment step is at the head, the gaps bring what may arrive. -/
theorem arrivalsAhead_gaps (h : ∀ e, s.turns.head? ≠ some (.env e)) :
    arrivalsAhead s = arrivals s.gaps.flatten := by
  unfold arrivalsAhead
  split
  · next e _ ht => exact absurd (by rw [ht]; rfl) (h e)
  · rfl

theorem receive_env {e : EnvStep} (h : Inv s) (hm : s.params.mode = .dma)
    (hl : s.port.life = .running) (hhead : s.turns.head? = some (.env e)) (hstep : step s = .next t) :
    ∃ arrived, receiveLine t = receiveLine s ++ arrived ∧ arrived.Sublist (arrivalsAhead s) := by
  have hmay : arrivalsAhead s = arrivals [e] := by
    obtain ⟨ts, hts⟩ := List.head?_eq_some_iff.mp hhead
    rw [arrivalsAhead, hts]
  rw [hmay]
  have hstart := Receiving.of_inv h hm hl (arrivals [e])
  have hnext : Receiving ⟨s.params, receiveLine s, arrivals [e]⟩ false (arrivals [e] ++ [])
      { s with turns := s.turns.tail } := by
    rw [List.append_nil]
    exact { hstart with }
  obtain ⟨u, hrun, -, hu⟩ := hnext.envStep
  rw [step_of_head h.params hhead] at hstep
  cases (performSilent_ok hrun).symm.trans hstep
  exact hu.arrived

end receiveKept

/-- Settles O42: the course of a step is kept by every environment step and every body, the swap hands the
captured bytes to the task, and the task hands its bytes to the host. -/
theorem receiveLineKeepsItsOrder : Obligations.ReceiveLineKeepsItsOrder := by
  intro s t h hm hl hshut hstep
  by_cases henv : ∃ e, s.turns.head? = some (.env e)
  · obtain ⟨e, hhead⟩ := henv
    exact receive_env h hm hl hhead hstep
  have hstart : OnCourse ⟨s.params, receiveLine s, arrivalsAhead s⟩ false s := by
    rw [OnCourse, ← arrivalsAhead_gaps fun e he => henv ⟨e, he⟩]
    exact Receiving.of_inv h hm hl _
  have acted (who : Issuer) (ws : List Word) :
      OnCourse ⟨s.params, receiveLine s, arrivalsAhead s⟩ false (s.actedBy who ws) := { hstart with }
  cases step_stepped hstep with
  | env e _ head _ => exact absurd ⟨e, head⟩ henv
  | command who i ws _ at_head _ _ _ defined _ run =>
    exact ((acted who ws).exec hl (fun hi => hshut (hi ▸ at_head)) defined run).arrived
  | owed acc _ _ _ run => exact (aloof_receiveKept.finishWrite run (acted .host s.stream)).arrived
  | refused who why ws => exact (aloof_receiveKept.reply _ _ (acted who ws)).arrived
  | nothing => exact (acted s.issuer s.stream).arrived

end Sys2Proof.Machine

/-! PROOFS of the family 44_dispatch: what IRQ_DISPATCH routes to in each mode, with no environment step
inside it, and that it completes whatever the environment does (44_dispatch R196 to R201). -/

namespace Sys2Proof.Machine

open Sys2Proof.Safety

/-! ### The dispatch up to its routing (44_dispatch R196) -/

/-- The word a read of `MIS` answers (20_memory R64). -/
def State.misRead (s : State) : Word := s.regValue .mis &&& definedMask s.params.regMap .mis

/-- The state once every interrupt source is cleared (10_state R43). -/
def State.sourcesCleared (s : State) : State :=
  s.setUart fun u => { u with ris := u.ris &&& ~~~ icrAll s.params.regMap }

/-- The routing of a `MIS` value in a mode (R197, R198). -/
def routeIn (mode : Mode) (mis : Word) : Op Unit :=
  match mode with
  | .poll => routePoll mis
  | .dma => routeDma mis

theorem misRead_txInt (s : State) : s.misRead.getLsbD s.params.regMap.txInt
    = (s.uart.ris &&& s.uart.im).getLsbD s.params.regMap.txInt :=
  getLsbD_and_definedMask (by simp [fieldsOf]) _

theorem receiveBits_misRead (s : State) : receiveBits s.params.regMap s.misRead
    = ((s.uart.ris &&& s.uart.im).getLsbD s.params.regMap.rxInt
      || (s.uart.ris &&& s.uart.im).getLsbD s.params.regMap.rtInt) := by
  have bit {k : Nat} (hk : (k, 1) ∈ fieldsOf s.params.regMap .mis) :
      s.misRead.getLsbD k = (s.uart.ris &&& s.uart.im).getLsbD k := getLsbD_and_definedMask hk _
  rw [receiveBits, bit (by simp [fieldsOf]), bit (by simp [fieldsOf])]

/-- The dispatch reads `MIS`, clears every source, and routes what it read; environment steps may fall
before the read and before the clearing write. -/
theorem irqDispatch_run {s t u : State} (hread : gap s = .ok () t) (hclear : gap t = .ok () u)
    (hp : u.params = s.params) :
    irqDispatch s = routeIn s.params.mode t.misRead u.sourcesCleared := by
  have hmis : rd .mis s = .ok t.misRead t := by rw [rd_eq, hread]; rfl
  have hicr : regWrite .icr (icrAll s.params.regMap) t = .ok () u.sourcesCleared := by
    rw [regWrite_eq, hclear, ← hp]
    rfl
  rw [irqDispatch, theState_bind, op_bind_ok hmis, op_bind_ok hicr]
  cases s.params.mode <;> rfl

theorem irqDispatch_quiet {s : State} (hq : s.gaps = []) :
    irqDispatch s = routeIn s.params.mode s.misRead s.sourcesCleared :=
  irqDispatch_run (gap_quiet hq) (gap_quiet hq) rfl

theorem exec_irqDispatch {s : State} (hl : s.port.life = .running) :
    exec .irqDispatch s = performUnit irqDispatch s := if_pos hl

/-- Bodies that run alike make the same step. -/
theorem performUnit_congr {x y : Op Unit} {s t : State} (h : x s = y t) :
    performUnit x s = performUnit y t := by
  simp only [performUnit, perform, op_bind, h]

/-! ### The routing in poll mode (R197, R199) -/

section routePoll

variable {s u : State} {mis : Word}

/-- Without a receive bit only the transmit side is routed. -/
theorem routePoll_unreceived (h : receiveBits s.params.regMap mis = false) :
    routePoll mis s = if mis.getLsbD s.params.regMap.txInt then txKick s else .ok () s := by
  rw [routePoll, theState_bind, if_neg (by simp [h])]
  split <;> rfl

/-- With a receive bit the transmit side is routed in the state the receive event leaves. -/
theorem routePoll_received (h : receiveBits s.params.regMap mis = true)
    (hrx : rxPollEvent s = .ok () u) :
    routePoll mis s = if mis.getLsbD s.params.regMap.txInt then txKick u else .ok () u := by
  rw [routePoll, theState_bind, if_pos h, op_bind_ok hrx]
  split <;> rfl

end routePoll

/-! ### The polled receive event goes on (43_receive R172) -/

/-- A condition under which the polled receive event raises no fault: the environment steps before a
primitive go through, and what the event does to a character keeps the condition. -/
structure Polls (P : State → Prop) : Prop where
  gap : ∀ s, P s → gap.Runs s fun _ t => P t
  draws : ∀ s, P s → P { s with draws := s.draws + 1 }
  pop : ∀ s e rest, s.uart.rxf = e :: rest → P s → P (s.popped rest)
  received : ∀ s e, P s → P (s.received [e])
  deliver : ∀ s recs, P s → P (s.setPort fun q => { q with out := q.out ++ [.deliver recs] })

section polls

variable {P : State → Prop} {s : State}

theorem Polls.rd (hP : Polls P) (h : P s) (r : Reg) : (rd r).Runs s fun _ t => P t := by
  obtain ⟨_, t, hgap, ht⟩ := hP.gap s h
  exact ⟨_, t, by rw [rd_eq, hgap], ht⟩

/-- A read of `DR` pops a character, or draws where the FIFO is empty (20_memory R64). -/
theorem Polls.readDr (hP : Polls P) (h : P s) : readDr.Runs s fun _ t => P t := by
  refine runs_bind (hP.gap s h) fun _ t ht => ?_
  cases hx : t.uart.rxf with
  | nil => exact ⟨_, _, by simp only [popDr, hx]; rfl, hP.draws t ht⟩
  | cons e rest => exact ⟨_, _, popDr_cons hx, hP.pop t e rest hx ht⟩

theorem Polls.pollLoop (hP : Polls P) (h : P s) (fuel count : Nat) (batch : List (Byte × Flag)) :
    (pollLoop fuel count batch).Runs s fun _ t => P t := by
  induction fuel generalizing s count batch with
  | zero => exact runs_pure h
  | succ fuel ih =>
    refine runs_bind_ok (theState_run s) ?_
    split
    · exact runs_pure h
    refine runs_bind (hP.rd h .fr) fun fr t ht => ?_
    split
    · exact runs_pure ht
    refine runs_bind (hP.readDr ht) fun word u hu => ?_
    exact runs_bind_ok (receiveChar_run _ _ u) (ih (hP.received u _ hu) _ _)

theorem Polls.rxPollEvent (hP : Polls P) (h : P s) : rxPollEvent.Runs s fun _ t => P t := by
  obtain ⟨batch, t, hloop, ht⟩ := hP.pollLoop h s.receivePasses 0 []
  refine ⟨(), _, rxPollEvent_of_loop hloop, ?_⟩
  split
  · exact ht
  · exact hP.deliver t batch ht

end polls

/-- With no environment step scheduled nothing can disturb the event. -/
theorem polls_quiet : Polls fun s => s.gaps = [] where
  gap s hq := ⟨(), s, gap_quiet hq, hq⟩
  draws _ hq := hq
  pop _ _ _ _ hq := hq
  received _ _ hq := hq
  deliver _ _ hq := hq

/-- Settles O44: the four combinations of a receive bit and the TX bit. -/
theorem dispatchInPollMode : Obligations.DispatchInPollMode := by
  intro s hq hl hm m mis cleared
  have hexec : exec .irqDispatch s = performUnit (routePoll s.misRead) cleared := by
    rw [exec_irqDispatch hl]
    refine performUnit_congr ((irqDispatch_quiet hq).trans ?_)
    rw [hm]
    rfl
  have htx : s.misRead.getLsbD cleared.params.regMap.txInt = mis.getLsbD m.txInt := misRead_txInt s
  have hrx : receiveBits cleared.params.regMap s.misRead
      = (mis.getLsbD m.rxInt || mis.getLsbD m.rtInt) := receiveBits_misRead s
  rw [hexec]
  refine ⟨fun hno => ?_, fun hyes => ?_⟩
  · have hroute := routePoll_unreceived (hrx.trans hno)
    rw [htx] at hroute
    refine ⟨fun h => ?_, fun h => ?_⟩ <;> rw [h] at hroute
    · exact performUnit_ok hroute
    · exact performUnit_congr hroute
  · obtain ⟨_, u, hevent, -⟩ := polls_quiet.rxPollEvent (s := cleared) hq
    have hroute := routePoll_received (hrx.trans hyes) hevent
    rw [htx] at hroute
    refine ⟨fun h => ?_, fun h => ⟨u, hevent, ?_⟩⟩ <;> rw [h] at hroute
    · exact performUnit_congr (hroute.trans hevent.symm)
    · exact performUnit_congr hroute

/-! ### The routing in DMA mode (R198, R199) -/

/-- The receive channel's completion acknowledged (20_memory R73). -/
def State.ackedRx (s : State) : State := s.setDrx fun d => { d with done := false }

/-- The transmit channel's completion acknowledged (20_memory R73). -/
def State.ackedTx (s : State) : State := s.setDtx fun d => { d with done := false }

/-- The transmit half of the routing: the channel is asked, and a completion is served (R198). -/
def serveTx : Op Unit := do
  let txd ← dmaQueryAckTx
  if txd then txDmaDone else pure ()

section routeDma

variable {s t u : State} {mis : Word}

theorem serveTx_run (hgap : gap s = .ok () t) :
    serveTx s = if t.dtx.done then txDmaDone t.ackedTx else .ok () t.ackedTx := by
  rw [serveTx, op_bind_ok (dmaQueryAckTx_run hgap)]
  split <;> rfl

/-- The receive channel is asked first; on its answer or on a receive bit the receive event comes before
the transmit half. -/
theorem routeDma_run (hgap : gap s = .ok () t) :
    routeDma mis s = if t.drx.done || receiveBits s.params.regMap mis
      then (rxDmaEvent >>= fun _ => serveTx) t.ackedRx else serveTx t.ackedRx := by
  rw [routeDma, theState_bind, op_bind_ok (dmaQueryAckRx_run hgap)]
  split <;> rfl

/-- With no environment step inside it the receive event completes, in any state; it leaves the transmit
channel. -/
theorem rxDmaEvent_quiet (hq : s.gaps = []) :
    ∃ u, rxDmaEvent s = .ok () u ∧ u.gaps = [] ∧ u.dtx = s.dtx := by
  cases hbusy : s.port.rxBusy with
  | true => exact ⟨s, rxDmaEvent_busy hbusy, hq, rfl⟩
  | false =>
    have hgap : gap (s.swapped s.port.landing) = .ok () (s.swapped s.port.landing) := gap_quiet hq
    refine ⟨_, rxDmaEvent_run hbusy (gap_quiet hq) hgap hgap hgap rfl, ?_⟩
    rw [State.handedOver]
    split <;> exact ⟨hq, rfl⟩

end routeDma

/-- Settles O45: the receive half by the channel's answer and the receive bits, then the transmit half by
the channel's answer. -/
theorem dispatchInDmaMode : Obligations.DispatchInDmaMode := by
  intro s hq hl hm m mis rx asked acked
  have hrx : (s.drx.done || receiveBits m s.misRead) = rx := by
    rw [receiveBits_misRead, ← Bool.or_assoc]
  have hexec : exec .irqDispatch s
      = performUnit (if rx then rxDmaEvent >>= fun _ => serveTx else serveTx) asked := by
    rw [exec_irqDispatch hl, ← hrx]
    refine performUnit_congr ((irqDispatch_quiet hq).trans ?_)
    rw [hm, op_ite_run]
    exact routeDma_run (s := s.sourcesCleared) (gap_quiet hq)
  have served {u : State} (hu : u.gaps = []) (hd : u.dtx = s.dtx) :
      (s.dtx.done = false → performUnit serveTx u = .next ((acked u).reply (.result [])))
      ∧ (s.dtx.done = true → performUnit serveTx u = exec .txDmaDone (acked u)) := by
    have hserve := serveTx_run (gap_quiet hu)
    rw [hd] at hserve
    refine ⟨fun h => ?_, fun h => ?_⟩ <;> rw [h] at hserve
    · exact performUnit_ok hserve
    · exact performUnit_congr hserve
  rw [hexec]
  refine ⟨fun h => ?_, fun h => ?_⟩ <;> rw [h]
  · exact served (u := asked) hq rfl
  · obtain ⟨u, hevent, hu, hd⟩ := rxDmaEvent_quiet (s := asked) hq
    refine ⟨u, hevent, ?_⟩
    rw [if_pos rfl, performUnit_congr (op_bind_ok hevent)]
    exact served hu hd

/-! ### The dispatch under any environment (R196, 70_reset_and_hazards R246) -/

/-- Nothing went wrong from `s` to `t` and nobody was answered. -/
structure Untroubled (s t : State) : Prop where
  params : t.params = s.params
  life : t.port.life = s.port.life
  fault : t.port.fault = s.port.fault
  issuer : t.issuer = s.issuer
  replies : t.replies = s.replies

theorem Untroubled.trans {s t u : State} (h : Untroubled s t) (k : Untroubled t u) : Untroubled s u :=
  ⟨k.params.trans h.params, k.life.trans h.life, k.fault.trans h.fault, k.issuer.trans h.issuer,
    k.replies.trans h.replies⟩

/-- The environment changes none of these. -/
theorem Untroubled.of_view {s t t0 : State} (h : Untroubled s t0) (hv : viewOf t = viewOf t0) :
    Untroubled s t := by
  refine h.trans ⟨viewOf_params hv, ?_, ?_, viewOf_issuer hv, viewOf_replies hv⟩ <;> rw [viewOf_port hv]

/-- A point inside a dispatch begun in `s`: the state is sound, the port runs, and so far nothing went
wrong. -/
structure Serving (s t : State) : Prop where
  sound : Sound False {} t
  running : t.port.life = .running
  untroubled : Untroubled s t

/-- A body that ends normally also ends where its every end lies. -/
theorem Op.Runs.and_ends {α : Type} {x : Op α} {s : State} {P : α → State → Prop} {Q : State → Prop}
    (h : x.Runs s P) (k : x.Ends s Q) : x.Runs s fun a t => P a t ∧ Q t := by
  obtain ⟨a, t, e, ht⟩ := h
  rw [Op.Ends, e] at k
  exact ⟨a, t, e, ht, k⟩

section serving

variable {s t u : State}

/-- An update of the parts that `Untroubled` does not speak of needs to be sound only. -/
theorem Serving.next (h : Serving s t) (hs : Sound False {} u)
    (hu : Untroubled t u := by exact ⟨rfl, rfl, rfl, rfl, rfl⟩) : Serving s u :=
  ⟨hs, hu.life.trans h.running, h.untroubled.trans hu⟩

/-- A body whose every end is sound, and which ends normally without trouble. -/
theorem Serving.runs {α : Type} {x : Op α} (h : Serving s t) (hs : x.Ends t (Sound False {}))
    (hx : x.Runs t fun _ u => Untroubled t u) : x.Runs t fun _ u => Serving s u :=
  runs_mono (hx.and_ends hs) fun _ _ hu => h.next hu.2 hu.1

/-- A dispatch changes no parameter. -/
theorem Serving.params_eq (h : Serving s t) (k : Serving s u) : u.params = t.params :=
  k.untroubled.params.trans h.untroubled.params.symm

theorem Serving.gap (h : Serving s t) : gap.Runs t fun _ u => Serving s u :=
  runs_mono h.sound.gap fun _ _ hu =>
    h.next hu.1 (.of_view ⟨rfl, rfl, rfl, rfl, rfl⟩ hu.2.view)

/-! The kick (42_transmit R147 to R149). -/

theorem txKickPoll_untroubled (h : Pushable t) : txKickPoll.Runs t fun _ u => Untroubled t u := by
  by_cases hnone : t.pending = 0 ∨ t.port.ttyStopped = true
  · obtain ⟨u, hset, hu, -⟩ := setTxim_poll h.poll false
    exact ⟨(), _, (txKickPoll_none hnone).trans hset,
      .of_view (t0 := t.withTxim false) ⟨rfl, rfl, rfl, rfl, rfl⟩ (viewOf_withTxim hu.view _)⟩
  · obtain ⟨hpend, htty⟩ := not_or.mp hnone
    obtain ⟨x, u, k, hrun, hk⟩ := txKickPoll_kicked h hpend (by simpa using htty)
    have hleft : Untroubled t (((t.setPort (Port.pushed t.params k)).wokenBelow (t.pending - k)).withTxim
        (decide (k < t.pending))) := ⟨rfl, rfl, rfl, rfl, rfl⟩
    exact ⟨(), _, hrun, hleft.of_view (viewOf_withTxim hk.view _)⟩

theorem txKickDma_untroubled {w : Prop} {m : Midway} (h : Sound w m t)
    (hm : t.params.mode = .dma) : txKickDma.Runs t fun _ u => Untroubled t u := by
  by_cases hnone : t.pending = 0 ∨ t.port.ttyStopped = true ∨ t.port.txBusy = true
  · exact ⟨(), t, txKickDma_none hnone, rfl, rfl, rfl, rfl, rfl⟩
  · obtain ⟨u, hrun, hu, -⟩ := (h.starts hm hnone).txKickDma_leaves h.channelsOk h.mem.canonical
    have hstarted : Untroubled t ((t.staged.started t.dmaRun).wokenBelow (t.pending - t.dmaRun)) :=
      ⟨rfl, rfl, rfl, rfl, rfl⟩
    exact ⟨(), u, hrun, hstarted.of_view hu.view⟩

theorem Serving.txKick (h : Serving s t) : txKick.Runs t fun _ u => Serving s u := by
  refine h.runs (soundKept_iff.mp soundKept_txKick t h.sound) ?_
  cases hm : t.params.mode with
  | poll =>
    obtain ⟨_, u, hrun, hu⟩ := txKickPoll_untroubled (h.sound.pushable hm h.running)
    exact ⟨_, u, (txKick_poll h.running hm).trans hrun, hu⟩
  | dma =>
    obtain ⟨_, u, hrun, hu⟩ := txKickDma_untroubled h.sound hm
    exact ⟨_, u, (txKick_dma h.running hm).trans hrun, hu⟩

/-- The completion of an idle channel is counted, and the ring is kicked (42_transmit R152). -/
theorem Serving.txDmaDone (h : Serving s t) (hd : t.dtx.run = false ∧ t.dtx.done = false) :
    txDmaDone.Runs t fun _ u => Serving s u := by
  cases hbusy : t.port.txBusy with
  | false => exact ⟨(), t, txDmaDone_idle hbusy, h⟩
  | true =>
    have hcount := (soundKept_benign _ _).countTx t.port.txLen t h.sound
    have hcounted : Sound False {} (t.setPort Port.txCounted) := Sound.endTx hcount hd
    obtain ⟨_, u, hrun, hu⟩ := (h.next hcounted).txKick
    exact ⟨_, u, (txDmaDone_busy hbusy).trans hrun, hu⟩

/-! The receive events (43_receive R172, R174). -/

theorem polls_serving (s : State) : Polls (Serving s) where
  gap _ h := h.gap
  draws _ h := h.next { h.sound with }
  pop _ _ _ hx h := h.next (h.sound.pop hx)
  received t e h := by
    have hcount : Emits fun q => q.received [e] := fun _ => ⟨_, _, _, _, _, _, _, List.prefix_rfl, rfl⟩
    exact h.next { h.sound.aside hcount.aside with }
  deliver t recs h := h.next ((soundKept_benign _ _).deliver recs t h.sound)

theorem untroubled_handedOver (t : State) (x y : Slot) (n : Nat) :
    Untroubled t (((t.swapped x).armedAt y).handedOver x n) := by
  rw [State.handedOver]
  split <;> exact ⟨rfl, rfl, rfl, rfl, rfl⟩

theorem Serving.rxDmaEvent (h : Serving s t) (hm : t.params.mode = .dma) :
    rxDmaEvent.Runs t fun _ u => Serving s u := by
  refine h.runs (.of_runs (h.sound.rxDmaEvent h.running hm)) ?_
  cases hbusy : t.port.rxBusy with
  | true => exact ⟨(), t, rxDmaEvent_busy hbusy, rfl, rfl, rfl, rfl, rfl⟩
  | false =>
    obtain ⟨-, hcap, -⟩ := dmaParams_regions h.sound.params hm
    obtain ⟨u, n, hrun, -, -, -, -, hu⟩ := rxDmaEvent_leaves hbusy hcap h.sound.channelsOk
    exact ⟨(), u, hrun, (untroubled_handedOver t _ _ n).of_view hu.view⟩

/-! The routing. -/

theorem Serving.routePoll (h : Serving s t) (mis : Word) :
    (routePoll mis).Runs t fun _ u => Serving s u := by
  have kicked {v : State} (hv : Serving s v) (c : Bool) :
      ∃ u, (if c then Machine.txKick v else .ok () v) = .ok () u ∧ Serving s u := by
    cases c with
    | false => exact ⟨v, rfl, hv⟩
    | true =>
      obtain ⟨_, u, hrun, hu⟩ := hv.txKick
      exact ⟨u, hrun, hu⟩
  cases hrx : receiveBits t.params.regMap mis with
  | false =>
    obtain ⟨u, hrun, hu⟩ := kicked h (mis.getLsbD t.params.regMap.txInt)
    exact ⟨(), u, (routePoll_unreceived hrx).trans hrun, hu⟩
  | true =>
    obtain ⟨_, v, hevent, hv⟩ := (polls_serving s).rxPollEvent h
    obtain ⟨u, hrun, hu⟩ := kicked hv (mis.getLsbD t.params.regMap.txInt)
    exact ⟨(), u, (routePoll_received hrx hevent).trans hrun, hu⟩

/-- A channel that has signalled its completion no longer runs, so what it moved may be counted. -/
theorem Serving.serveTx (h : Serving s t) : serveTx.Runs t fun _ u => Serving s u := by
  obtain ⟨_, v, hgap, hv⟩ := h.gap
  have hacked : Serving s v.ackedTx := hv.next hv.sound.ackTx
  have hrun := serveTx_run hgap
  cases hdone : v.dtx.done with
  | false =>
    rw [hdone] at hrun
    exact ⟨(), _, hrun, hacked⟩
  | true =>
    rw [hdone] at hrun
    obtain ⟨-, hidle⟩ := hv.sound.tx.done_busy hdone
    obtain ⟨_, u, hserve, hu⟩ := hacked.txDmaDone ⟨hidle, rfl⟩
    exact ⟨(), u, hrun.trans hserve, hu⟩

theorem Serving.routeDma (h : Serving s t) (hm : t.params.mode = .dma) (mis : Word) :
    (routeDma mis).Runs t fun _ u => Serving s u := by
  obtain ⟨_, v, hgap, hv⟩ := h.gap
  have hacked : Serving s v.ackedRx := hv.next hv.sound.ackRx
  have hmode : v.ackedRx.params.mode = .dma := by
    rw [h.params_eq hacked, hm]
  unfold Op.Runs
  rw [routeDma_run hgap]
  split
  · exact runs_bind (hacked.rxDmaEvent hmode) fun _ u hu => hu.serveTx
  · exact hacked.serveTx

theorem Sound.sourcesCleared {w : Prop} {m : Midway} (h : Sound w m t) : Sound w m t.sourcesCleared :=
  h.setUart { h.regs with ris := and_defined_of_and _ h.regs.ris } { h.fifos with } h.fen_committed

theorem Serving.irqDispatch (h : Serving s t) : irqDispatch.Runs t fun _ u => Serving s u := by
  obtain ⟨_, v, hread, hv⟩ := h.gap
  obtain ⟨_, x, hclear, hx⟩ := hv.gap
  have hcleared : Serving s x.sourcesCleared := hx.next hx.sound.sourcesCleared
  unfold Op.Runs
  rw [irqDispatch_run hread hclear (h.params_eq hx)]
  cases hm : t.params.mode with
  | poll => exact hcleared.routePoll _
  | dma => exact hcleared.routeDma (by rw [h.params_eq hcleared, hm]) _

end serving

/-- Settles O46: a state of `Inv` is sound, and the dispatch leaves every sound running port so. -/
theorem dispatchNeverFaults : Obligations.DispatchNeverFaults := by
  intro s hinv hl
  have h : Serving s s := ⟨.of_inv hinv fun k => k.elim, hl, rfl, rfl, rfl, rfl, rfl⟩
  obtain ⟨_, t, hrun, ht⟩ := h.irqDispatch
  refine ⟨_, (exec_irqDispatch hl).trans (performUnit_ok hrun), ht.untroubled.fault, ?_⟩
  rw [State.reply_replies, ht.untroubled.replies, ht.untroubled.issuer]

end Sys2Proof.Machine

/-! PROOFS of the family 45_port_control: what a command does outside the life state it needs, SET_BREAK,
QUERY_TX_EMPTY and SET_TTY_STOPPED (45_port_control R205 to R208). -/

namespace Sys2Proof.Machine

open Sys2Proof.Safety

/-! ### Lifecycle gating (45_port_control R208) -/

section gating

variable {s : State}

/-- A body that begins with the life check faults outside RUNNING, before any of its effects. -/
theorem performUnit_requireRunning (body : Unit → Op Unit) (h : s.port.life ≠ .running) :
    performUnit (requireRunning >>= body) s
      = .next (s.setPort fun q => { q with fault := some .notRunning }) :=
  performUnit_error (op_bind_error (requireRunning_of_not_running h))

theorem performSilent_error {body : Op Unit} {t : State} {e : FaultReason} (h : body s = .error e t) :
    performSilent body s = .next t := by
  simp [performSilent, h]

/-- WRITE checks before its loop, so it owes no kick either (40_ringbuffer R116). -/
theorem write_fault (data : List Byte) (h : s.port.life ≠ .running) : exec (.write data) s
    = .next (s.setPort fun q => { q with fault := some .notRunning }) :=
  performSilent_error (op_bind_error (requireRunning_of_not_running h))

theorem txStop_fault (h : s.port.life ≠ .running) : exec .txStop s
    = .next (s.setPort fun q => { q with fault := some .notRunning }) :=
  performUnit_requireRunning _ h

theorem setBreak_fault (on : Bool) (h : s.port.life ≠ .running) : exec (.setBreak on) s
    = .next (s.setPort fun q => { q with fault := some .notRunning }) :=
  performUnit_requireRunning _ h

/-- Outside RUNNING `Irq` issues nothing (60_exceptions R219). -/
theorem irqDispatch_not_issued (h : s.port.life ≠ .running) : exec .irqDispatch s = .next s := if_neg h

/-- A task step is owed by a task in its phase, in RUNNING only. -/
theorem taskIn_eq_none {ph : Phase}
    (h : s.port.life ≠ .running ∨ ∀ k, s.port.task = some k → k.phase ≠ ph) : s.taskIn ph = none := by
  cases ht : s.port.task with
  | none => rw [State.taskIn, ht]
  | some k =>
    have hnot : ¬(k.phase = ph ∧ s.port.life = .running) := fun ⟨hphase, hlife⟩ =>
      h.elim (fun hno => hno hlife) fun hno => hno k ht hphase
    simp only [State.taskIn, ht, if_neg hnot]

theorem rxTaskCopy_not_issued (h : s.taskIn .copy = none) : exec .rxTaskCopy s = .next s := by
  rw [exec, execRxTaskCopy, h]

theorem rxTaskFinish_not_issued (h : s.taskIn .finish = none) : exec .rxTaskFinish s = .next s := by
  rw [exec, execRxTaskFinish, h]

end gating

/-- Settles O48: each host command by its life check; `Irq` and the Task by what they do not owe. -/
theorem lifecycleGating : Obligations.LifecycleGating := by
  refine fun s data on b => ⟨fun hl i hi => ?_, fun hl => performUnit_error (startup_fault hl),
    irqDispatch_not_issued, fun h => rxTaskCopy_not_issued (taskIn_eq_none h),
    fun h => rxTaskFinish_not_issued (taskIn_eq_none h)⟩
  simp only [List.mem_cons, List.not_mem_nil, or_false] at hi
  rcases hi with rfl | rfl | rfl | rfl | rfl | rfl
  · exact write_fault data hl
  · exact performUnit_error (txKick_fault hl)
  · exact txStop_fault hl
  · exact setBreak_fault on hl
  · exact rbTryEnqueue_fault b hl
  · exact performUnit_error (shutdown_fault hl)

/-! ### SET_BREAK (45_port_control R205) -/

/-- What is stored of a word with one bit replaced depends on the defined bits only. -/
theorem withBit_and_mask (w mask : Word) (k : Nat) (v : Bool) :
    withBit (w &&& mask) k v &&& mask = withBit w k v &&& mask := by
  apply BitVec.eq_of_getLsbD_eq
  intro j _
  simp only [BitVec.getLsbD_and, getLsbD_withBit]
  by_cases hj : j = k
  · simp only [if_pos hj]
  · simp only [if_neg hj, Bool.and_assoc, Bool.and_self]

theorem fen_of_view {t t0 : State} (h : viewOf t = viewOf t0) :
    t.uart.fen t.params.regMap = t0.uart.fen t0.params.regMap := by
  have hlcrh : t.uart.lcrh = t0.uart.lcrh := congrArg Regs.lcrh (viewOf_regs h)
  rw [viewOf_params h, Uart.fen, Uart.fen, hlcrh]

/-- Under any environment an `LCRH` write that does not clear `FEN` stores the defined bits and latches the
divisor, and does nothing else (20_memory R65, R66). -/
theorem regWrite_lcrh_leaves {s t t0 : State} (h : Leaves s t t0) (hq : t0.gaps = s.gaps) {v : Word}
    (hv : t0.uart.fen t0.params.regMap = false ∨ v.getLsbD t0.params.regMap.fen = true) :
    ∃ u, regWrite .lcrh v t = .ok () u
      ∧ Leaves s u (t0.setUart (Uart.withLcrh t0.params.regMap v)) := by
  obtain ⟨u, hgap, hu⟩ := h.gap hq
  have hparams := viewOf_params hu.view
  have hlatch : storeLcrh v u = .ok () (u.setUart (Uart.withLcrh t0.params.regMap v)) := by
    rw [← hparams]
    exact storeLcrh_latch (by rwa [fen_of_view hu.view, hparams])
  refine ⟨_, ?_, hu.setUart _ (regs_congr
    (fun r => { r with lcrh := _, ibrdAct := r.ibrdPend, fbrdAct := r.fbrdPend }) fun _ => rfl)⟩
  rw [regWrite_eq, hgap]
  exact hlatch

/-- A running port's break under any environment: `FEN` is written back as read, so the FIFOs stay. -/
theorem setBreak_leaves {s : State} (hl : s.port.life = .running) (hp : paramsOk s.params = true)
    (hc : channelsOk s = true) (on : Bool) :
    ∃ t, setBreak on s = .ok () t ∧ Leaves s t (s.setUart (Uart.withLcrh s.params.regMap
      (withBit s.uart.lcrh s.params.regMap.brk on))) := by
  have hfen : (withBit (s.uart.lcrh &&& definedMask s.params.regMap .lcrh) s.params.regMap.brk on).getLsbD
      s.params.regMap.fen = s.uart.fen s.params.regMap := fen_withBrk (regMapOk_of_paramsOk hp) _ on
  obtain ⟨t, hread, ht⟩ := (Leaves.start hc).rdControl rfl (r := .lcrh) (by decide)
  obtain ⟨u, hwrite, hu⟩ := regWrite_lcrh_leaves ht rfl
    (v := withBit (s.uart.lcrh &&& definedMask s.params.regMap .lcrh) s.params.regMap.brk on)
    (by rw [hfen]; exact (Bool.eq_false_or_eq_true _).symm)
  refine ⟨u, ?_, ?_⟩
  · rw [setBreak, op_bind_ok (requireRunning_of_running hl), theState_bind, op_bind_ok hread]
    exact hwrite
  · unfold Uart.withLcrh at hu ⊢
    rwa [withBit_and_mask] at hu

/-- Settles O51: outside RUNNING the check faults; in RUNNING the break is a read of `LCRH` and a write that
keeps `FEN`. -/
theorem setBreakResult : Obligations.SetBreakResult := by
  refine fun s on => ⟨setBreak_fault on, fun hl hp hc => ?_⟩
  obtain ⟨t, hrun, ht⟩ := setBreak_leaves hl hp hc on
  exact ⟨_, performUnit_ok hrun, ht.reply _⟩

/-! ### QUERY_TX_EMPTY and SET_TTY_STOPPED (45_port_control R206, R207) -/

/-- `FR.TXFE` as read: the TX FIFO is empty (10_state R35). -/
theorem txfe_read {s : State} (h : regMapOk s.params.regMap = true) :
    (s.regValue .fr &&& definedMask s.params.regMap .fr).getLsbD s.params.regMap.txfe
      = decide (s.uart.txf = []) := by
  obtain ⟨-, -, htxfe⟩ := flagsValue_bits h
  rw [getLsbD_and_definedMask (by simp [fieldsOf])]
  refine htxfe.trans ?_
  cases s.uart.txf with
  | nil => rfl
  | cons x rest => rfl

/-- Settles O52: the state answered is the one the environment steps before the read leave. -/
theorem queryTxEmptyResult : Obligations.QueryTxEmptyResult := by
  intro s hp hc
  obtain ⟨u, hread, hu⟩ := (Leaves.start hc).rd rfl .fr
  refine ⟨u, hu, ?_⟩
  have hparams : u.params = s.params := viewOf_params hu.view
  have hflag := txfe_read (s := u) (by rw [hparams]; exact regMapOk_of_paramsOk hp)
  have hword : boolWord ((u.regValue .fr &&& definedMask u.params.regMap .fr).getLsbD s.params.regMap.txfe)
      = if u.uart.txf = [] then 1 else 0 := by
    rw [← hparams, hflag]
    simp only [boolWord, decide_eq_true_eq]
  rw [← hword]
  exact perform_ok ((theState_bind _ s).trans (op_bind_ok hread))

/-- Settles O53: the body is one update of the block. -/
theorem setTtyStoppedResult : Obligations.SetTtyStoppedResult :=
  fun _ _ => performUnit_ok (modifyPort_run _ _)

end Sys2Proof.Machine

/-! PROOFS of the family 60_exceptions: the order of the decoder's checks, what a refusal leaves, and the
faults that no step of a run raises (60_exceptions R210, R211, R218). -/

namespace Sys2Proof

/-! ### The decoder's checks, first to last (60_exceptions R218) -/

/-- The bytes outside the map of 30_encoding R94. -/
theorem opcodeOf_eq_none_iff : ∀ b : Byte, opcodeOf b = none ↔
    b.toNat = 0 ∨ (0x0C ≤ b.toNat ∧ b.toNat ≤ 0x0F) ∨ (0x14 ≤ b.toNat ∧ b.toNat ≤ 0x1F)
      ∨ 0x28 ≤ b.toNat := by decide

section checks

variable {who : Issuer} {m : Mode} {w0 : Word} {rest : List Word} {o : Opcode}

theorem decodeFor_illegalOp (h : opcodeOf (fieldOp w0) = none) :
    decodeFor who m (w0 :: rest) = .refuse .illegalOp := by
  simp only [decodeFor, h]

theorem decodeFor_wrongIssuer (h : opcodeOf (fieldOp w0) = some o) (hi : mayIssue who o = false) :
    decodeFor who m (w0 :: rest) = .refuse .wrongIssuer := by
  simp only [decodeFor, h, hi, if_true]

theorem decodeFor_wrongMode (h : opcodeOf (fieldOp w0) = some o) (hi : mayIssue who o = true)
    (hm : definedIn m o = false) : decodeFor who m (w0 :: rest) = .refuse .wrongMode := by
  simp [decodeFor, h, hi, hm]

/-- The word's own checks come after issuer and mode. -/
theorem decodeFor_eq_decodeBody (h : opcodeOf (fieldOp w0) = some o) (hi : mayIssue who o = true)
    (hm : definedIn m o = true) : decodeFor who m (w0 :: rest) = decodeBody o w0 rest := by
  simp [decodeFor, h, hi, hm]

theorem decodeBody_reservedField (h : w0 &&& reservedBits o ≠ 0) :
    decodeBody o w0 rest = .refuse .reservedField := if_pos h

theorem decodeBody_eq_decodeOperands (h : w0 &&& reservedBits o = 0) :
    decodeBody o w0 rest = decodeOperands o w0 rest := if_neg (not_not_intro h)

theorem decode_eq_decodeBody (h : opcodeOf (fieldOp w0) = some o) :
    decode (w0 :: rest) = decodeBody o w0 rest := by
  simp only [decode, h]

/-- A command that is answered to an agent is what the plain decoder reads (30_encoding R92). -/
theorem decode_of_decodeFor {i : Instr} {more : List Word}
    (h : decodeFor who m (w0 :: rest) = .command i more) : decode (w0 :: rest) = .command i more := by
  cases ho : opcodeOf (fieldOp w0) with
  | none => rw [decodeFor_illegalOp ho] at h; cases h
  | some o =>
    cases hi : mayIssue who o with
    | false => rw [decodeFor_wrongIssuer ho hi] at h; cases h
    | true =>
      cases hm : definedIn m o with
      | false => rw [decodeFor_wrongMode ho hi hm] at h; cases h
      | true => rwa [decodeFor_eq_decodeBody ho hi hm, ← decode_eq_decodeBody ho] at h

end checks

/-! ### The operands' own refusals (30_encoding R86, R89) -/

/-- The parity codes with a meaning are 0 to 4 (R89). -/
theorem parityOfCode_eq_none_iff : ∀ c : BitVec 3, parityOfCode c = none ↔ 5 ≤ c.toNat := by decide

/-- The parity code of a `LINE_APPLY` stands in bits 12 to 10 of its word (R85, R89). -/
theorem lineOfByte_fieldA_eq_none_iff (w0 : Word) :
    lineOfByte (fieldA w0) = none ↔ 5 ≤ (w0.extractLsb' 10 3).toNat := by
  have hcode : (fieldA w0).extractLsb' 2 3 = w0.extractLsb' 10 3 := by
    apply BitVec.eq_of_getLsbD_eq
    intro k hk
    simp only [fieldA, BitVec.getLsbD_extractLsb', hk, show 2 + k < 8 by omega, decide_true,
      Bool.true_and, ← Nat.add_assoc, Nat.reduceAdd]
  rw [← parityOfCode_eq_none_iff, ← hcode, lineOfByte]
  cases parityOfCode ((fieldA w0).extractLsb' 2 3) <;> simp

/-- Byte `j` of packed words is byte `j % 4` of word `j / 4` (R86). -/
theorem getElem?_flatMap_wordBytes (ws : List Word) {j : Nat} (hj : j / 4 < ws.length) :
    (ws.flatMap wordBytes)[j]? = some ((ws.getD (j / 4) 0).extractLsb' (8 * (j % 4)) 8) := by
  induction ws generalizing j with
  | nil => exact absurd hj (Nat.not_lt_zero _)
  | cons w ws ih =>
    rw [List.flatMap_cons]
    by_cases hfirst : j < 4
    · rw [List.getElem?_append_left hfirst]
      match j with
      | 0 | 1 | 2 | 3 => rfl
    · obtain ⟨k, rfl⟩ := Nat.exists_eq_add_of_le' (Nat.le_of_not_lt hfirst)
      have hword : (k + 4) / 4 = k / 4 + 1 := by omega
      rw [hword, List.length_cons] at hj
      rw [List.getElem?_append_right (by simp [wordBytes]), hword, Nat.add_mod_right, List.getD_cons_succ]
      exact ih (Nat.lt_of_succ_lt_succ hj)

/-- A nonzero padding byte of a complete WRITE is refused (R86). -/
theorem decodeOperands_write_padding (w0 : Word) {n : Word} {more : List Word}
    (hlen : dataWords n.toNat ≤ more.length) {j : Nat} (hj : n.toNat ≤ j)
    (hword : j / 4 < dataWords n.toNat)
    (hbyte : (more.getD (j / 4) 0).extractLsb' (8 * (j % 4)) 8 ≠ 0) :
    decodeOperands .write w0 (n :: more) = .refuse .reservedField := by
  have hfound : ((more.take (dataWords n.toNat)).flatMap wordBytes)[j]?
      = some ((more.getD (j / 4) 0).extractLsb' (8 * (j % 4)) 8) := by
    rw [getElem?_flatMap_wordBytes _ (by rw [List.length_take]; omega)]
    simp only [List.getD_eq_getElem?_getD, List.getElem?_take, if_pos hword]
  have hpadding : (((more.take (dataWords n.toNat)).flatMap wordBytes).drop n.toNat).all (· == 0)
      = false := by
    rw [List.all_eq_false]
    refine ⟨_, List.mem_iff_getElem?.mpr ⟨j - n.toNat, ?_⟩, fun h => hbyte (beq_iff_eq.mp h)⟩
    rw [List.getElem?_drop, Nat.add_sub_cancel' hj, hfound]
  simp only [decodeOperands, if_neg (Nat.not_lt.mpr hlen), hpadding]
  rfl

section operands

variable {w0 : Word} {rest : List Word}

theorem decodeOperands_lineApply_reserved (h : 5 ≤ (w0.extractLsb' 10 3).toNat) :
    decodeOperands .lineApply w0 rest = .refuse .reservedField := by
  simp only [decodeOperands, (lineOfByte_fieldA_eq_none_iff w0).mpr h]

theorem decodeOperands_lineApply_truncated (h : (w0.extractLsb' 10 3).toNat < 5) :
    decodeOperands .lineApply w0 [] = .refuse .truncated := by
  cases hline : lineOfByte (fieldA w0) with
  | none => exact absurd ((lineOfByte_fieldA_eq_none_iff w0).mp hline) (Nat.not_le.mpr h)
  | some line => simp only [decodeOperands, hline]

theorem decodeOperands_baudCalc_truncated (h : rest.length < 2) :
    decodeOperands .baudCalc w0 rest = .refuse .truncated := by
  match rest with
  | [] | [_] => rfl
  | _ :: _ :: _ => simp at h

theorem decodeOperands_write_truncated {n : Word} {more : List Word}
    (h : more.length < dataWords n.toNat) :
    decodeOperands .write w0 (n :: more) = .refuse .truncated := if_pos h

end operands

/-- Settles O12: each refusal by the equation of its own check, once the checks before it are passed. -/
theorem decoderChecksInOrder : Obligations.DecoderChecksInOrder := by
  refine ⟨opcodeOf_eq_none_iff, fun _ _ => rfl, fun who m w0 rest => ⟨decodeFor_illegalOp, ?checks,
    fun i more h => ?command⟩⟩
  case command =>
    obtain ⟨hissue, hmode, -⟩ := Machine.decodeFor_command h
    exact ⟨hissue, hmode, decode_of_decodeFor h⟩
  case checks =>
    intro o ho
    refine ⟨decodeFor_wrongIssuer ho, decodeFor_wrongMode ho, fun hi hm hrsv => ?_, fun hi hm hrsv => ?_⟩
    · exact (decodeFor_eq_decodeBody ho hi hm).trans (decodeBody_reservedField hrsv)
    · have hoperands : decodeFor who m (w0 :: rest) = decodeOperands o w0 rest :=
        (decodeFor_eq_decodeBody ho hi hm).trans (decodeBody_eq_decodeOperands hrsv)
      rw [hoperands]
      refine ⟨?parity, ?baud, ?two, ?empty, ?write⟩
      case parity => rintro rfl h; exact decodeOperands_lineApply_reserved h
      case baud => rintro rfl h rfl; exact decodeOperands_lineApply_truncated h
      case two => rintro rfl h; exact decodeOperands_baudCalc_truncated h
      case empty => rintro (rfl | rfl) rfl <;> rfl
      case write =>
        rintro n more rfl rfl
        exact ⟨decodeOperands_write_truncated, fun hlen ⟨j, hj, hword, hbyte⟩ =>
          decodeOperands_write_padding w0 hlen hj hword hbyte⟩

end Sys2Proof

namespace Sys2Proof.Machine

open Sys2Proof.Safety

/-! ### A refused command (60_exceptions R211) -/

/-- Settles O5: the turn of each agent, where its decoder refuses. -/
theorem refusedCommandChangesNothingElse : Obligations.RefusedCommandChangesNothingElse := by
  refine fun s why hp hf => ⟨fun ht ho hs hd => ?host, fun ws ht hd => ?irq, fun ws ht hd => ?task⟩
  case host => exact (step_of_host hp hf ht).trans (hostTurn_refuse ho hs hd)
  case irq =>
    exact (step_of_words (who := .irq) (by decide) hp hf ht).trans (issueWords_refuse hd)
  case task =>
    exact (step_of_words (who := .task) (by decide) hp hf ht).trans (issueWords_refuse hd)

/-! ### STARTUP and SHUTDOWN reach their end (45_port_control R203, R204)

In a sound state no environment step faults, so nothing after the life check can fail; what is left of the
block's record is what the operation itself writes. -/

section lifecycle

variable {w : Prop} {m : Midway} {s : State}

/-- A write of a control register leaves the block's record (20_memory R65). -/
theorem Sound.regWrite_port (h : Sound w m s) {r : Reg} (hr : r ∉ [.dr, .fr, .ris, .mis]) (v : Word) :
    (Machine.regWrite r v).Runs s fun _ t => t.port = s.port := by
  obtain ⟨_, t, hgap, -, hpassed⟩ := h.gap
  obtain ⟨u, n, hstore⟩ := storeReg_control hr v t
  exact ⟨(), _, (op_bind_ok hgap).trans hstore, hpassed.held.port⟩

/-- What STARTUP leaves of the block's record (R203). -/
theorem Sound.startup_port (h : Sound w {} s) (hl : s.port.life ≠ .running) :
    Machine.startup.Runs s fun _ t => t.port = { s.port.cleared with life := .running } := by
  rw [startup_eq]
  refine runs_bind_ok (theState_run s) ?_
  rw [if_neg hl]
  refine runs_bind_ok (modifyPort_run _ s) ?_
  refine runs_bind ((h.cleared hl).regWrite (r := .im) (by simp) 0) fun _ t₁ ⟨h₁, k₁⟩ => ?_
  refine runs_bind (h₁.regWrite (r := .icr) (by simp) _) fun _ t₂ ⟨h₂, k₂⟩ => ?_
  have hparams₂ : t₂.params = s.params := (k₁.trans k₂).params
  rw [← hparams₂]
  refine runs_bind h₂.writeIfls fun _ t₃ ⟨h₃, k₃⟩ => ?_
  have hport₃ : t₃.port = s.port.cleared := ((k₁.trans k₂).trans k₃).port
  rw [show s.port.committed = t₃.port.committed by rw [hport₃]; rfl]
  refine runs_bind h₃.recommit fun _ t₄ ⟨h₄, hparams₄, hport₄, _⟩ => ?_
  refine runs_bind (h₄.regWrite (r := .ctl) (by simp) _) fun _ t₅ ⟨h₅, k₅⟩ => ?_
  have hport₅ : t₅.port = s.port.cleared := (k₅.port.trans hport₄).trans hport₃
  rw [← (k₅.params.trans hparams₄).trans k₃.params]
  refine runs_bind (h₅.openMode (by rw [hport₅]; exact hl) (by rw [hport₅]; rfl))
    fun _ t₆ ⟨_, _, hport₆, _⟩ => ?_
  exact ⟨(), _, modifyPort_run _ t₆,
    congrArg (fun q : Port => { q with life := .running }) (hport₆.trans hport₅)⟩

/-- What SHUTDOWN leaves of the block's record (R204). -/
theorem Sound.shutdown_port (h : Sound w {} s) (hl : s.port.life = .running) :
    Machine.shutdown.Runs s fun _ t =>
      t.port = { s.port.idled with head := 0, tail := 0, life := .stopped } := by
  rw [shutdown_eq]
  refine runs_bind_ok (requireRunning_of_running hl) (runs_bind_ok (theState_run s) ?_)
  refine runs_bind (h.regWrite (r := .im) (by simp) 0) fun _ t₁ ⟨h₁, k₁⟩ => ?_
  refine runs_bind (h₁.regWrite (r := .icr) (by simp) _) fun _ t₂ ⟨h₂, k₂⟩ => ?_
  rw [← (k₁.trans k₂).params]
  refine runs_bind h₂.closeMode fun _ t₃ ⟨h₃, hidle, _, hport₃, _⟩ => ?_
  refine runs_bind_ok (modifyPort_run _ t₃) ?_
  refine runs_bind ((h₃.idled hidle).regWrite (r := .ctl) (by simp) _) fun _ t₄ ⟨h₄, k₄⟩ => ?_
  refine runs_bind (h₄.rd .lcrh) fun _ t₅ ⟨_, h₅, k₅⟩ => ?_
  refine runs_bind (h₅.regWrite_port (r := .lcrh) (by decide) _) fun _ t₆ hport₆ => ?_
  have hport : t₆.port = s.port.idled := by
    rw [hport₆, (k₄.trans k₅).port, State.setPort_port, hport₃, (k₁.trans k₂).port]
  exact ⟨(), _, modifyPort_run _ t₆,
    congrArg (fun q : Port => { q with head := 0, tail := 0, life := .stopped }) hport⟩

end lifecycle

/-! ### The faults a block turn can raise (60_exceptions R210) -/

/-- The outcome goes on with no fault, or with one of those that the host's misuse raises (R210). -/
def MisuseAtMost (o : Host.Outcome State Fault Refusal) : Prop :=
  ∃ t, o = .next t ∧ (t.port.fault = none ∨ t.port.fault = some .notRunning
    ∨ t.port.fault = some .alreadyRunning ∨ t.port.fault = some .baudZero)

section misuse

variable {o : Host.Outcome State Fault Refusal} {s t t₀ : State}

theorem MisuseAtMost.of_unfaulted (ho : o = .next t) (hf : t.port.fault = none) : MisuseAtMost o :=
  ⟨t, ho, .inl hf⟩

theorem MisuseAtMost.of_not_running
    (ho : o = .next (s.setPort fun q => { q with fault := some .notRunning })) : MisuseAtMost o :=
  ⟨_, ho, .inr (.inl rfl)⟩

/-- The environment sets no fault, so what an undisturbed operation leaves decides. -/
theorem MisuseAtMost.of_leaves (ho : o = .next t) (ht : Leaves s t t₀) (hf : t₀.port.fault = none) :
    MisuseAtMost o := .of_unfaulted ho (by rw [viewOf_port ht.view]; exact hf)

/-- A body that ends normally without a fault is answered. -/
theorem misuseAtMost_performUnit {body : Op Unit} (h : body.Runs s fun _ t => t.port.fault = none) :
    MisuseAtMost (performUnit body s) := by
  obtain ⟨_, t, hrun, hf⟩ := h
  exact .of_unfaulted (performUnit_ok hrun) hf

theorem Sound.serving (h : Sound False {} s) (hl : s.port.life = .running) : Serving s s :=
  ⟨h, hl, rfl, rfl, rfl, rfl, rfl⟩

theorem Serving.unfaulted (h : Serving s t) (hf : s.port.fault = none) : t.port.fault = none :=
  h.untroubled.fault.trans hf

/-! Each command that can fault, by its own rule. -/

theorem baudCalc_misuse (c b : Word) (hf : s.port.fault = none) :
    MisuseAtMost (exec (.baudCalc c b) s) := by
  by_cases hb : b = 0
  · subst hb
    exact ⟨_, baudCalc_fault c s, .inr (.inr (.inr rfl))⟩
  · exact .of_unfaulted (baudCalc_answer c s hb) hf

theorem lineApply_misuse (h : Sound False {} s) (hf : s.port.fault = none) (line : LineFormat)
    (policy : Policy) (baud : Word) : MisuseAtMost (exec (.lineApply line policy baud) s) := by
  obtain ⟨hzero, hother⟩ := lineApplyCommits s line policy baud
  by_cases hb : baud = 0
  · exact ⟨_, hzero hb, .inr (.inr (.inr rfl))⟩
  · obtain ⟨t, hrun, ht⟩ := hother hb h.params h.channelsOk
    exact .of_leaves hrun ht hf

/-- The loop of WRITE stores bytes and moves `head` (40_ringbuffer R116). -/
theorem write_misuse (h : Sound False {} s) (hf : s.port.fault = none) (data : List Byte) :
    MisuseAtMost (exec (.write data) s) := by
  by_cases hl : s.port.life = .running
  · obtain ⟨t, hloop, hframe, -, -, -⟩ := writeLoop_accepts data h.ringInv hl
    refine .of_unfaulted (write_run hl hloop) ?_
    rw [hframe]
    exact hf
  · exact .of_not_running (write_fault data hl)

theorem setBreak_misuse (h : Sound False {} s) (hf : s.port.fault = none) (on : Bool) :
    MisuseAtMost (exec (.setBreak on) s) := by
  obtain ⟨hfault, hruns⟩ := setBreakResult s on
  by_cases hl : s.port.life = .running
  · obtain ⟨t, hrun, ht⟩ := hruns hl h.params h.channelsOk
    exact .of_leaves hrun ht hf
  · exact .of_not_running (hfault hl)

theorem startup_misuse (h : Sound False {} s) (hf : s.port.fault = none) :
    MisuseAtMost (exec .startup s) := by
  by_cases hl : s.port.life = .running
  · exact ⟨_, performUnit_error (startup_fault hl), .inr (.inr (.inl rfl))⟩
  · refine misuseAtMost_performUnit (runs_mono (h.startup_port hl) fun _ t ht => ?_)
    rw [ht]
    exact hf

theorem shutdown_misuse (h : Sound False {} s) (hf : s.port.fault = none) :
    MisuseAtMost (exec .shutdown s) := by
  by_cases hl : s.port.life = .running
  · refine misuseAtMost_performUnit (runs_mono (h.shutdown_port hl) fun _ t ht => ?_)
    rw [ht]
    exact hf
  · exact .of_not_running (performUnit_error (shutdown_fault hl))

theorem txKick_misuse (h : Sound False {} s) (hf : s.port.fault = none) :
    MisuseAtMost (exec .txKick s) := by
  by_cases hl : s.port.life = .running
  · exact misuseAtMost_performUnit (runs_mono (h.serving hl).txKick fun _ _ ht => ht.unfaulted hf)
  · exact .of_not_running (performUnit_error (txKick_fault hl))

theorem txStop_misuse (h : Sound False {} s) (hf : s.port.fault = none) :
    MisuseAtMost (exec .txStop s) := by
  obtain ⟨hfault, hruns⟩ := stopResult s
  by_cases hl : s.port.life = .running
  · obtain ⟨hdma, hpoll⟩ := hruns hl h.channelsOk
    cases hm : s.params.mode with
    | poll =>
      obtain ⟨t, hrun, ht⟩ := hpoll hm
      exact .of_leaves hrun ht hf
    | dma =>
      obtain ⟨t, hrun, ht, -, -⟩ := hdma hm
      exact .of_leaves hrun ht hf
  · exact .of_not_running (hfault hl)

theorem rbTryEnqueue_misuse (hf : s.port.fault = none) (b : Byte) :
    MisuseAtMost (exec (.rbTryEnqueue b) s) := by
  by_cases hl : s.port.life = .running
  · cases hfull : s.ringFull with
    | true => exact .of_unfaulted (rbTryEnqueue_full b hl hfull) hf
    | false => exact .of_unfaulted (rbTryEnqueue_room b hl hfull) hf
  · exact .of_not_running (rbTryEnqueue_fault b hl)

/-! The commands of `Irq` and the Task raise nothing: none is issued outside RUNNING (R219). -/

theorem irqDispatch_misuse (h : Sound False {} s) (hf : s.port.fault = none) :
    MisuseAtMost (exec .irqDispatch s) := by
  by_cases hl : s.port.life = .running
  · rw [exec_irqDispatch hl]
    exact misuseAtMost_performUnit (runs_mono (h.serving hl).irqDispatch fun _ _ ht => ht.unfaulted hf)
  · exact .of_unfaulted (irqDispatch_not_issued hl) hf

/-- Taking the re-check off the block's record keeps a sound state sound (43_receive R181). -/
theorem Sound.recheckTaken {w : Prop} {m : Midway} (h : Sound w m s) :
    Sound w m (s.setPort fun q => { q with recheck := false }) :=
  { h with
    idle_block := fun hu => { h.idle_block hu with
      rx := (h.idle_block hu).rx.imp_right (.imp_right fun _ => rfl) } }

theorem rxDmaEvent_misuse (h : Sound False {} s) (hf : s.port.fault = none) (hm : s.params.mode = .dma)
    (hi : s.issuer = .task) : MisuseAtMost (exec .rxDmaEvent s) := by
  cases ho : s.recheckOwed with
  | false =>
    refine .of_unfaulted (t := s) ?_ hf
    rw [exec, execRxDmaEvent, if_pos hi, if_neg (by simp [ho])]
  | true =>
    obtain ⟨-, hl⟩ := (recheckOwed_iff s).mp ho
    obtain ⟨_, t, hrun, ht⟩ := (h.recheckTaken.serving hl).rxDmaEvent hm
    exact .of_unfaulted (rxDmaEvent_owed hi ho hrun) (ht.unfaulted hf)

/-- The ready slot of a sound task is not the landing slot, and its bytes lie inside it (R178). -/
theorem rxTaskCopy_misuse (h : Sound False {} s) (hf : s.port.fault = none) :
    MisuseAtMost (exec .rxTaskCopy s) := by
  cases hk : s.taskIn .copy with
  | none => exact .of_unfaulted (rxTaskCopy_not_issued hk) hf
  | some k =>
    obtain ⟨htask, -, hm⟩ := h.taskIn hk
    obtain ⟨hslot, -, hcount⟩ := (h.task hm).ready k htask
    exact .of_unfaulted
      ((execRxTaskCopy_run hk).trans (performUnit_ok (taskCopy_ready hslot hm hcount))) hf

theorem rxTaskFinish_misuse (hf : s.port.fault = none) : MisuseAtMost (exec .rxTaskFinish s) := by
  cases hk : s.taskIn .finish with
  | none => exact .of_unfaulted (rxTaskFinish_not_issued hk) hf
  | some k =>
    exact .of_unfaulted ((execRxTaskFinish_run hk).trans (performUnit_ok (taskFinish_run k s))) hf

/-- From a sound state every command that an agent of 00_scope R6 may issue ends without a fault or with
one of the host's misuse. -/
theorem exec_misuseAtMost {i : Instr} (h : Sound False {} s) (hf : s.port.fault = none)
    (hagent : s.issuer ≠ .internal) (hmay : mayIssue s.issuer (opcodeFor i) = true)
    (hmode : definedIn s.params.mode (opcodeFor i) = true) : MisuseAtMost (exec i s) := by
  cases i with
  | baudCalc c b => exact baudCalc_misuse c b hf
  | maskCalc policy => exact .of_unfaulted (maskCalc_answer policy s) hf
  | lineApply line policy baud => exact lineApply_misuse h hf line policy baud
  | write data => exact write_misuse h hf data
  | setBreak on => exact setBreak_misuse h hf on
  | queryTxEmpty =>
    obtain ⟨u, hu, hrun⟩ := queryTxEmptyResult s h.params h.channelsOk
    exact .of_leaves hrun (hu.reply _) hf
  | startup => exact startup_misuse h hf
  | shutdown => exact shutdown_misuse h hf
  | setTtyStopped on => exact .of_unfaulted (setTtyStoppedResult s on) hf
  | txKick => exact txKick_misuse h hf
  | txStop => exact txStop_misuse h hf
  | rbTryEnqueue b => exact rbTryEnqueue_misuse hf b
  | rbPendingCount => exact .of_unfaulted (rbPendingCount_run s) hf
  | rbIsEmpty => exact .of_unfaulted (rbIsEmpty_run s) hf
  | irqDispatch => exact irqDispatch_misuse h hf
  | rxDmaEvent =>
    cases hi : s.issuer with
    | task => exact rxDmaEvent_misuse h hf (by simpa [definedIn, modeOf, opcodeFor] using hmode) hi
    | internal => exact absurd hi hagent
    | host | irq => rw [hi] at hmay; cases hmay
  | rxTaskCopy => exact rxTaskCopy_misuse h hf
  | rxTaskFinish => exact rxTaskFinish_misuse hf
  | rbDequeueUpTo _ | txDmaDone | rxPollEvent | rxClassify _ | rxFlag _ =>
    cases hi : s.issuer with
    | internal => exact absurd hi hagent
    | host | irq | task => rw [hi] at hmay; cases hmay

/-- The second step of WRITE is a kick of a running port (40_ringbuffer R116). -/
theorem finishWrite_misuse {acc : Nat} (h : Sound False {} s) (hf : s.port.fault = none)
    (ho : s.writeOwed = some acc) : MisuseAtMost (finishWrite acc s) := by
  have hl : s.port.life = .running := h.owed_running (by simp [ho])
  have howed : Sound False {} { s with writeOwed := none } := { h with owed_running := absurd rfl }
  obtain ⟨_, t, hkick, ht⟩ := (howed.serving hl).txKick
  exact .of_unfaulted (finishWrite_ok hkick) (ht.unfaulted hf)

/-- An environment step raises no fault while the channels are sound (20_memory R76 to R80). -/
theorem envStep_misuse (h : Sound False {} s) (hf : s.port.fault = none) (e : EnvStep) :
    MisuseAtMost (performSilent (envStep e) s) := by
  obtain ⟨t, hrun, hunseen, -⟩ := envStep_unseen e h.channelsOk
  refine .of_unfaulted (performSilent_ok hrun) ?_
  rw [viewOf_port hunseen.view]
  exact hf

end misuse

/-- Settles O60: the turn that moves is one of a sound state, and each kind of turn raises no fault or one
of the host's misuse. -/
theorem onlyHostMisuseFaults : Obligations.OnlyHostMisuseFaults := by
  intro s t hinv hf hstep
  have h : Sound False {} s := .of_inv hinv fun k => k.elim
  have hturn (who : Issuer) (ws : List Word) : Sound False {} (s.actedBy who ws) := h.actedBy who ws
  have taken {o : Host.Outcome State Fault Refusal} (ho : MisuseAtMost o) (run : o = .next t) :
      t.port.fault = none ∨ t.port.fault = some .notRunning
        ∨ t.port.fault = some .alreadyRunning ∨ t.port.fault = some .baudZero := by
    obtain ⟨u, hu, hmisuse⟩ := ho
    cases hu.symm.trans run
    exact hmisuse
  cases step_stepped hstep with
  | env e _ _ run =>
    have hnext : Sound False {} { s with turns := s.turns.tail } :=
      { h with agents := fun u hu => h.agents u (List.mem_of_mem_tail hu) }
    exact taken (envStep_misuse hnext hf e) run
  | command who i ws _ _ _ agent may defined _ run =>
    refine taken (exec_misuseAtMost (hturn who ws) hf (fun hint => ?_) may defined) run
    obtain ⟨u, hu, hno⟩ := agent hint
    exact absurd (h.agents u hu) (by simp [hno])
  | owed acc _ _ count run => exact taken (finishWrite_misuse (hturn _ _) hf count) run
  | refused who why ws _ _ => exact .inl hf
  | nothing _ => exact .inl hf

end Sys2Proof.Machine

/-! PROOFS of the family 70_reset_and_hazards: what may change between two primitives of an operation, and
the states STARTUP and SHUTDOWN leave (70_reset_and_hazards R233 to R248). -/

namespace Sys2Proof.Machine

open Sys2Proof.Safety

/-! ### Status reads grow stale safely (70_reset_and_hazards R248) -/

/-- Settles O19: in poll mode the TX FIFO only loses bytes and the RX FIFO only gains them, under a depth
that stays. -/
theorem staleStatusReadsAreSafe : Obligations.StaleStatusReadsAreSafe := by
  intro s t hp hm hfit hgap m
  obtain ⟨u, hu, hunseen, -⟩ := gap_poll hm
  obtain rfl : u = t := by
    rw [hu] at hgap
    cases hgap
    rfl
  have hparams : u.params = s.params := viewOf_params hunseen.view
  have hlayout := regMapOk_of_paramsOk hp
  obtain ⟨hrxfe, htxff, htxfe⟩ := flagsValue_bits hlayout
  obtain ⟨hrxfe', htxff', htxfe'⟩ := flagsValue_bits (s := u) (by rw [hparams]; exact hlayout)
  rw [hparams] at hrxfe' htxff' htxfe'
  have htxf := hunseen.txf_le
  have hrxf := hunseen.received.length_le
  simp only [m, hrxfe, htxff, htxfe, hrxfe', htxff', htxfe', depth_of_view hunseen.view, beq_eq_false_iff_ne,
    beq_iff_eq]
  omega

/-! ### A TX interrupt lost between two primitives (70_reset_and_hazards R243) -/

/-- A word without a defined bit of `MIS` routes nothing in poll mode (44_dispatch R197). -/
theorem routePoll_zero (s : State) : routePoll 0 s = .ok () s := by
  rw [routePoll_unreceived (by simp [receiveBits]), if_neg (by simp)]

/-- Clearing every source clears the TX bit (10_state R43). -/
theorem sourcesCleared_txInt (s : State) :
    s.sourcesCleared.uart.ris.getLsbD s.params.regMap.txInt = false := by
  have hmask : (s.uart.ris &&& icrAll s.params.regMap).getLsbD s.params.regMap.txInt
      = s.uart.ris.getLsbD s.params.regMap.txInt := getLsbD_and_definedMask (by simp [fieldsOf]) _
  rw [BitVec.getLsbD_and] at hmask
  rw [State.sourcesCleared, State.setUart_uart, BitVec.getLsbD_and, ← hmask, BitVec.getLsbD_not]
  cases (icrAll s.params.regMap).getLsbD s.params.regMap.txInt <;> simp

/-- An empty entry of the schedule is used up, and nothing else happens. -/
theorem gap_nothing {s : State} {more : List (List EnvStep)} (h : s.gaps = [] :: more) :
    gap s = .ok () { s with gaps := more } := by
  simp only [gap, h]
  rfl

/-- A TX bit raised before the next primitive (20_memory R80). -/
theorem gap_raiseTx {s : State} {more : List (List EnvStep)} (h : s.gaps = [.raiseTx] :: more)
    (hlevel : s.uart.txf.length ≤ s.txLevel) :
    gap s = .ok () (State.raised { s with gaps := more } s.params.regMap.txInt) := by
  simp only [gap, h, envSteps]
  rw [op_bind_ok (envStep_raiseTx _)]
  exact congrArg _ (if_pos hlevel)

/-- Settles O47: the word routed was read before the bit was raised, and the clearing write comes after. -/
theorem transmitInterruptCanBeLost : Obligations.TransmitInterruptCanBeLost := by
  intro s hm hl hnone hlevel hgaps
  have hroute := irqDispatch_run (gap_nothing hgaps) (gap_raiseTx rfl hlevel) rfl
  have hmis : State.misRead { s with gaps := [[.raiseTx]] } = 0 := hnone
  rw [hm, hmis] at hroute
  exact ⟨_, (exec_irqDispatch hl).trans (performUnit_ok (hroute.trans (routePoll_zero _))),
    sourcesCleared_txInt _, rfl, rfl, rfl⟩

/-! ### The commit window is silent (70_reset_and_hazards R240) -/

/-- From `s` to `t` no byte was sent or received, and no queued byte was lost. -/
structure Hushed (s t : State) : Prop where
  wire : t.uart.wire = s.uart.wire
  received : ∃ k, t.uart.rxf = s.uart.rxf.drop k
  queued : s.uart.txf <+: t.uart.txf

theorem Hushed.refl (s : State) : Hushed s s := ⟨rfl, ⟨0, rfl⟩, List.prefix_rfl⟩

theorem Hushed.trans {s t u : State} (h : Hushed s t) (k : Hushed t u) : Hushed s u where
  wire := k.wire.trans h.wire
  received := by
    obtain ⟨i, hi⟩ := h.received
    obtain ⟨j, hj⟩ := k.received
    exact ⟨i + j, by rw [hj, hi, List.drop_drop]⟩
  queued := h.queued.trans k.queued

/-- `t` stands in the window that the first `CTL` write opened at `s`: the UART is disabled. -/
structure Muted (s t : State) : Prop extends Hushed s t where
  params : t.params = s.params
  channels : channelsOk t = true
  off : t.uart.ctl.getLsbD s.params.regMap.uarten = false

section muted

variable {s t u : State}

/-- While the UART is disabled only the channels move bytes: `DmaTx` into the TX FIFO, `DmaRx` out of the
RX FIFO (20_memory R76 to R80). -/
theorem envStep_disabled {e : EnvStep} (hc : channelsOk t = true)
    (hoff : t.uart.ctl.getLsbD t.params.regMap.uarten = false) (he : envStep e t = .ok () u) :
    Hushed t u := by
  cases e with
  | uartTx told =>
    rw [envStep, uartTransmit_idle told (.inr (.inl hoff))] at he
    cases he
    exact .refl t
  | uartRx b st =>
    rcases uartReceive_run b st t with hrun | ⟨hon, -⟩
    · rw [envStep, hrun] at he
      cases he
      exact .refl t
    · simp [hoff] at hon
  | dmaTx =>
    rcases dmaTxStep_run hc with hrun | ⟨-, -, -, -, -, hrun⟩ <;> rw [envStep, hrun] at he <;> cases he
    · exact .refl t
    · exact { Hushed.refl t with queued := List.prefix_append _ _ }
  | dmaRx =>
    rcases dmaRxStep_run hc with hrun | ⟨b, st, rest, hrxf, -, -, -, hrun⟩ <;> rw [envStep, hrun] at he <;>
      cases he
    · exact .refl t
    · exact { Hushed.refl t with received := ⟨1, by rw [hrxf]; rfl⟩ }
  | raiseRx | raiseRt | raiseTx =>
    rw [envStep, theState_bind] at he
    split at he <;> cases he
    · exact { Hushed.refl t with }
    · exact .refl t
  | raiseErr k =>
    cases he
    exact { Hushed.refl t with }

theorem Muted.envStep (h : Muted s t) (e : EnvStep) : (envStep e).Runs t fun _ u => Muted s u := by
  obtain ⟨u, he, hu, hc⟩ := envStep_unseen e h.channels
  have hhushed := envStep_disabled h.channels (by rw [h.params]; exact h.off) he
  have hctl : u.uart.ctl = t.uart.ctl := congrArg Regs.ctl (viewOf_regs hu.view)
  exact ⟨(), u, he, { h.toHushed.trans hhushed with
    params := (viewOf_params hu.view).trans h.params, channels := hc, off := by rw [hctl]; exact h.off }⟩

theorem Muted.envSteps (h : Muted s t) (es : List EnvStep) :
    (envSteps es).Runs t fun _ u => Muted s u := by
  induction es generalizing t with
  | nil => exact runs_pure h
  | cons e es ih => exact runs_bind (h.envStep e) fun _ _ hu => ih hu

theorem Muted.gap (h : Muted s t) : gap.Runs t fun _ u => Muted s u := by
  cases hg : t.gaps with
  | nil => exact ⟨(), t, gap_quiet hg, h⟩
  | cons es more =>
    obtain ⟨_, u, hrun, hu⟩ := Muted.envSteps (t := { t with gaps := more }) { h with } es
    exact ⟨(), u, by simp only [Machine.gap, hg]; exact hrun, hu⟩

/-- A register write in the window: the environment first, then the store. -/
theorem Muted.regWrite {r : Reg} {v : Word} (h : Muted s t) (Q : State → Prop)
    (hstore : ∀ x, Muted s x → (storeReg r v).Runs x fun _ u => Q u) :
    (Machine.regWrite r v).Runs t fun _ u => Q u :=
  runs_bind h.gap fun _ x hx => hstore x hx

/-- A derived line-control word never clears `FEN`, in any layout: where the bit is inside the word it is
set, elsewhere it reads 0 before and after (41_baud_line R134). -/
theorem lcrhWord_keeps_fen (m : RegMap) (l : LineFormat) (u : Uart) :
    u.fen m = false ∨ (lcrhWord m l).getLsbD m.fen = true := by
  by_cases hfen : m.fen < 32
  · refine .inr ?_
    simp only [lcrhWord, BitVec.getLsbD_or, getLsbD_putBit]
    simp [hfen]
  · exact .inl (BitVec.getLsbD_of_ge _ _ (Nat.not_lt.mp hfen))

/-- The first `CTL` write of the commit protocol disables the UART (41_baud_line R137). -/
theorem muted_disabled (hc : channelsOk s = true) (w : Word) (gs : List (List EnvStep)) :
    Muted s (State.setUart { s with gaps := gs } fun u => { u with
      ctl := withBit w s.params.regMap.uarten false &&& definedMask s.params.regMap .ctl }) where
  toHushed := { Hushed.refl s with }
  params := rfl
  channels := hc
  off := by
    rw [State.setUart_uart, getLsbD_and_definedMask (by simp [fieldsOf]), getLsbD_withBit, if_pos rfl,
      Bool.and_false]

/-- With no environment step up to the first `CTL` write the commit protocol ends in its window. -/
theorem commitLine_muted {gs : List (List EnvStep)} (hc : channelsOk s = true) (hg : s.gaps = [] :: [] :: gs)
    (brdi divfrac : Nat) (line : LineFormat) :
    (commitLine brdi divfrac (lcrhWord s.params.regMap line)).Runs s fun _ t => Muted s t := by
  have hread : rd .ctl s = .ok (s.uart.ctl &&& definedMask s.params.regMap .ctl)
      { s with gaps := [] :: gs } := by
    rw [rd_eq, gap_nothing hg]
    rfl
  have hdisable (w : Word) : regWrite .ctl w { s with gaps := [] :: gs } = .ok () (State.setUart
      { s with gaps := gs } fun u => { u with ctl := w &&& definedMask s.params.regMap .ctl }) := by
    rw [regWrite_eq, gap_nothing rfl]
    rfl
  refine runs_bind_ok (theState_run s) (runs_bind_ok hread (runs_bind_ok (hdisable _) ?_))
  refine runs_bind ((muted_disabled hc _ gs).regWrite (Muted s) fun x hx =>
    ⟨(), _, storeReg_ibrd _ x, { hx with }⟩) fun _ t₁ h₁ => ?_
  refine runs_bind (h₁.regWrite (Muted s) fun x hx => ⟨(), _, storeReg_fbrd _ x, { hx with }⟩)
    fun _ t₂ h₂ => ?_
  refine runs_bind (h₂.regWrite (Muted s) fun x hx => ⟨(), _, storeLcrh_latch ?_, { hx with }⟩)
    fun _ t₃ h₃ => runs_pure h₃
  rw [hx.params]
  exact lcrhWord_keeps_fen _ line _

end muted

/-- Settles O28: the commit protocol ends in the window it opened, and the `CTL` write that closes it comes
right after the last environment steps. -/
theorem commitWindowIsSilent : Obligations.CommitWindowIsSilent := by
  intro s line policy b gs hb hc hgaps
  have hbaud : b.toNat ≠ 0 := fun h => hb (BitVec.eq_of_toNat_eq h)
  have hrun : (lineApply line policy b.toNat).Runs s fun _ t => Hushed s t := by
    refine runs_bind_ok (theState_run s) (runs_bind_ok (baudCalc_run _ s hbaud) ?_)
    refine runs_bind (commitLine_muted hc hgaps _ _ line) fun ctl0 t ht => ?_
    refine runs_bind (ht.regWrite (Hushed s) fun x hx => ⟨(), _, storeReg_ctl ctl0 x, ?_⟩)
      fun _ u hu => ?_
    · exact { hx.toHushed with }
    · exact runs_bind_ok (modifyPort_run _ u) (runs_pure { hu with })
  obtain ⟨_, t, hlast, hwire, ⟨k, hrxf⟩, htxf⟩ := hrun
  exact ⟨_, k, perform_ok hlast, hwire, hrxf, htxf⟩

/-! ### STARTUP under any environment (45_port_control R203, 70_reset_and_hazards R233) -/

/-! No write STARTUP makes before it arms the receive channel sets that channel running. -/

theorem halted_storeReg (r : Reg) (v : Word) : (storeReg r v).Keeps Halted := by
  intro s
  cases r with
  | dr =>
    by_cases hroom : s.uart.txf.length < s.depth
    · rw [storeReg_dr_room v hroom]
      exact .of_eq rfl rfl
    · rw [storeReg_dr_full v (Nat.not_lt.mp hroom)]
      exact .of_eq rfl rfl
  | lcrh =>
    obtain ⟨xs, ys, n, e, -, -, -⟩ := storeLcrh_run v s
    rw [storeReg_lcrh, e]
    exact .of_eq rfl rfl
  | fr | ris | mis | ibrd | fbrd | ctl | ifls | im | icr | dmactl => exact .of_eq rfl rfl

theorem halted_regWrite (r : Reg) (v : Word) : (regWrite r v).Keeps Halted :=
  regWrite_keeps Halted.trans halted_gap r v (halted_storeReg r v)

theorem halted_bind {α β : Type} {x : Op α} {f : α → Op β} (hx : x.Keeps Halted)
    (hf : ∀ a, (f a).Keeps Halted) : Op.Keeps Halted (x >>= f) := keeps_bind Halted.trans hx hf

theorem halted_commitLine (brdi divfrac : Nat) (l : Word) : (commitLine brdi divfrac l).Keeps Halted :=
  halted_bind (keeps_theState Halted.refl) fun _ =>
    halted_bind (rd_keeps Halted.refl Halted.trans halted_gap _) fun _ =>
      halted_bind (halted_regWrite _ _) fun _ => halted_bind (halted_regWrite _ _) fun _ =>
        halted_bind (halted_regWrite _ _) fun _ => halted_bind (halted_regWrite _ _) fun _ =>
          keeps_pure Halted.refl _

theorem halted_recommit (c : Option Committed) : (recommit c).Keeps Halted := by
  cases c with
  | none => exact keeps_pure Halted.refl _
  | some c => exact halted_bind (halted_commitLine _ _ _) fun _ => keeps_pure Halted.refl _

/-- The update a write of `CTL`, `IFLS`, `IM`, `DMACTL` or `ICR` makes, for a word of defined bits (20_memory
R65). -/
def Uart.stored (r : Reg) (v : Word) (u : Uart) : Uart :=
  match r with
  | .ctl => { u with ctl := v }
  | .ifls => { u with ifls := v }
  | .im => { u with im := v }
  | .icr => { u with ris := u.ris &&& ~~~ v }
  | .dmactl => { u with dmactl := v }
  | _ => u

theorem storeReg_stored {r : Reg} {v : Word} {x : State} (hr : r ∈ [Reg.ctl, .ifls, .im, .icr, .dmactl])
    (hv : v &&& definedMask x.params.regMap r = v) :
    storeReg r v x = .ok () (x.setUart (Uart.stored r v)) := by
  cases r with
  | icr => rfl
  | ctl | ifls | im | dmactl =>
    simp only [storeReg_ctl, storeReg_ifls, storeReg_im, storeReg_dmactl, hv]
    rfl
  | dr | fr | ibrd | fbrd | lcrh | ris | mis => exact absurd hr (by decide)

theorem regsOf_stored (r : Reg) (v : Word) (u w : Uart) (h : regsOf u = regsOf w) :
    regsOf (u.stored r v) = regsOf (w.stored r v) := by
  simp only [regsOf, Regs.mk.injEq] at h
  cases r <;> simp [regsOf, Uart.stored, h]

/-- What STARTUP commits again of a configuration that was committed before (R203). -/
def Uart.recommitted (m : RegMap) (c : Option Committed) (u : Uart) : Uart :=
  match c with
  | none => u
  | some c => { u with
      ibrdPend := BitVec.ofNat 16 c.brdi, fbrdPend := BitVec.ofNat 6 c.divfrac
      ibrdAct := BitVec.ofNat 16 c.brdi, fbrdAct := BitVec.ofNat 6 c.divfrac
      lcrh := c.lcrh &&& definedMask m .lcrh }

/-- The receive channel armed at slot A in dma mode, and the interrupts of the mode opened (R203). -/
def State.opened (s : State) : State :=
  match s.params.mode with
  | .dma => (s.armedAt .a).setUart fun u => { u with
      dmactl := dmactlOn s.params.regMap, im := imDma s.params.regMap }
  | .poll => s.setUart fun u => { u with dmactl := 0, im := imPoll s.params.regMap }

section startup

variable {s t t0 : State}

/-- A write of one of these registers under any environment (20_memory R65). -/
theorem regWrite_stored_leaves (h : Leaves s t t0) (hq : t0.gaps = s.gaps) {r : Reg} {v : Word}
    (hr : r ∈ [Reg.ctl, .ifls, .im, .icr, .dmactl]) (hv : v &&& definedMask t0.params.regMap r = v) :
    ∃ u, regWrite r v t = .ok () u ∧ Leaves s u (t0.setUart (Uart.stored r v)) :=
  regWrite_leaves h hq _ (fun _ hx => storeReg_stored hr (by rw [hx]; exact hv)) (regsOf_stored r v)

/-- A line committed before is committed again; the UART ends enabled in both cases, so that what the
commit protocol does to `CTL` does not show. -/
theorem recommit_enable_leaves (h : Leaves s t t0) (hq : t0.gaps = s.gaps)
    (hm : regMapOk t0.params.regMap = true) {c : Option Committed}
    (hfen : ∀ d, c = some d → d.lcrh.getLsbD t0.params.regMap.fen = true) :
    ∃ u v, recommit c t = .ok () u ∧ regWrite .ctl (ctlOn t0.params.regMap) u = .ok () v
      ∧ Leaves s v (t0.setUart fun w =>
        { w.recommitted t0.params.regMap c with ctl := ctlOn t0.params.regMap }) := by
  cases c with
  | none =>
    obtain ⟨v, hrun, hv⟩ := regWrite_stored_leaves h hq (r := .ctl) (by decide) (ctlOn_defined _)
    exact ⟨t, v, rfl, hrun, hv⟩
  | some d =>
    obtain ⟨u, hcommit, hu⟩ := commitLine_leaves h hq hm d.brdi d.divfrac (hfen d rfl)
    obtain ⟨v, hrun, hv⟩ := regWrite_stored_leaves hu hq (r := .ctl) (by decide) (ctlOn_defined _)
    exact ⟨u, v, op_bind_ok hcommit, hrun, hv⟩

/-- With an idle receive channel the mode's last writes go through (R203). -/
theorem openMode_leaves (h : Leaves s t t0) (hq : t0.gaps = s.gaps) (hp : paramsOk t0.params = true)
    (hrun : t.drx.run = false) (hland : t0.port.landing = .a) :
    ∃ u, openMode t0.params t = .ok () u ∧ Leaves s u t0.opened := by
  unfold openMode State.opened
  cases hm : t0.params.mode with
  | poll =>
    obtain ⟨u, hdma, hu⟩ := regWrite_stored_leaves h hq (r := .dmactl) (v := 0) (by decide) BitVec.zero_and
    obtain ⟨v, him, hv⟩ := regWrite_stored_leaves hu hq (r := .im) (by decide) (imPoll_defined _)
    exact ⟨v, (op_bind_ok hdma).trans him, hv⟩
  | dma =>
    obtain ⟨-, hcap, -⟩ := dmaParams_regions hp hm
    obtain ⟨t₁, hgap, h₁⟩ := h.gap hq
    have hparams : t₁.params = t0.params := viewOf_params h₁.view
    have hchannels : channelsOk (t₁.armedAt .a) = true :=
      channelsOk_armedAt h₁.channels (by rw [viewOf_port h₁.view]; exact hland) (by rw [hparams]; omega)
    have harm : dmaArmRx .a t = .ok () (t₁.armedAt .a) :=
      dmaArmRx_run hgap ((halted_gap.ok hgap).stays hrun)
    have harmed : Leaves s (t₁.armedAt .a) (t0.armedAt .a) := by
      rw [State.armedAt, hparams] at hchannels ⊢
      exact h₁.setDrx _ (fun _ _ _ => rfl) hchannels
    obtain ⟨u, hdma, hu⟩ := regWrite_stored_leaves harmed hq (r := .dmactl) (by decide) (dmactlOn_defined _)
    obtain ⟨v, him, hv⟩ := regWrite_stored_leaves hu hq (r := .im) (by decide) (imDma_defined _)
    exact ⟨v, (op_bind_ok harm).trans ((op_bind_ok hdma).trans him), hv⟩

/-- The state STARTUP leaves undisturbed (R203). -/
def State.startedUp (s : State) : State :=
  (((s.setPort Port.cleared).setUart fun u =>
    { Uart.recommitted s.params.regMap s.port.committed { u with
        im := 0, ris := u.ris &&& ~~~ icrAll s.params.regMap, ifls := iflsValue s.params } with
      ctl := ctlOn s.params.regMap }).opened).setPort fun q => { q with life := .running }

theorem startup_leaves (hl : s.port.life ≠ .running) (hp : paramsOk s.params = true) (hi : IdleInv s)
    (hfen : ∀ c, s.port.committed = some c → c.lcrh.getLsbD s.params.regMap.fen = true) :
    ∃ t, startup s = .ok () t ∧ Leaves s t s.startedUp := by
  have hc : channelsOk s = true := (channelsOk_iff s).mpr
    ⟨fun hrun => by simp [hi.dtx.1] at hrun, fun hrun => by simp [hi.drx.1] at hrun⟩
  have hc' : channelsOk (s.setPort Port.cleared) = true := (channelsOk_iff _).mpr
    ⟨((channelsOk_iff s).mp hc).1, fun hrun => absurd hi.drx.1 (by simpa using hrun)⟩
  obtain ⟨t₁, e₁, k₁⟩ := regWrite_stored_leaves ((Leaves.start hc).setPort Port.cleared hc') rfl (r := .im)
    (v := 0) (by decide) BitVec.zero_and
  obtain ⟨t₂, e₂, k₂⟩ := regWrite_stored_leaves k₁ rfl (r := .icr) (by decide)
    (BitVec.and_self (x := icrAll s.params.regMap))
  obtain ⟨t₃, e₃, k₃⟩ := regWrite_stored_leaves k₂ rfl (r := .ifls) (by decide) (iflsValue_defined s.params)
  obtain ⟨t₄, t₅, e₄, e₅, k₅⟩ := recommit_enable_leaves k₃ rfl (regMapOk_of_paramsOk hp) hfen
  have hrun : t₅.drx.run = false :=
    ((halted_regWrite _ _).ok e₅).stays (((halted_recommit _).ok e₄).stays
      (((halted_regWrite _ _).ok e₃).stays (((halted_regWrite _ _).ok e₂).stays
        (((halted_regWrite _ _).ok e₁).stays hi.drx.1))))
  obtain ⟨t₆, e₆, k₆⟩ := openMode_leaves k₅ rfl hp hrun rfl
  refine ⟨t₆.setPort fun q => { q with life := .running }, ?_, k₆.setPort _ k₆.channels⟩
  rw [startup_eq, theState_bind, if_neg hl, modifyPort_bind, op_bind_ok e₁, op_bind_ok e₂, op_bind_ok e₃,
    op_bind_ok e₄]
  exact (op_bind_ok e₅).trans (op_bind_ok e₆)

end startup

/-- Settles O49: `State.startedUp` is the state of the statement, in each mode and with or without a
commitment. -/
theorem startupResult : Obligations.StartupResult := by
  intro s hl hp hi hfen m
  obtain ⟨t, hrun, ht⟩ := startup_leaves hl hp hi hfen
  refine ⟨_, performUnit_ok hrun, ?_⟩
  have hreply := ht.reply (.result [])
  unfold State.startedUp State.opened at hreply
  cases hm : s.params.mode <;> cases hcom : s.port.committed <;>
    simp only [State.setUart_params, State.setPort_params, hm, hcom] at hreply <;> exact hreply

/-! ### SHUTDOWN under any environment (45_port_control R204, 70_reset_and_hazards R234) -/

/-- No environment step can move the transmit channel. -/
def TxStill (s : State) : Prop := s.params.mode = .poll ∨ s.dtx.run = false

/-- No environment step can move the receive channel. -/
def RxStill (s : State) : Prop := s.params.mode = .poll ∨ s.drx.run = false

/-- `Leaves` for a block that stops its channels: they need be sound in dma mode only, since none moves in
poll mode, and the flags of a channel that cannot move are those of `t0`. -/
structure Closing (s t t0 : State) : Prop where
  view : viewOf t = viewOf t0
  safe : EnvSafe t
  memory : sameOutsideSlots t0 t
  quiet : s.gaps = [] → t = t0
  dtx : TxStill t0 → t.dtx.run = t0.dtx.run ∧ t.dtx.done = t0.dtx.done
  drx : RxStill t0 → t.drx.run = t0.drx.run ∧ t.drx.done = t0.drx.done

section closing

variable {s t t0 : State}

theorem Closing.start (h : EnvSafe s) : Closing s s s :=
  ⟨rfl, h, fun _ _ => rfl, fun _ => rfl, fun _ => ⟨rfl, rfl⟩, fun _ => ⟨rfl, rfl⟩⟩

/-- One gap: in poll mode no channel moves, in dma mode none that does not run. -/
theorem gap_closing (h : EnvSafe s) : ∃ t, gap s = .ok () t ∧ Closing s t s := by
  cases hm : s.params.mode with
  | poll =>
    obtain ⟨t, hgap, ht, -⟩ := gap_poll hm
    refine ⟨t, hgap, ht.view, .of_poll (by rw [viewOf_params ht.view]; exact hm),
      fun _ _ => by rw [ht.mem], fun hq => ?_, fun _ => by rw [ht.dtx]; exact ⟨rfl, rfl⟩,
      fun _ => by rw [ht.drx]; exact ⟨rfl, rfl⟩⟩
    rw [gap_quiet hq] at hgap
    cases hgap
    rfl
  | dma =>
    obtain ⟨t, hgap, ht⟩ := gap_leaves (h hm)
    refine ⟨t, hgap, ht.view, fun _ => ht.channels, ht.memory, ht.quiet, fun hstill => ?_, fun hstill => ?_⟩
    · rw [txHalted_gap.ok hgap (hstill.resolve_left (by simp [hm]))]
      exact ⟨rfl, rfl⟩
    · rw [(captures_gap.ok hgap).halted (hstill.resolve_left (by simp [hm]))]
      exact ⟨rfl, rfl⟩

/-- The environment steps before the next primitive keep `Closing` (20_memory R81). -/
theorem Closing.gap (h : Closing s t t0) (hq : t0.gaps = s.gaps) :
    ∃ u, gap t = .ok () u ∧ Closing s u t0 := by
  obtain ⟨u, hgap, hu⟩ := gap_closing h.safe
  have hparams := viewOf_params h.view
  refine ⟨u, hgap, hu.view.trans h.view, hu.safe, fun a ha => ?_, fun hs => ?_, fun hstill => ?_,
    fun hstill => ?_⟩
  · exact (hu.memory a (by rw [hparams]; exact ha)).trans (h.memory a ha)
  · obtain rfl := h.quiet hs
    exact hu.quiet (hq.trans hs)
  · obtain ⟨hrun, hdone⟩ := h.dtx hstill
    obtain ⟨hrun', hdone'⟩ := hu.dtx (by rw [TxStill, hparams, hrun]; exact hstill)
    exact ⟨hrun'.trans hrun, hdone'.trans hdone⟩
  · obtain ⟨hrun, hdone⟩ := h.drx hstill
    obtain ⟨hrun', hdone'⟩ := hu.drx (by rw [RxStill, hparams, hrun]; exact hstill)
    exact ⟨hrun'.trans hrun, hdone'.trans hdone⟩

theorem viewOf_setUart (h : viewOf t = viewOf t0) {f : Uart → Uart}
    (hf : ∀ u w : Uart, regsOf u = regsOf w → regsOf (f u) = regsOf (f w)) :
    viewOf (t.setUart f) = viewOf (t0.setUart f) := by
  have hregs := hf _ _ (viewOf_regs h)
  simp only [viewOf, View.mk.injEq] at h ⊢
  obtain ⟨hparams, hport, -, hrest⟩ := h
  exact ⟨hparams, hport, hregs, hrest⟩

theorem Closing.regWrite (h : Closing s t t0) (hq : t0.gaps = s.gaps) {r : Reg} {v : Word}
    (hr : r ∈ [Reg.ctl, .ifls, .im, .icr, .dmactl]) (hv : v &&& definedMask t0.params.regMap r = v) :
    ∃ u, Machine.regWrite r v t = .ok () u ∧ Closing s u (t0.setUart (Uart.stored r v)) := by
  obtain ⟨u, hgap, hu⟩ := h.gap hq
  refine ⟨u.setUart (Uart.stored r v), ?_, { hu with
    view := viewOf_setUart hu.view (regsOf_stored r v), quiet := fun hs => by rw [hu.quiet hs] }⟩
  rw [regWrite_eq, hgap]
  exact storeReg_stored hr (by rw [viewOf_params hu.view]; exact hv)

theorem Closing.stopTx (h : Closing s t t0) (hq : t0.gaps = s.gaps) : ∃ u, dmaStopTx t = .ok () u
    ∧ Closing s u (t0.setDtx fun d => { d with run := false, done := false }) := by
  obtain ⟨u, hgap, hu⟩ := h.gap hq
  exact ⟨_, dmaStopTx_run hgap, { hu with
    safe := fun hm => (channelsOk_iff _).mpr ⟨(by cases ·), ((channelsOk_iff u).mp (hu.safe hm)).2⟩
    quiet := fun hs => by rw [hu.quiet hs]
    dtx := fun _ => ⟨rfl, rfl⟩ }⟩

theorem Closing.stopRx (h : Closing s t t0) (hq : t0.gaps = s.gaps) : ∃ u, dmaStopRx t = .ok () u
    ∧ Closing s u (t0.setDrx fun d => { d with run := false, done := false }) := by
  obtain ⟨u, hgap, hu⟩ := h.gap hq
  exact ⟨_, dmaStopRx_run hgap, { hu with
    safe := fun hm => (channelsOk_iff _).mpr ⟨((channelsOk_iff u).mp (hu.safe hm)).1, (by cases ·)⟩
    quiet := fun hs => by rw [hu.quiet hs]
    drx := fun _ => ⟨rfl, rfl⟩ }⟩

/-- Without a receive channel in use the record may change at will, the landing slot too. -/
theorem Closing.setPort (h : Closing s t t0) (hstill : RxStill t0) (f : Port → Port) :
    Closing s (t.setPort f) (t0.setPort f) :=
  { h with
    view := viewOf_setPort h.view f
    safe := fun hm => (channelsOk_iff _).mpr ⟨((channelsOk_iff t).mp (h.safe hm)).1, fun hrun => by
      have hmode : t0.params.mode = .dma := by rw [← viewOf_params h.view]; exact hm
      have hstopped : t.drx.run = false :=
        (h.drx hstill).1.trans (hstill.resolve_left (by simp [hmode]))
      exact absurd hrun (by simp [hstopped])⟩
    quiet := fun hs => by rw [h.quiet hs] }

/-- Both channels stopped in dma mode, and their requests disabled (R204). -/
def State.channelsClosed (s : State) : State :=
  ((s.setDtx fun d => { d with
      run := if s.params.mode = .dma then false else d.run
      done := if s.params.mode = .dma then false else d.done }).setDrx fun d => { d with
        run := if s.params.mode = .dma then false else d.run
        done := if s.params.mode = .dma then false else d.done }).setUart fun u => { u with
          dmactl := if s.params.mode = .dma then 0 else u.dmactl }

theorem channelsClosed_dma {s : State} (hm : s.params.mode = .dma) : s.channelsClosed
    = ((s.setDtx fun d => { d with run := false, done := false }).setDrx fun d =>
        { d with run := false, done := false }).setUart (Uart.stored .dmactl 0) := by
  simp only [State.channelsClosed, if_pos hm]
  rfl

theorem channelsClosed_poll {s : State} (hm : s.params.mode = .poll) : s.channelsClosed = s := by
  have hno : ¬ s.params.mode = .dma := by simp [hm]
  simp only [State.channelsClosed, if_neg hno]
  rfl

theorem channelsClosed_still (s : State) : TxStill s.channelsClosed ∧ RxStill s.channelsClosed := by
  cases hm : s.params.mode with
  | poll => exact ⟨.inl hm, .inl hm⟩
  | dma =>
    rw [channelsClosed_dma hm]
    exact ⟨.inr rfl, .inr rfl⟩

theorem Closing.closeMode (h : Closing s t t0) (hq : t0.gaps = s.gaps) :
    ∃ u, Machine.closeMode t0.params t = .ok () u ∧ Closing s u t0.channelsClosed := by
  unfold Machine.closeMode
  cases hm : t0.params.mode with
  | poll =>
    rw [channelsClosed_poll hm]
    exact ⟨t, rfl, h⟩
  | dma =>
    obtain ⟨t₁, htx, h₁⟩ := h.stopTx hq
    obtain ⟨t₂, hrx, h₂⟩ := h₁.stopRx hq
    obtain ⟨t₃, hdma, h₃⟩ := h₂.regWrite hq (r := .dmactl) (v := 0) (by decide) BitVec.zero_and
    rw [channelsClosed_dma hm]
    exact ⟨t₃, (op_bind_ok htx).trans ((op_bind_ok hrx).trans hdma), h₃⟩

/-- The state SHUTDOWN leaves undisturbed before it writes `LCRH` (R204). -/
def State.tornDown (s : State) : State :=
  ((((s.setUart (Uart.stored .im 0)).setUart
    (Uart.stored .icr (icrAll s.params.regMap))).channelsClosed).setPort Port.idled).setUart
      (Uart.stored .ctl (ctlOff s.params.regMap))

section tornDown

variable (s : State)

@[simp] theorem channelsClosed_params : s.channelsClosed.params = s.params := rfl
@[simp] theorem channelsClosed_port : s.channelsClosed.port = s.port := rfl
@[simp] theorem channelsClosed_gaps : s.channelsClosed.gaps = s.gaps := rfl
@[simp] theorem channelsClosed_mem : s.channelsClosed.mem = s.mem := rfl
@[simp] theorem channelsClosed_uart : s.channelsClosed.uart
    = { s.uart with dmactl := if s.params.mode = .dma then 0 else s.uart.dmactl } := rfl

@[simp] theorem tornDown_params : s.tornDown.params = s.params := by simp [State.tornDown]
@[simp] theorem tornDown_gaps : s.tornDown.gaps = s.gaps := by simp [State.tornDown]
@[simp] theorem tornDown_mem : s.tornDown.mem = s.mem := by simp [State.tornDown]
@[simp] theorem tornDown_uart : s.tornDown.uart = { s.uart with
    im := 0, ris := s.uart.ris &&& ~~~ icrAll s.params.regMap, ctl := ctlOff s.params.regMap
    dmactl := if s.params.mode = .dma then 0 else s.uart.dmactl } := by
  simp only [State.tornDown, State.setUart_uart, State.setPort_uart, channelsClosed_uart, Uart.stored]
  rfl

theorem tornDown_dtx : s.tornDown.dtx = { s.dtx with
    run := if s.params.mode = .dma then false else s.dtx.run
    done := if s.params.mode = .dma then false else s.dtx.done } := rfl
theorem tornDown_drx : s.tornDown.drx = { s.drx with
    run := if s.params.mode = .dma then false else s.drx.run
    done := if s.params.mode = .dma then false else s.drx.done } := rfl

end tornDown

theorem tornDown_still (s : State) : TxStill s.tornDown ∧ RxStill s.tornDown := by
  simp only [TxStill, RxStill, tornDown_params, tornDown_dtx, tornDown_drx]
  cases s.params.mode with
  | poll => exact ⟨.inl rfl, .inl rfl⟩
  | dma => exact ⟨.inr rfl, .inr rfl⟩

/-- The line-control word SHUTDOWN writes: as read, without `BRK` and `FEN` (R204). -/
def State.stoppedLcrh (s : State) : Word :=
  withBit (withBit (s.uart.lcrh &&& definedMask s.params.regMap .lcrh) s.params.regMap.brk false)
    s.params.regMap.fen false

/-- What `LCRH` then holds depends on what it held only: the bits outside the layout are not stored. -/
theorem stoppedLcrh_stored (s : State) : s.stoppedLcrh &&& definedMask s.params.regMap .lcrh
    = withBit (withBit s.uart.lcrh s.params.regMap.brk false) s.params.regMap.fen false
      &&& definedMask s.params.regMap .lcrh := by
  rw [State.stoppedLcrh, ← withBit_and_mask, withBit_and_mask s.uart.lcrh, withBit_and_mask]

/-- The state after the write of `LCRH` (20_memory R65): the FIFOs hold `xs` and `ys`. -/
def State.fallen (s : State) (xs : List Byte) (ys : List (Byte × Status)) (n : Nat) (w : Word) : State :=
  { s with uart := { s.uart.withLcrh s.params.regMap w with txf := xs, rxf := ys }, draws := n }

section fallen

variable (s : State) (xs : List Byte) (ys : List (Byte × Status)) (n : Nat) (w : Word)

theorem viewOf_fallen :
    viewOf (s.fallen xs ys n w) = viewOf (s.setUart (Uart.withLcrh s.params.regMap w)) := rfl

@[simp] theorem fallen_uart :
    (s.fallen xs ys n w).uart = { s.uart.withLcrh s.params.regMap w with txf := xs, rxf := ys } := rfl
@[simp] theorem fallen_dtx : (s.fallen xs ys n w).dtx = s.dtx := rfl
@[simp] theorem fallen_drx : (s.fallen xs ys n w).drx = s.drx := rfl
@[simp] theorem fallen_mem : (s.fallen xs ys n w).mem = s.mem := rfl

end fallen

/-- SHUTDOWN goes through under any environment, up to the fall of `FEN`, which takes from the FIFOs what
a draw says (R204). -/
theorem shutdown_closing (hl : s.port.life = .running) (hs : EnvSafe s) :
    ∃ t xs ys n, Closing s t s.tornDown ∧ xs.Sublist t.uart.txf ∧ ys.Sublist t.uart.rxf
      ∧ shutdown s = .ok () ((t.fallen xs ys n s.stoppedLcrh).setPort fun q =>
        { q with head := 0, tail := 0, life := .stopped }) := by
  obtain ⟨t₁, e₁, k₁⟩ := (Closing.start hs).regWrite rfl (r := .im) (v := 0) (by decide) BitVec.zero_and
  obtain ⟨t₂, e₂, k₂⟩ := k₁.regWrite rfl (r := .icr) (by decide)
    (BitVec.and_self (x := icrAll s.params.regMap))
  obtain ⟨t₃, hclose, k₃⟩ := k₂.closeMode (by simp)
  have e₃ : closeMode s.params t₂ = .ok () t₃ := by simpa using hclose
  obtain ⟨t₄, e₄, k₄⟩ := (k₃.setPort (channelsClosed_still _).2 Port.idled).regWrite (by simp) (r := .ctl)
    (by decide) (ctlOff_defined s.params.regMap)
  obtain ⟨t₅, hread, k₅⟩ := k₄.gap (by simp)
  obtain ⟨t₆, hgap, k₆⟩ := k₅.gap (by simp)
  obtain ⟨xs, ys, n, hstore, hxs, hys, -⟩ := storeLcrh_run s.stoppedLcrh t₆
  have hlcrh : t₅.regValue .lcrh &&& definedMask t₅.params.regMap .lcrh
      = s.uart.lcrh &&& definedMask s.params.regMap .lcrh := by
    rw [regValue_of_view k₅.view (by decide), viewOf_params k₅.view]
    rfl
  have e₅ : rd .lcrh t₄ = .ok (s.uart.lcrh &&& definedMask s.params.regMap .lcrh) t₅ := by
    rw [rd_eq, hread, ← hlcrh]
  have e₆ : regWrite .lcrh s.stoppedLcrh t₅ = .ok () (t₆.fallen xs ys n s.stoppedLcrh) := by
    rw [regWrite_eq, hgap]
    exact hstore
  refine ⟨t₆, xs, ys, n, k₆, hxs, hys, ?_⟩
  rw [shutdown_eq, op_bind_ok (requireRunning_of_running hl), theState_bind, op_bind_ok e₁, op_bind_ok e₂,
    op_bind_ok e₃, modifyPort_bind, op_bind_ok e₄, op_bind_ok e₅]
  exact op_bind_ok e₆

/-- In dma mode both channels end stopped and acknowledged (20_memory R71). -/
theorem Closing.channels_stopped (h : Closing s t s.tornDown) (hm : s.params.mode = .dma) :
    t.dtx.run = false ∧ t.dtx.done = false ∧ t.drx.run = false ∧ t.drx.done = false := by
  obtain ⟨hstillTx, hstillRx⟩ := tornDown_still s
  obtain ⟨htxRun, htxDone⟩ := h.dtx hstillTx
  obtain ⟨hrxRun, hrxDone⟩ := h.drx hstillRx
  simp only [tornDown_dtx, tornDown_drx, if_pos hm] at htxRun htxDone hrxRun hrxDone
  exact ⟨htxRun, htxDone, hrxRun, hrxDone⟩

/-- In poll mode a channel that had signalled nothing signals nothing after. -/
theorem Closing.not_done (h : Closing s t s.tornDown)
    (hdone : s.params.mode = .dma ∨ (s.dtx.done = false ∧ s.drx.done = false)) :
    t.dtx.done = false ∧ t.drx.done = false := by
  by_cases hm : s.params.mode = .dma
  · obtain ⟨-, htx, -, hrx⟩ := h.channels_stopped hm
    exact ⟨htx, hrx⟩
  · obtain ⟨hstillTx, hstillRx⟩ := tornDown_still s
    rw [(h.dtx hstillTx).2, (h.drx hstillRx).2, tornDown_dtx, tornDown_drx]
    simp only [if_neg hm]
    exact hdone.resolve_left hm

end closing

/-- What the environment cannot change of SHUTDOWN's outcome, written out. -/
theorem viewOf_stopped (s : State) :
    viewOf (((s.tornDown.setUart (Uart.withLcrh s.params.regMap s.stoppedLcrh)).setPort fun q => { q with
        head := 0, tail := 0, life := .stopped }).reply (.result []))
      = viewOf (((s.setUart fun u => { u with
          im := 0, ctl := ctlOff s.params.regMap
          dmactl := if s.params.mode = .dma then 0 else u.dmactl
          lcrh := withBit (withBit u.lcrh s.params.regMap.brk false) s.params.regMap.fen false
            &&& definedMask s.params.regMap .lcrh
          ibrdAct := u.ibrdPend, fbrdAct := u.fbrdPend }).setPort fun q => { q with
          life := .stopped, head := 0, tail := 0, txBusy := false, txLen := 0, rxBusy := false
          task := none, recheck := false, landing := .a }).reply (.result [])) := by
  simp [viewOf, regsOf, State.tornDown, State.channelsClosed, Uart.stored, Port.idled, Uart.withLcrh,
    stoppedLcrh_stored]
  rfl

/-- Settles O50: the view, the flags and memory are those of the torn-down state; no source is enabled, and
the fall of `FEN` leaves sub-lists. -/
theorem shutdownResult : Obligations.ShutdownResult := by
  intro s hl hc m
  obtain ⟨t, xs, ys, n, ht, hxs, hys, hrun⟩ := shutdown_closing hl fun _ => hc
  have hparams : t.params = s.params := by rw [viewOf_params ht.view, tornDown_params]
  have hview : viewOf (t.fallen xs ys n s.stoppedLcrh)
      = viewOf (s.tornDown.setUart (Uart.withLcrh s.params.regMap s.stoppedLcrh)) := by
    rw [viewOf_fallen, hparams]
    exact viewOf_setUart ht.view (regs_congr
      (fun r => { r with lcrh := _, ibrdAct := r.ibrdPend, fbrdAct := r.fbrdPend }) fun _ => rfl)
  refine ⟨_, performUnit_ok hrun, ?_, ht.channels_stopped, fun hdone => ?_, fun a ha => ?_, fun hq => ?_⟩
  · rw [viewOf_reply (viewOf_setPort hview _), viewOf_stopped]
  · obtain ⟨htx, hrx⟩ := ht.not_done hdone
    have him : t.uart.im = 0 := by
      have hregs := congrArg Regs.im (viewOf_regs ht.view)
      rwa [tornDown_uart] at hregs
    simp [State.irqLine, State.misValue, Uart.withLcrh, him, htx, hrx]
  · rw [State.reply_mem, State.setPort_mem, fallen_mem, ← tornDown_mem s]
    exact ht.memory a (by rwa [tornDown_params])
  · rw [ht.quiet hq, tornDown_uart] at hxs hys
    rw [ht.quiet hq]
    exact ⟨by simp [Uart.withLcrh, m], by simp [Uart.withLcrh], hxs, hys, by simp⟩

end Sys2Proof.Machine
